-- ==== Sys2Proof/Word.lean ====
section
/-! DEFINITION. The word types of the links and the fixed-size tables of the part. -/

namespace Sys2Proof

/-- A byte of a message or of a link word. -/
abbrev Byte := BitVec 8
/-- A two-byte field. -/
abbrev Half := BitVec 16
/-- A four-byte field. -/
abbrev Word := BitVec 32
/-- A six-byte field (the parameter of SET_TALLY). -/
abbrev Six := BitVec 48

/-- A fixed number of like things: routes, circuits, ports, places. -/
abbrev Table (α : Type) (n : Nat) := Vector α n

/-- The table with entry `i` replaced. -/
def upd {α : Type} {n : Nat} (t : Table α n) (i : Fin n) (a : α) : Table α n :=
  t.set i.val a i.isLt

/-- The table whose entry `i` is `f i`. -/
def tab {α : Type} {n : Nat} (f : Fin n → α) : Table α n := ⟨⟨List.ofFn f⟩, by simp⟩

/-- The table with the same entry everywhere. -/
def same {α : Type} (n : Nat) (a : α) : Table α n := Vector.replicate n a

end Sys2Proof
end

