-- ==== Sys2Proof/Syntax.lean ====
section
/-! DEFINITION. The commands of the part: one constructor of `Instr` for each row of spec/opcode_table.json. -/

namespace Sys2Proof

/-- The fields of a BOOK body (Table 11-8), as they stand on the link. -/
structure BookFields where
  id : Half
  account : Byte
  tariff : Byte
  handoff : Byte
  count : Byte
  feed0 : Byte
  feed1 : Byte
  feed2 : Byte
  feed3 : Byte
  s0 : Word
  e0 : Word
  trigger : Byte
  cueLine : Byte
  cueEdge : Byte
  cueLead : Half
  startRule : Byte
  runOn : Byte
  quantum : Half
  limit : Byte
  deriving DecidableEq, Repr

/-- The fields of a SET_TARIFF body (R159, in the order of Table 9-2), as they stand on the link. -/
structure TariffFields where
  tariff : Byte
  granule : Half
  reservation : Word
  base : Half
  overtime : Half
  swapFee : Word
  credit : Half
  grace : Half
  basis : Byte
  deriving DecidableEq, Repr

/-- A request as the request queue holds it (R189, R190): the request kinds of Table 11-6 with the fields of their
bodies, a kind that is not of the table, and a body of the wrong length. -/
inductive Request where
  | ident
  | status
  | reset (scope : Byte)
  | setTime (second : Word)
  | readTime
  | setReference (source rate : Byte) (frameMax : Half)
  | setRoute (route : Byte) (failHold clearHold degThr clrThr : Half)
  | setWorks (route : Byte) (start stop : Word) (force : Byte)
  | readHealth (route : Byte)
  | drill (route : Byte) (delay duration : Half)
  | drillAbort (route : Byte)
  | setCircuit (circuit mode revertive degSwitch : Byte) (guardTime wtrSecs : Half)
  | force (circuit target : Byte)
  | lockout (circuit : Byte)
  | clear (circuit : Byte)
  | readCircuit (circuit : Byte)
  | setPort (port setting : Byte)
  | setHandoff (handoff account count port0 port1 port2 port3 maskPresent : Byte) (mask : Half)
  | setAccount (account permitted : Byte)
  | deleteEntry (kind index : Byte)
  | setMargin (margin : Half)
  | book (fields : BookFields)
  | amend (id : Half) (newEnd : Word)
  | cancel (id : Half)
  | endBooking (id : Half)
  | swap (id : Half) (slot feed : Byte)
  | readBooking (id : Half)
  | listPort (port start : Byte)
  | patch (port route : Byte)
  | unpatch (port : Byte)
  | readPort (port : Byte)
  | setConfirm (timeout : Byte)
  | readMeter (id : Half)
  | setTariff (fields : TariffFields)
  | settlePeek
  | settleRelease (id : Half)
  | readAccount (account : Byte)
  | clearAccount (account : Byte)
  | setNotices (health circuit booking reference take settlement : Byte)
  | setTally (line source : Byte) (param : Six) (invert : Byte)
  | setCue (line enable invert : Byte)
  | unknownKind (kind : Byte)
  | badLength (kind : Byte)
  deriving DecidableEq, Repr

/-- The commands. The events of the links, pins, clock and timers come first, then the requests of Table 11-6 with
their tags. -/
inductive Instr where
  | powerOnReset (straps : Fin 4)
  | millisecondTick
  | secondBoundary
  | internalFrameInstant
  /-- `offset`: oscillator counts since the latest millisecond tick. -/
  | referencePulse (offset : Nat)
  | lossLimitExpiry
  | drillActivation (circuit : Fin 24)
  | drillEnd (circuit : Fin 24)
  | markerPulseEnd
  /-- `group`: the bytes of one group on the status link (Table 11-11). -/
  | statusWord (group : List Byte)
  | cardLoss (card : Fin 6)
  | failTimerExpiry (route : Fin 48)
  | clearTimerExpiry (route : Fin 48)
  | blockClose
  | worksEdge
  | guardExpiry (circuit : Fin 24)
  | wtrExpiry (circuit : Fin 24)
  | armEntry (record : Fin 192)
  | startEntry (record : Fin 192)
  | endEntry (record : Fin 192)
  | cueInputChange (line : Fin 4) (level : Bool)
  | cueEdge (line : Fin 4)
  /-- `group`: the bytes of one group from the fabric on the matrix link (Table 11-11). -/
  | confirm (group : List Byte)
  | confirmTimerExpiry
  | gapTimerExpiry
  | frameReceived
  /-- A good frame whose kind is `kind`; the row is for a kind that is not of Table 11-6. -/
  | unknownKind (tag kind : Byte) (body : List Byte)
  | transmitterFree
  | resetAll
  | resetTraffic
  | ident (tag : Byte)
  | status (tag : Byte)
  | reset (tag scope : Byte)
  | setTime (tag : Byte) (second : Word)
  | readTime (tag : Byte)
  | setReference (tag source rate : Byte) (frameMax : Half)
  | setRoute (tag route : Byte) (failHold clearHold degThr clrThr : Half)
  | setWorks (tag route : Byte) (start stop : Word) (force : Byte)
  | readHealth (tag route : Byte)
  | drill (tag route : Byte) (delay duration : Half)
  | drillAbort (tag route : Byte)
  | setCircuit (tag circuit mode revertive degSwitch : Byte) (guardTime wtrSecs : Half)
  | force (tag circuit target : Byte)
  | lockout (tag circuit : Byte)
  | clear (tag circuit : Byte)
  | readCircuit (tag circuit : Byte)
  | setPort (tag port setting : Byte)
  | setHandoff (tag handoff account count port0 port1 port2 port3 maskPresent : Byte) (mask : Half)
  | setAccount (tag account permitted : Byte)
  | deleteEntry (tag kind index : Byte)
  | setMargin (tag : Byte) (margin : Half)
  | book (tag : Byte) (fields : BookFields)
  | amend (tag : Byte) (id : Half) (newEnd : Word)
  | cancel (tag : Byte) (id : Half)
  | endBooking (tag : Byte) (id : Half)
  | swap (tag : Byte) (id : Half) (slot feed : Byte)
  | readBooking (tag : Byte) (id : Half)
  | listPort (tag port start : Byte)
  | patch (tag port route : Byte)
  | unpatch (tag port : Byte)
  | readPort (tag port : Byte)
  | setConfirm (tag timeout : Byte)
  | readMeter (tag : Byte) (id : Half)
  | setTariff (tag : Byte) (fields : TariffFields)
  | settlePeek (tag : Byte)
  | settleRelease (tag : Byte) (id : Half)
  | readAccount (tag account : Byte)
  | clearAccount (tag account : Byte)
  | setNotices (tag health circuit booking reference take settlement : Byte)
  | setTally (tag line source : Byte) (param : Six) (invert : Byte)
  | setCue (tag line enable invert : Byte)
  | byteReceived (byte : Byte)
  deriving DecidableEq, Repr

end Sys2Proof
end

