-- ==== Sys2Proof/Decode.lean ====
section
/-! DEFINITION. Reading a request out of a frame's kind and body (Tables 11-6 and 11-8), and the host's table question. -/

namespace Sys2Proof

/-- The big-endian number that some bytes spell (2.1 of the scope file, R193). -/
def bytesToNat (bytes : List Byte) : Nat := bytes.foldl (fun acc b => 256 * acc + b.toNat) 0

/-- The field of `n` bytes at an offset of a body, `w` bits wide. -/
def field (body : List Byte) (offset n w : Nat) : BitVec w := BitVec.ofNat w (bytesToNat ((body.drop offset).take n))

/-- The byte at an offset of a body. -/
def byteAt (body : List Byte) (offset : Nat) : Byte := field body offset 1 8
/-- The two-byte field at an offset of a body. -/
def halfAt (body : List Byte) (offset : Nat) : Half := field body offset 2 16
/-- The four-byte field at an offset of a body. -/
def wordAt (body : List Byte) (offset : Nat) : Word := field body offset 4 32

/-- The fields of a BOOK body (Table 11-8). -/
def bookFields (b : List Byte) : BookFields :=
  { id := halfAt b 0, account := byteAt b 2, tariff := byteAt b 3, handoff := byteAt b 4, count := byteAt b 5,
    feed0 := byteAt b 6, feed1 := byteAt b 7, feed2 := byteAt b 8, feed3 := byteAt b 9, s0 := wordAt b 10,
    e0 := wordAt b 14, trigger := byteAt b 18, cueLine := byteAt b 19, cueEdge := byteAt b 20, cueLead := halfAt b 21,
    startRule := byteAt b 23, runOn := byteAt b 24, quantum := halfAt b 25, limit := byteAt b 27 }

/-- The fields of a SET_TARIFF body, in the order of R159. DEDUCED widths (log entry 6). -/
def tariffFields (b : List Byte) : TariffFields :=
  { tariff := byteAt b 0, granule := halfAt b 1, reservation := wordAt b 3, base := halfAt b 7, overtime := halfAt b 9,
    swapFee := wordAt b 11, credit := halfAt b 15, grace := halfAt b 17, basis := byteAt b 19 }

/-- The body length of a request kind and the request its body spells; none for a kind that is not of Table 11-6. The
fields stand in the order of the request's rule, at the widths that fill the body, and the mask-present byte of
SET_HANDOFF stands before its mask. DEDUCED (log entry 6). -/
def requestKind (kind : Byte) (b : List Byte) : Option (Nat × Request) :=
  match kind.toNat with
  | 0x01 => some (0, .ident)
  | 0x02 => some (0, .status)
  | 0x03 => some (1, .reset (byteAt b 0))
  | 0x10 => some (4, .setTime (wordAt b 0))
  | 0x11 => some (0, .readTime)
  | 0x12 => some (4, .setReference (byteAt b 0) (byteAt b 1) (halfAt b 2))
  | 0x20 => some (9, .setRoute (byteAt b 0) (halfAt b 1) (halfAt b 3) (halfAt b 5) (halfAt b 7))
  | 0x21 => some (10, .setWorks (byteAt b 0) (wordAt b 1) (wordAt b 5) (byteAt b 9))
  | 0x22 => some (1, .readHealth (byteAt b 0))
  | 0x23 => some (5, .drill (byteAt b 0) (halfAt b 1) (halfAt b 3))
  | 0x24 => some (1, .drillAbort (byteAt b 0))
  | 0x30 => some (8, .setCircuit (byteAt b 0) (byteAt b 1) (byteAt b 2) (byteAt b 3) (halfAt b 4) (halfAt b 6))
  | 0x31 => some (2, .force (byteAt b 0) (byteAt b 1))
  | 0x32 => some (1, .lockout (byteAt b 0))
  | 0x33 => some (1, .clear (byteAt b 0))
  | 0x34 => some (1, .readCircuit (byteAt b 0))
  | 0x40 => some (2, .setPort (byteAt b 0) (byteAt b 1))
  | 0x41 => some (10, .setHandoff (byteAt b 0) (byteAt b 1) (byteAt b 2) (byteAt b 3) (byteAt b 4) (byteAt b 5)
      (byteAt b 6) (byteAt b 7) (halfAt b 8))
  | 0x42 => some (2, .setAccount (byteAt b 0) (byteAt b 1))
  | 0x43 => some (2, .deleteEntry (byteAt b 0) (byteAt b 1))
  | 0x44 => some (2, .setMargin (halfAt b 0))
  | 0x50 => some (28, .book (bookFields b))
  | 0x51 => some (6, .amend (halfAt b 0) (wordAt b 2))
  | 0x52 => some (2, .cancel (halfAt b 0))
  | 0x53 => some (2, .endBooking (halfAt b 0))
  | 0x54 => some (4, .swap (halfAt b 0) (byteAt b 2) (byteAt b 3))
  | 0x55 => some (2, .readBooking (halfAt b 0))
  | 0x56 => some (2, .listPort (byteAt b 0) (byteAt b 1))
  | 0x60 => some (2, .patch (byteAt b 0) (byteAt b 1))
  | 0x61 => some (1, .unpatch (byteAt b 0))
  | 0x62 => some (1, .readPort (byteAt b 0))
  | 0x63 => some (1, .setConfirm (byteAt b 0))
  | 0x70 => some (2, .readMeter (halfAt b 0))
  | 0x71 => some (20, .setTariff (tariffFields b))
  | 0x72 => some (0, .settlePeek)
  | 0x73 => some (2, .settleRelease (halfAt b 0))
  | 0x74 => some (1, .readAccount (byteAt b 0))
  | 0x75 => some (1, .clearAccount (byteAt b 0))
  | 0x76 => some (6, .setNotices (byteAt b 0) (byteAt b 1) (byteAt b 2) (byteAt b 3) (byteAt b 4) (byteAt b 5))
  | 0x77 => some (9, .setTally (byteAt b 0) (byteAt b 1) (field b 2 6 48) (byteAt b 8))
  | 0x78 => some (3, .setCue (byteAt b 0) (byteAt b 1) (byteAt b 2))
  | _ => none

/-- The request that a good frame carries, as its service finds it (R190). -/
def parseRequest (kind : Byte) (body : List Byte) : Request :=
  match requestKind kind body with
  | none => .unknownKind kind
  | some (len, r) => if body.length = len then r else .badLength kind

/-- The kind code of a request (Table 11-6). -/
def Request.kind : Request → Byte
  | .ident => 0x01
  | .status => 0x02
  | .reset _ => 0x03
  | .setTime _ => 0x10
  | .readTime => 0x11
  | .setReference .. => 0x12
  | .setRoute .. => 0x20
  | .setWorks .. => 0x21
  | .readHealth _ => 0x22
  | .drill .. => 0x23
  | .drillAbort _ => 0x24
  | .setCircuit .. => 0x30
  | .force .. => 0x31
  | .lockout _ => 0x32
  | .clear _ => 0x33
  | .readCircuit _ => 0x34
  | .setPort .. => 0x40
  | .setHandoff .. => 0x41
  | .setAccount .. => 0x42
  | .deleteEntry .. => 0x43
  | .setMargin _ => 0x44
  | .book _ => 0x50
  | .amend .. => 0x51
  | .cancel _ => 0x52
  | .endBooking _ => 0x53
  | .swap .. => 0x54
  | .readBooking _ => 0x55
  | .listPort .. => 0x56
  | .patch .. => 0x60
  | .unpatch _ => 0x61
  | .readPort _ => 0x62
  | .setConfirm _ => 0x63
  | .readMeter _ => 0x70
  | .setTariff _ => 0x71
  | .settlePeek => 0x72
  | .settleRelease _ => 0x73
  | .readAccount _ => 0x74
  | .clearAccount _ => 0x75
  | .setNotices .. => 0x76
  | .setTally .. => 0x77
  | .setCue .. => 0x78
  | .unknownKind k => k
  | .badLength k => k

/-- The kind code of a request's reply (R191). -/
def Request.replyKind : Request → Byte
  | .unknownKind _ => 0x80
  | r => r.kind + 0x80

/-- The command that a word spells by the table's bits: the table gives no row any bits, so none (log entry 21). -/
def decodeTableWord (_nbits _w : Nat) : Option Instr := none

end Sys2Proof
end

