-- ==== Sys2Proof/Config.lean ====
section
/-! DEFINITION. What the manual leaves open. -/

namespace Sys2Proof.Config

/-- Which of two blocks takes one event first, where the manual lets either (R13, R34, R105, R106, R132, R179). A free
value: nothing fixes it, and nothing can be proved of it. `State.raceCount` is the argument (log entry 4). -/
opaque raceOrder : Nat → Bool

/-- What the stored cue lead field of a BOOK reply carries for a record that has none, under trigger TIME (Table 11-8).
A free value (log entry 7). -/
opaque absentLead : Half

end Sys2Proof.Config
end

