-- ==== Sys2Proof/Machine/State.lean ====
section
/-! DEFINITION. The state of the part, block by block, the messages it makes, and the state after power-on. -/

namespace Sys2Proof.Machine

/-! ### Named values (Table 11-7) -/

/-- Reference source (R9). -/
inductive Source where
  | internal | external
  deriving DecidableEq, Repr

/-- Reference states (Table 1-5). -/
inductive RefState where
  | free | seeking | locked | holdover
  deriving DecidableEq, Repr

/-- Route health (Table 2-3). -/
inductive Health where
  | ok | degraded | failed | works | drill
  deriving DecidableEq, Repr

/-- The two routes of a circuit: A is the even route, B the odd one. -/
inductive Side where
  | a | b
  deriving DecidableEq, Repr

/-- Circuit modes (R40). -/
inductive Mode where
  | pair | split
  deriving DecidableEq, Repr

/-- Selector states (Table 3-4). -/
inductive SelState where
  | selA | selB | wtr | forcedA | forcedB | lockout
  deriving DecidableEq, Repr

/-- Circuit reasons (Table 3-1). -/
inductive CircuitReason where
  | auto | wtrExpiry | force | forceDropped | clear | lockout
  deriving DecidableEq, Repr

/-- Booking states (Table 6-1). -/
inductive BookingState where
  | scheduled | armed | waiting | starting | live | runOn | ending | closing
  deriving DecidableEq, Repr

/-- Booking reasons and outcomes (Table 6-3). -/
inductive Reason where
  | cueWindow | timeStart | cueStart | feedsUnavailable | portOccupied | waitEnded | onAir | extended
  | completed | runOnLimit | overrunCut | endedEarly | noShow | cancelled
  deriving DecidableEq, Repr

/-- Booking triggers (Table 5-1). -/
inductive Trigger where
  | time | cue | timeOrCue
  deriving DecidableEq, Repr

/-- Cue edge settings, and the direction of an accepted edge (R103, R184). -/
inductive Edge where
  | rise | fall | both
  deriving DecidableEq, Repr

/-- Start rules (R104). -/
inductive StartRule where
  | allOrWait | asAvailable
  deriving DecidableEq, Repr

/-- Gate bases (R146). -/
inductive GateBasis where
  | all | any | flat
  deriving DecidableEq, Repr

/-- Meter phases (R144). -/
inductive MeterPhase where
  | notStarted | running | frozen
  deriving DecidableEq, Repr

/-- Tally sources (Table 10-3). -/
inductive TallySource where
  | off | routeOk | routeUsable | portOnAir | circuitOnB | allUsable | anyUnusable | marker | noticeWaiting | holdover
  deriving DecidableEq, Repr

/-- Kinds of a READY message (R180). -/
inductive ResetKind where
  | powerOn | resetAll | resetTraffic
  deriving DecidableEq, Repr

/-- Scopes of a RESET request (R196). -/
inductive Scope where
  | all | traffic
  deriving DecidableEq, Repr

/-- Reply statuses (Table 11-4), in the order of their codes. -/
inductive Status where
  | ok | unknownKind | badLength | badField | noSuch | exists_ | conflict | worksConflict | bookingConflict | noRoom
  | inUse | state | timeStep | busy
  deriving DecidableEq, Repr

/-- Kinds of directory entry that DELETE_ENTRY names (R66). -/
inductive EntryClass where
  | account | handoff | tariff
  deriving DecidableEq, Repr

/-- The three time-list entries of a record, in list order (R81). -/
inductive EntryKind where
  | arm | start | stop
  deriving DecidableEq, Repr

/-! ### TB -/

/-- The time base. Instants on the oscillator are counted from power-on. `lastMarker` is the instant of the last reference
marker, from which a change of rate measures (R8), or of the reset that none has followed yet (log entry 17). -/
structure TB where
  seconds : Nat
  sub : Nat
  elapsed : Nat
  source : Source
  rate : Fin 4
  frameMax : Nat
  refState : RefState
  qual : Nat
  prevPulse : Option Nat
  lastPulse : Nat
  frame : Nat
  genRestart : Nat
  lastMarker : Nat
  osc : Nat
  lastTick : Nat
  boundary : Option Nat
  deriving DecidableEq, Repr

/-! ### RMON -/

/-- The four settings of a route (Table 2-2). -/
structure RouteSettings where
  failHold : Nat
  clearHold : Nat
  degThr : Nat
  clrThr : Nat
  deriving DecidableEq, Repr

/-- The state RMON holds for a route (Table 2-1). -/
structure Route where
  bad : Bool
  failed : Bool
  failTimer : Option Nat
  clearTimer : Option Nat
  blockSum : Nat
  degraded : Bool
  settings : RouteSettings
  worksStart : Nat
  worksEnd : Nat
  worksActive : Bool
  effective : Health
  changeFrame : Nat
  reported : Health
  flaps : Nat
  deriving DecidableEq, Repr

/-- The phase of a drill: markers remaining, or the instant its duration expires (R31). -/
inductive DrillPhase where
  | countdown (remaining : Nat)
  | active (expiry : Nat)
  deriving DecidableEq, Repr

/-- The phase of a drill, as DRILL_ABORT reports it (R33). -/
inductive DrillPhaseName where
  | countdown | active
  deriving DecidableEq, Repr

/-- A drill record (R30). -/
structure Drill where
  side : Side
  phase : DrillPhase
  duration : Nat
  deriving DecidableEq, Repr

/-- The route monitor. A card is lost when it has no silence timer (R18). -/
structure RMON where
  cards : Table (Option Nat) 6
  routes : Table Route 48
  drills : Table (Option Drill) 24
  worksDue : Option Nat
  blockDue : Bool
  deriving DecidableEq, Repr

/-! ### PSEL -/

/-- The state PSEL holds for a circuit (Table 3-1). The circuit is in SPLIT when it has no selector state. -/
structure Circuit where
  selector : Option SelState
  revertive : Bool
  degSwitch : Bool
  guardTime : Nat
  wtrSecs : Nat
  guard : Option Nat
  wtr : Option Nat
  switchCount : Nat
  lastReason : CircuitReason
  changeFrame : Nat
  deriving DecidableEq, Repr

/-! ### DIR -/

/-- A delivery port's directory entry (Table 4-1). -/
structure DirPort where
  enabled : Bool
  handoff : Option (Fin 16)
  deriving DecidableEq, Repr

/-- An account: its permitted tariffs (bit t for tariff t) when defined, and its reference count. -/
structure Account where
  permitted : Option Byte
  refs : Nat
  deriving DecidableEq, Repr

/-- What a defined handoff holds (R65). -/
structure HandoffEntry where
  account : Fin 16
  members : List (Fin 32)
  mask : Half
  deriving DecidableEq, Repr

/-- A handoff: its entry when defined, and its reference count. -/
structure Handoff where
  entry : Option HandoffEntry
  refs : Nat
  deriving DecidableEq, Repr

/-- The directory. A port's reference count is the length of its timeline (R68, R79). -/
structure DIR where
  ports : Table DirPort 32
  accounts : Table Account 16
  handoffs : Table Handoff 16
  margin : Nat
  deriving DecidableEq, Repr

/-! ### MTR -/

/-- A meter set (Table 8-1). `gate` is true while the gate is open. -/
structure MeterSet where
  phase : MeterPhase
  copies : List (Option Bool)
  gate : Bool
  overtime : Bool
  l : Nat
  s : Nat
  o : Nat
  t : Nat
  oc : Nat
  episode : Option Nat
  episodes : Nat
  longest : Nat
  nt : Nat
  np : Nat
  suspectSeen : Bool
  deriving DecidableEq, Repr

/-! ### STL -/

/-- The stored fields of a tariff (Table 9-2). -/
structure TariffTerms where
  granule : Nat
  reservation : Nat
  base : Nat
  overtime : Nat
  swapFee : Nat
  credit : Nat
  grace : Nat
  basis : GateBasis
  deriving DecidableEq, Repr

/-- A tariff entry. -/
structure Tariff where
  terms : TariffTerms
  valid : Bool
  refs : Nat
  deriving DecidableEq, Repr

/-- A settlement record (Table 9-3). -/
structure Settlement where
  id : Half
  account : Fin 16
  tariff : Fin 8
  outcome : Option Reason
  s0 : Nat
  e0 : Nat
  finalEnd : Nat
  liveStart : Option Nat
  endSecond : Option Nat
  l : Nat
  s : Nat
  o : Nat
  oc : Nat
  t : Nat
  gs : Nat
  gt : Nat
  gc : Nat
  nt : Nat
  np : Nat
  episodes : Nat
  longest : Nat
  gross : Nat
  credit : Nat
  net : Nat
  saturated : Bool
  timeStepped : Bool
  suspectSeen : Bool
  patchReleased : Bool
  slots : List (Fin 48 × Fin 32)
  deriving DecidableEq, Repr

/-- The totals of an account (R169). -/
structure Totals where
  net : Nat
  credit : Nat
  closed : Nat
  deriving DecidableEq, Repr

/-- The settlement unit. -/
structure STL where
  tariffs : Table Tariff 8
  queue : List Settlement
  closing : List (Fin 192)
  totals : Table Totals 16
  deriving DecidableEq, Repr

/-! ### BKU -/

/-- A booking record (Table 5-1). -/
structure Booking where
  id : Half
  account : Fin 16
  tariff : Fin 8
  handoff : Fin 16
  feeds : List (Fin 48)
  ports : List (Fin 32)
  s0 : Nat
  e0 : Nat
  e : Nat
  extension : Nat
  trigger : Trigger
  cueLine : Option (Fin 4)
  cueEdge : Option Edge
  cueLead : Option Nat
  startRule : StartRule
  runOn : Bool
  quantum : Nat
  limit : Nat
  used : Nat
  state : BookingState
  reason : Option Reason
  shortened : Bool
  timeStepped : Bool
  patchReleased : Bool
  liveStart : Option Nat
  endSecond : Option Nat
  deriving DecidableEq, Repr

/-- What a place of the booking table holds: the record, its meter set (R144) and its held settlement record. -/
structure Place where
  booking : Booking
  meter : MeterSet
  held : Option Settlement
  deriving DecidableEq, Repr

/-- An entry of the time list (R81). `atOnce`: its second was not later than the present one at the record's admission,
so that it is due at once (R90). -/
structure TimeEntry where
  second : Nat
  record : Fin 192
  kind : EntryKind
  atOnce : Bool
  deriving DecidableEq, Repr

/-- The booking unit. -/
structure BKU where
  places : Table (Option Place) 192
  timelines : Table (List (Fin 192)) 32
  timeList : List TimeEntry
  deriving DecidableEq, Repr

/-! ### XPC -/

/-- The committed input of a port (R122). -/
inductive Committed where
  | route (r : Fin 48) | park | suspect
  deriving DecidableEq, Repr

/-- The input of a connect order or confirm (R128). -/
inductive Input where
  | route (r : Fin 48) | park
  deriving DecidableEq, Repr

/-- A booking slot: record index and slot (R123), with the booking's id, which R145 compares. -/
structure SlotRef where
  record : Fin 192
  slot : Nat
  id : Half
  deriving DecidableEq, Repr

/-- A holder, present or desired (R123, R124). -/
inductive Holder where
  | slot (ref : SlotRef) | patch | nobody
  deriving DecidableEq, Repr

/-- A rider of a pending entry: its record and whether it is marked CONNECT (R124). -/
structure Rider where
  record : Fin 192
  connect : Bool
  deriving DecidableEq, Repr

/-- A pending entry (R124). -/
structure PendingEntry where
  desired : Holder
  riders : List Rider
  deriving DecidableEq, Repr

/-- The state XPC holds for a port (Table 7-1). -/
structure XPort where
  committed : Committed
  holder : Holder
  patch : Option (Fin 48)
  entry : Option PendingEntry
  delivered : Option Bool
  deriving DecidableEq, Repr

/-- An open order (R128). -/
structure Order where
  port : Fin 32
  input : Input
  deriving DecidableEq, Repr

/-- The record of the last take (R131). -/
structure LastTake where
  frame : Nat
  sent : Nat
  confirmed : Nat
  leftSuspect : Nat
  deriving DecidableEq, Repr

/-- The crosspoint controller. -/
structure XPC where
  ports : Table XPort 32
  inFlight : Bool
  orders : List Order
  timer : Option Nat
  timeout : Nat
  included : List Rider
  stamp : Nat
  sent : Nat
  confirmed : Nat
  lastTake : Option LastTake
  newlySuspect : BitVec 32
  matrixOut : List (List Byte)
  deriving DecidableEq, Repr

/-! ### NTC and TCU -/

/-- The notice list (R175 to R177). The classes of `mask` are numbered in the order of Table 10-1. -/
structure NTC where
  flags : Table Bool 267
  list : List (Fin 267)
  mask : Table Bool 6
  deriving DecidableEq, Repr

/-- A tally line (R182). Its level is `State.tallyLevel`. -/
structure TallyLine where
  source : TallySource
  param : Option Six
  invert : Bool
  deriving DecidableEq, Repr

/-- A cue line (R184). `true` is high. -/
structure CueLine where
  input : Bool
  accepted : Bool
  timer : Option Nat
  enabled : Bool
  invert : Bool
  deriving DecidableEq, Repr

/-- The tally and cue unit. `markerPulse` counts the ticks still to come while the MARKER source is on (R183). -/
structure TCU where
  lines : Table TallyLine 8
  markerPulse : Option Nat
  cues : Table CueLine 4
  deriving DecidableEq, Repr

/-! ### Messages -/

/-- The fields of the STATUS reply (R195). -/
structure StatusView where
  errors : Nat
  queued : Nat
  busySlot : Bool
  elapsed : Nat
  refState : RefState
  cardsAlive : List Bool
  records : Nat
  closing : Nat
  queueDepth : Nat
  listLength : Nat
  inFlight : Bool
  suspectPorts : Nat
  deriving DecidableEq, Repr

/-- The fields of the READ_HEALTH reply (R37). A running timer is given with its time to expiry. -/
structure HealthView where
  cardAlive : Bool
  bad : Bool
  failed : Bool
  failLeft : Option Nat
  clearLeft : Option Nat
  degraded : Bool
  blockSum : Nat
  measured : Health
  effective : Health
  changeFrame : Nat
  worksStart : Nat
  worksEnd : Nat
  worksActive : Bool
  drillRoute : Option (Fin 48)
  drillRemaining : Option Nat
  drillLeft : Option Nat
  flaps : Nat
  settings : RouteSettings
  deriving DecidableEq, Repr

/-- The fields of the SET_CIRCUIT reply (R41). -/
structure CircuitView where
  mode : Mode
  revertive : Bool
  degSwitch : Bool
  guardTime : Nat
  wtrSecs : Nat
  selector : Option SelState
  selected : Option (Fin 48)
  deriving DecidableEq, Repr

/-- The fields of the READ_CIRCUIT reply that SET_CIRCUIT's does not have (R59). -/
structure CircuitStatus where
  guardLeft : Option Nat
  wtrLeftSecs : Option Nat
  healthA : Health
  healthB : Health
  switchCount : Nat
  lastReason : CircuitReason
  changeFrame : Nat
  deriving DecidableEq, Repr

/-- One entry of the LIST_PORT reply (R98). -/
structure TimelineView where
  id : Half
  record : Fin 192
  slot : Nat
  state : BookingState
  s0 : Nat
  e : Nat
  deriving DecidableEq, Repr

/-- A port's directory fields, as SET_PORT and READ_PORT report them (R62, R141). -/
structure PortDirView where
  enabled : Bool
  refs : Nat
  handoff : Option (Fin 16)
  deriving DecidableEq, Repr

/-- The crosspoint fields of the READ_PORT reply (R141). -/
structure PortView where
  committed : Committed
  holder : Holder
  patch : Option (Fin 48)
  desired : Option Holder
  riders : List (Option Half × Bool)
  order : Option Input
  delivered : Option Bool
  inFlight : Bool
  lastTake : Option LastTake
  timeout : Nat
  deriving DecidableEq, Repr

/-- The fields of the READ_METER reply (R156). The gate is reported in RUNNING alone. -/
structure MeterView where
  id : Half
  record : Fin 192
  state : BookingState
  phase : MeterPhase
  basis : GateBasis
  grace : Nat
  gateOpen : Option Bool
  copies : List (Option Bool)
  l : Nat
  s : Nat
  o : Nat
  t : Nat
  oc : Nat
  episode : Option Nat
  episodes : Nat
  longest : Nat
  nt : Nat
  np : Nat
  suspectSeen : Bool
  deriving DecidableEq, Repr

/-- The result of a reply: the fields that follow its status (R191), as the rule of each request names them. -/
inductive Result where
  | empty
  | ident (part revision routes ports records settlements queued : Nat) (strap : Fin 4)
  | status (view : StatusView)
  | time (seconds sub : Nat)
  | clock (seconds sub elapsed : Nat) (source : Source) (rate : Fin 4) (ref : RefState) (frame frameMax : Nat)
  | reference (source : Source) (rate : Fin 4) (frameMax : Nat) (ref : RefState)
  | route (settings : RouteSettings)
  | works (start stop conflicts : Nat)
  | conflicts (count : Nat)
  | health (view : HealthView)
  | drill (route : Fin 48) (delay duration : Nat)
  | drillPhase (phase : DrillPhaseName)
  | circuit (view : CircuitView)
  | circuitStatus (view : CircuitView) (status : CircuitStatus)
  | protection (selector : Option SelState) (selected : Option (Fin 48)) (switchCount : Nat)
  | port (port : Fin 32) (view : PortDirView)
  | handoff (entry : HandoffEntry) (refs : Nat)
  | account (account : Fin 16) (permitted : Byte) (refs : Nat)
  | entry (kind : EntryClass) (index : Nat)
  | margin (seconds : Nat)
  | booked (id : Half) (record : Fin 192) (ports : List (Fin 32)) (lead : Option Nat) (quantum : Nat)
  | slotAtFault (slot : Option Nat)
  | amended (id : Half) (newEnd : Nat)
  | portAtFault (port : Fin 32)
  | cancelled (id : Half) (closing : Bool)
  | ended (id : Half) (second : Nat)
  | swapped (slot : Nat) (feed : Fin 48) (carrying : Option (Fin 48))
  | booking (record : Fin 192) (booking : Booking) (carrying : List (Option (Fin 48)))
  | timeline (port : Fin 32) (count : Nat) (entries : List TimelineView)
  | patched (port : Fin 32) (route : Option (Fin 48)) (holder : Holder)
  | unpatched (port : Fin 32) (route : Fin 48)
  | portStatus (dir : PortDirView) (view : PortView)
  | timeout (ms : Nat)
  | meter (view : MeterView)
  | tariff (tariff : Fin 8) (terms : TariffTerms) (valid : Bool) (refs : Nat)
  | fieldAtFault (field : Nat)
  | settlement (record : Settlement) (depth closing : Nat)
  | noSettlement (depth closing : Nat)
  | released (id : Half) (depth : Nat) (appended oldest : Option Half)
  | notReleased (oldest : Option Half) (depth : Nat)
  | accountTotals (account : Fin 16) (defined : Bool) (refs : Nat) (totals : Totals)
  | totals (totals : Totals)
  | notices (mask : Table Bool 6) (entries : Nat)
  | tally (source : TallySource) (param : Option Six) (invert level : Bool)
  | cue (enabled invert accepted timerRuns : Bool)
  deriving DecidableEq, Repr

/-- A reply: its kind code, tag, status and result (R191). -/
structure Reply where
  kind : Byte
  tag : Byte
  status : Status
  result : Result
  deriving DecidableEq, Repr

/-- A notice, with what it carries (Table 10-2). -/
inductive Notice where
  | health (route : Fin 48) (effective : Health) (flaps changeFrame : Nat)
  | circuit (circuit : Fin 24) (selector : Option SelState) (selected : Option (Fin 48)) (reason : CircuitReason)
      (switchCount changeFrame : Nat)
  | booking (id : Half) (state : BookingState) (reason : Option Reason) (shortened patchReleased : Bool)
  | reference (state : RefState)
  | take (newly suspect : BitVec 32) (frame : Nat)
  | settlement (depth : Nat)
  deriving DecidableEq, Repr

/-- A message of the transmitter (R179). -/
inductive Message where
  | ready (kind : ResetKind)
  | reply (reply : Reply)
  | notice (notice : Notice)
  deriving DecidableEq, Repr

/-! ### LNK -/

/-- What the end of a message frees or performs: nothing, a place of the request queue, the BUSY slot, or, for the reply
to a RESET, its place and the reset (R189, R196). -/
inductive Ends where
  | nothing | place | busySlot | reset (scope : Scope)
  deriving DecidableEq, Repr

/-- A request in the queue (R189). -/
structure Queued where
  tag : Byte
  request : Request
  served : Bool
  deriving DecidableEq, Repr

/-- A reply made and unsent. -/
structure Unsent where
  reply : Reply
  ends : Ends
  deriving DecidableEq, Repr

/-- The message on the line. -/
structure Sending where
  message : Message
  ends : Ends
  deriving DecidableEq, Repr

/-- The link interface (Table 11-1). LNK is in HUNT when `rx` is empty. -/
structure LNK where
  strap : Fin 4
  rx : List Byte
  gap : Option Nat
  queue : List Queued
  busySlot : Bool
  replies : List Unsent
  errors : Nat
  hold : Option Scope
  ready : Option ResetKind
  line : Option Sending
  deriving DecidableEq, Repr

/-! ### The whole part -/

/-- The state of the part, the queue of commands that wait, and how many open orders have been decided. -/
structure State where
  tb : TB
  rmon : RMON
  circuits : Table Circuit 24
  dir : DIR
  bku : BKU
  xpc : XPC
  stl : STL
  ntc : NTC
  tcu : TCU
  lnk : LNK
  raceCount : Nat
  pending : List Instr
  deriving DecidableEq, Repr

/-- Reasons to stop with a fault. The manual names no condition in which the part stops, so there is none; nothing
raises one. -/
inductive Fault where
  deriving DecidableEq, Repr

/-- Reasons to refuse a command. -/
inductive Refusal where
  /-- Raised by an arm of `exec` whose command has no meaning yet; no arm raises it. Safe: the model stops. -/
  | notModelled (mnemonic : String)
  deriving DecidableEq, Repr

/-! ### Reset values -/

/-- R15. -/
def TB.reset : TB :=
  { seconds := 0, sub := 0, elapsed := 0, source := .internal, rate := 0, frameMax := 0, refState := .free, qual := 0,
    prevPulse := none, lastPulse := 0, frame := 0, genRestart := 0, lastMarker := 0, osc := 0, lastTick := 0, boundary := none }

/-- R38. -/
def Route.reset : Route :=
  { bad := true, failed := true, failTimer := none, clearTimer := none, blockSum := 0, degraded := false,
    settings := { failHold := 10, clearHold := 2000, degThr := 250, clrThr := 25 },
    worksStart := 1, worksEnd := 0, worksActive := false, effective := .failed, changeFrame := 0, reported := .failed,
    flaps := 0 }

/-- R38. -/
def RMON.reset : RMON :=
  { cards := same 6 none, routes := same 48 Route.reset, drills := same 24 none, worksDue := none, blockDue := false }

/-- R60. -/
def Circuit.reset : Circuit :=
  { selector := some .selA, revertive := true, degSwitch := false, guardTime := 50, wtrSecs := 300, guard := none,
    wtr := none, switchCount := 0, lastReason := .auto, changeFrame := 0 }

/-- R75. -/
def DIR.reset : DIR :=
  { ports := same 32 { enabled := true, handoff := none }, accounts := same 16 { permitted := none, refs := 0 },
    handoffs := same 16 { entry := none, refs := 0 }, margin := 120 }

/-- R99, R158. -/
def BKU.reset : BKU := { places := same 192 none, timelines := same 32 [], timeList := [] }

/-- What R142 and R143 leave in every port. -/
def XPort.reset : XPort :=
  { committed := .suspect, holder := .nobody, patch := none, entry := some { desired := .nobody, riders := [] },
    delivered := none }

/-- R142. -/
def XPC.reset : XPC :=
  { ports := same 32 XPort.reset, inFlight := false, orders := [], timer := none, timeout := 20, included := [],
    stamp := 0, sent := 0, confirmed := 0, lastTake := none, newlySuspect := 0, matrixOut := [] }

/-- R173. -/
def Tariff.reset : Tariff :=
  { terms := { granule := 60, reservation := 0, base := 0, overtime := 0, swapFee := 0, credit := 0, grace := 0,
               basis := .all }, valid := false, refs := 0 }

/-- R173. -/
def STL.reset : STL :=
  { tariffs := same 8 Tariff.reset, queue := [], closing := [], totals := same 16 { net := 0, credit := 0, closed := 0 } }

/-- R181. -/
def NTC.reset : NTC := { flags := same 267 false, list := [], mask := same 6 true }

/-- R185, with the level on the line's pin. -/
def CueLine.reset (input : Bool) : CueLine :=
  { input := input, accepted := input, timer := none, enabled := true, invert := false }

/-- R185, with the levels on the cue pins. DESIGN CHOICE (unsafe, log entry 29): a MARKER pulse in progress ends, which
R185's table does not say. -/
def TCU.reset (inputs : Fin 4 → Bool) : TCU :=
  { lines := same 8 { source := .off, param := none, invert := false }, markerPulse := none,
    cues := tab fun i => CueLine.reset (inputs i) }

/-- The power-on column of R197, with the rate the straps select (R186). -/
def LNK.reset (strap : Fin 4) : LNK :=
  { strap := strap, rx := [], gap := none, queue := [], busySlot := false, replies := [], errors := 0, hold := none,
    ready := some .powerOn, line := none }

/-- The part after a power-on/pin reset, with straps reading `strap` and the cue pins at `inputs`. -/
def powerOn (strap : Fin 4) (inputs : Fin 4 → Bool) : State :=
  { tb := TB.reset, rmon := RMON.reset, circuits := same 24 Circuit.reset, dir := DIR.reset, bku := BKU.reset,
    xpc := XPC.reset, stl := STL.reset, ntc := NTC.reset, tcu := TCU.reset inputs, lnk := LNK.reset strap,
    raceCount := 0, pending := [] }

/-- The machine right after power-on. DESIGN CHOICE (unsafe, log entry 8): strap code 0 and every cue pin low. -/
def State.reset : State := powerOn 0 fun _ => false

end Sys2Proof.Machine
end

