-- ==== Sys2Proof/Machine/Operands.lean ====
section
/-! DEFINITION. Field values: identifiers, yes/no bytes, enumerated codes and clamped settings (R192, Table 11-7). -/

namespace Sys2Proof.Machine

/-- An identifier in 0..n-1, none when it is out of range. -/
def idOf {w : Nat} (n : Nat) (b : BitVec w) : Option (Fin n) :=
  if h : b.toNat < n then some ⟨b.toNat, h⟩ else none

/-- A setting clamped to the nearer end of its range (Table 11-5). -/
def clamp (lo hi n : Nat) : Nat := max lo (min hi n)

/-- A yes/no byte: 0 is no, 1 is yes. DISABLE and ENABLE have the same codes. -/
def yesNo (b : Byte) : Option Bool := if b = 0 then some false else if b = 1 then some true else none

/-- Reference source. -/
def sourceOf (b : Byte) : Option Source := if b = 0 then some .internal else if b = 1 then some .external else none

/-- Circuit mode. -/
def modeOf (b : Byte) : Option Mode := if b = 0 then some .pair else if b = 1 then some .split else none

/-- FORCE target. -/
def targetOf (b : Byte) : Option Side := if b = 0 then some .a else if b = 1 then some .b else none

/-- RESET scope. -/
def scopeOf (b : Byte) : Option Scope := if b = 0 then some .all else if b = 1 then some .traffic else none

/-- DELETE_ENTRY kind. -/
def entryClassOf (b : Byte) : Option EntryClass :=
  if b = 0 then some .account else if b = 1 then some .handoff else if b = 2 then some .tariff else none

/-- Trigger. -/
def triggerOf (b : Byte) : Option Trigger :=
  if b = 0 then some .time else if b = 1 then some .cue else if b = 2 then some .timeOrCue else none

/-- Cue edge. -/
def edgeOf (b : Byte) : Option Edge :=
  if b = 0 then some .rise else if b = 1 then some .fall else if b = 2 then some .both else none

/-- Start rule. -/
def startRuleOf (b : Byte) : Option StartRule :=
  if b = 0 then some .allOrWait else if b = 1 then some .asAvailable else none

/-- Gate basis. -/
def basisOf (b : Byte) : Option GateBasis :=
  if b = 0 then some .all else if b = 1 then some .any else if b = 2 then some .flat else none

/-- Tally source. -/
def tallySourceOf (b : Byte) : Option TallySource :=
  match b.toNat with
  | 0 => some .off
  | 1 => some .routeOk
  | 2 => some .routeUsable
  | 3 => some .portOnAir
  | 4 => some .circuitOnB
  | 5 => some .allUsable
  | 6 => some .anyUnusable
  | 7 => some .marker
  | 8 => some .noticeWaiting
  | 9 => some .holdover
  | _ => none

/-- A parameter is in the range its tally source takes; a source that takes none does not examine it (R182). -/
def TallySource.paramOk : TallySource → Six → Bool
  | .routeOk, p | .routeUsable, p => decide (p.toNat < 48)
  | .portOnAir, p => decide (p.toNat < 32)
  | .circuitOnB, p => decide (p.toNat < 24)
  | .off, _ | .allUsable, _ | .anyUnusable, _ | .marker, _ | .noticeWaiting, _ | .holdover, _ => true

/-- The first `n` of some identifiers, none when one is out of range. -/
def idsOf (n : Nat) (top : Nat) (bytes : List Byte) : Option (List (Fin top)) := (bytes.take n).mapM (idOf top)

/-- What a block hands back for a request: status and result (R190). -/
structure Answer where
  status : Status
  result : Result
  deriving DecidableEq, Repr

/-- An OK answer. -/
def okWith (r : Result) : Answer := ⟨.ok, r⟩

/-- A refusal whose rule names no field. -/
def refusal (st : Status) : Answer := ⟨st, .empty⟩

end Sys2Proof.Machine
end

