-- ==== Sys2Proof/Machine/Ops.lean ====
section
/-! DEFINITION. The shared operations: reading and replacing one thing of a table, routes and circuits, timers, windows
of network time, and the choice of an open order. -/

namespace Sys2Proof.Machine

/-! ### Counts and timers -/

/-- The largest value of a 16-bit count. -/
abbrev max16 : Nat := 65535
/-- The largest value of a 32-bit count. -/
abbrev max32 : Nat := 4294967295
/-- The largest value of a 48-bit count. -/
abbrev max48 : Nat := 281474976710655

/-- `n` raised by `k`, stopping at `top` (2.1 of the scope file: saturating). -/
def satAdd (top n k : Nat) : Nat := min top (n + k)

/-- A timer is due when it runs and its instant has come (R1). -/
def isDue (timer : Option Nat) (now : Nat) : Bool :=
  match timer with
  | some t => decide (t ≤ now)
  | none => false

/-- Time left to the expiry of a running timer. -/
def timeLeft (timer : Option Nat) (now : Nat) : Option Nat := timer.map (· - now)

/-- The intervals [a, b) and [c, d) have a second in common; an interval with a later than b has none (R28, R86). -/
def overlaps (a b c d : Nat) : Bool := decide (max a c < min b d)

/-- Three intervals have a second in common (R28, R86). -/
def overlaps3 (a b c d e f : Nat) : Bool := decide (max (max a c) e < min (min b d) f)

/-! ### Routes, circuits and feeds (2.5, 2.6 of the scope file) -/

/-- The other route of a circuit. -/
def Side.other : Side → Side
  | .a => .b
  | .b => .a

/-- The route of circuit `c` on a side: 2c or 2c + 1. -/
def routeOf (c : Fin 24) : Side → Fin 48
  | .a => ⟨2 * c.val, by omega⟩
  | .b => ⟨2 * c.val + 1, by omega⟩

/-- The circuit that owns a route; also the circuit a feed belongs to (R40). -/
def circuitOf (r : Fin 48) : Fin 24 := ⟨r.val / 2, by omega⟩

/-- The side of a route in its circuit. -/
def sideOf (r : Fin 48) : Side := if r.val % 2 = 0 then .a else .b

/-- The card that reports a route (2.5 of the scope file). -/
def cardOf (r : Fin 48) : Fin 6 := ⟨r.val / 8, by omega⟩

/-- Route 8k + s, of card k and slot s (R17). -/
def cardRoute (k : Fin 6) (slot : Fin 8) : Fin 48 := ⟨8 * k.val + slot.val, by omega⟩

/-- A route is usable when its health is OK or DEGRADED (Table 2-3). -/
def Health.usable : Health → Bool
  | .ok | .degraded => true
  | .failed | .works | .drill => false

/-- The side selected in each selector state (Table 3-4). -/
def SelState.side : SelState → Side
  | .selA | .forcedA | .lockout => .a
  | .selB | .wtr | .forcedB => .b

/-- The automatic states are SEL_A, SEL_B and WTR (3.3). -/
def SelState.automatic : SelState → Bool
  | .selA | .selB | .wtr => true
  | .forcedA | .forcedB | .lockout => false

/-- The mode of a circuit (R42, R43). -/
def Circuit.mode (k : Circuit) : Mode := if k.selector.isSome then .pair else .split

/-! ### Reading and replacing one thing -/

namespace State

/-- Route `r` of RMON. -/
def route (s : State) (r : Fin 48) : Route := s.rmon.routes.get r

/-- `s` with route `r` of RMON replaced. -/
def setRoute (s : State) (r : Fin 48) (x : Route) : State :=
  { s with rmon := { s.rmon with routes := upd s.rmon.routes r x } }

/-- The drill set on circuit `c`. -/
def drill (s : State) (c : Fin 24) : Option Drill := s.rmon.drills.get c

/-- `s` with the drill record of circuit `c` replaced. -/
def setDrill (s : State) (c : Fin 24) (d : Option Drill) : State :=
  { s with rmon := { s.rmon with drills := upd s.rmon.drills c d } }

/-- Circuit `c` of PSEL. -/
def circuit (s : State) (c : Fin 24) : Circuit := s.circuits.get c

/-- `s` with circuit `c` of PSEL replaced. -/
def setCircuit (s : State) (c : Fin 24) (k : Circuit) : State := { s with circuits := upd s.circuits c k }

/-- Place `i` of the booking table. -/
def place (s : State) (i : Fin 192) : Option Place := s.bku.places.get i

/-- `s` with place `i` of the booking table replaced. -/
def setPlace (s : State) (i : Fin 192) (p : Option Place) : State :=
  { s with bku := { s.bku with places := upd s.bku.places i p } }

/-- `s` with the occupied place `i` changed by `f`; a free place is left. -/
def onPlace (s : State) (i : Fin 192) (f : Place → Place) : State :=
  match s.place i with
  | some p => s.setPlace i (some (f p))
  | none => s

/-- `s` with the booking record in place `i` changed by `f`. -/
def onBooking (s : State) (i : Fin 192) (f : Booking → Booking) : State :=
  s.onPlace i fun p => { p with booking := f p.booking }

/-- Port `p` of XPC. -/
def xport (s : State) (p : Fin 32) : XPort := s.xpc.ports.get p

/-- `s` with port `p` of XPC replaced. -/
def setXPort (s : State) (p : Fin 32) (x : XPort) : State :=
  { s with xpc := { s.xpc with ports := upd s.xpc.ports p x } }

/-- The timeline of port `p`. -/
def timeline (s : State) (p : Fin 32) : List (Fin 192) := s.bku.timelines.get p

/-- The reference count of port `p` (R68, R79). -/
def portRefs (s : State) (p : Fin 32) : Nat := (s.timeline p).length

/-- The tariff terms that a booking's meter and price read (R160). -/
def terms (s : State) (b : Booking) : TariffTerms := (s.stl.tariffs.get b.tariff).terms

/-- The state of the record in place `i`. -/
def stateAt (s : State) (i : Fin 192) : Option BookingState := (s.place i).map (·.booking.state)

/-- The effective health of route `r`. -/
def health (s : State) (r : Fin 48) : Health := (s.route r).effective

/-- The record that holds a booking id in the booking table (R78). DEDUCED (log entry 30): id 0, which no record holds, is
an id that is not found. -/
def findRecord (s : State) (id : Half) : Option (Fin 192) :=
  (List.finRange 192).find? fun i => (s.place i).any (·.booking.id == id)

/-- The records of the booking table that satisfy `f`, in booking-table order. -/
def recordsWhere (s : State) (f : Booking → Bool) : List (Fin 192) :=
  (List.finRange 192).filter fun i => (s.place i).any fun p => f p.booking

/-- The side selected by a circuit in PAIR. -/
def selectedSide (s : State) (c : Fin 24) : Option Side := (s.circuit c).selector.map (·.side)

/-- The route selected by a circuit in PAIR. -/
def selectedRoute (s : State) (c : Fin 24) : Option (Fin 48) := (s.selectedSide c).map (routeOf c)

/-- The carrying route of a feed, none for a feed that does not exist (R40). -/
def carrying (s : State) (f : Fin 48) : Option (Fin 48) :=
  match (s.circuit (circuitOf f)).selector with
  | none => some f
  | some st => match sideOf f with
    | .a => some (routeOf (circuitOf f) st.side)
    | .b => none

/-- A feed is available when its carrying route is usable (R104). -/
def feedAvailable (s : State) (f : Fin 48) : Bool := (s.carrying f).any fun r => (s.health r).usable

/-- Which of two blocks takes an event first, where the manual leaves it open (log entry 4). -/
def raceFirst (s : State) : Bool := Config.raceOrder s.raceCount

/-- `s` after one open order has been decided. -/
def raced (s : State) : State := { s with raceCount := s.raceCount + 1 }

/-- `f` takes a place among some events, each place decided by an open order; with the state after that. -/
def placeFreely (f : State → State) : List (State → State) → State → List (State → State) × State
  | [], s => ([f], s)
  | g :: gs, s =>
    if s.raceFirst then (f :: g :: gs, s.raced)
    else
      let r := placeFreely f gs s.raced
      (g :: r.1, r.2)

/-- Some events in an order that the open orders decide, with the state after that. -/
def orderFreely : List (State → State) → State → List (State → State) × State
  | [], s => ([], s)
  | f :: fs, s =>
    let r := orderFreely fs s
    placeFreely f r.1 r.2

/-- Some events, each taken once, in any order (log entry 4). -/
def inAnyOrder (s : State) (events : List (State → State)) : State :=
  let r := orderFreely events s
  r.1.foldl (fun s f => f s) r.2

end State

end Sys2Proof.Machine
end

