-- ==== Sys2Proof/Machine/Flags.lean ====
section
/-! DEFINITION. NTC: notice objects, their pending flags and the notice list (R175 to R177). TCU: the levels of the
tally lines (R182, R183). -/

namespace Sys2Proof.Machine

/-! ### Notice objects (Table 10-1) -/

/-- The HEALTH object of a route. -/
def healthObject (r : Fin 48) : Fin 267 := ⟨r.val, by omega⟩
/-- The CIRCUIT object of a circuit. -/
def circuitObject (c : Fin 24) : Fin 267 := ⟨48 + c.val, by omega⟩
/-- The BOOKING object of a place. -/
def bookingObject (i : Fin 192) : Fin 267 := ⟨72 + i.val, by omega⟩
/-- The REFERENCE object. -/
def referenceObject : Fin 267 := 264
/-- The TAKE object. -/
def takeObject : Fin 267 := 265
/-- The SETTLEMENT object. -/
def settlementObject : Fin 267 := 266

/-- The class of an object, numbered in the order of Table 10-1. -/
def classOf (o : Fin 267) : Fin 6 :=
  if o.val < 48 then 0 else if o.val < 72 then 1 else if o.val < 264 then 2 else if o.val = 264 then 3
  else if o.val = 265 then 4 else 5

namespace NTC

/-- The pending flag of an object. -/
def pending (n : NTC) (o : Fin 267) : Bool := n.flags.get o

/-- The class of an object is enabled. -/
def enabled (n : NTC) (o : Fin 267) : Bool := n.mask.get (classOf o)

/-- An owner sets an object's flag (R175, R176). -/
def raise (n : NTC) (o : Fin 267) : NTC :=
  if n.pending o then n
  else { n with flags := upd n.flags o true, list := if n.enabled o then n.list ++ [o] else n.list }

/-- An owner withdraws an object's flag, or its notice is taken for sending (R175, R178). -/
def withdraw (n : NTC) (o : Fin 267) : NTC :=
  if n.pending o then { n with flags := upd n.flags o false, list := n.list.filter (· != o) } else n

/-- The class mask changes (R177): the objects of a class turned off leave the list, then those of the classes turned on
that are pending join it in object order. -/
def setMask (n : NTC) (mask : Table Bool 6) : NTC :=
  { n with
    mask := mask
    list := n.list.filter (fun o => mask.get (classOf o)) ++
      (List.finRange 267).filter fun o => n.pending o && mask.get (classOf o) && !n.enabled o }

end NTC

namespace State

/-- `s` with an object's flag set. -/
def raise (s : State) (o : Fin 267) : State := { s with ntc := s.ntc.raise o }

/-- `s` with an object's flag withdrawn. -/
def withdraw (s : State) (o : Fin 267) : State := { s with ntc := s.ntc.withdraw o }

/-! ### Tally lines -/

/-- The present value of a tally source (Table 10-3). A parameter that the source does not take is not read. -/
def tallyValue (s : State) (line : TallyLine) : Bool :=
  let param := (line.param.getD 0).toNat
  let inSet (r : Fin 48) : Bool := (line.param.getD 0).getLsbD r.val
  match line.source with
  | .off => false
  | .routeOk => if h : param < 48 then s.health ⟨param, h⟩ = .ok else false
  | .routeUsable => if h : param < 48 then (s.health ⟨param, h⟩).usable else false
  | .portOnAir =>
    if h : param < 32 then
      match (s.xport ⟨param, h⟩).holder with
      | .slot ref => s.stateAt ref.record = some .live || s.stateAt ref.record = some .runOn
      | .patch | .nobody => false
    else false
  | .circuitOnB => if h : param < 24 then s.selectedSide ⟨param, h⟩ = some .b else false
  | .allUsable => (List.finRange 48).all fun r => !inSet r || (s.health r).usable
  | .anyUnusable => (List.finRange 48).any fun r => inSet r && !(s.health r).usable
  | .marker => s.tcu.markerPulse.isSome
  | .noticeWaiting => !s.ntc.list.isEmpty
  | .holdover => s.tb.refState = .holdover

/-- The level of tally line `i`: its source's value, inverted when the invert flag is set (R183). -/
def tallyLevel (s : State) (i : Fin 8) : Bool :=
  let line := s.tcu.lines.get i
  line.invert != s.tallyValue line

end State

end Sys2Proof.Machine
end

