-- ==== Sys2Proof/Machine/Meter.lean ====
section
/-! DEFINITION. MTR: the gate, the meters and their counts (R144 to R154). -/

namespace Sys2Proof.Machine

namespace MeterSet

/-- The set that MTR creates at admission, for `slots` slots (R144). -/
def fresh (slots : Nat) : MeterSet :=
  { phase := .notStarted, copies := List.replicate slots none, gate := false, overtime := false, l := 0, s := 0, o := 0,
    t := 0, oc := 0, episode := none, episodes := 0, longest := 0, nt := 0, np := 0, suspectSeen := false }

/-- The gate that the slot copies give; an unknown copy counts as not delivered (R145, R146). -/
def gateOf (basis : GateBasis) (copies : List (Option Bool)) : Bool :=
  match basis with
  | .all => copies.all (· == some true)
  | .any => copies.any (· == some true)
  | .flat => true

/-- The open episode closes (R149). An episode of length 0 is dropped. -/
def closeEpisode (grace : Nat) (m : MeterSet) : MeterSet :=
  match m.episode with
  | none => m
  | some 0 => { m with episode := none }
  | some len =>
    { m with
      episode := none
      episodes := satAdd max16 m.episodes 1
      longest := max m.longest len
      oc := if grace * 1000 ≤ len then m.oc + len else m.oc }

/-- The gate is evaluated in RUNNING (R146). -/
def evalGate (basis : GateBasis) (grace : Nat) (m : MeterSet) : MeterSet :=
  let open_ := gateOf basis m.copies
  if m.phase != .running || open_ == m.gate then m
  else if open_ then { m.closeEpisode grace with gate := true }
  else { m with gate := false, episode := some 0 }

/-- Entry to LIVE (R147). -/
def start (basis : GateBasis) (m : MeterSet) : MeterSet :=
  let open_ := gateOf basis m.copies
  { m with phase := .running, gate := open_, episode := if open_ then none else some 0 }

/-- Entry to ENDING (R151). -/
def freeze (grace : Nat) (m : MeterSet) : MeterSet := { m.closeEpisode grace with phase := .frozen }

/-- One millisecond tick (R148). -/
def tick (m : MeterSet) : MeterSet :=
  if m.phase != .running || m.l ≥ max32 then m
  else if m.gate then { m with l := m.l + 1, s := m.s + 1, t := if m.overtime then m.t + 1 else m.t }
  else { m with l := m.l + 1, o := m.o + 1, episode := m.episode.map (· + 1) }

end MeterSet

namespace State

/-- `s` with the meter set in place `i` changed by `f`. -/
def onMeter (s : State) (i : Fin 192) (f : MeterSet → MeterSet) : State :=
  s.onPlace i fun p => { p with meter := f p.meter }

/-- The gate of the booking in place `i` is evaluated with its tariff's basis and grace. -/
def evalGateAt (s : State) (i : Fin 192) : State :=
  match s.place i with
  | some p => s.setPlace i (some { p with
      meter := p.meter.evalGate (s.terms p.booking).basis (s.terms p.booking).grace })
  | none => s

/-- Every occupied place changed by `f`. -/
def mapPlaces (s : State) (f : Place → Place) : State :=
  { s with bku := { s.bku with places := tab fun i => (s.place i).map f } }

/-- The meters of every running booking advance by one millisecond (R148). -/
def tickMeters (s : State) : State := s.mapPlaces fun p => { p with meter := p.meter.tick }

/-- A change of the selected route of `feed`: N_p of every running booking that holds the feed rises (R152). -/
def countProtection (s : State) (feed : Fin 48) : State :=
  s.mapPlaces fun p =>
    if p.meter.phase = .running ∧ feed ∈ p.booking.feeds then
      { p with meter := { p.meter with np := satAdd max16 p.meter.np 1 } }
    else p

end State

end Sys2Proof.Machine
end

