-- ==== Sys2Proof/Machine/Crosspoint.lean ====
section
/-! DEFINITION. XPC: pending entries and the changes that reach them, delivered flags, and the words of the matrix link
(R124 to R126, R133 to R138). -/

namespace Sys2Proof.Machine

/-! ### Link words (Table 11-11) -/

/-- The check byte of a three-byte word: 255 minus the sum of bytes 0 and 1, modulo 256. -/
def wordCheck (b0 b1 : Byte) : Byte := 255 - (b0 + b1)

/-- The input code of a matrix-link word. -/
def Input.code : Input → Byte
  | .route r => BitVec.ofNat 8 r.val
  | .park => 0x3F

/-- The input that a matrix-link code names. -/
def Input.ofCode (b : Byte) : Option Input :=
  if h : b.toNat < 48 then some (.route ⟨b.toNat, h⟩) else if b = 0x3F then some .park else none

/-- The committed input after a confirm of an input. -/
def Input.committed : Input → Committed
  | .route r => .route r
  | .park => .park

/-- The word of a connect order. -/
def Order.word (o : Order) : List Byte :=
  let b0 := BitVec.ofNat 8 o.port.val
  [b0, o.input.code, wordCheck b0 o.input.code]

/-- The port and input of a confirm group; none for a group that is discarded (R129, Table 11-11). -/
def Order.parse (group : List Byte) : Option Order :=
  match group with
  | [b0, b1, check] =>
    if h : check = wordCheck b0 b1 ∧ b0.toNat < 32 then (Input.ofCode b1).map fun i => ⟨⟨b0.toNat, h.2⟩, i⟩ else none
  | _ => none

/-! ### Pending entries (R124) -/

/-- The port's entry, made from its present holder where it has none. -/
def XPort.entryOrNew (x : XPort) : PendingEntry := x.entry.getD { desired := x.holder, riders := [] }

/-- The desired holder, or, with no entry, the holder. -/
def XPort.claim (x : XPort) : Holder := x.entryOrNew.desired

/-- A record joins a rider list with a mark, or its mark becomes that one (R125). -/
def addRider (riders : List Rider) (r : Rider) : List Rider :=
  if riders.any (·.record == r.record) then riders.map fun q => if q.record = r.record then r else q
  else riders ++ [r]

/-- STARTING connect (R125), which first ends the port's patch (R135). -/
def XPort.startConnect (x : XPort) (ref : SlotRef) : XPort :=
  { x with patch := none,
           entry := some { desired := .slot ref, riders := addRider x.entryOrNew.riders ⟨ref.record, true⟩ } }

/-- SWAP connect (R125). -/
def XPort.swapConnect (x : XPort) (ref : SlotRef) : XPort :=
  { x with entry := some { x.entryOrNew with desired := .slot ref } }

/-- ENDING disconnect (R125): it clears only the named slot's claim. -/
def XPort.disconnect (x : XPort) (ref : SlotRef) : XPort :=
  { x with entry := some {
      desired := if x.claim = .slot ref then .nobody else x.claim
      riders := addRider x.entryOrNew.riders ⟨ref.record, false⟩ } }

/-- PATCH (R133). -/
def XPort.setPatch (x : XPort) (r : Fin 48) : XPort :=
  { x with patch := some r, entry := some { x.entryOrNew with desired := .patch } }

/-- UNPATCH (R134): an entry is made only where the claim is the patch. -/
def XPort.endPatch (x : XPort) : XPort :=
  if x.claim = .patch then { x with patch := none, entry := some { x.entryOrNew with desired := .nobody } }
  else { x with patch := none }

/-- Port disable (R136). -/
def XPort.disable (x : XPort) : XPort :=
  { x with patch := none, entry := some { x.entryOrNew with desired := .nobody } }

namespace State

/-- `s` with port `p` of XPC changed by `f`. -/
def onXPort (s : State) (p : Fin 32) (f : XPort → XPort) : State := s.setXPort p (f (s.xport p))

/-- The present feed of a booking slot, where the place still holds that booking (R145). -/
def slotFeed (s : State) (ref : SlotRef) : Option (Fin 48) :=
  match s.place ref.record with
  | some p => if p.booking.id = ref.id then p.booking.feeds[ref.slot]? else none
  | none => none

/-- The route that the slot's present feed is carried on. -/
def slotRoute (s : State) (ref : SlotRef) : Option (Fin 48) := (s.slotFeed ref).bind s.carrying

/-- The delivered test of a port (R137); no flag for a port that no booking slot holds. -/
def deliveredNow (s : State) (p : Fin 32) : Option Bool :=
  match (s.xport p).holder with
  | .slot ref => match s.slotRoute ref with
    | some r => some (decide ((s.xport p).committed = .route r) && (s.health r).usable)
    | none => some false
  | .patch | .nobody => none

/-- MTR's copy of a slot's flag is set (R145), where the place holds that booking. -/
def storeCopy (s : State) (ref : SlotRef) (v : Bool) : State :=
  s.onPlace ref.record fun p =>
    if p.booking.id = ref.id then { p with meter := { p.meter with copies := p.meter.copies.set ref.slot (some v) } }
    else p

/-- The delivered flag of a port is set as the test gives it, and handed to MTR. -/
def storeFlag (s : State) (p : Fin 32) : State :=
  let v := s.deliveredNow p
  let s1 := s.onXPort p fun x => { x with delivered := v }
  match (s.xport p).holder, v with
  | .slot ref, some b => s1.storeCopy ref b
  | _, _ => s1

/-- The record whose slot holds a port. -/
def holderRecord (s : State) (p : Fin 32) : Option (Fin 192) :=
  match (s.xport p).holder with
  | .slot ref => some ref.record
  | .patch | .nobody => none

/-- XPC recomputes the flags of some ports in one event; MTR applies the changes and then evaluates each gate concerned
once (R137, R146). -/
def recomputeFlags (s : State) (ports : List (Fin 32)) : State :=
  let changed := ports.filter fun p => s.deliveredNow p != (s.xport p).delivered
  (changed.filterMap s.holderRecord).foldl evalGateAt (changed.foldl storeFlag s)

/-- A port is claimed by a slot whose feed is `feed` (R126). -/
def claimedBy (s : State) (x : XPort) (feed : Fin 48) : Bool :=
  match x.claim with
  | .slot ref => s.slotFeed ref = some feed
  | .patch | .nobody => false

/-- A port is held by a slot whose feed is `feed` (R126). -/
def heldBy (s : State) (p : Fin 32) (feed : Fin 48) : Bool :=
  match (s.xport p).holder with
  | .slot ref => s.slotFeed ref = some feed
  | .patch | .nobody => false

/-- What a re-source from route `old` to route `new` makes of a port (R126). -/
def resourcePort (s : State) (feed old new : Fin 48) (x : XPort) : XPort :=
  let x1 : XPort := if s.claimedBy x feed then { x with entry := some x.entryOrNew } else x
  if x1.patch = some old then { x1 with patch := some new, entry := some x1.entryOrNew } else x1

/-- PSEL hands XPC a re-source (R126). -/
def resource (s : State) (feed old new : Fin 48) : State :=
  let s1 := { s with xpc := { s.xpc with ports := tab fun p => s.resourcePort feed old new (s.xport p) } }
  s1.recomputeFlags ((List.finRange 32).filter fun p => s1.heldBy p feed)

/-- RMON hands XPC a change of effective health of some routes (R132, R137). -/
def xpcHealth (s : State) (changed : List (Fin 48)) : State :=
  s.recomputeFlags ((List.finRange 32).filter fun p =>
    match (s.xport p).holder with
    | .slot ref => (s.slotRoute ref).any (changed.contains ·)
    | .patch | .nobody => false)

/-- The input that a port's holder gives at a take (R127). -/
def desiredInput (s : State) (x : XPort) : Input :=
  match x.holder with
  | .slot ref => match s.slotRoute ref with
    | some r => .route r
    | none => .park
  | .patch => match x.patch with
    | some r => .route r
    | none => .park
  | .nobody => .park

/-- The ports that are SUSPECT (R122). -/
def suspectPorts (s : State) : List (Fin 32) :=
  (List.finRange 32).filter fun p => (s.xport p).committed = .suspect

end State

/-- A set of ports as 32 bits, bit p for port p (Table 11-10). -/
def portSet (ports : List (Fin 32)) : BitVec 32 :=
  ports.foldl (fun acc p => acc ||| BitVec.twoPow 32 p.val) 0

end Sys2Proof.Machine
end

