-- ==== Sys2Proof/Machine/Protection.lean ====
section
/-! DEFINITION. PSEL: comparing routes, evaluation, the timers, and what a selection change hands on (R45 to R57). -/

namespace Sys2Proof.Machine

/-- The compared rank of a health: 2 high, 1 middle, 0 low (Table 3-3). -/
def comparedRank (degSwitch : Bool) : Health → Nat
  | .ok => 2
  | .degraded => if degSwitch then 1 else 2
  | .failed | .works | .drill => 0

/-- A timer started now for `d` ms; with d = 0 none runs (R49). -/
def startTimer (now d : Nat) : Option Nat := if d = 0 then none else some (now + d)

namespace State

/-- The compared rank of one route of circuit `c` (R45). -/
def rankOf (s : State) (c : Fin 24) (side : Side) : Nat :=
  comparedRank (s.circuit c).degSwitch (s.health (routeOf c side))

/-- One route of circuit `c` ranks below the other (R45). -/
def ranksBelow (s : State) (c : Fin 24) (side : Side) : Bool := decide (s.rankOf c side < s.rankOf c side.other)

/-- The A route of circuit `c` is restored (R45). -/
def restoredA (s : State) (c : Fin 24) : Bool := decide (s.rankOf c .a = 2)

/-- PSEL hands on a change of the selected route of circuit `c` (R57): XPC takes the re-source, MTR the count. -/
def handSelection (s : State) (c : Fin 24) (old new : Side) : State :=
  (s.resource (routeOf c .a) (routeOf c old) (routeOf c new)).countProtection (routeOf c .a)

/-- Circuit `c` of PAIR takes a selector state with a reason, as a switch where the selected route changes and as a
change of state without a switch where it does not (R57, R58). -/
def changeSelector (s : State) (c : Fin 24) (st : SelState) (reason : CircuitReason) : State :=
  let k := s.circuit c
  let old := s.selectedSide c
  let switched := old.any (· != st.side)
  let s1 := (s.setCircuit c { k with
    selector := some st
    switchCount := if switched then satAdd max16 k.switchCount 1 else k.switchCount
    lastReason := reason
    changeFrame := s.tb.frame }).raise (circuitObject c)
  match old with
  | some side => if side != st.side then s1.handSelection c side st.side else s1
  | none => s1

/-- A switch that starts the guard timer and stops the WTR timer (R48, R49, R51). -/
def guardedSwitch (s : State) (c : Fin 24) (st : SelState) (reason : CircuitReason) : State :=
  let k := s.circuit c
  (s.setCircuit c { k with guard := startTimer s.tb.elapsed k.guardTime, wtr := none }).changeSelector c st reason

/-- WTR expiry (R51). -/
def wtrExpire (s : State) (c : Fin 24) : State := s.guardedSwitch c .selA .wtrExpiry

/-- Entry to WTR (R47), passed through at once with a period of 0 (R51). -/
def enterWtr (s : State) (c : Fin 24) : State :=
  let k := s.circuit c
  let s1 := (s.setCircuit c { k with wtr := some (s.tb.elapsed + k.wtrSecs * 1000) }).changeSelector c .wtr .auto
  if k.wtrSecs = 0 then s1.wtrExpire c else s1

/-- PSEL evaluates circuit `c`, a switch carrying `reason` (R46, R47, R48). -/
def evaluate (s : State) (c : Fin 24) (reason : CircuitReason) : State :=
  let k := s.circuit c
  match k.selector with
  | some .selA =>
    if k.guard.isNone && s.ranksBelow c .a then s.guardedSwitch c .selB reason else s
  | some .selB =>
    if k.guard.isNone && s.ranksBelow c .b then s.guardedSwitch c .selA reason
    else if k.revertive && s.restoredA c && (s.health (routeOf c .b)).usable then s.enterWtr c
    else s
  | some .wtr =>
    if k.guard.isNone && s.ranksBelow c .b then s.guardedSwitch c .selA reason
    else if !s.restoredA c then (s.setCircuit c { k with wtr := none }).changeSelector c .selB .auto
    else s
  | some .forcedA | some .forcedB | some .lockout | none => s

/-- The automatic state with a given route selected (R53, R55). -/
def autoState : Side → SelState
  | .a => .selA
  | .b => .selB

/-- The guard and WTR timers of circuit `c` are stopped (R42, R52, R54, R55). -/
def stopTimers (s : State) (c : Fin 24) : State := s.setCircuit c { s.circuit c with guard := none, wtr := none }

/-- PSEL takes a change of effective health at circuit `c` (R46, R53); `changed` are the routes that changed. -/
def pselCircuit (changed : List (Fin 48)) (s : State) (c : Fin 24) : State :=
  match (s.circuit c).selector with
  | some .forcedA | some .forcedB =>
    match s.selectedSide c with
    | some side =>
      if changed.contains (routeOf c side) && !(s.health (routeOf c side)).usable then
        ((s.stopTimers c).changeSelector c (autoState side) .forceDropped).evaluate c .forceDropped
      else s
    | none => s
  | some .selA | some .selB | some .wtr => s.evaluate c .auto
  | some .lockout | none => s

/-- PSEL takes the changes of effective health that RMON hands on together (R45, R46). DESIGN CHOICE (log entry 28): the
selection changes of several circuits reach XPC and MTR in circuit order. -/
def pselHealth (s : State) (changed : List (Fin 48)) : State :=
  ((List.finRange 24).filter fun c => changed.any fun r => circuitOf r == c).foldl (pselCircuit changed) s

end State

end Sys2Proof.Machine
end

