-- ==== Sys2Proof/Machine/Health.lean ====
section
/-! DEFINITION. RMON: raw state, hold-offs, measured, effective and reported health, and the one event in which a change
of effective health is worked out and handed on (R17 to R25, R32, R34, R35). -/

namespace Sys2Proof.Machine

/-- Measured health (R25). -/
def Route.measured (r : Route) : Health :=
  if r.failed then .failed else if r.degraded then .degraded else .ok

/-- The raw state becomes BAD (R20). -/
def Route.toBad (now : Nat) (r : Route) : Route :=
  if r.bad then r
  else if r.failed then { r with bad := true, clearTimer := none }
  else if r.settings.failHold = 0 then { r with bad := true, failed := true }
  else { r with bad := true, failTimer := some (now + r.settings.failHold) }

/-- The raw state becomes GOOD (R21). -/
def Route.toGood (now : Nat) (r : Route) : Route :=
  if !r.bad then r
  else if !r.failed then { r with bad := false, failTimer := none }
  else if r.settings.clearHold = 0 then { r with bad := false, failed := false }
  else { r with bad := false, clearTimer := some (now + r.settings.clearHold) }

/-- An errored-frame increment is added to the block sum (R23). -/
def Route.addErrors (r : Route) (n : Nat) : Route := { r with blockSum := satAdd max16 r.blockSum n }

/-- The route at a block close (R24). -/
def Route.closeBlock (r : Route) : Route :=
  { r with
    blockSum := 0
    degraded :=
      if r.settings.degThr = 0 then false
      else if r.settings.degThr ≤ r.blockSum then true
      else if r.blockSum < r.settings.clrThr then false
      else r.degraded }

/-- The works window covers a second (2.4). -/
def worksCovers (start stop second : Nat) : Bool := decide (start ≤ second ∧ second < stop)

/-- The route at the works edges of second `n` (R27). -/
def Route.worksEdge (n : Nat) (r : Route) : Route :=
  if r.worksStart = n ∧ n < r.worksEnd then { r with worksActive := true }
  else if r.worksEnd = n then { r with worksActive := false }
  else r

/-- The route at a backward step to second `n` (R29): the active flag of an enabled window is set anew. -/
def Route.worksStepBack (n : Nat) (r : Route) : Route :=
  if r.worksStart ≤ r.worksEnd then { r with worksActive := worksCovers r.worksStart r.worksEnd n } else r

namespace State

/-- `s` with every route of RMON changed by `f`. -/
def mapRoutes (s : State) (f : Route → Route) : State :=
  { s with rmon := { s.rmon with routes := tab fun r => f (s.route r) } }

/-- `s` with route `r` of RMON changed by `f`. -/
def onRoute (s : State) (r : Fin 48) (f : Route → Route) : State := s.setRoute r (f (s.route r))

/-- A drill is ACTIVE on route `r`. -/
def drilled (s : State) (r : Fin 48) : Bool :=
  match s.drill (circuitOf r) with
  | some d => match d.phase with
    | .active _ => d.side = sideOf r
    | .countdown _ => false
  | none => false

/-- The effective health that the inputs of route `r` give (R34). -/
def healthNow (s : State) (r : Fin 48) : Health :=
  if s.drilled r then .drill
  else if (s.route r).worksActive then .works
  else (s.route r).measured

/-- The drill of circuit `c` is aborted when its partner route is not OK (R32). -/
def partnerAbort (s : State) (c : Fin 24) : State :=
  match s.drill c with
  | some d => if s.healthNow (routeOf c d.side.other) = .ok then s else s.setDrill c none
  | none => s

/-- Route `r` takes the effective health its inputs give, with its change frame; then effective and reported health are
compared (R34, R35). -/
def applyHealth (s : State) (r : Fin 48) : State :=
  let x := s.route r
  let h := s.healthNow r
  let s1 := s.setRoute r { x with effective := h, changeFrame := s.tb.frame }
  if h = x.reported then
    (s1.setRoute r { x with effective := h, changeFrame := s.tb.frame, flaps := satAdd max16 x.flaps 1 }).withdraw
      (healthObject r)
  else s1.raise (healthObject r)

/-- RMON hands changes of effective health to PSEL and XPC, in either order (R34). -/
def handHealth (s : State) (changed : List (Fin 48)) : State :=
  if s.raceFirst then (s.raced.xpcHealth changed).pselHealth changed
  else (s.raced.pselHealth changed).xpcHealth changed

/-- The routes of some circuits. -/
def routesOf (cs : List (Fin 24)) : List (Fin 48) := cs.flatMap fun c => [routeOf c .a, routeOf c .b]

/-- One RMON event has changed inputs of routes of the circuits `cs`: drills are aborted by their partners, effective
health is worked out, and what changed is handed on together (R32, R34). -/
def healthEvent (s : State) (cs : List (Fin 24)) : State :=
  let s1 := cs.foldl partnerAbort s
  let changed := (routesOf cs).filter fun r => s1.healthNow r != s1.health r
  let s2 := changed.foldl applyHealth s1
  if changed.isEmpty then s2 else s2.handHealth changed

/-- A health event over all circuits. -/
def healthEventAll (s : State) : State := s.healthEvent (List.finRange 24)

/-- RMON takes the works edges of second `n`, all as one event (R27). -/
def worksEdges (s : State) (n : Nat) : State := (s.mapRoutes (Route.worksEdge n)).healthEventAll

end State

end Sys2Proof.Machine
end

