-- ==== Sys2Proof/Machine/Settlement.lean ====
section
/-! DEFINITION. STL: pricing, the settlement record, the queue, the closing list and the account totals (R161 to R169).
BKU: leaving the timelines and releasing a record (R95, R96). -/

namespace Sys2Proof.Machine

/-- A number of started granules: `n` divided by `g`, rounded up (R161). -/
def granulesUp (n g : Nat) : Nat := (n + g - 1) / g

/-- The money and granules of a settlement record (R161, R162). -/
structure Price where
  gs : Nat
  gt : Nat
  gc : Nat
  gross : Nat
  credit : Nat
  net : Nat
  saturated : Bool
  deriving DecidableEq, Repr

/-- The stages of pricing, then the clamp of the three money fields (R161, R162). -/
def priceMeters (t : TariffTerms) (m : MeterSet) : Price :=
  let gms := 1000 * t.granule
  let gs := granulesUp (m.s - m.t) gms
  let gt := granulesUp m.t gms
  let gc := m.oc / gms
  let time := gs * t.base + gt * t.overtime
  let gross := t.reservation + time + m.nt * t.swapFee
  let credit := min (gc * t.credit) time
  let net := gross - credit
  { gs := gs, gt := gt, gc := gc, gross := min gross max32, credit := min credit max32, net := min net max32,
    saturated := decide (max32 < gross ∨ max32 < credit ∨ max32 < net) }

/-- The price by outcome (R163). -/
def price (t : TariffTerms) (m : MeterSet) (outcome : Option Reason) : Price :=
  if outcome = some .cancelled then
    { gs := 0, gt := 0, gc := 0, gross := 0, credit := 0, net := 0, saturated := false }
  else priceMeters t m

/-- STL forms the settlement record of a booking that has left service (R155, R164). -/
def formSettlement (t : TariffTerms) (b : Booking) (m : MeterSet) : Settlement :=
  let x := price t m b.reason
  { id := b.id, account := b.account, tariff := b.tariff, outcome := b.reason, s0 := b.s0, e0 := b.e0, finalEnd := b.e,
    liveStart := b.liveStart, endSecond := b.endSecond, l := m.l, s := m.s, o := m.o, oc := m.oc, t := m.t,
    gs := x.gs, gt := x.gt, gc := x.gc, nt := m.nt, np := m.np, episodes := m.episodes, longest := m.longest,
    gross := x.gross, credit := x.credit, net := x.net, saturated := x.saturated, timeStepped := b.timeStepped,
    suspectSeen := m.suspectSeen, patchReleased := b.patchReleased, slots := b.feeds.zip b.ports }

/-- The totals of an account after an append (R169). -/
def Totals.add (t : Totals) (x : Settlement) : Totals :=
  { net := satAdd max48 t.net x.net, credit := satAdd max48 t.credit x.credit, closed := satAdd max16 t.closed 1 }

/-- The settlement queue has room (R165). -/
def STL.hasRoom (q : STL) : Bool := decide (q.queue.length < 64)

/-- A settlement record is appended and its account's totals rise (R165, R169). -/
def STL.append (q : STL) (x : Settlement) : STL :=
  { q with queue := q.queue ++ [x], totals := upd q.totals x.account ((q.totals.get x.account).add x) }

/-- A record is removed from the timelines of its ports (R96). -/
def BKU.leaveTimelines (k : BKU) (i : Fin 192) (ports : List (Fin 32)) : BKU :=
  { k with timelines := tab fun p =>
      if p ∈ ports then (k.timelines.get p).filter (· != i) else k.timelines.get p }

/-- The remaining entries of a record leave the time list (R81). -/
def BKU.dropEntries (k : BKU) (i : Fin 192) : BKU := { k with timeList := k.timeList.filter (·.record != i) }

/-- The account's count changed by `f` (R67). -/
def DIR.accountRefs (d : DIR) (a : Fin 16) (f : Nat → Nat) : DIR :=
  let x := d.accounts.get a
  { d with accounts := upd d.accounts a { x with refs := f x.refs } }

/-- The handoff's count changed by `f` (R67). -/
def DIR.handoffRefs (d : DIR) (h : Fin 16) (f : Nat → Nat) : DIR :=
  let x := d.handoffs.get h
  { d with handoffs := upd d.handoffs h { x with refs := f x.refs } }

/-- The tariff's count changed by `f` (R67). -/
def STL.tariffRefs (q : STL) (t : Fin 8) (f : Nat → Nat) : STL :=
  let x := q.tariffs.get t
  { q with tariffs := upd q.tariffs t { x with refs := f x.refs } }

namespace State

/-- The three counts of a booking's entries changed by `f` (R67). -/
def countRefs (s : State) (b : Booking) (f : Nat → Nat) : State :=
  { s with
    dir := (s.dir.accountRefs b.account f).handoffRefs b.handoff f
    stl := s.stl.tariffRefs b.tariff f }

/-- BKU releases the record in place `i` (R95). -/
def release (s : State) (i : Fin 192) : State :=
  match s.place i with
  | none => s
  | some p =>
    (({ s with bku := (s.bku.leaveTimelines i p.booking.ports).dropEntries i }.countRefs p.booking (· - 1)).withdraw
      (bookingObject i)).setPlace i none

/-- STL forms the settlement record of place `i` and offers it to the queue (R164, R165): appended with the booking
record released, or held with the record in CLOSING. The SETTLEMENT object is left to `announce`. -/
def settle (s : State) (i : Fin 192) : State :=
  match s.place i with
  | none => s
  | some p =>
    let x := formSettlement (s.terms p.booking) p.booking p.meter
    if s.stl.hasRoom then { s with stl := s.stl.append x }.release i
    else
      ({ s with
          stl := { s.stl with closing := s.stl.closing ++ [i] }
          bku := (s.bku.leaveTimelines i p.booking.ports).dropEntries i }.setPlace i
        (some { p with
          booking := { p.booking with state := .closing }, meter := { p.meter with phase := .frozen }
          held := some x })).raise (bookingObject i)

/-- The SETTLEMENT object becomes pending where records were appended since `before` (R165, R172). -/
def announce (s before : State) : State :=
  if before.stl.queue.length < s.stl.queue.length then s.raise settlementObject else s

/-- A record that has left service is settled in an event of its own. -/
def settleNow (s : State) (i : Fin 192) : State := (s.settle i).announce s

/-- STL serves the head of the closing list (R166). -/
def serveClosing (s : State) : State :=
  match s.stl.closing with
  | [] => s
  | i :: rest =>
    let s1 := { s with stl := { s.stl with closing := rest } }
    match (s.place i).bind (·.held) with
    | some x => (({ s1 with stl := s1.stl.append x }).raise settlementObject).release i
    | none => s1

end State

end Sys2Proof.Machine
end

