-- ==== Sys2Proof/Machine/LifeCycle.lean ====
section
/-! DEFINITION. BKU: the trigger, waiting, starting, run-on, ending, the time list, and take completion (R101 to R119). -/

namespace Sys2Proof.Machine

/-! ### The time list (R81) -/

/-- The place of a kind of entry in list order. -/
def EntryKind.order : EntryKind → Nat
  | .arm => 0
  | .start => 1
  | .stop => 2

/-- List order: the second, then the record index, then arm before start before end. -/
def TimeEntry.before (a b : TimeEntry) : Bool :=
  decide (a.second < b.second ∨ a.second = b.second ∧ (a.record < b.record ∨
    a.record = b.record ∧ a.kind.order < b.kind.order))

/-- An entry takes its place in the list. -/
def insertEntry (e : TimeEntry) : List TimeEntry → List TimeEntry
  | [] => [e]
  | x :: xs => if e.before x then e :: x :: xs else x :: insertEntry e xs

/-- A record's entry of a kind is removed. -/
def BKU.dropEntry (k : BKU) (i : Fin 192) (kind : EntryKind) : BKU :=
  { k with timeList := k.timeList.filter fun e => !(e.record == i && e.kind == kind) }

/-- A record's end entry is set to a second (R81). -/
def BKU.moveEnd (k : BKU) (i : Fin 192) (second : Nat) : BKU :=
  let k1 := k.dropEntry i .stop
  { k1 with timeList := insertEntry ⟨second, i, .stop, false⟩ k1.timeList }

/-- A record takes its place on a timeline by the start of its span (R79); `startOf` gives the starts of the others. -/
def insertByStart (startOf : Fin 192 → Nat) (i : Fin 192) (s0 : Nat) : List (Fin 192) → List (Fin 192)
  | [] => [i]
  | j :: js => if s0 < startOf j then i :: j :: js else j :: insertByStart startOf i s0 js

/-- The booking slots of a record, with their ports, in slot order. -/
def slotsOf (i : Fin 192) (b : Booking) : List (Fin 32 × SlotRef) :=
  b.ports.zipIdx.map fun (p, n) => (p, ⟨i, n, b.id⟩)

namespace State

/-! ### The trigger (R104) -/

/-- No other record on the timelines of the ports is in STARTING, LIVE or RUN_ON. -/
def portsFree (s : State) (i : Fin 192) (b : Booking) : Bool :=
  b.ports.all fun p => (s.timeline p).all fun j =>
    j == i || !(s.stateAt j == some .starting || s.stateAt j == some .live || s.stateAt j == some .runOn)

/-- Every feed of the record is available. -/
def feedsAvailable (s : State) (b : Booking) : Bool := b.feeds.all s.feedAvailable

/-- A record enters a state with a reason, and its BOOKING object becomes pending (R121). -/
def enterState (s : State) (i : Fin 192) (st : BookingState) (reason : Reason) : State :=
  (s.onBooking i fun b => { b with state := st, reason := some reason }).raise (bookingObject i)

/-- Entry to STARTING: the connects of every slot, ending patches (R107, R125, R135). -/
def enterStarting (s : State) (i : Fin 192) (reason : Reason) : State :=
  match s.place i with
  | none => s
  | some p =>
    let ended := p.booking.ports.any fun q => (s.xport q).patch.isSome
    let s1 := (s.onBooking i fun b => { b with patchReleased := b.patchReleased || ended }).enterState i .starting reason
    (slotsOf i p.booking).foldl (fun acc (q, ref) => acc.onXPort q (·.startConnect ref)) s1

/-- The result of the start test (R104): none when the record may start, or the reason to wait. -/
def startTest (s : State) (i : Fin 192) (b : Booking) : Option Reason :=
  if !s.portsFree i b then some .portOccupied
  else if b.startRule = .allOrWait ∧ !s.feedsAvailable b then some .feedsUnavailable
  else none

/-- A record is triggered with a cause (R104). -/
def trigger (s : State) (i : Fin 192) (cause : Reason) : State :=
  match s.place i with
  | none => s
  | some p => match s.startTest i p.booking with
    | none => s.enterStarting i cause
    | some why => s.enterState i .waiting why

/-- A WAITING record at a reference marker (R106). -/
def waitingTest (s : State) (i : Fin 192) : State :=
  match s.place i with
  | none => s
  | some p =>
    if p.booking.state = .waiting then
      match s.startTest i p.booking with
      | none => s.enterStarting i .waitEnded
      | some why => if p.booking.reason = some why then s else s.enterState i .waiting why
    else s

/-- BKU takes a reference marker (R106). -/
def waitingTests (s : State) : State := (List.finRange 192).foldl waitingTest s

/-- A cue edge setting matches a direction (R103). -/
def edgeMatches (setting : Option Edge) (dir : Edge) : Bool := setting == some dir || setting == some .both

/-- BKU takes the offer of a cue edge (R103). -/
def cueOffer (s : State) (line : Fin 4) (dir : Edge) : State :=
  (List.finRange 192).foldl (fun acc i =>
    match acc.place i with
    | none => acc
    | some p =>
      if p.booking.state = .armed ∧ p.booking.cueLine = some line ∧ edgeMatches p.booking.cueEdge dir then
        { acc with bku := acc.bku.dropEntry i .start }.trigger i .cueStart
      else acc) s

/-! ### Ending (R116) -/

/-- Entry to ENDING. -/
def enterEnding (s : State) (i : Fin 192) (reason : Reason) : State :=
  match s.place i with
  | none => s
  | some p =>
    let s1 := (s.onBooking i fun b => { b with endSecond := some s.tb.seconds }).enterState i .ending reason
    let s2 := s1.onMeter i (·.freeze (s.terms p.booking).grace)
    (slotsOf i p.booking).foldl (fun acc (q, ref) => acc.onXPort q (·.disconnect ref)) s2

/-! ### Run-on (R110, R111) -/

/-- The earliest span start at or after `e` among the other records on the ports of a record. -/
def nextStart (s : State) (i : Fin 192) (b : Booking) : Option Nat :=
  ((b.ports.flatMap s.timeline).filterMap fun j =>
    if j = i then none
    else match s.place j with
      | some p => if b.e ≤ p.booking.s0 then some p.booking.s0 else none
      | none => none).min?

/-- The extension length x, 0 where the manual's value is 0 or below (R111). -/
def extensionLength (s : State) (i : Fin 192) (b : Booking) : Nat :=
  let x := match s.nextStart i b with
    | none => b.quantum
    | some n => min b.quantum (n - s.dir.margin - b.e)
  min x (max32 - b.e)

/-- A run-on extension of length x is granted (R111, R150). -/
def grantRunOn (s : State) (i : Fin 192) (b : Booking) (x : Nat) : State :=
  let s1 := (s.onBooking i fun b => { b with
      e := b.e + x, extension := b.extension + x, used := b.used + 1, shortened := decide (x < b.quantum) }).enterState i
    .runOn .extended
  let s2 := { s1 with bku := s1.bku.moveEnd i (b.e + x) }
  if b.state = .live then s2.onMeter i fun m => { m with overtime := true } else s2

/-- The end entry of a record in LIVE or RUN_ON (R110). -/
def attemptRunOn (s : State) (i : Fin 192) (b : Booking) : State :=
  let x := s.extensionLength i b
  let first := b.runOn && decide (b.used < b.limit)
  if first ∧ 60 ≤ x then s.grantRunOn i b x
  else s.enterEnding i (if b.e = b.e0 then .completed else if first then .overrunCut else .runOnLimit)

/-- The end entry of a record in ARMED or WAITING (R118). -/
def noShow (s : State) (i : Fin 192) : State :=
  (s.onBooking i fun b => { b with reason := some .noShow, endSecond := some s.tb.seconds }).settleNow i

/-! ### Taking entries -/

/-- What a record's state does with an arm entry (R101). -/
def takeArm (s : State) (i : Fin 192) : State :=
  if s.stateAt i = some .scheduled then s.enterState i .armed .cueWindow else s

/-- What a record's state does with a start entry (R102). -/
def takeStart (s : State) (i : Fin 192) : State :=
  match s.place i with
  | none => s
  | some p =>
    if p.booking.trigger = .time ∧ p.booking.state = .scheduled
        ∨ p.booking.trigger = .timeOrCue ∧ p.booking.state = .armed then s.trigger i .timeStart
    else s

/-- What a record's state does with an end entry (R109, R110, R118). -/
def takeEnd (s : State) (i : Fin 192) : State :=
  match s.place i with
  | none => s
  | some p => match p.booking.state with
    | .live | .runOn => s.attemptRunOn i p.booking
    | .starting => s.enterEnding i (if p.booking.e = p.booking.e0 then .completed else .runOnLimit)
    | .armed | .waiting => s.noShow i
    | .scheduled | .ending | .closing => s

/-- An entry is taken: it leaves the list, and the record's state does with it what the life cycle gives (R81). -/
def takeEntry (s : State) (e : TimeEntry) : State :=
  let s1 := { s with bku := { s.bku with timeList := s.bku.timeList.filter (· != e) } }
  match e.kind with
  | .arm => s1.takeArm e.record
  | .start => s1.takeStart e.record
  | .stop => s1.takeEnd e.record

/-- The latest second whose boundary has been handed to BKU. -/
def handedSecond (s : State) : Nat := if s.tb.boundary.isSome then s.tb.seconds - 1 else s.tb.seconds

/-- An entry is due when the boundary of its second has been handed on (R81), or at once where it was due at admission
(R90). -/
def entryDue (s : State) (e : TimeEntry) : Bool := decide (e.second ≤ s.handedSecond) || e.atOnce

/-- The entry that BKU takes next: the first of the list that is due (R81, R90). -/
def nextEntry (s : State) : Option TimeEntry := s.bku.timeList.find? s.entryDue

/-! ### Take completion (R108, R117) -/

/-- Entry to LIVE (R108, R147). -/
def enterLive (s : State) (i : Fin 192) : State :=
  match s.place i with
  | none => s
  | some p =>
    ((s.onBooking i fun b => { b with liveStart := some s.tb.seconds }).enterState i .live .onAir).onMeter i
      (·.start (s.terms p.booking).basis)

/-- The disconnect take of a record in ENDING has completed (R117). -/
def disconnected (s : State) (i : Fin 192) : State :=
  match s.place i with
  | none => s
  | some p => { s with bku := s.bku.leaveTimelines i p.booking.ports }.settle i

/-- What a take completion does for the record in place `i`. -/
def completeRecord (included : List Rider) (s : State) (i : Fin 192) : State :=
  if included.contains ⟨i, false⟩ && s.stateAt i == some .ending then s.disconnected i
  else if included.contains ⟨i, true⟩ && s.stateAt i == some .starting then s.enterLive i
  else s

/-- BKU takes the report of a take completion, as one event in booking-table order (R108, R117). -/
def bkuCompletion (s : State) (included : List Rider) : State :=
  ((List.finRange 192).foldl (completeRecord included) s).announce s

end State

end Sys2Proof.Machine
end

