-- ==== Sys2Proof/Machine/Takes.lean ====
section
/-! DEFINITION. XPC's takes: take start, completion, confirms and the confirm timer (R127 to R131, R140, R154). -/

namespace Sys2Proof.Machine

/-- A take start at one included port: the holder becomes the desired holder, and the entry is removed (R127 steps 1
and 3). A flag does not outlive the holder it was kept for (R137). -/
def XPort.include (x : XPort) : XPort :=
  { x with
    holder := x.claim
    entry := none
    delivered := if x.claim = x.holder then x.delivered else none }

namespace State

/-- The take completes (R131): XPC is IDLE, the take is recorded, and BKU takes the report. -/
def completeTake (s : State) (leftSuspect : Nat) : State :=
  let x := s.xpc
  { s with xpc := { x with
      inFlight := false
      orders := []
      timer := none
      included := []
      lastTake := some ⟨x.stamp, x.sent, x.confirmed, leftSuspect⟩ } }.bkuCompletion x.included

/-- The ports that a take includes: those with a pending entry and those that are SUSPECT (R127). -/
def takePorts (s : State) : List (Fin 32) :=
  (List.finRange 32).filter fun p => (s.xport p).entry.isSome || (s.xport p).committed == .suspect

/-- The order that an included port gets, none where it already carries the desired input (R127 step 4). -/
def orderFor (s : State) (p : Fin 32) : Option Order :=
  let input := s.desiredInput (s.xport p)
  if (s.xport p).committed = input.committed then none else some ⟨p, input⟩

/-- XPC starts a take of some ports, stamped with the present frame number (R127, R128). -/
def startTake (s : State) (ports : List (Fin 32)) : State :=
  let riders := ports.flatMap fun p => (s.xport p).entryOrNew.riders
  let s1 := ports.foldl (fun acc p => acc.onXPort p XPort.include) s
  let orders := ports.filterMap s1.orderFor
  let s2 := { s1 with xpc := { s1.xpc with
    orders := orders
    included := riders
    stamp := s.tb.frame
    sent := orders.length
    confirmed := 0
    matrixOut := orders.map Order.word } }
  let s3 := s2.recomputeFlags ports
  if orders.isEmpty then s3.completeTake 0
  else { s3 with xpc := { s3.xpc with inFlight := true, timer := some (s.tb.elapsed + s.xpc.timeout) } }

/-- XPC takes a reference marker (R127). -/
def xpcMarker (s : State) : State :=
  if s.xpc.inFlight || s.takePorts.isEmpty then s else s.startTake s.takePorts

/-- A confirm that matches an open order (R129). -/
def acceptConfirm (s : State) (o : Order) : State :=
  let wasSuspect := (s.xport o.port).committed = .suspect
  let rest := s.xpc.orders.filter (· != o)
  let s1 := s.onXPort o.port fun x => { x with committed := o.input.committed }
  let s2 := { s1 with xpc := { s1.xpc with orders := rest, confirmed := s.xpc.confirmed + 1 } }.recomputeFlags [o.port]
  let s3 := if wasSuspect ∧ s2.suspectPorts = [] then s2.raise takeObject else s2
  if rest.isEmpty then s3.completeTake 0 else s3

/-- XPC takes a confirm (R129). -/
def takeConfirm (s : State) (o : Order) : State :=
  if s.xpc.inFlight && s.xpc.orders.contains o then s.acceptConfirm o else s

/-- MTR takes a SUSPECT event naming the slot that holds a port (R154). -/
def suspectEvent (s : State) (p : Fin 32) : State :=
  match (s.xport p).holder with
  | .slot ref => s.onPlace ref.record fun q =>
      if q.booking.id = ref.id then { q with meter := { q.meter with suspectSeen := true } } else q
  | .patch | .nobody => s

/-- The confirm timer expires (R130). -/
def confirmExpire (s : State) : State :=
  let ports := s.xpc.orders.map (·.port)
  let newly := ports.filter fun p => (s.xport p).committed != .suspect
  let s1 := ports.foldl (fun acc p => acc.onXPort p fun x => { x with committed := .suspect }) s
  let s2 := { s1 with xpc := { s1.xpc with newlySuspect := s1.xpc.newlySuspect ||| portSet newly, orders := [] } }
  let s3 := (ports.foldl suspectEvent s2).recomputeFlags ports
  (s3.raise takeObject).completeTake ports.length

end State

end Sys2Proof.Machine
end

