-- ==== Sys2Proof/Machine/TimeBase.lean ====
section
/-! DEFINITION. TB: the reference marker, the internal generator, the reference pulse and the loss limit (R8 to R13); the
second boundary and the steps of network time (R2, R5 to R7, R29). -/

namespace Sys2Proof.Machine

/-- The frame period P of a rate code, in oscillator counts (Table 1-4). -/
def period : Fin 4 → Nat
  | 0 => 1080000
  | 1 => 900900
  | 2 => 540000
  | 3 => 450450

/-- Oscillator counts in a millisecond (R1). -/
abbrev tickCounts : Nat := 27000

/-- The frame number after a marker (R13). -/
def nextFrame (frame frameMax : Nat) : Nat :=
  if frameMax = 0 then 0 else if frame < frameMax then frame + 1 else 1

/-- A record between its trigger and its disconnect, or armed (R4, R7). -/
def BookingState.active : BookingState → Bool
  | .armed | .waiting | .starting | .live | .runOn | .ending => true
  | .scheduled | .closing => false

/-- A drill enters ACTIVE at elapsed time `now`, and its duration expiry is fixed (R31). -/
def Drill.activate (now : Nat) (d : Drill) : Drill := { d with phase := .active (now + d.duration) }

/-- The marker brings the count of a drill in COUNTDOWN to 0 (R31). -/
def Drill.runsOut (d : Drill) : Bool :=
  match d.phase with
  | .countdown n => decide (n ≤ 1)
  | .active _ => false

/-- A drill at a marker (R31): the markers remaining of a COUNTDOWN fall by one, and at 0 the drill enters ACTIVE. -/
def Drill.count (now : Nat) (d : Drill) : Drill :=
  match d.phase with
  | .countdown n => if n ≤ 1 then d.activate now else { d with phase := .countdown (n - 1) }
  | .active _ => d

namespace TB

/-- The period of the selected rate. -/
def periodNow (t : TB) : Nat := period t.rate

/-- The instant at which the internal generator next reaches its period (R8): at once where that has passed. -/
def nextInstant (t : TB) : Nat := max t.osc (t.genRestart + t.periodNow)

/-- The instant of the loss limit after the last accepted pulse (R10). -/
def lossInstant (t : TB) : Nat := max t.osc (t.lastPulse + 3 * t.periodNow)

/-- The generator reaches its period by the next millisecond tick. -/
def instantDue (t : TB) : Bool := decide (t.nextInstant ≤ t.lastTick + tickCounts)

/-- The loss limit is reached by the next millisecond tick. -/
def lossDue (t : TB) : Bool := t.refState == .locked && decide (t.lossInstant ≤ t.lastTick + tickCounts)

end TB

namespace State

/-! ### The marker -/

/-- The circuits whose drill becomes active at a marker (R31). -/
def drillsRunOut (s : State) : List (Fin 24) := (List.finRange 24).filter fun c => (s.drill c).any Drill.runsOut

/-- RMON takes a marker (R31): every drill is counted down, and the routes of those that become active go to DRILL, all in
one event. -/
def rmonMarker (s : State) : State :=
  State.healthEvent
    { s with rmon := { s.rmon with drills := tab fun c => (s.drill c).map (Drill.count s.tb.elapsed) } } s.drillsRunOut

/-- The routes whose effective health differs between two states. -/
def healthChanges (before after : State) : List (Fin 48) :=
  (List.finRange 48).filter fun r => before.health r != after.health r

/-- XPC and MTR take the selection changes that PSEL made between two states, in circuit order (R57, log entry 28). -/
def handSelections (before after s : State) : State :=
  (List.finRange 24).foldl (fun s c => match before.selectedSide c, after.selectedSide c with
    | some old, some new => if old = new then s else s.handSelection c old new
    | _, _ => s) s

/-- RMON takes the marker, and PSEL what RMON hands on, before XPC and MTR take any of it: what they are handed and
`others` are then taken in any order, so that a take may start on a selection whose re-source XPC has yet to take
(R132). -/
def splitMarker (others : List (State → State)) (s : State) : State :=
  let t := s.rmonMarker
  { t with xpc := s.xpc, bku := s.bku }.inAnyOrder
    ((·.xpcHealth (s.healthChanges t)) :: s.handSelections t :: others)

/-- RMON, BKU and XPC take the marker, each as an event of its own, in any order (R13, R106, R132, log entry 4). What a
drill that becomes active hands on is taken with RMON's event or apart from it. -/
def allReaders (s : State) : State :=
  if s.raceFirst then s.raced.inAnyOrder [rmonMarker, waitingTests, xpcMarker]
  else
    let s1 := s.raced
    if s1.raceFirst then s1.raced.splitMarker [waitingTests, xpcMarker]
    else s1.raced.waitingTests.splitMarker [xpcMarker]

/-- TB's part of a reference marker, and TCU's pulse (R13, R183). -/
def markerStamp (s : State) : State :=
  { s with
    tb := { s.tb with frame := nextFrame s.tb.frame s.tb.frameMax, lastMarker := s.tb.osc }
    tcu := { s.tcu with markerPulse := some 2 } }

/-- A reference marker (R13): the frame number rises, and the marker is handed to RMON, BKU, XPC and TCU. -/
def marker (s : State) : State := s.markerStamp.allReaders

/-! ### The sources of the marker -/

/-- The internal generator reaches its period (R8). In LOCKED its instants are no markers. -/
def frameInstant (s : State) : State :=
  let s1 := { s with tb := { s.tb with osc := s.tb.nextInstant, genRestart := s.tb.nextInstant } }
  if s.tb.refState = .locked then s1 else s1.marker

/-- The loss limit passes: HOLDOVER, REFERENCE pending, and a marker at the loss instant (R10). -/
def loseReference (s : State) : State :=
  ({ s with tb := { s.tb with
      osc := s.tb.lossInstant, genRestart := s.tb.lossInstant, refState := .holdover, qual := 0,
      prevPulse := none } }.raise referenceObject).marker

/-- TB's own instants that fall before oscillator instant `t` are taken, the earlier first. -/
def tbUpTo (s : State) (t : Nat) : State :=
  let s1 := if s.tb.nextInstant < t ∧ (s.tb.refState = .locked → s.tb.nextInstant < s.tb.lossInstant) then s.frameInstant
    else s
  let s2 := if s1.tb.refState = .locked ∧ s1.tb.lossInstant < t then s1.loseReference else s1
  if s2.tb.nextInstant < t then s2.frameInstant else s2

/-- A pulse in LOCKED (R10). -/
def lockedPulse (s : State) (t : Nat) : State :=
  if 9 * s.tb.periodNow ≤ 10 * (t - s.tb.lastPulse) then
    { s with tb := { s.tb with osc := t, lastPulse := t, genRestart := t } }.marker
  else { s with tb := { s.tb with osc := t } }

/-- The interval from the previous pulse is within 0.9P..1.1P (R11). -/
def goodInterval (s : State) (t : Nat) : Bool :=
  match s.tb.prevPulse with
  | some p => decide (9 * s.tb.periodNow ≤ 10 * (t - p) ∧ 10 * (t - p) ≤ 11 * s.tb.periodNow)
  | none => false

/-- A pulse in SEEKING or HOLDOVER (R11): it is scored, and the eighth good interval locks. -/
def scoredPulse (s : State) (t : Nat) : State :=
  let q := if s.goodInterval t then s.tb.qual + 1 else 0
  if q = 8 then
    let s1 := { s with tb := { s.tb with
      osc := t, qual := q, prevPulse := some t, lastPulse := t, genRestart := t,
      refState := .locked } }.raise referenceObject
    if s.tb.periodNow ≤ 2 * (t - s.tb.lastMarker) then s1.marker else s1
  else { s with tb := { s.tb with osc := t, qual := q, prevPulse := some t } }

/-- A pulse on the reference input at oscillator instant `t` (R10, R11). -/
def pulseAt (s : State) (t : Nat) : State :=
  match s.tb.refState with
  | .free => { s with tb := { s.tb with osc := t } }
  | .locked => s.lockedPulse t
  | .seeking | .holdover => s.scoredPulse t

/-! ### The second boundary -/

/-- TB hands an outstanding second boundary to BKU and RMON (R2). -/
def handBoundary (s : State) : State :=
  match s.tb.boundary with
  | some n => { s with tb := { s.tb with boundary := none }, rmon := { s.rmon with worksDue := some n } }
  | none => s

/-- RMON takes the works edges of the second handed to it (R27). -/
def takeWorksEdge (s : State) : State :=
  match s.rmon.worksDue with
  | some n => { s with rmon := { s.rmon with worksDue := none } }.worksEdges n
  | none => s

/-- BKU takes at most so many entries at one instant: those on the list and one more for each run-on grant, of which a
record has at most 15 (R82, R111). -/
def takeFuel (s : State) : Nat := s.bku.timeList.length + 192 * 16

/-- BKU takes the entries that are due, in list order, at most `fuel` of them. -/
def takeDueEntries : Nat → State → State
  | 0, s => s
  | fuel + 1, s => match s.nextEntry with
    | some e => takeDueEntries fuel (s.takeEntry e)
    | none => s

/-- What was due at the present second is taken: the second boundary is handed on, then RMON takes its works edges and BKU
its entries (log entry 3). -/
def takeSecond (s : State) : State :=
  let s1 := s.handBoundary.takeWorksEdge
  takeDueEntries s1.takeFuel s1

/-! ### Steps of network time -/

/-- TIME_STEPPED is set for every record that is in one of the states of R7. -/
def flagStepped (s : State) : State :=
  s.mapPlaces fun p =>
    if p.booking.state.active then { p with booking := { p.booking with timeStepped := true } } else p

/-- An entry is taken in a replay: TIME_STEPPED is set for a record that it moves out of SCHEDULED (R7). -/
def replayEntry (s : State) (e : TimeEntry) : State :=
  let s1 := s.takeEntry e
  if s.stateAt e.record = some .scheduled ∧ s1.stateAt e.record ≠ some .scheduled then
    s1.onBooking e.record fun b => { b with timeStepped := true }
  else s1

/-- BKU takes the entries of one replayed second, in list order (R5). -/
def replayEntries (t : Nat) : Nat → State → State
  | 0, s => s
  | fuel + 1, s => match s.bku.timeList with
    | e :: _ => if e.second ≤ t then replayEntries t fuel (s.replayEntry e) else s
    | [] => s

/-- One replayed second `t` is handed to RMON and BKU, which take it in either order (R5, R105). -/
def replaySecond (s : State) (t : Nat) : State :=
  let fuel := s.takeFuel
  if s.raceFirst then replayEntries t fuel (s.raced.worksEdges t)
  else (replayEntries t fuel s.raced).worksEdges t

/-- The seconds after `lo` and up to `hi` at which RMON has a works edge. -/
def worksSeconds (s : State) (lo hi : Nat) : List Nat :=
  ((List.finRange 48).flatMap fun r => [(s.route r).worksStart, (s.route r).worksEnd]).filter fun t =>
    decide (lo < t ∧ t ≤ hi)

/-- The next second of the replay that holds an expiry (R5). -/
def nextReplay (s : State) (lo hi : Nat) : Option Nat :=
  (s.worksSeconds lo hi ++ (s.bku.timeList.take 1).filterMap fun e =>
    if e.second ≤ hi then some (max e.second (lo + 1)) else none).min?

/-- The replay of the seconds after `lo` up to `hi` (R5). -/
def replay (hi : Nat) : Nat → Nat → State → State
  | 0, _, s => s
  | fuel + 1, lo, s => match s.nextReplay lo hi with
    | some t => replay hi fuel t (s.replaySecond t)
    | none => s

/-- The replay takes at most so many seconds: one for each time-list entry, works edge and run-on grant. -/
def replayFuel (s : State) : Nat := s.bku.timeList.length + 96 + 192 * 16

/-- A forward step from the present second to `n` (R5, R7). -/
def stepForward (s : State) (n : Nat) : State :=
  let s1 := { s with tb := { s.tb with seconds := n, sub := 0 } }.flagStepped
  replay n s1.replayFuel s.tb.seconds s1

/-- A backward step to `n` (R6, R7, R29). -/
def stepBack (s : State) (n : Nat) : State :=
  ({ s with tb := { s.tb with seconds := n, sub := 0 } }.flagStepped.mapRoutes (Route.worksStepBack n)).healthEventAll

end State

end Sys2Proof.Machine
end

