-- ==== Sys2Proof/Machine/RequestsTime.lean ====
section
/-! DEFINITION. The requests of TB and RMON: SET_TIME, READ_TIME, SET_REFERENCE (R3, R4, R9) and SET_ROUTE, SET_WORKS,
READ_HEALTH, DRILL, DRILL_ABORT (R26, R28, R30, R33, R37). -/

namespace Sys2Proof.Machine

namespace State

/-- The clock fields of a SET_TIME reply. -/
def timeResult (s : State) : Result := .time s.tb.seconds s.tb.sub

/-- A step from second `c` to `n` is larger than 2 s. -/
def bigStep (c n : Nat) : Bool := decide (c + 2 < n ∨ n + 2 < c)

/-- Some booking record is in one of the states that R4 names. -/
def anyActive (s : State) : Bool := !(s.recordsWhere fun b => b.state.active).isEmpty

/-- SET_TIME (R4). What was due at the present second comes before the request is judged as a step (log entry 15). -/
def serveSetTime (s : State) (second : Word) : State × Answer :=
  let n := second.toNat
  let c := s.tb.seconds
  if n = c then
    let s1 := { s with tb := { s.tb with sub := 0 } }
    (s1, okWith s1.timeResult)
  else
    let s0 := s.takeSecond
    if bigStep c n && s0.anyActive then (s0, ⟨.timeStep, s0.timeResult⟩)
    else
      let s1 := if c < n then s0.stepForward n else s0.stepBack n
      (s1, okWith s1.timeResult)

/-- READ_TIME (R3). -/
def serveReadTime (s : State) : State × Answer :=
  (s, okWith (.clock s.tb.seconds s.tb.sub s.tb.elapsed s.tb.source s.tb.rate s.tb.refState s.tb.frame s.tb.frameMax))

/-- The reference state after an accepted SET_REFERENCE (R9). -/
def refAfter (t : TB) (source : Source) (rate : Fin 4) : RefState :=
  match source, t.refState with
  | .internal, _ => .free
  | .external, .free => .seeking
  | .external, st => if rate = t.rate then st else .seeking

/-- The request enters SEEKING (R9): a change of rate in SEEKING does too. -/
def entersSeeking (t : TB) (source : Source) (rate : Fin 4) : Bool :=
  source == .external && (t.refState == .free || rate != t.rate)

/-- SET_REFERENCE (R8, R9). With a new rate the generator's measure starts at the last marker, or, where LOCKED is left,
at the last accepted pulse (log entry 17). DESIGN CHOICE (unsafe, log entry 31): a marker that falls at once is a command
of its own, so a request served behind this one in the same step comes before it. -/
def serveSetReference (s : State) (source rate : Byte) (frameMax : Half) : State × Answer :=
  match sourceOf source, idOf 4 rate with
  | some src, some rt =>
    let t := s.tb
    let seek := entersSeeking t src rt
    let t1 := { t with
      source := src
      rate := rt
      frameMax := frameMax.toNat
      refState := refAfter t src rt
      qual := if seek then 0 else t.qual
      prevPulse := if seek then none else t.prevPulse
      genRestart := if rt = t.rate then t.genRestart
        else if t.refState = .locked then t.lastPulse
        else t.lastMarker }
    let s1 := { s with tb := t1 }
    (if t1.refState = t.refState then s1 else s1.raise referenceObject,
      okWith (.reference src rt frameMax.toNat t1.refState))
  | _, _ => (s, refusal .badField)

/-- SET_ROUTE (R26). -/
def serveSetRoute (s : State) (route : Byte) (failHold clearHold degThr clrThr : Half) : State × Answer :=
  match idOf 48 route with
  | none => (s, refusal .badField)
  | some r =>
    if degThr.toNat < clrThr.toNat then (s, refusal .badField)
    else
      let set : RouteSettings :=
        { failHold := clamp 0 1000 failHold.toNat, clearHold := clamp 0 60000 clearHold.toNat,
          degThr := degThr.toNat, clrThr := clrThr.toNat }
      let s1 := s.onRoute r fun x => { x with
        settings := set, degraded := if set.degThr = 0 then false else x.degraded }
      (if set.degThr = 0 then s1.healthEvent [circuitOf r] else s1, okWith (.route set))

/-- A record takes part in the works-conflict check of SET_WORKS (R28). -/
def worksChecked : BookingState → Bool
  | .scheduled | .armed | .waiting | .starting | .live | .runOn => true
  | .ending | .closing => false

/-- A feed meets a window [start, stop) on route `r` within [s0, e0) (R28, R86). -/
def feedMeetsWorks (s : State) (r : Fin 48) (start stop : Nat) (feed : Fin 48) (s0 e0 : Nat) : Bool :=
  let c := circuitOf r
  match (s.circuit c).mode with
  | .split => feed == r && overlaps start stop s0 e0
  | .pair =>
    let partner := s.route (routeOf c (sideOf r).other)
    feed == routeOf c .a && overlaps3 start stop partner.worksStart partner.worksEnd s0 e0

/-- The number of records that conflict with a new works window (R28). -/
def worksConflicts (s : State) (r : Fin 48) (start stop : Nat) : Nat :=
  (s.recordsWhere fun b =>
    worksChecked b.state && b.feeds.any fun f => s.feedMeetsWorks r start stop f b.s0 b.e0).length

/-- SET_WORKS (R28). -/
def serveSetWorks (s : State) (route : Byte) (start stop : Word) (force : Byte) : State × Answer :=
  match idOf 48 route, yesNo force with
  | some r, some forced =>
    let n := s.worksConflicts r start.toNat stop.toNat
    if 0 < n ∧ !forced then (s, ⟨.bookingConflict, .conflicts n⟩)
    else
      ((s.onRoute r fun x => { x with
          worksStart := start.toNat, worksEnd := stop.toNat,
          worksActive := worksCovers start.toNat stop.toNat s.tb.seconds }).healthEvent [circuitOf r],
        okWith (.works start.toNat stop.toNat n))
  | _, _ => (s, refusal .badField)

/-- The fields of the READ_HEALTH reply. -/
def healthView (s : State) (r : Fin 48) : HealthView :=
  let x := s.route r
  let d := s.drill (circuitOf r)
  let now := s.tb.elapsed
  { cardAlive := (s.rmon.cards.get (cardOf r)).isSome, bad := x.bad, failed := x.failed,
    failLeft := timeLeft x.failTimer now, clearLeft := timeLeft x.clearTimer now, degraded := x.degraded,
    blockSum := x.blockSum, measured := x.measured, effective := x.effective, changeFrame := x.changeFrame,
    worksStart := x.worksStart, worksEnd := x.worksEnd, worksActive := x.worksActive,
    drillRoute := d.map fun d => routeOf (circuitOf r) d.side
    drillRemaining := d.bind fun d => match d.phase with
      | .countdown n => some n
      | .active _ => none
    drillLeft := d.bind fun d => match d.phase with
      | .countdown _ => none
      | .active t => some (t - now)
    flaps := x.flaps, settings := x.settings }

/-- READ_HEALTH (R37). -/
def serveReadHealth (s : State) (route : Byte) : State × Answer :=
  match idOf 48 route with
  | none => (s, refusal .badField)
  | some r =>
    ((s.onRoute r fun x => { x with reported := x.effective }).withdraw (healthObject r), okWith (.health (s.healthView r)))

/-- Some booking record, in any state, holds one of some feeds. -/
def feedBooked (s : State) (feeds : List (Fin 48)) : Bool :=
  !(s.recordsWhere fun b => b.feeds.any feeds.contains).isEmpty

/-- DRILL is refused STATE (R30). -/
def drillRefused (s : State) (r : Fin 48) : Bool :=
  let c := circuitOf r
  ((s.circuit c).mode == .split && s.feedBooked [r]) ||
    s.health (routeOf c (sideOf r).other) != .ok || (s.drill c).isSome

/-- DRILL (R30). -/
def serveDrill (s : State) (route : Byte) (delay duration : Half) : State × Answer :=
  match idOf 48 route with
  | none => (s, refusal .badField)
  | some r =>
    if delay.toNat = 0 then (s, refusal .badField)
    else if s.drillRefused r then (s, refusal .state)
    else
      let d := clamp 10 60000 duration.toNat
      (s.setDrill (circuitOf r) (some { side := sideOf r, phase := .countdown delay.toNat, duration := d }),
        okWith (.drill r delay.toNat d))

/-- The name of a drill's phase (R33). -/
def phaseName : DrillPhase → DrillPhaseName
  | .countdown _ => .countdown
  | .active _ => .active

/-- DRILL_ABORT (R33). -/
def serveDrillAbort (s : State) (route : Byte) : State × Answer :=
  match idOf 48 route with
  | none => (s, refusal .badField)
  | some r =>
    let c := circuitOf r
    match s.drill c with
    | some d =>
      if d.side = sideOf r then
        let s1 := s.setDrill c none
        (match d.phase with
          | .active _ => s1.healthEvent [c]
          | .countdown _ => s1, okWith (.drillPhase (phaseName d.phase)))
      else (s, refusal .state)
    | none => (s, refusal .state)

end State

end Sys2Proof.Machine
end

