-- ==== Sys2Proof/Machine/RequestsCircuit.lean ====
section
/-! DEFINITION. The requests of PSEL: SET_CIRCUIT, FORCE, LOCKOUT, CLEAR, READ_CIRCUIT (R41 to R44, R52, R54, R55, R59). -/

namespace Sys2Proof.Machine

namespace State

/-- The mode, options and selection of a circuit (R41). -/
def circuitView (s : State) (c : Fin 24) : CircuitView :=
  let k := s.circuit c
  { mode := k.mode, revertive := k.revertive, degSwitch := k.degSwitch, guardTime := k.guardTime, wtrSecs := k.wtrSecs,
    selector := k.selector, selected := s.selectedRoute c }

/-- The resulting selection, as the protection orders report it (R52, R54, R55). -/
def protectionResult (s : State) (c : Fin 24) : Result :=
  .protection (s.circuit c).selector (s.selectedRoute c) (s.circuit c).switchCount

/-- A change of mode is refused IN_USE: a booking names a feed of the circuit, or a patch uses one of its routes (R41). -/
def circuitInUse (s : State) (c : Fin 24) : Bool :=
  s.feedBooked [routeOf c .a, routeOf c .b] ||
    (List.finRange 32).any fun p => (s.xport p).patch.any fun r => circuitOf r == c

/-- The accepted change from PAIR to SPLIT (R42). -/
def toSplit (s : State) (c : Fin 24) : State :=
  s.setCircuit c { s.circuit c with selector := none, guard := none, wtr := none }

/-- The accepted change from SPLIT to PAIR (R43). -/
def toPair (s : State) (c : Fin 24) : State :=
  (s.setCircuit c { s.circuit c with selector := some .selA, guard := none, wtr := none }).evaluate c .auto

/-- The effect of changed options on a circuit that stays in PAIR (R44); `old` is the circuit before the request. -/
def applyOptions (s : State) (c : Fin 24) (old : Circuit) : State :=
  let k := s.circuit c
  let s1 := if old.revertive ∧ !k.revertive ∧ k.selector = some .wtr then
      (s.setCircuit c { k with wtr := none }).changeSelector c .selB .auto
    else s
  if (old.revertive != k.revertive || old.degSwitch != k.degSwitch) && k.selector.any (·.automatic) then
    s1.evaluate c .auto
  else s1

/-- SET_CIRCUIT (R41 to R44). -/
def serveSetCircuit (s : State) (circuit mode revertive degSwitch : Byte) (guardTime wtrSecs : Half) : State × Answer :=
  match idOf 24 circuit, modeOf mode, yesNo revertive, yesNo degSwitch with
  | some c, some m, some rev, some deg =>
    let k := s.circuit c
    if m ≠ k.mode ∧ s.circuitInUse c then (s, refusal .inUse)
    else if m ≠ k.mode ∧ (s.drill c).isSome then (s, refusal .state)
    else
      let s1 := s.setCircuit c { k with
        revertive := rev, degSwitch := deg, guardTime := clamp 0 10000 guardTime.toNat,
        wtrSecs := clamp 0 3600 wtrSecs.toNat }
      let s2 := match k.mode, m with
        | .pair, .split => s1.toSplit c
        | .split, .pair => s1.toPair c
        | .pair, .pair => s1.applyOptions c k
        | .split, .split => s1
      (s2, okWith (.circuit (s2.circuitView c)))
  | _, _, _, _ => (s, refusal .badField)

/-- The held state of a forced side. -/
def forcedState : Side → SelState
  | .a => .forcedA
  | .b => .forcedB

/-- FORCE (R52). -/
def serveForce (s : State) (circuit target : Byte) : State × Answer :=
  match idOf 24 circuit, targetOf target with
  | some c, some side =>
    match (s.circuit c).selector with
    | none | some .lockout => (s, refusal .state)
    | some st =>
      if !(s.health (routeOf c side)).usable then (s, refusal .state)
      else
        let s1 := if st = forcedState side then s
          else (s.stopTimers c).changeSelector c (forcedState side) .force
        (s1, okWith (s1.protectionResult c))
  | _, _ => (s, refusal .badField)

/-- LOCKOUT (R54). -/
def serveLockout (s : State) (circuit : Byte) : State × Answer :=
  match idOf 24 circuit with
  | none => (s, refusal .badField)
  | some c => match (s.circuit c).selector with
    | none => (s, refusal .state)
    | some st =>
      let s1 := if st = .lockout then s else (s.stopTimers c).changeSelector c .lockout .lockout
      (s1, okWith (s1.protectionResult c))

/-- CLEAR (R55). -/
def serveClear (s : State) (circuit : Byte) : State × Answer :=
  match idOf 24 circuit with
  | none => (s, refusal .badField)
  | some c => match (s.circuit c).selector with
    | none => (s, refusal .state)
    | some st =>
      if st.automatic then (s, refusal .state)
      else
        let s1 := ((s.stopTimers c).changeSelector c (autoState st.side) .clear).evaluate c .clear
        (s1, okWith (s1.protectionResult c))

/-- READ_CIRCUIT (R59). The time to WTR expiry is given in seconds, rounded up. -/
def serveReadCircuit (s : State) (circuit : Byte) : State × Answer :=
  match idOf 24 circuit with
  | none => (s, refusal .badField)
  | some c =>
    let k := s.circuit c
    let now := s.tb.elapsed
    (s, okWith (.circuitStatus (s.circuitView c)
      { guardLeft := timeLeft k.guard now, wtrLeftSecs := (timeLeft k.wtr now).map fun ms => (ms + 999) / 1000,
        healthA := s.health (routeOf c .a), healthB := s.health (routeOf c .b), switchCount := k.switchCount,
        lastReason := k.lastReason, changeFrame := k.changeFrame }))

end State

end Sys2Proof.Machine
end

