-- ==== Sys2Proof/Machine/RequestsDirectory.lean ====
section
/-! DEFINITION. The requests of DIR: SET_PORT, SET_HANDOFF, SET_ACCOUNT, DELETE_ENTRY, SET_MARGIN (R62 to R66, R70), and
SET_TARIFF of STL (R159). -/

namespace Sys2Proof.Machine

/-- `d` with delivery port `p` changed by `f`. -/
def DIR.onPort (d : DIR) (p : Fin 32) (f : DirPort → DirPort) : DIR :=
  { d with ports := upd d.ports p (f (d.ports.get p)) }

/-- The handoff that each port records once handoff `h` has the members `members` (R65). -/
def DIR.assignPorts (d : DIR) (h : Fin 16) (members : List (Fin 32)) : DIR :=
  { d with ports := tab fun p =>
      let x := d.ports.get p
      if p ∈ members then { x with handoff := some h }
      else if x.handoff = some h then { x with handoff := none }
      else x }

/-- `d` with the entry of handoff `h` replaced. -/
def DIR.setEntry (d : DIR) (h : Fin 16) (e : Option HandoffEntry) : DIR :=
  { d with handoffs := upd d.handoffs h { d.handoffs.get h with entry := e } }

/-- `d` with the permitted set of account `a` replaced. -/
def DIR.setPermitted (d : DIR) (a : Fin 16) (p : Option Byte) : DIR :=
  { d with accounts := upd d.accounts a { d.accounts.get a with permitted := p } }

/-- `q` with tariff `t` changed by `f`. -/
def STL.onTariff (q : STL) (t : Fin 8) (f : Tariff → Tariff) : STL :=
  { q with tariffs := upd q.tariffs t (f (q.tariffs.get t)) }

namespace State

/-- The directory fields of a port (R62). -/
def portDirView (s : State) (p : Fin 32) : PortDirView :=
  { enabled := (s.dir.ports.get p).enabled, refs := s.portRefs p, handoff := (s.dir.ports.get p).handoff }

/-- SET_PORT (R62, R63, R136). A refused request carries the port's fields, where it names a port (log entry 6). -/
def serveSetPort (s : State) (port setting : Byte) : State × Answer :=
  match idOf 32 port, yesNo setting with
  | some p, some true =>
    let s1 := { s with dir := s.dir.onPort p fun x => { x with enabled := true } }
    (s1, okWith (.port p (s1.portDirView p)))
  | some p, some false =>
    if !(s.dir.ports.get p).enabled then (s, okWith (.port p (s.portDirView p)))
    else if s.portRefs p ≠ 0 then (s, ⟨.inUse, .port p (s.portDirView p)⟩)
    else
      let s1 := { s with dir := s.dir.onPort p fun x => { x with enabled := false } }.onXPort p XPort.disable
      (s1, okWith (.port p (s1.portDirView p)))
  | some p, none => (s, ⟨.badField, .port p (s.portDirView p)⟩)
  | none, _ => (s, refusal .badField)

/-- The fields of a SET_HANDOFF that pass the first check of R65: the member ports are in range and distinct. -/
def handoffFields (handoff account count port0 port1 port2 port3 maskPresent : Byte) (mask : Half) :
    Option (Fin 16 × HandoffEntry) :=
  match idOf 16 handoff, idOf 16 account, idsOf count.toNat 32 [port0, port1, port2, port3], yesNo maskPresent with
  | some h, some a, some members, some present =>
    if 1 ≤ count.toNat ∧ count.toNat ≤ 4 ∧ members.Nodup then
      some (h, { account := a, members := members, mask := if present then mask else 0xFFFF })
    else none
  | _, _, _, _ => none

/-- SET_HANDOFF (R65). -/
def serveSetHandoff (s : State) (handoff account count port0 port1 port2 port3 maskPresent : Byte) (mask : Half) :
    State × Answer :=
  match handoffFields handoff account count port0 port1 port2 port3 maskPresent mask with
  | none => (s, refusal .badField)
  | some (h, e) =>
    if (s.dir.handoffs.get h).refs ≠ 0 then (s, refusal .inUse)
    else if (s.dir.accounts.get e.account).permitted = none then (s, refusal .noSuch)
    else if e.members.any fun p => (s.dir.ports.get p).handoff.any (· != h) then (s, refusal .conflict)
    else ({ s with dir := (s.dir.setEntry h (some e)).assignPorts h e.members }, okWith (.handoff e 0))

/-- SET_ACCOUNT (R64). -/
def serveSetAccount (s : State) (account permitted : Byte) : State × Answer :=
  match idOf 16 account with
  | none => (s, refusal .badField)
  | some a =>
    if (s.dir.accounts.get a).refs ≠ 0 then (s, refusal .inUse)
    else ({ s with dir := s.dir.setPermitted a (some permitted) }, okWith (.account a permitted 0))

/-- DELETE_ENTRY of an account (R66). -/
def deleteAccount (s : State) (a : Fin 16) : State × Answer :=
  if (s.dir.accounts.get a).permitted = none then (s, refusal .noSuch)
  else if (s.dir.accounts.get a).refs ≠ 0 ∨
      (List.finRange 16).any fun h => (s.dir.handoffs.get h).entry.any fun e => e.account == a then (s, refusal .inUse)
  else ({ s with dir := s.dir.setPermitted a none }, okWith (.entry .account a.val))

/-- DELETE_ENTRY of a handoff (R66). -/
def deleteHandoff (s : State) (h : Fin 16) : State × Answer :=
  if (s.dir.handoffs.get h).entry = none then (s, refusal .noSuch)
  else if (s.dir.handoffs.get h).refs ≠ 0 then (s, refusal .inUse)
  else ({ s with dir := (s.dir.setEntry h none).assignPorts h [] }, okWith (.entry .handoff h.val))

/-- DELETE_ENTRY of a tariff (R66). -/
def deleteTariff (s : State) (t : Fin 8) : State × Answer :=
  if !(s.stl.tariffs.get t).valid then (s, refusal .noSuch)
  else if (s.stl.tariffs.get t).refs ≠ 0 then (s, refusal .inUse)
  else ({ s with stl := s.stl.onTariff t fun x => { x with valid := false } }, okWith (.entry .tariff t.val))

/-- DELETE_ENTRY (R66). -/
def serveDeleteEntry (s : State) (kind index : Byte) : State × Answer :=
  match entryClassOf kind with
  | none => (s, refusal .badField)
  | some .account => match idOf 16 index with
    | some a => s.deleteAccount a
    | none => (s, refusal .badField)
  | some .handoff => match idOf 16 index with
    | some h => s.deleteHandoff h
    | none => (s, refusal .badField)
  | some .tariff => match idOf 8 index with
    | some t => s.deleteTariff t
    | none => (s, refusal .badField)

/-- The number of records in the booking table. -/
def recordCount (s : State) : Nat := (s.recordsWhere fun _ => true).length

/-- SET_MARGIN (R70). -/
def serveSetMargin (s : State) (margin : Half) : State × Answer :=
  if 600 < margin.toNat then (s, refusal .badField)
  else if s.recordCount ≠ 0 then (s, refusal .inUse)
  else ({ s with dir := { s.dir with margin := margin.toNat } }, okWith (.margin margin.toNat))

/-- The terms of a SET_TARIFF, or the first field of Table 9-2 that is out of range, counted from 0 (R159). -/
def tariffTerms (f : TariffFields) : Nat ⊕ TariffTerms :=
  if f.granule.toNat = 0 ∨ 3600 < f.granule.toNat then .inl 0
  else if 16777215 < f.reservation.toNat then .inl 1
  else if 16777215 < f.swapFee.toNat then .inl 4
  else if 3600 < f.grace.toNat then .inl 6
  else match basisOf f.basis with
    | none => .inl 7
    | some b => .inr
      { granule := f.granule.toNat, reservation := f.reservation.toNat, base := f.base.toNat,
        overtime := f.overtime.toNat, swapFee := f.swapFee.toNat, credit := f.credit.toNat, grace := f.grace.toNat,
        basis := b }

/-- SET_TARIFF (R159). -/
def serveSetTariff (s : State) (f : TariffFields) : State × Answer :=
  match idOf 8 f.tariff with
  | none => (s, refusal .badField)
  | some t => match tariffTerms f with
    | .inl field => (s, ⟨.badField, .fieldAtFault field⟩)
    | .inr terms =>
      if (s.stl.tariffs.get t).refs ≠ 0 then (s, refusal .inUse)
      else
        ({ s with stl := s.stl.onTariff t fun x => { x with terms := terms, valid := true } },
          okWith (.tariff t terms true 0))

end State

end Sys2Proof.Machine
end

