-- ==== Sys2Proof/Machine/RequestsBooking.lean ====
section
/-! DEFINITION. The requests of BKU: BOOK with its admission checks and allocation (R69, R71 to R74, R82 to R90), AMEND,
CANCEL, END, SWAP, READ_BOOKING, LIST_PORT (R92 to R94, R97, R98, R113, R115), and READ_METER of MTR (R156). -/

namespace Sys2Proof.Machine

/-- The start member for a booking id (R72): the two-bit pieces of the masked id are combined, modulo the member count. -/
def startMember (id mask : Half) (m : Nat) : Nat :=
  let x := (id &&& mask).toNat
  let fold := (List.range 8).foldl (fun acc i => Nat.xor acc (x / 4 ^ i % 4)) 0
  fold % m

/-- The members in ring order from member `t` (R73). -/
def ringFrom (members : List (Fin 32)) (t : Nat) : List (Fin 32) := members.drop t ++ members.take t

/-- A span [a, b) is clear of [x, y) under a margin (R71). -/
def clearOf (margin a b x y : Nat) : Bool := decide (b + margin ≤ x ∨ y + margin ≤ a)

/-- The record that BOOK's fields describe, with no ports yet, as Table 5-2 takes them at network second `now` (R82). -/
def bookingOf (f : BookFields) (now : Nat) : Option Booking := do
  let account ← idOf 16 f.account
  let tariff ← idOf 8 f.tariff
  let handoff ← idOf 16 f.handoff
  let feeds ← idsOf f.count.toNat 48 [f.feed0, f.feed1, f.feed2, f.feed3]
  let trigger ← triggerOf f.trigger
  let rule ← startRuleOf f.startRule
  let runOn ← yesNo f.runOn
  let cue ← match trigger with
    | .time => some (none, none, none)
    | .cue | .timeOrCue => do
      let line ← idOf 4 f.cueLine
      let edge ← edgeOf f.cueEdge
      some (some line, some edge, some (clamp 0 3600 f.cueLead.toNat))
  if f.id ≠ 0 ∧ 1 ≤ f.count.toNat ∧ f.count.toNat ≤ 4 ∧ feeds.Nodup ∧ now < f.s0.toNat ∧
      f.s0.toNat + 60 ≤ f.e0.toNat ∧ f.e0.toNat ≤ f.s0.toNat + 86400 ∧ f.limit.toNat ≤ 15 then
    some { id := f.id, account := account, tariff := tariff, handoff := handoff, feeds := feeds, ports := [],
           s0 := f.s0.toNat, e0 := f.e0.toNat, e := f.e0.toNat, extension := 0, trigger := trigger, cueLine := cue.1,
           cueEdge := cue.2.1, cueLead := cue.2.2, startRule := rule, runOn := runOn,
           quantum := clamp 60 1800 f.quantum.toNat, limit := f.limit.toNat, used := 0, state := .scheduled,
           reason := none, shortened := false, timeStepped := false, patchReleased := false, liveStart := none,
           endSecond := none }
  else none

namespace State

/-- Check 1: the booking id is in use, in the table or in the settlement queue (R78, R84). -/
def idInUse (s : State) (id : Half) : Bool := (s.findRecord id).isSome || s.stl.queue.any (·.id == id)

/-- Check 2: the references of a booking (R69). -/
def checkReferences (s : State) (b : Booking) : Option Status :=
  match (s.dir.accounts.get b.account).permitted, (s.dir.handoffs.get b.handoff).entry with
  | none, _ | some _, none => some .noSuch
  | some permitted, some h =>
    if !(s.stl.tariffs.get b.tariff).valid then some .noSuch
    else if h.account ≠ b.account then some .badField
    else if !permitted.getLsbD b.tariff.val then some .badField
    else none

/-- Check 3: the first slot whose feed does not exist (R85). -/
def missingFeed (s : State) (b : Booking) : Option Nat := b.feeds.findIdx? fun f => (s.carrying f).isNone

/-- A feed meets a works window in the booked window (R86). -/
def feedHasWorks (s : State) (f : Fin 48) (s0 e0 : Nat) : Bool :=
  s.feedMeetsWorks f (s.route f).worksStart (s.route f).worksEnd f s0 e0

/-- Check 4: the first slot whose feed meets works (R86). -/
def worksSlot (s : State) (b : Booking) : Option Nat := b.feeds.findIdx? fun f => s.feedHasWorks f b.s0 b.e0

/-- Every span of the other records on a port's timeline is clear of [x, y) (R71, R80). -/
def portClear (s : State) (except : Option (Fin 192)) (p : Fin 32) (x y : Nat) : Bool :=
  (s.timeline p).all fun j => some j == except ||
    match s.place j with
    | some q => clearOf s.dir.margin q.booking.s0 q.booking.e x y
    | none => true

/-- Allocation of `n` more slots, from the members in ring order (R73): the ports, or the slot that finds none. -/
def allocate (s : State) (ring : List (Fin 32)) (x y : Nat) : Nat → List (Fin 32) → Nat ⊕ List (Fin 32)
  | 0, given => .inr given
  | n + 1, given =>
    match ring.find? fun p => (s.dir.ports.get p).enabled && !given.contains p && s.portClear none p x y with
    | some p => allocate s ring x y n (given ++ [p])
    | none => .inl given.length

/-- Check 5: the ports of the slots, or the slot at fault (R73, R87). -/
def allocatePorts (s : State) (b : Booking) : Nat ⊕ List (Fin 32) :=
  match (s.dir.handoffs.get b.handoff).entry with
  | none => .inl 0
  | some h => s.allocate (ringFrom h.members (startMember b.id h.mask h.members.length)) b.s0 b.e0 b.feeds.length []

/-- The lowest free place (R77). -/
def freePlace (s : State) : Option (Fin 192) := (List.finRange 192).find? fun i => (s.place i).isNone

/-- The six admission checks in order: the refusal with the slot at fault, or the ports and the place (R83). -/
def admissionChecks (s : State) (b : Booking) : (Status × Option Nat) ⊕ (List (Fin 32) × Fin 192) :=
  if s.idInUse b.id then .inl (.exists_, none)
  else match s.checkReferences b with
  | some st => .inl (st, none)
  | none => match s.missingFeed b with
    | some slot => .inl (.noSuch, some slot)
    | none => match s.worksSlot b with
      | some slot => .inl (.worksConflict, some slot)
      | none => match s.allocatePorts b with
        | .inl slot => .inl (.conflict, some slot)
        | .inr ports => match s.freePlace with
          | none => .inl (.noRoom, none)
          | some i => .inr (ports, i)

/-- The time-list entries of a record admitted at second `now` (R81): one whose second is not later is due at once
(R90). -/
def entriesOf (now : Nat) (i : Fin 192) (b : Booking) : List TimeEntry :=
  let entry (second : Nat) (kind : EntryKind) : TimeEntry := ⟨second, i, kind, decide (second ≤ now)⟩
  let arm := entry (b.s0 - b.cueLead.getD 0) .arm
  let start := entry b.s0 .start
  let stop := entry b.e .stop
  match b.trigger with
  | .time => [start, stop]
  | .cue => [arm, stop]
  | .timeOrCue => [arm, start, stop]

/-- The start of the span of the record in place `i`. -/
def startAt (s : State) (i : Fin 192) : Nat := ((s.place i).map (·.booking.s0)).getD 0

/-- Admission of a record into place `i` (R89). -/
def admitRecord (s : State) (i : Fin 192) (b : Booking) : State :=
  let k := s.bku
  ({ s with bku := { k with
      timelines := tab fun p =>
        if p ∈ b.ports then insertByStart s.startAt i b.s0 (s.timeline p) else s.timeline p
      timeList := (entriesOf s.tb.seconds i b).foldl (fun l e => insertEntry e l) k.timeList } }.countRefs b (· + 1)).setPlace i
    (some { booking := b, meter := MeterSet.fresh b.feeds.length, held := none })

/-- BOOK (R82, R83, R89). -/
def serveBook (s : State) (f : BookFields) : State × Answer :=
  match bookingOf f s.tb.seconds with
  | none => (s, ⟨.badField, .slotAtFault none⟩)
  | some b => match s.admissionChecks b with
    | .inl (st, slot) => (s, ⟨st, .slotAtFault slot⟩)
    | .inr (ports, i) => (s.admitRecord i { b with ports := ports }, okWith (.booked b.id i ports b.cueLead b.quantum))

/-- A record has not yet begun to end (R92). -/
def amendable : BookingState → Bool
  | .scheduled | .armed | .waiting | .starting | .live | .runOn => true
  | .ending | .closing => false

/-- AMEND (R92, R93). -/
def serveAmend (s : State) (id : Half) (newEnd : Word) : State × Answer :=
  match s.findRecord id with
  | none => (s, refusal .noSuch)
  | some i => match s.place i with
    | none => (s, refusal .noSuch)
    | some p =>
      let b := p.booking
      let n := newEnd.toNat
      if !amendable b.state then (s, refusal .state)
      else if n ≤ s.tb.seconds then (s, refusal .badField)
      else if n < b.s0 + b.extension + 60 ∨ b.s0 + b.extension + 86400 < n then (s, refusal .badField)
      else match b.ports.find? fun q => !s.portClear (some i) q b.s0 n with
        | some q => (s, ⟨.conflict, .portAtFault q⟩)
        | none =>
          let s1 := s.onBooking i fun b => { b with e := n }
          ({ s1 with bku := s1.bku.moveEnd i n }, okWith (.amended id n))

/-- CANCEL is accepted in these states (R94). -/
def cancellable : BookingState → Bool
  | .scheduled | .armed | .waiting => true
  | .starting | .live | .runOn | .ending | .closing => false

/-- CANCEL (R94). -/
def serveCancel (s : State) (id : Half) : State × Answer :=
  match s.findRecord id with
  | none => (s, refusal .noSuch)
  | some i => match s.stateAt i with
    | none => (s, refusal .noSuch)
    | some st =>
      if !cancellable st then (s, refusal .state)
      else
        let s1 := { s with bku := s.bku.dropEntries i }.onBooking i fun b =>
          { b with reason := some .cancelled, endSecond := some s.tb.seconds }
        let s2 := s1.settleNow i
        (s2, okWith (.cancelled id (s2.place i).isSome))

/-- END is accepted in these states (R113). -/
def endable : BookingState → Bool
  | .starting | .live | .runOn => true
  | .scheduled | .armed | .waiting | .ending | .closing => false

/-- END (R113). -/
def serveEnd (s : State) (id : Half) : State × Answer :=
  match s.findRecord id with
  | none => (s, refusal .noSuch)
  | some i => match s.stateAt i with
    | none => (s, refusal .noSuch)
    | some st =>
      if !endable st then (s, refusal .state)
      else
        ({ s with bku := s.bku.dropEntry i .stop }.enterEnding i .endedEarly, okWith (.ended id s.tb.seconds))

/-- A feed is blocked by works at this moment (R115). -/
def worksBlocked (s : State) (f : Fin 48) : Bool :=
  let c := circuitOf f
  match (s.circuit c).mode with
  | .split => (s.route f).worksActive
  | .pair => (s.route (routeOf c .a)).worksActive && (s.route (routeOf c .b)).worksActive

/-- The accepted SWAP of a slot to a feed (R115, R125, R137, R153). -/
def swapSlot (s : State) (i : Fin 192) (b : Booking) (slot : Nat) (feed : Fin 48) : State :=
  let s1 := (s.onBooking i fun b => { b with feeds := b.feeds.set slot feed }).onMeter i fun m =>
    { m with nt := satAdd max16 m.nt 1 }
  match b.ports[slot]? with
  | none => s1
  | some p =>
    let ref : SlotRef := ⟨i, slot, b.id⟩
    let s2 := s1.onXPort p (·.swapConnect ref)
    if (s2.xport p).holder = .slot ref then s2.recomputeFlags [p] else s2

/-- SWAP (R115). -/
def serveSwap (s : State) (id : Half) (slot feed : Byte) : State × Answer :=
  match s.findRecord id with
  | none => (s, refusal .noSuch)
  | some i => match s.place i with
    | none => (s, refusal .noSuch)
    | some p =>
      let b := p.booking
      if !(b.state == .live || b.state == .runOn) then (s, refusal .state)
      else match idOf 48 feed with
        | none => (s, refusal .badField)
        | some f =>
          if b.feeds.length ≤ slot.toNat then (s, refusal .badField)
          else if s.carrying f = none then (s, refusal .noSuch)
          else if f ∈ b.feeds then (s, refusal .badField)
          else if s.worksBlocked f then (s, refusal .worksConflict)
          else (s.swapSlot i b slot.toNat f, okWith (.swapped slot.toNat f (s.carrying f)))

/-- READ_BOOKING (R97). -/
def serveReadBooking (s : State) (id : Half) : State × Answer :=
  match s.findRecord id with
  | none => (s, refusal .noSuch)
  | some i => match s.place i with
    | none => (s, refusal .noSuch)
    | some p => (s, okWith (.booking i p.booking (p.booking.feeds.map s.carrying)))

/-- One entry of a port's timeline, as LIST_PORT gives it (R98). -/
def timelineView (s : State) (p : Fin 32) (i : Fin 192) : Option TimelineView :=
  (s.place i).map fun q =>
    { id := q.booking.id, record := i, slot := q.booking.ports.idxOf p, state := q.booking.state, s0 := q.booking.s0,
      e := q.booking.e }

/-- LIST_PORT (R98). -/
def serveListPort (s : State) (port start : Byte) : State × Answer :=
  match idOf 32 port, idOf 192 start with
  | some p, some n =>
    (s, okWith (.timeline p (s.portRefs p) ((((s.timeline p).drop n.val).take 16).filterMap (s.timelineView p))))
  | _, _ => (s, refusal .badField)

/-- The fields of the READ_METER reply for the record of `p` in place `i` (R156). -/
def meterView (s : State) (i : Fin 192) (p : Place) : MeterView :=
  let m := p.meter
  { id := p.booking.id, record := i, state := p.booking.state, phase := m.phase, basis := (s.terms p.booking).basis,
    grace := (s.terms p.booking).grace, gateOpen := if m.phase = .running then some m.gate else none, copies := m.copies,
    l := m.l, s := m.s, o := m.o, t := m.t, oc := m.oc, episode := m.episode, episodes := m.episodes,
    longest := m.longest, nt := m.nt, np := m.np, suspectSeen := m.suspectSeen }

/-- READ_METER (R156). -/
def serveReadMeter (s : State) (id : Half) : State × Answer :=
  match s.findRecord id with
  | none => (s, refusal .noSuch)
  | some i => match s.place i with
    | none => (s, refusal .noSuch)
    | some p => (s, okWith (.meter (s.meterView i p)))

end State

end Sys2Proof.Machine
end

