-- ==== Sys2Proof/Machine/RequestsPanel.lean ====
section
/-! DEFINITION. The requests of XPC (R133, R134, R139, R141), STL (R167, R168, R170, R171), NTC (R177), TCU (R182, R184)
and LNK (R194 to R196). -/

namespace Sys2Proof.Machine

namespace State

/-! ### XPC -/

/-- A port is claimed by a booking: its holder, or its entry's desired holder, is a booking slot (R133). -/
def bookingClaims (x : XPort) : Bool :=
  let isSlot : Holder → Bool
    | .slot _ => true
    | .patch | .nobody => false
  isSlot x.holder || x.entry.any fun e => isSlot e.desired

/-- PATCH (R133). -/
def servePatch (s : State) (port route : Byte) : State × Answer :=
  match idOf 32 port, idOf 48 route with
  | some p, some r =>
    if !(s.dir.ports.get p).enabled then (s, refusal .state)
    else if bookingClaims (s.xport p) then (s, refusal .inUse)
    else (s.onXPort p (·.setPatch r), okWith (.patched p (some r) (s.xport p).holder))
  | _, _ => (s, refusal .badField)

/-- UNPATCH (R134). -/
def serveUnpatch (s : State) (port : Byte) : State × Answer :=
  match idOf 32 port with
  | none => (s, refusal .badField)
  | some p => match (s.xport p).patch with
    | none => (s, refusal .state)
    | some r => (s.onXPort p XPort.endPatch, okWith (.unpatched p r))

/-- The booking id of the record in place `i`. -/
def idAt (s : State) (i : Fin 192) : Option Half := (s.place i).map (·.booking.id)

/-- The crosspoint fields of the READ_PORT reply (R141). -/
def portView (s : State) (p : Fin 32) : PortView :=
  let x := s.xport p
  { committed := x.committed, holder := x.holder, patch := x.patch, desired := x.entry.map (·.desired),
    riders := (x.entry.map (·.riders)).getD [] |>.map fun r => (s.idAt r.record, r.connect),
    order := (s.xpc.orders.find? (·.port == p)).map (·.input), delivered := x.delivered, inFlight := s.xpc.inFlight,
    lastTake := s.xpc.lastTake, timeout := s.xpc.timeout }

/-- READ_PORT (R141). -/
def serveReadPort (s : State) (port : Byte) : State × Answer :=
  match idOf 32 port with
  | none => (s, refusal .badField)
  | some p => (s, okWith (.portStatus (s.portDirView p) (s.portView p)))

/-- SET_CONFIRM (R139). -/
def serveSetConfirm (s : State) (timeout : Byte) : State × Answer :=
  let n := clamp 5 200 timeout.toNat
  ({ s with xpc := { s.xpc with timeout := n } }, okWith (.timeout n))

/-! ### STL -/

/-- SETTLE_PEEK (R167). -/
def serveSettlePeek (s : State) : State × Answer :=
  match s.stl.queue with
  | x :: _ => (s, okWith (.settlement x s.stl.queue.length s.stl.closing.length))
  | [] => (s, ⟨.noSuch, .noSettlement 0 0⟩)

/-- The id of the oldest settlement record. -/
def oldestId (s : State) : Option Half := s.stl.queue.head?.map (·.id)

/-- SETTLE_RELEASE (R166, R168). -/
def serveSettleRelease (s : State) (id : Half) : State × Answer :=
  if s.oldestId = some id then
    let s1 := { s with stl := { s.stl with queue := s.stl.queue.tail } }.serveClosing
    (s1, okWith (.released id s1.stl.queue.length (s.stl.closing.head?.bind s.idAt) s1.oldestId))
  else (s, ⟨.noSuch, .notReleased s.oldestId s.stl.queue.length⟩)

/-- READ_ACCOUNT (R170). -/
def serveReadAccount (s : State) (account : Byte) : State × Answer :=
  match idOf 16 account with
  | none => (s, refusal .badField)
  | some a =>
    let x := s.dir.accounts.get a
    (s, okWith (.accountTotals a x.permitted.isSome x.refs (s.stl.totals.get a)))

/-- CLEAR_ACCOUNT (R171). -/
def serveClearAccount (s : State) (account : Byte) : State × Answer :=
  match idOf 16 account with
  | none => (s, refusal .badField)
  | some a =>
    ({ s with stl := { s.stl with totals := upd s.stl.totals a ⟨0, 0, 0⟩ } },
      okWith (.totals (s.stl.totals.get a)))

/-! ### NTC and TCU -/

/-- SET_NOTICES (R177). -/
def serveSetNotices (s : State) (health circuit booking reference take settlement : Byte) : State × Answer :=
  match [health, circuit, booking, reference, take, settlement].mapM yesNo with
  | none => (s, refusal .badField)
  | some flags =>
    let mask : Table Bool 6 := tab fun i => flags.getD i.val false
    let s1 := { s with ntc := s.ntc.setMask mask }
    (s1, okWith (.notices mask s1.ntc.list.length))

/-- SET_TALLY (R182). -/
def serveSetTally (s : State) (line source : Byte) (param : Six) (invert : Byte) : State × Answer :=
  match idOf 8 line, tallySourceOf source, yesNo invert with
  | some l, some src, some inv =>
    if !src.paramOk param then (s, refusal .badField)
    else
      let s1 := { s with tcu := { s.tcu with lines := upd s.tcu.lines l ⟨src, some param, inv⟩ } }
      (s1, okWith (.tally src (some param) inv (s1.tallyLevel l)))
  | _, _, _ => (s, refusal .badField)

/-- `s` with cue line `l` replaced. -/
def setCueLine (s : State) (l : Fin 4) (x : CueLine) : State :=
  { s with tcu := { s.tcu with cues := upd s.tcu.cues l x } }

/-- SET_CUE (R184): a change of the invert flag inverts the accepted level. -/
def serveSetCue (s : State) (line enable invert : Byte) : State × Answer :=
  match idOf 4 line, yesNo enable, yesNo invert with
  | some l, some en, some inv =>
    let x := s.tcu.cues.get l
    let accepted := if inv = x.invert then x.accepted else !x.accepted
    (s.setCueLine l { x with enabled := en, invert := inv, accepted := accepted },
      okWith (.cue en inv accepted x.timer.isSome))
  | _, _, _ => (s, refusal .badField)

/-! ### LNK -/

/-- IDENT (R194). -/
def serveIdent (s : State) : State × Answer := (s, okWith (.ident 4832 1 48 32 192 64 4 s.lnk.strap))

/-- STATUS (R195). -/
def serveStatus (s : State) : State × Answer :=
  (s, okWith (.status
    { errors := s.lnk.errors, queued := s.lnk.queue.length, busySlot := s.lnk.busySlot, elapsed := s.tb.elapsed,
      refState := s.tb.refState, cardsAlive := s.rmon.cards.toList.map (·.isSome), records := s.recordCount,
      closing := s.stl.closing.length, queueDepth := s.stl.queue.length, listLength := s.ntc.list.length,
      inFlight := s.xpc.inFlight, suspectPorts := s.suspectPorts.length }))

/-- RESET (R196): the reset hold is set; the reset is performed at the end of the reply. -/
def serveReset (s : State) (scope : Byte) : State × Answer :=
  match scopeOf scope with
  | none => (s, refusal .badField)
  | some sc => ({ s with lnk := { s.lnk with hold := some sc } }, okWith .empty)

/-- A request is handed to its owning block (R190). -/
def serveBody (s : State) : Request → State × Answer
  | .ident => s.serveIdent
  | .status => s.serveStatus
  | .reset scope => s.serveReset scope
  | .setTime second => s.serveSetTime second
  | .readTime => s.serveReadTime
  | .setReference source rate frameMax => s.serveSetReference source rate frameMax
  | .setRoute route fh ch dt ct => s.serveSetRoute route fh ch dt ct
  | .setWorks route start stop force => s.serveSetWorks route start stop force
  | .readHealth route => s.serveReadHealth route
  | .drill route delay duration => s.serveDrill route delay duration
  | .drillAbort route => s.serveDrillAbort route
  | .setCircuit circuit mode rev deg guard wtr => s.serveSetCircuit circuit mode rev deg guard wtr
  | .force circuit target => s.serveForce circuit target
  | .lockout circuit => s.serveLockout circuit
  | .clear circuit => s.serveClear circuit
  | .readCircuit circuit => s.serveReadCircuit circuit
  | .setPort port setting => s.serveSetPort port setting
  | .setHandoff h a n p0 p1 p2 p3 present mask => s.serveSetHandoff h a n p0 p1 p2 p3 present mask
  | .setAccount account permitted => s.serveSetAccount account permitted
  | .deleteEntry kind index => s.serveDeleteEntry kind index
  | .setMargin margin => s.serveSetMargin margin
  | .book fields => s.serveBook fields
  | .amend id newEnd => s.serveAmend id newEnd
  | .cancel id => s.serveCancel id
  | .endBooking id => s.serveEnd id
  | .swap id slot feed => s.serveSwap id slot feed
  | .readBooking id => s.serveReadBooking id
  | .listPort port start => s.serveListPort port start
  | .patch port route => s.servePatch port route
  | .unpatch port => s.serveUnpatch port
  | .readPort port => s.serveReadPort port
  | .setConfirm timeout => s.serveSetConfirm timeout
  | .readMeter id => s.serveReadMeter id
  | .setTariff fields => s.serveSetTariff fields
  | .settlePeek => s.serveSettlePeek
  | .settleRelease id => s.serveSettleRelease id
  | .readAccount account => s.serveReadAccount account
  | .clearAccount account => s.serveClearAccount account
  | .setNotices h c b r t x => s.serveSetNotices h c b r t x
  | .setTally line source param invert => s.serveSetTally line source param invert
  | .setCue line enable invert => s.serveSetCue line enable invert
  | .unknownKind _ => (s, refusal .unknownKind)
  | .badLength _ => (s, refusal .badLength)

end State

end Sys2Proof.Machine
end

