-- ==== Sys2Proof/Machine/Resets.lean ====
section
/-! DEFINITION. The three resets: power-on/pin (R186, R197), RESET ALL and RESET TRAFFIC (R15, R39, R61, R76, R100, R143,
R158, R174, R181, R185, R197). -/

namespace Sys2Proof.Machine

/-- RESET TRAFFIC withdraws the BOOKING, TAKE and SETTLEMENT objects and keeps the others (R181). -/
def keptByTraffic (o : Fin 267) : Bool := classOf o == 0 || classOf o == 1 || classOf o == 3

/-- NTC at RESET TRAFFIC (R181). -/
def NTC.resetTraffic (n : NTC) : NTC :=
  { n with flags := tab fun o => n.pending o && keptByTraffic o, list := n.list.filter keptByTraffic }

/-- DIR at RESET TRAFFIC: every reference count is zero, all else is kept (R76). -/
def DIR.resetTraffic (d : DIR) : DIR :=
  { d with
    accounts := tab fun a => { d.accounts.get a with refs := 0 }
    handoffs := tab fun h => { d.handoffs.get h with refs := 0 } }

/-- STL at RESET TRAFFIC: the queue and the closing list are emptied, the tariff counts are zero (R174). -/
def STL.resetTraffic (q : STL) : STL :=
  { q with tariffs := tab fun t => { q.tariffs.get t with refs := 0 }, queue := [], closing := [] }

/-- XPC at RESET TRAFFIC: a take in flight is abandoned and every port is set to be parked (R143). -/
def XPC.resetTraffic (x : XPC) : XPC :=
  { x with
    ports := same 32 XPort.reset, inFlight := false, orders := [], timer := none, included := [], newlySuspect := 0 }

/-- RMON with every drill removed (R39). -/
def RMON.dropDrills (r : RMON) : RMON := { r with drills := same 24 none }

namespace State

/-- The level on a cue pin. -/
def cueInput (s : State) (l : Fin 4) : Bool := (s.tcu.cues.get l).input

/-- The message on the line goes on to its end, and its end frees nothing that the reset has emptied (R180). -/
def detachLine (s : State) : Option Sending := s.lnk.line.map fun m => { m with ends := .nothing }

/-- Power-on/pin reset with the straps reading `strap` (R186, R197). The levels on the cue pins, the message on the line
and the model's own fields stand. -/
def resetPowerOn (s : State) (strap : Fin 4) : State :=
  let s1 := powerOn strap s.cueInput
  { s1 with lnk := { s1.lnk with line := s.detachLine }, raceCount := s.raceCount, pending := s.pending }

/-- LNK at RESET ALL (R197). The gap timer of a frame in progress is moved with elapsed time (log entry 12). -/
def lnkResetAll (s : State) : LNK :=
  { s.lnk with errors := 0, hold := none, ready := some .resetAll, gap := s.lnk.gap.map (· - s.tb.elapsed) }

/-- RESET ALL as one event (R196). The oscillator goes on and the internal generator restarts at the reset instant.
DESIGN CHOICE (unsafe, log entry 27): the divider that makes a tick of 27,000 counts goes on through the reset. -/
def resetAll (s : State) : State :=
  { tb := { TB.reset with osc := s.tb.osc, lastTick := s.tb.lastTick, genRestart := s.tb.osc, lastMarker := s.tb.osc }
    rmon := RMON.reset, circuits := same 24 Circuit.reset, dir := DIR.reset, bku := BKU.reset, xpc := XPC.reset,
    stl := STL.reset, ntc := NTC.reset, tcu := TCU.reset s.cueInput, lnk := s.lnkResetAll, raceCount := s.raceCount,
    pending := s.pending }

/-- The circuits on which a drill is set. -/
def drilledCircuits (s : State) : List (Fin 24) := (List.finRange 24).filter fun c => (s.drill c).isSome

/-- What RESET TRAFFIC sets in every block, before RMON recomputes the drilled routes. -/
def clearTraffic (s : State) : State :=
  { s with
    rmon := s.rmon.dropDrills, dir := s.dir.resetTraffic, bku := BKU.reset, xpc := s.xpc.resetTraffic,
    stl := s.stl.resetTraffic, ntc := s.ntc.resetTraffic
    lnk := { s.lnk with hold := none, ready := some .resetTraffic } }

/-- RESET TRAFFIC as one event (R39, R61, R100, R143, R174, R196). -/
def resetTraffic (s : State) : State := s.clearTraffic.healthEvent s.drilledCircuits

/-- The reset of a scope is performed (R196). -/
def performReset (s : State) : Scope → State
  | .all => s.resetAll
  | .traffic => s.resetTraffic

end State

end Sys2Proof.Machine
end

