-- ==== Sys2Proof/Machine/Link.lean ====
section
/-! DEFINITION. LNK: the frame check and the receive hunt (R187, R188), the request queue and service (R189, R190), and
the transmitter with the notices of NTC (R178 to R180). -/

namespace Sys2Proof.Machine

/-! ### Frames -/

/-- The marker byte (Table 11-3). -/
abbrev markerByte : Byte := 0xC5

/-- One bit enters the check register (R188). -/
def crcBit (reg : Half) (bit : Bool) : Half := if reg.msb != bit then (reg <<< 1) ^^^ 0x1021 else reg <<< 1

/-- One byte enters the check register, most significant bit first. -/
def crcByte (reg : Half) (b : Byte) : Half := (List.range 8).foldl (fun r i => crcBit r (b.getLsbD (7 - i))) reg

/-- The check over some bytes (R188). -/
def crc (bytes : List Byte) : Half := bytes.foldl crcByte 0xFFFF

/-- The body length that a frame's second and third bytes give (Table 11-3). -/
def bodyLength (frame : List Byte) : Nat := (halfAt frame 1).toNat

/-- The number of bytes of a frame (R187). -/
def frameLength (frame : List Byte) : Nat := 7 + bodyLength frame

/-- The length bytes have arrived, and the frame is discarded for its length (R187, R188). -/
def oversize (frame : List Byte) : Bool := decide (3 ≤ frame.length ∧ 512 < bodyLength frame)

/-- The frame has its second check byte (R187). -/
def complete (frame : List Byte) : Bool := decide (3 ≤ frame.length ∧ frameLength frame ≤ frame.length)

/-- The received check is the one computed over the length, kind, tag and body bytes (R188). -/
def checkOk (frame : List Byte) : Bool :=
  let n := bodyLength frame
  crc ((frame.drop 1).take (4 + n)) == halfAt frame (5 + n)

/-- A frame in progress, at the end of the bytes received so far. -/
def inFrame (frame : List Byte) : Bool := !oversize frame && !complete frame

/-! ### Notices (Table 10-2) -/

/-- The first unserved request is served. -/
def markServed : List Queued → List Queued
  | [] => []
  | q :: qs => if q.served then q :: markServed qs else { q with served := true } :: qs

namespace State

/-- The notice of an object, built from its owner's state (Table 10-2). A BOOKING object whose place is free has none. -/
def noticeOf (s : State) (o : Fin 267) : Option Notice :=
  if h : o.val < 48 then
    let r : Fin 48 := ⟨o.val, h⟩
    some (.health r (s.health r) (s.route r).flaps (s.route r).changeFrame)
  else if h : o.val < 72 then
    let c : Fin 24 := ⟨o.val - 48, by omega⟩
    let k := s.circuit c
    some (.circuit c k.selector (s.selectedRoute c) k.lastReason k.switchCount k.changeFrame)
  else if h : o.val < 264 then
    (s.place ⟨o.val - 72, by omega⟩).map fun p =>
      .booking p.booking.id p.booking.state p.booking.reason p.booking.shortened p.booking.patchReleased
  else if o.val = 264 then some (.reference s.tb.refState)
  else if o.val = 265 then
    some (.take s.xpc.newlySuspect (portSet s.suspectPorts) ((s.xpc.lastTake.map (·.frame)).getD 0))
  else some (.settlement s.stl.queue.length)

/-- What sending a notice changes in its owner's state (R36, R140, R178 step 4). -/
def noticeSent (s : State) (o : Fin 267) : State :=
  if h : o.val < 48 then s.onRoute ⟨o.val, h⟩ fun x => { x with reported := x.effective }
  else if o.val = 265 then { s with xpc := { s.xpc with newlySuspect := 0 } }
  else s

/-! ### The transmitter (R178, R179) -/

/-- NTC hands over the head of the notice list, and the notice is sent (R178). -/
def sendNotice (s : State) : State :=
  match s.ntc.list with
  | [] => s
  | o :: rest =>
    let s1 := { s with ntc := { s.ntc with flags := upd s.ntc.flags o false, list := rest } }.noticeSent o
    { s1 with lnk := { s1.lnk with line := (s.noticeOf o).map fun n => { message := .notice n, ends := .nothing } } }

/-- The oldest waiting reply is sent. -/
def sendReply (s : State) : State :=
  match s.lnk.replies with
  | [] => s
  | u :: rest => { s with lnk := { s.lnk with replies := rest, line := some ⟨.reply u.reply, u.ends⟩ } }

/-- A transmitter that becomes free chooses (R179). -/
def choose (s : State) : State :=
  match s.lnk.ready with
  | some k => { s with lnk := { s.lnk with ready := none, line := some ⟨.ready k, .nothing⟩ } }
  | none => if s.lnk.replies.isEmpty then s.sendNotice else s.sendReply

/-- A reply and a notice begin to wait together, with no READY before them. -/
def bothWait (s : State) : Bool := s.lnk.ready.isNone && !s.lnk.replies.isEmpty && !s.ntc.list.isEmpty

/-- A transmitter that has just become free chooses, where something waits (R179). -/
def becomesFree (s : State) : State := if s.lnk.line.isSome then s else s.choose

/-- The transmitter's part at the end of a command: where it is free and a party has begun to wait, it chooses. A reply
and a list entry that became ready together are taken in either order (R179, log entry 4). -/
def transmit (s : State) : State :=
  if s.lnk.line.isSome then s
  else if s.bothWait then (if s.raceFirst then s.raced.sendReply else s.raced.sendNotice)
  else s.choose

/-! ### The request queue (R189, R190) -/

/-- The link error count rises by one (R188). -/
def countError (s : State) : State := { s with lnk := { s.lnk with errors := satAdd max16 s.lnk.errors 1 } }

/-- A reply is made (R190, R191). -/
def reply (s : State) (tag : Byte) (r : Request) (a : Answer) (ends : Ends) : State :=
  let u : Unsent := { reply := ⟨r.replyKind, tag, a.status, a.result⟩, ends := ends }
  { s with lnk := { s.lnk with replies := s.lnk.replies ++ [u] } }

/-- The end of the reply to a served request: it performs the reset whose hold its service set, or frees its place. -/
def endsOf (s : State) : Ends :=
  match s.lnk.hold with
  | some scope => .reset scope
  | none => .place

/-- The request `q`, the oldest unserved one, is served (R190). -/
def serveOne (s : State) (q : Queued) : State :=
  let x := s.serveBody q.request
  let s1 := x.1.reply q.tag q.request x.2 x.1.endsOf
  { s1 with lnk := { s1.lnk with queue := markServed s1.lnk.queue } }

/-- Requests are served in arrival order while no reset hold stands, at most so many (R190). -/
def serveUpTo : Nat → State → State
  | 0, s => s
  | n + 1, s =>
    if s.lnk.hold.isSome then s
    else match s.lnk.queue.find? fun q => !q.served with
      | some q => serveUpTo n (s.serveOne q)
      | none => s

/-- The unserved requests of the queue are served. -/
def serveQueue (s : State) : State := serveUpTo s.lnk.queue.length s

/-- A request joins the tail of the queue, unserved (R189). -/
def enqueue (s : State) (tag : Byte) (r : Request) : State :=
  let q : Queued := { tag := tag, request := r, served := false }
  { s with lnk := { s.lnk with queue := s.lnk.queue ++ [q] } }

/-- A request arrives (R189). -/
def arrive (s : State) (tag : Byte) (r : Request) : State :=
  if s.lnk.queue.length < 4 then (s.enqueue tag r).serveQueue
  else if !s.lnk.busySlot then
    { s with lnk := { s.lnk with busySlot := true } }.reply tag r (refusal .busy) .busySlot
  else s.countError

/-- The message on the line ends: a place or the BUSY slot is freed (R189), or the place is freed and the reset is
performed, after which the queued requests are served (R196). -/
def endMessage (s : State) : State :=
  match s.lnk.line with
  | none => s
  | some m =>
    let free (queue : List Queued) (busySlot : Bool) : State :=
      { s with lnk := { s.lnk with line := none, queue := queue, busySlot := busySlot } }
    match m.ends with
    | .nothing => free s.lnk.queue s.lnk.busySlot
    | .place => free s.lnk.queue.tail s.lnk.busySlot
    | .busySlot => free s.lnk.queue false
    | .reset scope => ((free s.lnk.queue.tail s.lnk.busySlot).performReset scope).serveQueue

/-- The message on the line is the reply to a RESET of a scope. -/
def resetOnLine (s : State) (scope : Scope) : Bool := s.lnk.line.any fun m => m.ends == .reset scope

/-! ### Receiving (R187, R188) -/

/-- The receive state is set: the frame in progress, and its gap timer started now. -/
def startFrame (s : State) (frame : List Byte) : State :=
  { s with lnk := { s.lnk with rx := frame, gap := some (s.tb.elapsed + 6) } }

/-- LNK is in HUNT. -/
def hunt (s : State) : State := { s with lnk := { s.lnk with rx := [], gap := none } }

/-- A good frame is a request arrival (R188, R189). -/
def takeFrame (s : State) (frame : List Byte) : State :=
  s.arrive (byteAt frame 4) (parseRequest (byteAt frame 3) ((frame.drop 5).take (bodyLength frame)))

/-- LNK goes through bytes already received, in HUNT, at most so many times (R188). -/
def rescan : Nat → List Byte → State → State
  | 0, _, s => s
  | n + 1, bytes, s =>
    let frame := bytes.dropWhile (· != markerByte)
    if frame.isEmpty then s
    else if inFrame frame then s.startFrame frame
    else if !oversize frame && checkOk frame then rescan n (frame.drop (frameLength frame)) (s.takeFrame frame)
    else rescan n frame.tail s.countError

/-- The receive state is worked out anew from some bytes. -/
def rescanAll (s : State) (bytes : List Byte) : State := rescan (bytes.length + 1) bytes s.hunt

/-- The last check byte has arrived and the frame awaits its check. -/
def frameWaits (s : State) : Bool := complete s.lnk.rx && !oversize s.lnk.rx

/-- A complete frame is checked (R188). -/
def checkFrame (s : State) : State := if s.frameWaits then s.rescanAll s.lnk.rx else s

/-- A byte is examined in the present receive state (R187). The gap timer stops with the last check byte. -/
def takeByte (s : State) (b : Byte) : State :=
  if s.lnk.rx.isEmpty && b != markerByte then s
  else
    let frame := s.lnk.rx ++ [b]
    if oversize frame then s.rescanAll frame
    else if complete frame then { s with lnk := { s.lnk with rx := frame, gap := none } }
    else s.startFrame frame

end State

end Sys2Proof.Machine
end

