-- ==== Sys2Proof/Machine/Events.lean ====
section
/-! DEFINITION. The events of the clock, the links, the pins and the timers, and the millisecond tick that takes what is
due (R1, R2, R17 to R22, R24, R27, R31, R49, R51, R90, R127 to R130, R183, R184, R187). -/

namespace Sys2Proof.Machine

/-- A cue line whose pin goes to a level at elapsed time `now` (R184). -/
def CueLine.change (x : CueLine) (level : Bool) (now : Nat) : CueLine :=
  if level = x.input then x
  else
    { x with
      input := level
      timer := if (level != x.invert) = x.accepted then none
        else match x.timer with
          | some t => some t
          | none => some (now + 20) }

/-- The level that TCU filters (R184). -/
def CueLine.filtered (x : CueLine) : Bool := x.input != x.invert

/-- The card, the slot and the LOS and LOF flags together of a status word's byte 0 (Table 11-11). -/
def statusFields (b0 : Byte) : Nat × Fin 8 × Bool :=
  ((b0 >>> 5).toNat, ⟨(b0 >>> 2).toNat % 8, by omega⟩, b0.getLsbD 1 || b0.getLsbD 0)

/-- The card, slot, LOS or LOF, and increment of a good status word; none for one that is discarded (R17). -/
def parseStatus (group : List Byte) : Option (Fin 6 × Fin 8 × Bool × Nat) :=
  match group with
  | [b0, b1, check] =>
    if check = wordCheck b0 b1 then
      (idOf 6 (b0 >>> 5)).map fun k => (k, (statusFields b0).2.1, (statusFields b0).2.2, b1.toNat)
    else none
  | _ => none

/-- The raw state of a route is set (R17, R20, R21). -/
def Route.setRaw (now : Nat) (bad : Bool) (x : Route) : Route := if bad then x.toBad now else x.toGood now

/-- The network time of the next millisecond: seconds, sub-count and the boundary produced (R2). -/
def nextTime (seconds sub : Nat) : Nat × Nat × Option Nat :=
  if sub < 999 then (seconds, sub + 1, none)
  else if seconds < max32 then (seconds + 1, 0, some (seconds + 1))
  else (seconds, sub, none)

namespace State

/-! ### RMON -/

/-- The silence timer of a card is set, or stopped with the card lost. -/
def setCard (s : State) (k : Fin 6) (timer : Option Nat) : State :=
  { s with rmon := { s.rmon with cards := upd s.rmon.cards k timer } }

/-- A good status word (R17). -/
def goodWord (s : State) (k : Fin 6) (slot : Fin 8) (bad : Bool) (increment : Nat) : State :=
  let r := cardRoute k slot
  ((s.setCard k (some (s.tb.elapsed + 150))).onRoute r fun x =>
    (x.setRaw s.tb.elapsed bad).addErrors increment).healthEvent [circuitOf r]

/-- A group on the status link (R17). -/
def statusWord (s : State) (group : List Byte) : State :=
  match parseStatus group with
  | some (k, slot, bad, increment) => s.goodWord k slot bad increment
  | none => s

/-- The eight routes of a card. -/
def routesOfCard (k : Fin 6) : List (Fin 48) := (List.finRange 8).map (cardRoute k)

/-- The four circuits of a card. -/
def circuitsOfCard (k : Fin 6) : List (Fin 24) := (List.finRange 24).filter fun c => cardOf (routeOf c .a) == k

/-- Card `k` is lost (R18). -/
def loseCard (s : State) (k : Fin 6) : State :=
  (((routesOfCard k).foldl (fun acc r => acc.onRoute r (Route.toBad s.tb.elapsed)) (s.setCard k none))).healthEvent
    (circuitsOfCard k)

/-- A card's silence timer expires where it is due (R18). -/
def cardExpiry (s : State) (k : Fin 6) : State :=
  if isDue (s.rmon.cards.get k) s.tb.elapsed then s.loseCard k else s

/-- A fail timer expires where it is due (R22). -/
def failExpiry (s : State) (r : Fin 48) : State :=
  if isDue (s.route r).failTimer s.tb.elapsed then
    (s.onRoute r fun x => { x with failed := true, failTimer := none }).healthEvent [circuitOf r]
  else s

/-- A clear timer expires where it is due (R22). -/
def clearExpiry (s : State) (r : Fin 48) : State :=
  if isDue (s.route r).clearTimer s.tb.elapsed then
    (s.onRoute r fun x => { x with failed := false, clearTimer := none }).healthEvent [circuitOf r]
  else s

/-- A block closes where it is due (R24). -/
def closeDueBlock (s : State) : State :=
  if s.rmon.blockDue then
    ({ s with rmon := { s.rmon with blockDue := false } }.mapRoutes Route.closeBlock).healthEventAll
  else s

/-- The phase of the drill on a circuit. -/
def drillPhase (s : State) (c : Fin 24) : Option DrillPhase := (s.drill c).map (·.phase)

/-- A drill whose marker count stands at 0 enters ACTIVE (R31). The marker that brings a count to 0 activates the drill
itself, so this finds a drill only where one was left at 0 (log entry 25). -/
def activateDrill (s : State) (c : Fin 24) : State :=
  match s.drill c with
  | some d => match d.phase with
    | .countdown 0 =>
      (s.setDrill c (some (d.activate s.tb.elapsed))).healthEvent [c]
    | .countdown _ | .active _ => s
  | none => s

/-- A drill's duration expires where it is due (R31). -/
def endDrill (s : State) (c : Fin 24) : State :=
  match s.drillPhase c with
  | some (.active t) => if t ≤ s.tb.elapsed then (s.setDrill c none).healthEvent [c] else s
  | some (.countdown _) | none => s

/-! ### PSEL -/

/-- A guard timer expires where it is due (R49). -/
def guardExpiry (s : State) (c : Fin 24) : State :=
  if isDue (s.circuit c).guard s.tb.elapsed then
    (s.setCircuit c { s.circuit c with guard := none }).evaluate c .auto
  else s

/-- A WTR timer expires where it is due (R51). -/
def wtrExpiry (s : State) (c : Fin 24) : State :=
  if isDue (s.circuit c).wtr s.tb.elapsed then s.wtrExpire c else s

/-! ### BKU -/

/-- The record's entry of a kind is taken where it is the next to take (R81, R90). -/
def takeNext (s : State) (i : Fin 192) (kind : EntryKind) : State :=
  match s.nextEntry with
  | some e => if e.record = i ∧ e.kind = kind then s.takeEntry e else s
  | none => s

/-! ### XPC -/

/-- A group from the fabric on the matrix link (R129). -/
def confirmWord (s : State) (group : List Byte) : State :=
  match Order.parse group with
  | some o => s.takeConfirm o
  | none => s

/-- The confirm timer expires where it is due (R130). -/
def confirmExpiry (s : State) : State := if isDue s.xpc.timer s.tb.elapsed then s.confirmExpire else s

/-! ### TB -/

/-- The internal generator reaches its period where it is due (R8). -/
def dueInstant (s : State) : State := if s.tb.instantDue then s.frameInstant else s

/-- The loss limit passes where it is due (R10). -/
def dueLoss (s : State) : State := if s.tb.lossDue then s.loseReference else s

/-- A pulse on the reference input, some oscillator counts after the latest tick (R10, R11). TB's own earlier instants
come first. -/
def referencePulse (s : State) (offset : Nat) : State :=
  let t := max s.tb.osc (s.tb.lastTick + offset)
  (s.tbUpTo t).pulseAt t

/-! ### TCU -/

/-- The second tick after a marker ends the MARKER pulse (R183). -/
def endPulse (s : State) : State :=
  if s.tcu.markerPulse = some 0 then { s with tcu := { s.tcu with markerPulse := none } } else s

/-- The level on a cue pin changes (R184). -/
def changeCue (s : State) (l : Fin 4) (level : Bool) : State :=
  s.setCueLine l ((s.tcu.cues.get l).change level s.tb.elapsed)

/-- A cue filter expires: the accepted level becomes the filtered one, and the edge is offered where the line is enabled
(R184). -/
def acceptCue (s : State) (l : Fin 4) : State :=
  let x := s.tcu.cues.get l
  let s1 := s.setCueLine l { x with timer := none, accepted := x.filtered }
  if x.filtered = x.accepted then s1
  else if x.enabled then s1.cueOffer l (if x.filtered then .rise else .fall)
  else s1

/-- A cue filter timer expires where it is due (R184). -/
def cueExpiry (s : State) (l : Fin 4) : State :=
  if isDue (s.tcu.cues.get l).timer s.tb.elapsed then s.acceptCue l else s

/-! ### LNK -/

/-- The gap timer expires where it is due: the frame in progress is discarded (R187). -/
def gapExpiry (s : State) : State := if isDue s.lnk.gap s.tb.elapsed then s.hunt.countError else s

/-! ### The tick -/

/-- Every expiry on elapsed time that is due is taken, in a fixed order (log entry 3). -/
def takeTimers (s : State) : State :=
  let s1 := (List.finRange 6).foldl cardExpiry s
  let s2 := (List.finRange 48).foldl failExpiry s1
  let s3 := (List.finRange 48).foldl clearExpiry s2
  let s4 := s3.closeDueBlock
  let s5 := (List.finRange 24).foldl endDrill s4
  let s6 := (List.finRange 24).foldl guardExpiry s5
  let s7 := (List.finRange 24).foldl wtrExpiry s6
  let s8 := (List.finRange 4).foldl cueExpiry s7.confirmExpiry
  s8.endPulse.gapExpiry

/-- Everything that was due before the next tick, and that no command has taken, is taken (log entry 3). -/
def takeDue (s : State) : State :=
  let s1 := s.checkFrame.takeTimers.takeSecond
  s1.tbUpTo (s1.tb.lastTick + tickCounts)

/-- TB at a tick: the oscillator, elapsed time and network time (R1, R2). -/
def TB.tick (t : TB) : TB :=
  let x := nextTime t.seconds t.sub
  { t with
    osc := max t.osc (t.lastTick + tickCounts), lastTick := t.lastTick + tickCounts, elapsed := satAdd max48 t.elapsed 1,
    seconds := x.1, sub := x.2.1, boundary := x.2.2.or t.boundary }

/-- A degrade block is due to close at a tick that brings elapsed time to `now` (R24). -/
def blockAt (before now : Nat) : Bool := decide (before < now ∧ now % 1000 = 0)

/-- The millisecond tick alone: TB's counts, the meters, the degrade block and the MARKER pulse (R1, R2, R24, R148,
R183). DESIGN CHOICE (unsafe, log entry 3): an expiry or a time-list entry that falls at the instant of this tick is due
only after the tick has advanced the meters, where R148 and R151 let either come first. -/
def advance (s : State) : State :=
  let t := TB.tick s.tb
  { s.tickMeters with
    tb := t
    rmon := { s.rmon with blockDue := s.rmon.blockDue || blockAt s.tb.elapsed t.elapsed }
    tcu := { s.tcu with markerPulse := s.tcu.markerPulse.map (· - 1) } }

/-- The millisecond tick, after what was due (R1). -/
def tick (s : State) : State := s.takeDue.advance

end State

end Sys2Proof.Machine
end

