-- ==== Sys2Proof/Machine/EventCommands.lean ====
section
/-! DEFINITION. What each event row of spec/opcode_table.json does: one definition for each, over the operations of
`Events`, followed by the transmitter's choice (R179). -/

namespace Sys2Proof.Machine

/-- The outcome of a command: every one of them leads to a next state. -/
abbrev Step := Host.Outcome State Fault Refusal

namespace State

/-- The state after a command: the transmitter takes its part, as a party may have begun to wait (R179). -/
def done (s : State) : Step := .next s.transmit

/-- The reply to a RESET of a scope ends, where it is the message on the line. The reset is performed before the
transmitter chooses (R196), so the choice is left to the next command (log entry 20). -/
def endReset (s : State) (scope : Scope) : Step := if s.resetOnLine scope then .next s.endMessage else s.done

/-- The message on the line ends, and the transmitter chooses, except behind a reset that the end performs (R196). -/
def endLine (s : State) : State :=
  if s.resetOnLine .all || s.resetOnLine .traffic then s.endMessage else s.endMessage.becomesFree

end State

/-- Power-on/pin reset with the straps reading a code (R186, R197). -/
def execPowerOnReset (straps : Fin 4) (s : State) : Step := (s.resetPowerOn straps).done

/-- The millisecond tick (R1, R2, R148). -/
def execMillisecondTick (s : State) : Step := s.tick.done

/-- A second boundary is handed to BKU and RMON (R2). -/
def execSecondBoundary (s : State) : Step := s.handBoundary.done

/-- The internal generator reaches its period (R8, R13). -/
def execInternalFrameInstant (s : State) : Step := s.dueInstant.done

/-- A pulse on the reference input (R10, R11). -/
def execReferencePulse (offset : Nat) (s : State) : Step := (s.referencePulse offset).done

/-- The loss limit passes in LOCKED (R10). -/
def execLossLimitExpiry (s : State) : Step := s.dueLoss.done

/-- A drill that stands at count 0 enters ACTIVE (R31). -/
def execDrillActivation (circuit : Fin 24) (s : State) : Step := (s.activateDrill circuit).done

/-- A drill ends at its duration expiry (R31). -/
def execDrillEnd (circuit : Fin 24) (s : State) : Step := (s.endDrill circuit).done

/-- The MARKER pulse ends (R183). -/
def execMarkerPulseEnd (s : State) : Step := s.endPulse.done

/-- A group arrives on the status link (R17 to R21, R23). -/
def execStatusWord (group : List Byte) (s : State) : Step := (s.statusWord group).done

/-- A card is lost (R18). -/
def execCardLoss (card : Fin 6) (s : State) : Step := (s.cardExpiry card).done

/-- A fail timer expires (R22). -/
def execFailTimerExpiry (route : Fin 48) (s : State) : Step := (s.failExpiry route).done

/-- A clear timer expires (R22). -/
def execClearTimerExpiry (route : Fin 48) (s : State) : Step := (s.clearExpiry route).done

/-- A degrade block closes (R24). -/
def execBlockClose (s : State) : Step := s.closeDueBlock.done

/-- RMON takes the works edges of a second handed to it (R27). -/
def execWorksEdge (s : State) : Step := s.takeWorksEdge.done

/-- A guard timer expires (R49). -/
def execGuardExpiry (circuit : Fin 24) (s : State) : Step := (s.guardExpiry circuit).done

/-- A WTR timer expires (R51). -/
def execWtrExpiry (circuit : Fin 24) (s : State) : Step := (s.wtrExpiry circuit).done

/-- A record's arm entry is taken (R81, R101). -/
def execArmEntry (record : Fin 192) (s : State) : Step := (s.takeNext record .arm).done

/-- A record's start entry is taken (R81, R102). -/
def execStartEntry (record : Fin 192) (s : State) : Step := (s.takeNext record .start).done

/-- A record's end entry is taken (R81, R109, R110, R118). -/
def execEndEntry (record : Fin 192) (s : State) : Step := (s.takeNext record .stop).done

/-- The level on a cue pin changes (R184). -/
def execCueInputChange (line : Fin 4) (level : Bool) (s : State) : Step := (s.changeCue line level).done

/-- A cue filter expires (R103, R184). -/
def execCueEdge (line : Fin 4) (s : State) : Step := (s.cueExpiry line).done

/-- A group arrives from the fabric (R129). -/
def execConfirm (group : List Byte) (s : State) : Step := (s.confirmWord group).done

/-- The confirm timer expires (R130). -/
def execConfirmTimerExpiry (s : State) : Step := s.confirmExpiry.done

/-- The gap timer expires (R187). -/
def execGapTimerExpiry (s : State) : Step := s.gapExpiry.done

/-- A frame that has its last check byte is checked (R188, R189). -/
def execFrameReceived (s : State) : Step := s.checkFrame.done

/-- A good frame of some kind arrives; a kind that is not of Table 11-6 is answered UNKNOWN_KIND (R189, R190, R191). -/
def execUnknownKind (tag kind : Byte) (body : List Byte) (s : State) : Step :=
  (s.arrive tag (parseRequest kind body)).done

/-- The message on the line ends, and the transmitter chooses the next (R179, R189, R196). -/
def execTransmitterFree (s : State) : Step := .next s.endLine

/-- The reply to a RESET ALL ends, and the reset is performed (R196). -/
def execResetAll (s : State) : Step := s.endReset .all

/-- The reply to a RESET TRAFFIC ends, and the reset is performed (R100, R196). -/
def execResetTraffic (s : State) : Step := s.endReset .traffic

/-- A byte arrives on the control link (R187); a complete frame before it is checked first. -/
def execByteReceived (byte : Byte) (s : State) : Step := (s.checkFrame.takeByte byte).done

end Sys2Proof.Machine
end

