-- ==== Sys2Proof/Machine/RequestCommands.lean ====
section
/-! DEFINITION. What each request row of spec/opcode_table.json does: its good frame arrives, and it is queued and served,
or answered BUSY, or dropped (R189, R190). What its service does is the request's own `serve` definition. -/

namespace Sys2Proof.Machine

/-- IDENT arrives (R194). -/
def execIdent (tag : Byte) (s : State) : Step := (s.arrive tag .ident).done

/-- STATUS arrives (R195). -/
def execStatus (tag : Byte) (s : State) : Step := (s.arrive tag .status).done

/-- RESET arrives (R196). -/
def execReset (tag scope : Byte) (s : State) : Step := (s.arrive tag (.reset scope)).done

/-- SET_TIME arrives (R4). -/
def execSetTime (tag : Byte) (second : Word) (s : State) : Step := (s.arrive tag (.setTime second)).done

/-- READ_TIME arrives (R3). -/
def execReadTime (tag : Byte) (s : State) : Step := (s.arrive tag .readTime).done

/-- SET_REFERENCE arrives (R9). -/
def execSetReference (tag source rate : Byte) (frameMax : Half) (s : State) : Step :=
  (s.arrive tag (.setReference source rate frameMax)).done

/-- SET_ROUTE arrives (R26). -/
def execSetRoute (tag route : Byte) (failHold clearHold degThr clrThr : Half) (s : State) : Step :=
  (s.arrive tag (.setRoute route failHold clearHold degThr clrThr)).done

/-- SET_WORKS arrives (R28). -/
def execSetWorks (tag route : Byte) (start stop : Word) (force : Byte) (s : State) : Step :=
  (s.arrive tag (.setWorks route start stop force)).done

/-- READ_HEALTH arrives (R37). -/
def execReadHealth (tag route : Byte) (s : State) : Step := (s.arrive tag (.readHealth route)).done

/-- DRILL arrives (R30). -/
def execDrill (tag route : Byte) (delay duration : Half) (s : State) : Step :=
  (s.arrive tag (.drill route delay duration)).done

/-- DRILL_ABORT arrives (R33). -/
def execDrillAbort (tag route : Byte) (s : State) : Step := (s.arrive tag (.drillAbort route)).done

/-- SET_CIRCUIT arrives (R41). -/
def execSetCircuit (tag circuit mode revertive degSwitch : Byte) (guardTime wtrSecs : Half) (s : State) : Step :=
  (s.arrive tag (.setCircuit circuit mode revertive degSwitch guardTime wtrSecs)).done

/-- FORCE arrives (R52). -/
def execForce (tag circuit target : Byte) (s : State) : Step := (s.arrive tag (.force circuit target)).done

/-- LOCKOUT arrives (R54). -/
def execLockout (tag circuit : Byte) (s : State) : Step := (s.arrive tag (.lockout circuit)).done

/-- CLEAR arrives (R55). -/
def execClear (tag circuit : Byte) (s : State) : Step := (s.arrive tag (.clear circuit)).done

/-- READ_CIRCUIT arrives (R59). -/
def execReadCircuit (tag circuit : Byte) (s : State) : Step := (s.arrive tag (.readCircuit circuit)).done

/-- SET_PORT arrives (R62). -/
def execSetPort (tag port setting : Byte) (s : State) : Step := (s.arrive tag (.setPort port setting)).done

/-- SET_HANDOFF arrives (R65). -/
def execSetHandoff (tag handoff account count port0 port1 port2 port3 maskPresent : Byte) (mask : Half)
    (s : State) : Step :=
  (s.arrive tag (.setHandoff handoff account count port0 port1 port2 port3 maskPresent mask)).done

/-- SET_ACCOUNT arrives (R64). -/
def execSetAccount (tag account permitted : Byte) (s : State) : Step :=
  (s.arrive tag (.setAccount account permitted)).done

/-- DELETE_ENTRY arrives (R66). -/
def execDeleteEntry (tag kind index : Byte) (s : State) : Step := (s.arrive tag (.deleteEntry kind index)).done

/-- SET_MARGIN arrives (R70). -/
def execSetMargin (tag : Byte) (margin : Half) (s : State) : Step := (s.arrive tag (.setMargin margin)).done

/-- BOOK arrives (R83). -/
def execBook (tag : Byte) (fields : BookFields) (s : State) : Step := (s.arrive tag (.book fields)).done

/-- AMEND arrives (R92). -/
def execAmend (tag : Byte) (id : Half) (newEnd : Word) (s : State) : Step := (s.arrive tag (.amend id newEnd)).done

/-- CANCEL arrives (R94). -/
def execCancel (tag : Byte) (id : Half) (s : State) : Step := (s.arrive tag (.cancel id)).done

/-- END arrives (R113). -/
def execEndBooking (tag : Byte) (id : Half) (s : State) : Step := (s.arrive tag (.endBooking id)).done

/-- SWAP arrives (R115). -/
def execSwap (tag : Byte) (id : Half) (slot feed : Byte) (s : State) : Step :=
  (s.arrive tag (.swap id slot feed)).done

/-- READ_BOOKING arrives (R97). -/
def execReadBooking (tag : Byte) (id : Half) (s : State) : Step := (s.arrive tag (.readBooking id)).done

/-- LIST_PORT arrives (R98). -/
def execListPort (tag port start : Byte) (s : State) : Step := (s.arrive tag (.listPort port start)).done

/-- PATCH arrives (R133). -/
def execPatch (tag port route : Byte) (s : State) : Step := (s.arrive tag (.patch port route)).done

/-- UNPATCH arrives (R134). -/
def execUnpatch (tag port : Byte) (s : State) : Step := (s.arrive tag (.unpatch port)).done

/-- READ_PORT arrives (R141). -/
def execReadPort (tag port : Byte) (s : State) : Step := (s.arrive tag (.readPort port)).done

/-- SET_CONFIRM arrives (R139). -/
def execSetConfirm (tag timeout : Byte) (s : State) : Step := (s.arrive tag (.setConfirm timeout)).done

/-- READ_METER arrives (R156). -/
def execReadMeter (tag : Byte) (id : Half) (s : State) : Step := (s.arrive tag (.readMeter id)).done

/-- SET_TARIFF arrives (R159). -/
def execSetTariff (tag : Byte) (fields : TariffFields) (s : State) : Step := (s.arrive tag (.setTariff fields)).done

/-- SETTLE_PEEK arrives (R167). -/
def execSettlePeek (tag : Byte) (s : State) : Step := (s.arrive tag .settlePeek).done

/-- SETTLE_RELEASE arrives (R168). -/
def execSettleRelease (tag : Byte) (id : Half) (s : State) : Step := (s.arrive tag (.settleRelease id)).done

/-- READ_ACCOUNT arrives (R170). -/
def execReadAccount (tag account : Byte) (s : State) : Step := (s.arrive tag (.readAccount account)).done

/-- CLEAR_ACCOUNT arrives (R171). -/
def execClearAccount (tag account : Byte) (s : State) : Step := (s.arrive tag (.clearAccount account)).done

/-- SET_NOTICES arrives (R177). -/
def execSetNotices (tag health circuit booking reference take settlement : Byte) (s : State) : Step :=
  (s.arrive tag (.setNotices health circuit booking reference take settlement)).done

/-- SET_TALLY arrives (R182). -/
def execSetTally (tag line source : Byte) (param : Six) (invert : Byte) (s : State) : Step :=
  (s.arrive tag (.setTally line source param invert)).done

/-- SET_CUE arrives (R184). -/
def execSetCue (tag line enable invert : Byte) (s : State) : Step := (s.arrive tag (.setCue line enable invert)).done

end Sys2Proof.Machine
end

