-- ==== Sys2Proof/Machine/Dispatch.lean ====
section
/-! DEFINITION. The meaning of every command: one arm for each row of spec/opcode_table.json. -/

namespace Sys2Proof.Machine

def exec (i : Instr) (s : State) : Host.Outcome State Fault Refusal :=
  match i with
  | .powerOnReset straps => Sys2Proof.Machine.execPowerOnReset straps s
  | .millisecondTick => Sys2Proof.Machine.execMillisecondTick s
  | .secondBoundary => Sys2Proof.Machine.execSecondBoundary s
  | .internalFrameInstant => Sys2Proof.Machine.execInternalFrameInstant s
  | .referencePulse offset => Sys2Proof.Machine.execReferencePulse offset s
  | .lossLimitExpiry => Sys2Proof.Machine.execLossLimitExpiry s
  | .drillActivation circuit => Sys2Proof.Machine.execDrillActivation circuit s
  | .drillEnd circuit => Sys2Proof.Machine.execDrillEnd circuit s
  | .markerPulseEnd => Sys2Proof.Machine.execMarkerPulseEnd s
  | .statusWord group => Sys2Proof.Machine.execStatusWord group s
  | .cardLoss card => Sys2Proof.Machine.execCardLoss card s
  | .failTimerExpiry route => Sys2Proof.Machine.execFailTimerExpiry route s
  | .clearTimerExpiry route => Sys2Proof.Machine.execClearTimerExpiry route s
  | .blockClose => Sys2Proof.Machine.execBlockClose s
  | .worksEdge => Sys2Proof.Machine.execWorksEdge s
  | .guardExpiry circuit => Sys2Proof.Machine.execGuardExpiry circuit s
  | .wtrExpiry circuit => Sys2Proof.Machine.execWtrExpiry circuit s
  | .armEntry record => Sys2Proof.Machine.execArmEntry record s
  | .startEntry record => Sys2Proof.Machine.execStartEntry record s
  | .endEntry record => Sys2Proof.Machine.execEndEntry record s
  | .cueInputChange line level => Sys2Proof.Machine.execCueInputChange line level s
  | .cueEdge line => Sys2Proof.Machine.execCueEdge line s
  | .confirm group => Sys2Proof.Machine.execConfirm group s
  | .confirmTimerExpiry => Sys2Proof.Machine.execConfirmTimerExpiry s
  | .gapTimerExpiry => Sys2Proof.Machine.execGapTimerExpiry s
  | .frameReceived => Sys2Proof.Machine.execFrameReceived s
  | .unknownKind tag kind body => Sys2Proof.Machine.execUnknownKind tag kind body s
  | .transmitterFree => Sys2Proof.Machine.execTransmitterFree s
  | .resetAll => Sys2Proof.Machine.execResetAll s
  | .resetTraffic => Sys2Proof.Machine.execResetTraffic s
  | .ident tag => Sys2Proof.Machine.execIdent tag s
  | .status tag => Sys2Proof.Machine.execStatus tag s
  | .reset tag scope => Sys2Proof.Machine.execReset tag scope s
  | .setTime tag second => Sys2Proof.Machine.execSetTime tag second s
  | .readTime tag => Sys2Proof.Machine.execReadTime tag s
  | .setReference tag source rate frameMax => Sys2Proof.Machine.execSetReference tag source rate frameMax s
  | .setRoute tag route failHold clearHold degThr clrThr => Sys2Proof.Machine.execSetRoute tag route failHold clearHold degThr clrThr s
  | .setWorks tag route start stop force => Sys2Proof.Machine.execSetWorks tag route start stop force s
  | .readHealth tag route => Sys2Proof.Machine.execReadHealth tag route s
  | .drill tag route delay duration => Sys2Proof.Machine.execDrill tag route delay duration s
  | .drillAbort tag route => Sys2Proof.Machine.execDrillAbort tag route s
  | .setCircuit tag circuit mode revertive degSwitch guardTime wtrSecs => Sys2Proof.Machine.execSetCircuit tag circuit mode revertive degSwitch guardTime wtrSecs s
  | .force tag circuit target => Sys2Proof.Machine.execForce tag circuit target s
  | .lockout tag circuit => Sys2Proof.Machine.execLockout tag circuit s
  | .clear tag circuit => Sys2Proof.Machine.execClear tag circuit s
  | .readCircuit tag circuit => Sys2Proof.Machine.execReadCircuit tag circuit s
  | .setPort tag port setting => Sys2Proof.Machine.execSetPort tag port setting s
  | .setHandoff tag handoff account count port0 port1 port2 port3 maskPresent mask => Sys2Proof.Machine.execSetHandoff tag handoff account count port0 port1 port2 port3 maskPresent mask s
  | .setAccount tag account permitted => Sys2Proof.Machine.execSetAccount tag account permitted s
  | .deleteEntry tag kind index => Sys2Proof.Machine.execDeleteEntry tag kind index s
  | .setMargin tag margin => Sys2Proof.Machine.execSetMargin tag margin s
  | .book tag fields => Sys2Proof.Machine.execBook tag fields s
  | .amend tag id newEnd => Sys2Proof.Machine.execAmend tag id newEnd s
  | .cancel tag id => Sys2Proof.Machine.execCancel tag id s
  | .endBooking tag id => Sys2Proof.Machine.execEndBooking tag id s
  | .swap tag id slot feed => Sys2Proof.Machine.execSwap tag id slot feed s
  | .readBooking tag id => Sys2Proof.Machine.execReadBooking tag id s
  | .listPort tag port start => Sys2Proof.Machine.execListPort tag port start s
  | .patch tag port route => Sys2Proof.Machine.execPatch tag port route s
  | .unpatch tag port => Sys2Proof.Machine.execUnpatch tag port s
  | .readPort tag port => Sys2Proof.Machine.execReadPort tag port s
  | .setConfirm tag timeout => Sys2Proof.Machine.execSetConfirm tag timeout s
  | .readMeter tag id => Sys2Proof.Machine.execReadMeter tag id s
  | .setTariff tag fields => Sys2Proof.Machine.execSetTariff tag fields s
  | .settlePeek tag => Sys2Proof.Machine.execSettlePeek tag s
  | .settleRelease tag id => Sys2Proof.Machine.execSettleRelease tag id s
  | .readAccount tag account => Sys2Proof.Machine.execReadAccount tag account s
  | .clearAccount tag account => Sys2Proof.Machine.execClearAccount tag account s
  | .setNotices tag health circuit booking reference take settlement => Sys2Proof.Machine.execSetNotices tag health circuit booking reference take settlement s
  | .setTally tag line source param invert => Sys2Proof.Machine.execSetTally tag line source param invert s
  | .setCue tag line enable invert => Sys2Proof.Machine.execSetCue tag line enable invert s
  | .byteReceived byte => Sys2Proof.Machine.execByteReceived byte s

end Sys2Proof.Machine
end

