-- ==== Sys2Proof/Machine/Formats.lean ====
section
/-! DEFINITION. The messages of the transmitter as bytes, where the manual lays them out: the frame (Table 11-3), statuses
and codes (Tables 11-4 and 11-7), the BOOK reply (Table 11-8), the settlement record (Table 11-9), notices and READY
(Table 11-10). -/

namespace Sys2Proof.Machine

/-! ### Codes -/

/-- The status byte (Table 11-4). -/
def Status.code : Status → Byte
  | .ok => 0
  | .unknownKind => 1
  | .badLength => 2
  | .badField => 3
  | .noSuch => 4
  | .exists_ => 5
  | .conflict => 6
  | .worksConflict => 7
  | .bookingConflict => 8
  | .noRoom => 9
  | .inUse => 10
  | .state => 11
  | .timeStep => 12
  | .busy => 13

/-- Health (Table 11-7). -/
def Health.code : Health → Byte
  | .ok => 0
  | .degraded => 1
  | .failed => 2
  | .works => 3
  | .drill => 4

/-- Booking state (Table 11-7). -/
def BookingState.code : BookingState → Byte
  | .scheduled => 0
  | .armed => 1
  | .waiting => 2
  | .starting => 3
  | .live => 4
  | .runOn => 5
  | .ending => 6
  | .closing => 7

/-- Booking reason and outcome (Table 11-7). -/
def Reason.code : Reason → Byte
  | .cueWindow => 0
  | .timeStart => 1
  | .cueStart => 2
  | .feedsUnavailable => 3
  | .portOccupied => 4
  | .waitEnded => 5
  | .onAir => 6
  | .extended => 7
  | .completed => 8
  | .runOnLimit => 9
  | .overrunCut => 10
  | .endedEarly => 11
  | .noShow => 12
  | .cancelled => 13

/-- A reason, 0xFF when absent (Table 11-7). -/
def reasonCode (r : Option Reason) : Byte := (r.map Reason.code).getD 0xFF

/-- Selector state, 6 in SPLIT (Table 11-7). -/
def selectorCode : Option SelState → Byte
  | some .selA => 0
  | some .selB => 1
  | some .wtr => 2
  | some .forcedA => 3
  | some .forcedB => 4
  | some .lockout => 5
  | none => 6

/-- Circuit reason (Table 11-7). -/
def CircuitReason.code : CircuitReason → Byte
  | .auto => 0
  | .wtrExpiry => 1
  | .force => 2
  | .forceDropped => 3
  | .clear => 4
  | .lockout => 5

/-- Reference state (Table 11-7). -/
def RefState.code : RefState → Byte
  | .free => 0
  | .seeking => 1
  | .locked => 2
  | .holdover => 3

/-- Reset kind of READY (Table 11-7). -/
def ResetKind.code : ResetKind → Byte
  | .powerOn => 0
  | .resetAll => 1
  | .resetTraffic => 2

/-! ### Fields -/

/-- A number as `n` big-endian bytes (R193). -/
def natBytes : Nat → Nat → List Byte
  | 0, _ => []
  | n + 1, v => natBytes n (v / 256) ++ [BitVec.ofNat 8 v]

/-- A one-byte number. -/
def oneByte (v : Nat) : Byte := BitVec.ofNat 8 v

/-- An identifier, 0xFF when absent. -/
def idByte {n : Nat} (x : Option (Fin n)) : Byte := (x.map fun i => oneByte i.val).getD 0xFF

/-- A flag as a bit of a byte. -/
def flagBit (n : Nat) (b : Bool) : Byte := if b then BitVec.twoPow 8 n else 0

/-- Four slots' bytes, with 0xFF beyond the slot count. -/
def fourSlots (bytes : List Byte) (width : Nat) : List Byte := (bytes ++ List.replicate (4 * width) 0xFF).take (4 * width)

/-! ### Bodies -/

/-- A settlement record (Table 11-9). -/
def Settlement.bytes (x : Settlement) : List Byte :=
  natBytes 2 x.id.toNat ++ [oneByte x.account.val, oneByte x.tariff.val, reasonCode x.outcome] ++
  [flagBit 0 x.saturated ||| flagBit 1 x.timeStepped ||| flagBit 2 x.suspectSeen ||| flagBit 3 x.patchReleased |||
    flagBit 4 x.liveStart.isSome] ++
  [x.s0, x.e0, x.finalEnd, x.liveStart.getD 0, x.endSecond.getD 0].flatMap (natBytes 4) ++
  [x.l, x.s, x.o, x.oc, x.t, x.gs, x.gt, x.gc].flatMap (natBytes 4) ++
  [x.nt, x.np, x.episodes].flatMap (natBytes 2) ++
  [x.longest, x.gross, x.credit, x.net].flatMap (natBytes 4) ++
  [oneByte x.slots.length] ++ fourSlots (x.slots.flatMap fun p => [oneByte p.1.val, oneByte p.2.val]) 2

/-- The fields of a BOOK reply after the status (Table 11-8). -/
def bookedBytes (id : Half) (record : Fin 192) (ports : List (Fin 32)) (lead : Option Nat) (quantum : Nat) : List Byte :=
  natBytes 2 id.toNat ++ [oneByte record.val] ++ fourSlots (ports.map fun p => oneByte p.val) 1 ++
    natBytes 2 (lead.getD Config.absentLead.toNat) ++ natBytes 2 quantum

/-- The bytes of a result, where the manual lays them out (log entry 7). -/
def Result.bytes : Result → Option (List Byte)
  | .empty => some []
  | .booked id record ports lead quantum => some (bookedBytes id record ports lead quantum)
  | .slotAtFault slot => some [(slot.map oneByte).getD 0xFF]
  | .settlement x depth closing => some ([oneByte depth, oneByte closing] ++ x.bytes)
  | .noSettlement depth closing => some [oneByte depth, oneByte closing]
  | _ => none

/-- A notice's kind (R193). -/
def Notice.kind : Notice → Byte
  | .health .. => 0xF9
  | .circuit .. => 0xFA
  | .booking .. => 0xFB
  | .take .. => 0xFC
  | .reference _ => 0xFD
  | .settlement _ => 0xFE

/-- A notice's body (Table 11-10). -/
def Notice.body : Notice → List Byte
  | .health r h flaps frame => [oneByte r.val, h.code] ++ natBytes 2 flaps ++ natBytes 2 frame
  | .circuit c sel route reason count frame =>
    [oneByte c.val, selectorCode sel, idByte route, reason.code] ++ natBytes 2 count ++ natBytes 2 frame
  | .booking id st reason short patch =>
    natBytes 2 id.toNat ++ [st.code, reasonCode reason, flagBit 0 short ||| flagBit 1 patch]
  | .take newly suspect frame => natBytes 4 newly.toNat ++ natBytes 4 suspect.toNat ++ natBytes 2 frame
  | .reference st => [st.code]
  | .settlement depth => [oneByte depth]

/-- The kind of a message. -/
def Message.kind : Message → Byte
  | .ready _ => 0xFF
  | .reply r => r.kind
  | .notice n => n.kind

/-- The tag of a message: its request's in a reply, 0 in notices and READY (Table 11-3). -/
def Message.tag : Message → Byte
  | .ready _ => 0
  | .reply r => r.tag
  | .notice _ => 0

/-- The body of a message, where the manual lays it out. -/
def Message.body : Message → Option (List Byte)
  | .ready k => some [k.code]
  | .reply r => r.result.bytes.map (r.status.code :: ·)
  | .notice n => some n.body

/-- The frame of a kind, a tag and a body (Table 11-3). -/
def frameOf (kind tag : Byte) (body : List Byte) : List Byte :=
  let covered := natBytes 2 body.length ++ [kind, tag] ++ body
  markerByte :: covered ++ natBytes 2 (crc covered).toNat

/-- The frame of a message, where the manual lays its body out. -/
def Message.frame (m : Message) : Option (List Byte) := m.body.map (frameOf m.kind m.tag)

end Sys2Proof.Machine
end

