-- ==== Sys2Proof/Safety.lean ====
section
/-! DEFINITION. What counts as a safe step, the laws of the manual that a state may keep, and the words in which the
statements say what a command does. -/

namespace Sys2Proof.Machine

/-- The step ends neither in a fault nor in a refusal. -/
def Safe (o : Host.Outcome State Fault Refusal) : Prop := ∃ s, o = .next s

/-! ### Laws of the manual -/

/-- The law of the notice list (R176): each object at most once, and in the list exactly when its flag is set and its
class is enabled. -/
def NTC.Law (n : NTC) : Prop := n.list.Nodup ∧ ∀ o : Fin 267, o ∈ n.list ↔ n.pending o = true ∧ n.enabled o = true

/-- The law of the meters of one set (R148), with what it rests on: the credited outage and the open episode are
counted in O (R149), and L is held at its maximum. -/
def MeterSet.Law (m : MeterSet) : Prop :=
  m.s + m.o = m.l ∧ m.t ≤ m.s ∧ m.oc + m.episode.getD 0 ≤ m.o ∧ m.l ≤ max32

/-- Every meter set keeps the law of the meters (R148). -/
def State.MeterLaw (s : State) : Prop := ∀ (i : Fin 192) (p : Place), s.place i = some p → p.meter.Law

/-- The phase that R144 gives for each booking state. -/
def BookingState.phase : BookingState → MeterPhase
  | .scheduled | .armed | .waiting | .starting => .notStarted
  | .live | .runOn => .running
  | .ending | .closing => .frozen

/-- Every meter and count of a set is 0. -/
def MeterSet.AllZero (m : MeterSet) : Prop :=
  m.l = 0 ∧ m.s = 0 ∧ m.o = 0 ∧ m.t = 0 ∧ m.oc = 0 ∧ m.episodes = 0 ∧ m.longest = 0 ∧ m.nt = 0 ∧ m.np = 0

/-- The phase of a meter set follows the state of its booking (R144); meters and counts are 0 until the booking enters
LIVE (R148), which sets the live-start second (R108); and an outage episode is open in RUNNING alone (R149). -/
def Place.PhaseLaw (p : Place) : Prop :=
  p.meter.phase = p.booking.state.phase ∧ (p.meter.phase = .notStarted → p.booking.liveStart = none) ∧
    (p.booking.liveStart = none → p.meter.phase ≠ .running ∧ p.meter.AllZero) ∧
    (p.meter.phase ≠ .running → p.meter.episode = none)

/-- Every place that is occupied keeps the law of the phases. -/
def State.PhaseLaw (s : State) : Prop := ∀ (i : Fin 192) (p : Place), s.place i = some p → p.PhaseLaw

/-- The second of a record's time-list entry of each kind (R81). -/
def Booking.entrySecond (b : Booking) : EntryKind → Nat
  | .arm => b.s0 - b.cueLead.getD 0
  | .start => b.s0
  | .stop => b.e

/-- The law of the time list (R81): it is ordered by second, record index and kind, holds at most one entry of a kind for
each record, and every entry is one of a record of the table at the second that R81 gives. Only an arm entry is due at
once (R90). -/
def State.TimeListLaw (s : State) : Prop :=
  s.bku.timeList.Pairwise (fun a b => a.second < b.second ∨ a.second = b.second ∧ (a.record < b.record ∨
    a.record = b.record ∧ a.kind.order < b.kind.order)) ∧
  (∀ a ∈ s.bku.timeList, ∀ b ∈ s.bku.timeList, a.record = b.record → a.kind = b.kind → a = b) ∧
  ∀ a ∈ s.bku.timeList, ∃ p, s.place a.record = some p ∧ a.second = p.booking.entrySecond a.kind ∧
    (a.atOnce = true → a.kind = .arm)

/-- Network time, elapsed time, the frame number and the qualification count are in their ranges, the reference
state is FREE exactly while the source is INTERNAL, and the count of 8 is reached only in LOCKED (R1, R2, R9, R11,
R13). -/
def TB.InRange (t : TB) : Prop :=
  t.seconds ≤ max32 ∧ t.sub ≤ 999 ∧ t.elapsed ≤ max48 ∧ t.frameMax ≤ max16 ∧ t.frame ≤ max16 ∧ t.qual ≤ 8 ∧
    (t.source = .internal ↔ t.refState = .free) ∧ (t.refState = .seeking ∨ t.refState = .holdover → t.qual < 8)

/-- The request queue holds at most four requests (R189), and the link error count is a 16-bit count (R188). -/
def LNK.Bounded (l : LNK) : Prop := l.queue.length ≤ 4 ∧ l.errors ≤ max16

/-- Every booking record's extension limit is at most 15 (R82). -/
def State.LimitsLow (s : State) : Prop := ∀ (i : Fin 192) (p : Place), s.place i = some p → p.booking.limit ≤ 15

/-- The counts of the part are in their ranges (R82, R165, R169, R188, R189). -/
def State.InRange (s : State) : Prop :=
  s.tb.InRange ∧ s.lnk.Bounded ∧ s.stl.queue.length ≤ 64 ∧ s.LimitsLow ∧
    ∀ a : Fin 16, (s.stl.totals.get a).net ≤ max48 ∧ (s.stl.totals.get a).credit ≤ max48 ∧
      (s.stl.totals.get a).closed ≤ max16

/-- The law of the selector for one circuit (R46): an automatic state with no guard time running has its selected route
ranked no lower than the other. With it: a guard timer runs in automatic states only, the WTR timer runs exactly in WTR,
and WTR is held only while A is restored (R48, R51). -/
def State.SelectorLawAt (s : State) (c : Fin 24) : Prop :=
  (∀ st, (s.circuit c).selector = some st → st.automatic = true → (s.circuit c).guard = none →
    s.rankOf c st.side.other ≤ s.rankOf c st.side) ∧
  ((s.circuit c).guard ≠ none → ∃ st, (s.circuit c).selector = some st ∧ st.automatic = true) ∧
  ((s.circuit c).wtr ≠ none ↔ (s.circuit c).selector = some .wtr) ∧
  ((s.circuit c).selector = some .wtr → s.rankOf c .a = 2)

/-- The law of the selector (R46). -/
def State.SelectorLaw (s : State) : Prop := ∀ c : Fin 24, s.SelectorLawAt c

/-- Effective health is what R34 computes from its inputs, and a drill is set only while its partner route is OK
(R32). -/
def State.HealthLaw (s : State) : Prop :=
  (∀ r : Fin 48, s.health r = s.healthNow r) ∧
  ∀ (c : Fin 24) (d : Drill), s.drill c = some d → s.health (routeOf c d.side.other) = .ok

/-- The closing list holds the records in CLOSING, each once, and each holds its settlement record; the list is empty
while the queue has room (R165, R166, R119). -/
def State.ClosingLaw (s : State) : Prop :=
  s.stl.queue.length ≤ 64 ∧ (s.stl.queue.length < 64 → s.stl.closing = []) ∧ s.stl.closing.Nodup ∧
  (∀ i : Fin 192, i ∈ s.stl.closing ↔ s.stateAt i = some .closing) ∧
  ∀ (i : Fin 192) (p : Place), s.place i = some p → (p.held ≠ none ↔ p.booking.state = .closing)

/-- A booking id appears at most once across the booking table and the settlement queue together (R78); a held
settlement record has the id of its booking. -/
def State.IdLaw (s : State) : Prop :=
  (∀ (i j : Fin 192) (p q : Place), s.place i = some p → s.place j = some q → p.booking.id = q.booking.id → i = j) ∧
  (s.stl.queue.map (·.id)).Nodup ∧
  (∀ (i : Fin 192) (p : Place), s.place i = some p → p.booking.id ∉ s.stl.queue.map (·.id)) ∧
  ∀ (i : Fin 192) (p : Place) (x : Settlement), s.place i = some p → p.held = some x → x.id = p.booking.id

/-- The law of the directory's counts (R67): the reference count of an account, a handoff or a tariff entry is the
number of booking records that name it. -/
def State.CountsLaw (s : State) : Prop :=
  (∀ a : Fin 16, (s.dir.accounts.get a).refs = (s.recordsWhere fun b => b.account == a).length) ∧
  (∀ h : Fin 16, (s.dir.handoffs.get h).refs = (s.recordsWhere fun b => b.handoff == h).length) ∧
  ∀ t : Fin 8, (s.stl.tariffs.get t).refs = (s.recordsWhere fun b => b.tariff == t).length

/-- Two spans of one timeline are clear of each other under the changeover margin (R71). -/
def Booking.clearOf (margin : Nat) (b c : Booking) : Prop := b.e + margin ≤ c.s0 ∨ c.e + margin ≤ b.s0

/-- The law of the timelines (R79): a timeline holds records of the table that are not in CLOSING, each on its own
assigned ports, in increasing order of s0, any two clear of each other under the margin. The assigned ports of a record
are distinct (R73). -/
def State.TimelineLaw (s : State) : Prop :=
  (∀ (i : Fin 192) (p : Place), s.place i = some p → p.booking.s0 + 60 ≤ p.booking.e ∧ p.booking.ports.Nodup) ∧
  (∀ (q : Fin 32) (i : Fin 192), i ∈ s.timeline q →
    ∃ p, s.place i = some p ∧ q ∈ p.booking.ports ∧ p.booking.state ≠ .closing) ∧
  ∀ q : Fin 32, (s.timeline q).Pairwise fun i j => ∀ p r, s.place i = some p → s.place j = some r →
    p.booking.s0 < r.booking.s0 ∧ p.booking.clearOf s.dir.margin r.booking

/-- The law of takes: orders are open, and the confirm timer runs, exactly while a take is in flight, one order for a
port (R127, R128); a port whose holder is none carries PARK, or is SUSPECT, or has an open order for PARK (R138). -/
def State.TakeLaw (s : State) : Prop :=
  (s.xpc.inFlight = true ↔ s.xpc.orders ≠ []) ∧ (s.xpc.inFlight = true ↔ s.xpc.timer ≠ none) ∧
  (s.xpc.orders.map (·.port)).Nodup ∧
  ∀ p : Fin 32, (s.xport p).holder = .nobody →
    (∀ o ∈ s.xpc.orders, o.port = p → o.input = .park) ∧
    ((s.xport p).committed = .park ∨ (s.xport p).committed = .suspect ∨ (⟨p, .park⟩ : Order) ∈ s.xpc.orders)

/-! ### Commands and their outcomes -/

/-- The tag and the request that a request row brings; none for an event. -/
def requestOf : Instr → Option (Byte × Request)
  | .unknownKind tag kind body => some (tag, parseRequest kind body)
  | .ident tag => some (tag, .ident)
  | .status tag => some (tag, .status)
  | .reset tag scope => some (tag, .reset scope)
  | .setTime tag second => some (tag, .setTime second)
  | .readTime tag => some (tag, .readTime)
  | .setReference tag source rate frameMax => some (tag, .setReference source rate frameMax)
  | .setRoute tag route failHold clearHold degThr clrThr => some (tag, .setRoute route failHold clearHold degThr clrThr)
  | .setWorks tag route start stop force => some (tag, .setWorks route start stop force)
  | .readHealth tag route => some (tag, .readHealth route)
  | .drill tag route delay duration => some (tag, .drill route delay duration)
  | .drillAbort tag route => some (tag, .drillAbort route)
  | .setCircuit tag circuit mode revertive degSwitch guardTime wtrSecs =>
    some (tag, .setCircuit circuit mode revertive degSwitch guardTime wtrSecs)
  | .force tag circuit target => some (tag, .force circuit target)
  | .lockout tag circuit => some (tag, .lockout circuit)
  | .clear tag circuit => some (tag, .clear circuit)
  | .readCircuit tag circuit => some (tag, .readCircuit circuit)
  | .setPort tag port setting => some (tag, .setPort port setting)
  | .setHandoff tag handoff account count port0 port1 port2 port3 maskPresent mask =>
    some (tag, .setHandoff handoff account count port0 port1 port2 port3 maskPresent mask)
  | .setAccount tag account permitted => some (tag, .setAccount account permitted)
  | .deleteEntry tag kind index => some (tag, .deleteEntry kind index)
  | .setMargin tag margin => some (tag, .setMargin margin)
  | .book tag fields => some (tag, .book fields)
  | .amend tag id newEnd => some (tag, .amend id newEnd)
  | .cancel tag id => some (tag, .cancel id)
  | .endBooking tag id => some (tag, .endBooking id)
  | .swap tag id slot feed => some (tag, .swap id slot feed)
  | .readBooking tag id => some (tag, .readBooking id)
  | .listPort tag port start => some (tag, .listPort port start)
  | .patch tag port route => some (tag, .patch port route)
  | .unpatch tag port => some (tag, .unpatch port)
  | .readPort tag port => some (tag, .readPort port)
  | .setConfirm tag timeout => some (tag, .setConfirm timeout)
  | .readMeter tag id => some (tag, .readMeter id)
  | .setTariff tag fields => some (tag, .setTariff fields)
  | .settlePeek tag => some (tag, .settlePeek)
  | .settleRelease tag id => some (tag, .settleRelease id)
  | .readAccount tag account => some (tag, .readAccount account)
  | .clearAccount tag account => some (tag, .clearAccount account)
  | .setNotices tag health circuit booking reference take settlement =>
    some (tag, .setNotices health circuit booking reference take settlement)
  | .setTally tag line source param invert => some (tag, .setTally line source param invert)
  | .setCue tag line enable invert => some (tag, .setCue line enable invert)
  | .powerOnReset .. | .millisecondTick | .secondBoundary | .internalFrameInstant | .referencePulse ..
  | .lossLimitExpiry | .drillActivation .. | .drillEnd .. | .markerPulseEnd | .statusWord .. | .cardLoss ..
  | .failTimerExpiry .. | .clearTimerExpiry .. | .blockClose | .worksEdge | .guardExpiry .. | .wtrExpiry ..
  | .armEntry .. | .startEntry .. | .endEntry .. | .cueInputChange .. | .cueEdge .. | .confirm ..
  | .confirmTimerExpiry | .gapTimerExpiry | .frameReceived | .transmitterFree | .resetAll | .resetTraffic
  | .byteReceived .. => none

/-- The request queue takes a request and serves it at once (R189, R190): a place is free, no reset hold stands, and
every request before it is served. -/
def State.Ready (s : State) : Prop :=
  s.lnk.queue.length < 4 ∧ s.lnk.hold = none ∧ ∀ q ∈ s.lnk.queue, q.served = true

/-- The reply to a request (R191). -/
def replyTo (tag : Byte) (r : Request) (a : Answer) : Reply := ⟨r.replyKind, tag, a.status, a.result⟩

/-- LNK with a request queued and served and its reply made, the last of the replies that wait (R189, R190, R191). The
end of the reply frees the request's place. -/
def LNK.answered (l : LNK) (tag : Byte) (r : Request) (a : Answer) : LNK :=
  { l with queue := l.queue ++ [⟨tag, r, true⟩], replies := l.replies ++ [⟨replyTo tag r a, .place⟩] }

/-- The command leads to `t`, and the transmitter then chooses (R179). -/
def Leads (c : Instr) (s t : State) : Prop := exec c s = .next t.transmit

/-- The request that `c` brings is queued, served and answered `a`; its service makes `t` of the state outside LNK, and
the transmitter then chooses. -/
def Answered (c : Instr) (s : State) (a : Answer) (t : State) : Prop :=
  ∃ tag r, requestOf c = some (tag, r) ∧ Leads c s { t with lnk := s.lnk.answered tag r a }

/-! ### Events one after another -/

/-- Events `r a`, one for each `a` of a list in its order, lead from one state to another. -/
def InOrder {α : Type} (r : α → State → State → Prop) : List α → State → State → Prop
  | [], s, t => t = s
  | a :: as, s, t => ∃ u, r a s u ∧ InOrder r as u t

/-- The events that `next` names are taken one after another until it names none. -/
inductive Exhausts {α : Type} (next : State → Option α) (r : α → State → State → Prop) : State → State → Prop
  | stop {s : State} : next s = none → Exhausts next r s s
  | step {s u t : State} {a : α} : next s = some a → r a s u → Exhausts next r u t → Exhausts next r s t

/-- The event `r`, taken when some number of open orders have been decided (log entry 4). -/
def Raced (r : State → State → Prop) (s t : State) : Prop := ∃ n, r { s with raceCount := n } t

/-! ### PSEL's records -/

/-- The record of a circuit after a switch that PSEL makes by evaluation or at WTR expiry (R48, R49, R51, R57): the WTR
timer is stopped, and the guard timer runs where there is a guard time. -/
def Circuit.switched (k : Circuit) (st : SelState) (why : CircuitReason) (now frame : Nat) : Circuit :=
  { k with
    selector := some st
    guard := if k.guardTime = 0 then none else some (now + k.guardTime)
    wtr := none
    switchCount := min max16 (k.switchCount + 1)
    lastReason := why
    changeFrame := frame }

/-- The record of a circuit after FORCE, LOCKOUT or CLEAR, or when a force is dropped (R52 to R55, R57): both timers are
stopped; the count rises where the selected route changes. -/
def Circuit.ordered (k : Circuit) (st : SelState) (why : CircuitReason) (frame : Nat) : Circuit :=
  { k with
    selector := some st
    guard := none
    wtr := none
    switchCount := if k.selector.map (·.side) = some st.side then k.switchCount else min max16 (k.switchCount + 1)
    lastReason := why
    changeFrame := frame }

/-- The record of a circuit that has entered WTR (R47, R51). -/
def Circuit.restoring (k : Circuit) (now frame : Nat) : Circuit :=
  { k with selector := some .wtr, wtr := some (now + k.wtrSecs * 1000), lastReason := .auto, changeFrame := frame }

/-- The record of a circuit that has fallen back from WTR (R44, R48). -/
def Circuit.fallenBack (k : Circuit) (frame : Nat) : Circuit :=
  { k with selector := some .selB, wtr := none, lastReason := .auto, changeFrame := frame }

/-- The record that an evaluation makes of a circuit whose routes compare as `rank` gives, `bUsable` telling whether its B
route is usable (R46, R47, R48); WTR with a period of 0 is passed through (R51). -/
def Circuit.evaluated (k : Circuit) (rank : Side → Nat) (bUsable : Bool) (why : CircuitReason) (now frame : Nat) :
    Circuit :=
  match k.selector with
  | some .selA => if k.guard = none ∧ rank .a < rank .b then k.switched .selB why now frame else k
  | some .selB =>
    if k.guard = none ∧ rank .b < rank .a then k.switched .selA why now frame
    else if k.revertive = true ∧ rank .a = 2 ∧ bUsable = true then
      if k.wtrSecs = 0 then (k.restoring now frame).switched .selA .wtrExpiry now frame else k.restoring now frame
    else k
  | some .wtr =>
    if k.guard = none ∧ rank .b < rank .a then k.switched .selA why now frame
    else if rank .a ≠ 2 then k.fallenBack frame
    else k
  | some .forcedA | some .forcedB | some .lockout | none => k

/-- The record of a circuit that has been handed a change of health (R46, R53, R54). `unfit` tells that the selected
route's health changed and the route is not usable, which drops a force; the circuit is then evaluated. -/
def Circuit.heard (k : Circuit) (rank : Side → Nat) (bUsable unfit : Bool) (now frame : Nat) : Circuit :=
  match k.selector with
  | some .selA | some .selB | some .wtr => k.evaluated rank bUsable .auto now frame
  | some .forcedA =>
    if unfit then (k.ordered .selA .forceDropped frame).evaluated rank bUsable .forceDropped now frame else k
  | some .forcedB =>
    if unfit then (k.ordered .selB .forceDropped frame).evaluated rank bUsable .forceDropped now frame else k
  | some .lockout | none => k

/-! ### RMON -/

/-- `t` has the same takes under way as `s`: what XPC holds beside the ports, and each port's committed input and
holder. -/
def State.FlightKept (s t : State) : Prop :=
  t.xpc = { s.xpc with ports := t.xpc.ports } ∧
    ∀ p : Fin 32, (t.xport p).committed = (s.xport p).committed ∧ (t.xport p).holder = (s.xport p).holder

/-- What an event that moves no booking leaves of a place: the record, the held settlement record, and of the meter set
all but the copies, the gate, the episodes and N_p. -/
def Place.SameBooking (p q : Place) : Prop :=
  q.booking = p.booking ∧ q.held = p.held ∧ q.meter.phase = p.meter.phase ∧ q.meter.overtime = p.meter.overtime ∧
    q.meter.l = p.meter.l ∧ q.meter.s = p.meter.s ∧ q.meter.o = p.meter.o ∧ q.meter.t = p.meter.t ∧
    q.meter.nt = p.meter.nt ∧ q.meter.suspectSeen = p.meter.suspectSeen

/-- Every place is free in both states, or holds the same booking in both. -/
def State.BookingsKept (s t : State) : Prop :=
  t.bku.timelines = s.bku.timelines ∧ t.bku.timeList = s.bku.timeList ∧
    ∀ i : Fin 192, (s.place i = none ∧ t.place i = none) ∨
      ∃ p q, s.place i = some p ∧ t.place i = some q ∧ p.SameBooking q

/-- What a change of health, and what PSEL, XPC and MTR do with it, leaves (R34, R57). -/
def State.OutsideHealth (s t : State) : Prop :=
  t.tb = s.tb ∧ t.dir = s.dir ∧ t.stl = s.stl ∧ t.tcu = s.tcu ∧ t.lnk = s.lnk ∧ t.pending = s.pending ∧
    s.FlightKept t ∧ s.BookingsKept t

/-- The effective health of a route of circuit `c` differs between two states. -/
def State.healthMoved (s t : State) (c : Fin 24) : Prop := ∃ side, t.health (routeOf c side) ≠ s.health (routeOf c side)

/-- The partner of the drilled route of circuit `c`, where a drill is set, is not OK. -/
def State.partnerUnfit (s : State) (c : Fin 24) : Prop :=
  ∃ d, s.drill c = some d ∧ s.healthNow (routeOf c d.side.other) ≠ .ok

/-- The selected route of circuit `c` changed health between two states, and is not usable in the later one (R53). -/
def State.selectedUnfit (s t : State) (c : Fin 24) : Bool :=
  match s.selectedRoute c with
  | some r => t.health r != s.health r && !(t.health r).usable
  | none => false

/-- The record of circuit `c` after the changes of health from `s` to `t` have been handed to PSEL. -/
def State.heardCircuit (s t : State) (c : Fin 24) : Circuit :=
  (s.circuit c).heard (fun side => comparedRank (s.circuit c).degSwitch (t.health (routeOf c side)))
    (t.health (routeOf c .b)).usable (s.selectedUnfit t c) s.tb.elapsed s.tb.frame

/-- The circuits whose selected route differs between two states and whose feed a booking holds. -/
def State.switchesOf (s t : State) (b : Booking) : Nat :=
  ((List.finRange 24).filter fun c => s.selectedSide c != t.selectedSide c && b.feeds.contains (routeOf c .a)).length

/-- In `s`, inputs of the health of the routes of some circuits stand changed; `t` is the state once RMON has taken that
event and handed it on (R32, R34, R35), with what PSEL, XPC and MTR do with it (R46, R53, R57, R126, R137, R152). -/
structure State.HealthTaken (s t : State) (cs : List (Fin 24)) : Prop where
  /-- R32: a drill is aborted by a partner that is not OK. -/
  aborted : ∀ c ∈ cs, s.partnerUnfit c → t.drill c = none
  /-- Every other drill stands. -/
  drills : ∀ c, ¬(c ∈ cs ∧ s.partnerUnfit c) → t.drill c = s.drill c
  /-- R34: effective health is what its inputs give. -/
  effective : ∀ r, circuitOf r ∈ cs → t.health r = t.healthNow r
  /-- R34, R35: a route whose effective health changed takes the change frame, counts a flap on a return to reported
  health, and keeps all else. -/
  changed : ∀ r, t.health r ≠ s.health r → t.route r = { s.route r with
    effective := t.health r
    changeFrame := s.tb.frame
    flaps := if t.health r = (s.route r).reported then min max16 ((s.route r).flaps + 1) else (s.route r).flaps }
  /-- A route whose effective health did not change is as it was; so is every route of the other circuits. -/
  unchanged : ∀ r, t.health r = s.health r ∨ circuitOf r ∉ cs → t.route r = s.route r
  /-- RMON's cards, and what it has yet to take, stand. -/
  rmon : t.rmon.cards = s.rmon.cards ∧ t.rmon.worksDue = s.rmon.worksDue ∧ t.rmon.blockDue = s.rmon.blockDue
  /-- R35: the HEALTH object of a changed route is pending exactly when effective and reported health differ. -/
  object : ∀ r, t.health r ≠ s.health r →
    t.ntc.pending (healthObject r) = decide (t.health r ≠ (s.route r).reported)
  /-- The other HEALTH objects stand, and so does every object outside the HEALTH and CIRCUIT classes, and the mask. -/
  objects : (∀ r, t.health r = s.health r → t.ntc.pending (healthObject r) = s.ntc.pending (healthObject r)) ∧
    (∀ o, 1 < (classOf o).val → t.ntc.pending o = s.ntc.pending o) ∧ t.ntc.mask = s.ntc.mask
  /-- R46 to R49, R53, R57: a circuit whose routes' health moved takes the change as its selector state gives, with the
  count, the reason, the frame and the timers of each change of state; the others stand. -/
  circuits : ∀ c, (s.healthMoved t c → t.circuit c = s.heardCircuit t c) ∧
    (¬s.healthMoved t c → t.circuit c = s.circuit c)
  /-- R58: the CIRCUIT object becomes pending where the record of the circuit changed. -/
  circuitObjects : ∀ c,
    t.ntc.pending (circuitObject c) = (s.ntc.pending (circuitObject c) || decide (t.circuit c ≠ s.circuit c))
  /-- R126: a patch on the old route of a switched circuit moves to the new one. -/
  patch : ∀ p, (t.xport p).patch = (s.xport p).patch.bind fun r =>
    if s.selectedRoute (circuitOf r) = some r then t.selectedRoute (circuitOf r) else some r
  /-- R126: a port that the feed of a switched circuit claims, or whose patch moved, has a pending entry. -/
  entry : ∀ p, (t.xport p).entry =
    if (∃ c, s.selectedSide c ≠ t.selectedSide c ∧ s.claimedBy (s.xport p) (routeOf c .a) = true) ∨
        (t.xport p).patch ≠ (s.xport p).patch then
      some (s.xport p).entryOrNew
    else (s.xport p).entry
  /-- R34, R126, R137: the flag of a port that a slot holds is worked out anew where the carrying route changed, or its
  health did. -/
  delivered : ∀ p, (t.xport p).delivered = match (s.xport p).holder with
    | .slot ref =>
      if t.slotRoute ref ≠ s.slotRoute ref ∨ ∃ r, t.slotRoute ref = some r ∧ t.health r ≠ s.health r then t.deliveredNow p
      else (s.xport p).delivered
    | .patch | .nobody => (s.xport p).delivered
  /-- R152: N_p of a running booking rises by one for each switched circuit whose feed it holds. -/
  count : ∀ i p q, s.place i = some p → t.place i = some q →
    q.meter.np = if p.meter.phase = .running ∧ s.switchesOf t p.booking ≠ 0 then
        min max16 (p.meter.np + s.switchesOf t p.booking)
      else p.meter.np
  /-- Everything else stands. -/
  outside : s.OutsideHealth t

/-- RMON has taken the works edges of second `n` (R27), all as one event. -/
def State.WorksTaken (n : Nat) (s t : State) : Prop :=
  State.HealthTaken { s with rmon := { s.rmon with routes := tab fun r =>
    let x := s.route r
    if x.worksStart = n ∧ n < x.worksEnd then { x with worksActive := true }
    else if x.worksEnd = n then { x with worksActive := false }
    else x } } t (List.finRange 24)

/-! ### PSEL -/

/-- Circuit `c`, which stood as in `s`, takes the record `k`, as a switch where the selected route changes and as a
change of state without a switch where it does not (R57). `t` is the state after it. -/
structure State.SelectorMoved (s t : State) (c : Fin 24) (k : Circuit) : Prop where
  circuit : t.circuits = upd s.circuits c k
  /-- R58. -/
  object : t.ntc = s.ntc.raise (circuitObject c)
  kept : t.tb = s.tb ∧ t.rmon = s.rmon ∧ t.dir = s.dir ∧ t.stl = s.stl ∧ t.tcu = s.tcu ∧ t.lnk = s.lnk ∧
    t.raceCount = s.raceCount ∧ t.pending = s.pending
  flight : s.FlightKept t
  bookings : s.BookingsKept t
  /-- R57: a change of state alone hands nothing on. -/
  stays : k.selector.map (·.side) = s.selectedSide c → t.xpc = s.xpc ∧ t.bku = s.bku
  /-- R126: a patch on the old route moves to the new one. -/
  patch : ∀ old new p, s.selectedSide c = some old → k.selector.map (·.side) = some new → old ≠ new →
    (t.xport p).patch = if (s.xport p).patch = some (routeOf c old) then some (routeOf c new) else (s.xport p).patch
  /-- R126: the ports that the feed or such a patch claims have a pending entry, and the others stand. -/
  entry : ∀ old new p, s.selectedSide c = some old → k.selector.map (·.side) = some new → old ≠ new →
    (t.xport p).entry =
      if s.claimedBy (s.xport p) (routeOf c .a) ∨ (s.xport p).patch = some (routeOf c old) then
        some (s.xport p).entryOrNew
      else (s.xport p).entry
  /-- R126, R137: the flag of a port that a slot of the feed holds is worked out anew. -/
  delivered : ∀ old new p, s.selectedSide c = some old → k.selector.map (·.side) = some new → old ≠ new →
    (t.xport p).delivered = if s.heldBy p (routeOf c .a) then t.deliveredNow p else (s.xport p).delivered
  /-- R152: N_p of the running bookings that hold the feed rises by one. -/
  count : ∀ old new i p q, s.selectedSide c = some old → k.selector.map (·.side) = some new → old ≠ new →
    s.place i = some p → t.place i = some q →
    q.meter.np = if p.meter.phase = .running ∧ routeOf c .a ∈ p.booking.feeds then min max16 (p.meter.np + 1)
      else p.meter.np

/-- Circuit `c` enters WTR (R47), and passes through it in the same event where the period is 0 (R51). -/
def State.Restoring (s t : State) (c : Fin 24) : Prop :=
  let k := (s.circuit c).restoring s.tb.elapsed s.tb.frame
  if k.wtrSecs = 0 then
    ∃ u, s.SelectorMoved u c k ∧ u.SelectorMoved t c (k.switched .selA .wtrExpiry s.tb.elapsed s.tb.frame)
  else s.SelectorMoved t c k

/-- PSEL has evaluated circuit `c`, a switch carrying the reason `why` (R46, R47, R48). -/
def State.Evaluated (s t : State) (c : Fin 24) (why : CircuitReason) : Prop :=
  let k := s.circuit c
  let free := k.guard = none
  match k.selector with
  | some .selA =>
    if free ∧ s.rankOf c .a < s.rankOf c .b then
      s.SelectorMoved t c (k.switched .selB why s.tb.elapsed s.tb.frame)
    else t = s
  | some .selB =>
    if free ∧ s.rankOf c .b < s.rankOf c .a then
      s.SelectorMoved t c (k.switched .selA why s.tb.elapsed s.tb.frame)
    else if k.revertive = true ∧ s.rankOf c .a = 2 ∧ (s.health (routeOf c .b)).usable = true then s.Restoring t c
    else t = s
  | some .wtr =>
    if free ∧ s.rankOf c .b < s.rankOf c .a then
      s.SelectorMoved t c (k.switched .selA why s.tb.elapsed s.tb.frame)
    else if s.rankOf c .a ≠ 2 then s.SelectorMoved t c (k.fallenBack s.tb.frame)
    else t = s
  | some .forcedA | some .forcedB | some .lockout | none => t = s

/-! ### Bookings -/

/-- The parts that the life cycle of a booking leaves until its settlement (R104, R107, R116). -/
def State.OutsideLife (s t : State) : Prop :=
  t.tb = s.tb ∧ t.rmon = s.rmon ∧ t.circuits = s.circuits ∧ t.dir = s.dir ∧ t.stl = s.stl ∧ t.tcu = s.tcu ∧
    t.lnk = s.lnk ∧ t.raceCount = s.raceCount ∧ t.pending = s.pending ∧ s.FlightKept t

/-- The record of `p` in place `i` of `s` has entered STARTING with the reason `why` (R104, R107, R125, R135). -/
structure State.Started (s t : State) (i : Fin 192) (p : Place) (why : Reason) : Prop where
  /-- The patch-released flag is set when a patch of one of its ports ends (R107). -/
  place : t.bku = (s.setPlace i (some { p with booking := { p.booking with
    state := .starting
    reason := some why
    patchReleased := p.booking.patchReleased || p.booking.ports.any fun q => (s.xport q).patch.isSome } })).bku
  object : t.ntc = s.ntc.raise (bookingObject i)
  /-- The connect of each slot: the slot is the desired holder, the record rides marked CONNECT, and a patch ends. That
  the ports are distinct is in the law of the timelines. -/
  connects : p.booking.ports.Nodup → ∀ n q, p.booking.ports[n]? = some q → (t.xport q).patch = none ∧
    ∃ e, (t.xport q).entry = some e ∧ e.desired = .slot ⟨i, n, p.booking.id⟩ ∧ (⟨i, true⟩ : Rider) ∈ e.riders
  others : ∀ q, q ∉ p.booking.ports → t.xport q = s.xport q
  outside : s.OutsideLife t

/-- The record of `p` in place `i` of `s` has entered ENDING with the reason `why` (R116, R125, R151). -/
structure State.Ended (s t : State) (i : Fin 192) (p : Place) (why : Reason) : Prop where
  place : ∃ m, t.bku = (s.setPlace i (some { p with
    booking := { p.booking with state := .ending, reason := some why, endSecond := some s.tb.seconds }
    meter := m })).bku ∧ m.phase = .frozen ∧ m.episode = none ∧ m.l = p.meter.l ∧ m.s = p.meter.s ∧ m.o = p.meter.o ∧
      m.t = p.meter.t ∧ m.nt = p.meter.nt ∧ m.np = p.meter.np ∧ m.suspectSeen = p.meter.suspectSeen ∧
      m.copies = p.meter.copies ∧
      (m.episodes, m.longest, m.oc) =
        match p.meter.episode with
        | none | some 0 => (p.meter.episodes, p.meter.longest, p.meter.oc)
        | some (k + 1) => (min max16 (p.meter.episodes + 1), max p.meter.longest (k + 1),
            if (s.terms p.booking).grace * 1000 ≤ k + 1 then p.meter.oc + (k + 1) else p.meter.oc)
  object : t.ntc = s.ntc.raise (bookingObject i)
  /-- The disconnect of each slot: it clears the slot's own claim alone, and the record rides marked DISCONNECT. -/
  disconnects : p.booking.ports.Nodup → ∀ n q, p.booking.ports[n]? = some q → (t.xport q).patch = (s.xport q).patch ∧
    ∃ e, (t.xport q).entry = some e ∧ (⟨i, false⟩ : Rider) ∈ e.riders ∧ (⟨i, true⟩ : Rider) ∉ e.riders ∧
      e.desired = if (s.xport q).claim = .slot ⟨i, n, p.booking.id⟩ then .nobody else (s.xport q).claim
  others : ∀ q, q ∉ p.booking.ports → t.xport q = s.xport q
  outside : s.OutsideLife t

/-- A port of the record in place `i` is held in service by another record (R104). -/
def State.occupied (s : State) (i : Fin 192) (b : Booking) : Prop :=
  ∃ q ∈ b.ports, ∃ j ∈ s.timeline q, j ≠ i ∧
    (s.stateAt j = some .starting ∨ s.stateAt j = some .live ∨ s.stateAt j = some .runOn)

/-- A feed of the record has no usable carrying route (R104). -/
def State.unavailable (s : State) (b : Booking) : Prop :=
  ∃ f ∈ b.feeds, ∀ r, s.carrying f = some r → (s.health r).usable = false

/-- The record of `p` in place `i` stands in WAITING with a reason, newly reported. -/
def State.waiting (s : State) (i : Fin 192) (p : Place) (why : Reason) : State :=
  (s.setPlace i (some { p with booking := { p.booking with state := .waiting, reason := some why } })).raise
    (bookingObject i)

/-- The record of `p` in place `i` is triggered with a cause: the start test of R104. -/
def State.Triggered (s t : State) (i : Fin 192) (p : Place) (cause : Reason) : Prop :=
  (s.occupied i p.booking → t = s.waiting i p .portOccupied) ∧
  (¬s.occupied i p.booking → p.booking.startRule = .allOrWait → s.unavailable p.booking →
    t = s.waiting i p .feedsUnavailable) ∧
  (¬s.occupied i p.booking → (p.booking.startRule = .allOrWait → ¬s.unavailable p.booking) → s.Started t i p cause)

/-- The record in place `i` is tested at a marker, where it is in WAITING (R106). -/
def State.Tested (i : Fin 192) (s t : State) : Prop :=
  match s.place i with
  | none => t = s
  | some p =>
    if p.booking.state = .waiting then
      let stays (why : Reason) : State := if p.booking.reason = some why then s else s.waiting i p why
      (s.occupied i p.booking → t = stays .portOccupied) ∧
      (¬s.occupied i p.booking → p.booking.startRule = .allOrWait → s.unavailable p.booking →
        t = stays .feedsUnavailable) ∧
      (¬s.occupied i p.booking → (p.booking.startRule = .allOrWait → ¬s.unavailable p.booking) →
        s.Started t i p .waitEnded)
    else t = s

/-- BKU has taken a marker (R106): every record in WAITING is tested, in booking-table order. -/
def State.WaitingTaken (s t : State) : Prop := InOrder State.Tested (List.finRange 192) s t

/-- A cue edge is offered to the record in place `i` (R103): an ARMED record on the line that takes the direction loses
its start entry and is triggered. -/
def State.Offered (l : Fin 4) (dir : Edge) (i : Fin 192) (s t : State) : Prop :=
  match s.place i with
  | none => t = s
  | some p =>
    if p.booking.state = .armed ∧ p.booking.cueLine = some l ∧
        (p.booking.cueEdge = some dir ∨ p.booking.cueEdge = some .both) then
      State.Triggered { s with bku := { s.bku with
        timeList := s.bku.timeList.filter fun e => !(e.record == i && e.kind == .start) } } t i p .cueStart
    else t = s

/-- A settlement record `x` of the booking in place `i` is formed and offered to the queue (R95, R96, R164, R165, R169):
with room it is appended and the record released, else it is held with the record in CLOSING, its meters frozen (R144).
`p` is the place as it stands when the record leaves service. -/
structure State.LeftService (s t : State) (i : Fin 192) (p : Place) (x : Settlement) : Prop where
  appended : s.stl.queue.length < 64 →
    t.place i = none ∧ t.stl.queue = s.stl.queue ++ [x] ∧ t.stl.closing = s.stl.closing ∧
    t.ntc = s.ntc.withdraw (bookingObject i) ∧
    t.stl.totals = upd s.stl.totals x.account
      { net := min max48 ((s.stl.totals.get x.account).net + x.net)
        credit := min max48 ((s.stl.totals.get x.account).credit + x.credit)
        closed := min max16 ((s.stl.totals.get x.account).closed + 1) } ∧
    (∀ a, (t.dir.accounts.get a).refs = (s.dir.accounts.get a).refs - if a = p.booking.account then 1 else 0) ∧
    (∀ h, (t.dir.handoffs.get h).refs = (s.dir.handoffs.get h).refs - if h = p.booking.handoff then 1 else 0) ∧
    ∀ k, (t.stl.tariffs.get k).refs = (s.stl.tariffs.get k).refs - if k = p.booking.tariff then 1 else 0
  waits : 64 ≤ s.stl.queue.length →
    t.place i = some { p with
      booking := { p.booking with state := .closing }, meter := { p.meter with phase := .frozen }, held := some x } ∧
    t.stl = { s.stl with closing := s.stl.closing ++ [i] } ∧ t.dir = s.dir ∧ t.ntc = s.ntc.raise (bookingObject i)
  others : ∀ j, j ≠ i → t.place j = s.place j
  timelines : ∀ q, t.timeline q = if q ∈ p.booking.ports then (s.timeline q).filter (· != i) else s.timeline q
  entries : t.bku.timeList = s.bku.timeList.filter (·.record != i)
  terms : (∀ k, (t.stl.tariffs.get k).terms = (s.stl.tariffs.get k).terms ∧
      (t.stl.tariffs.get k).valid = (s.stl.tariffs.get k).valid) ∧
    (∀ a, (t.dir.accounts.get a).permitted = (s.dir.accounts.get a).permitted) ∧
    (∀ h, (t.dir.handoffs.get h).entry = (s.dir.handoffs.get h).entry) ∧ t.dir.ports = s.dir.ports ∧
    t.dir.margin = s.dir.margin
  kept : t.tb = s.tb ∧ t.rmon = s.rmon ∧ t.circuits = s.circuits ∧ t.xpc = s.xpc ∧ t.tcu = s.tcu ∧ t.lnk = s.lnk ∧
    t.raceCount = s.raceCount ∧ t.pending = s.pending

/-- A record that has left service is settled in an event of its own, and an append makes the SETTLEMENT object pending
(R165, R172). -/
def State.SettledAs (s t : State) (i : Fin 192) (p : Place) (x : Settlement) : Prop :=
  ∃ u, s.LeftService u i p x ∧ t = if s.stl.queue.length < 64 then u.raise settlementObject else u

/-- A run-on extension of `x` seconds is granted to the record of `p` in place `i` (R111, R150). -/
structure State.Extended (s t : State) (i : Fin 192) (p : Place) (x : Nat) : Prop where
  place : t.bku = { (s.setPlace i (some { p with
      booking := { p.booking with
        e := p.booking.e + x, extension := p.booking.extension + x, used := p.booking.used + 1
        shortened := decide (x < p.booking.quantum), state := .runOn, reason := some .extended }
      meter := if p.booking.state = .live then { p.meter with overtime := true } else p.meter })).bku with
    timeList := t.bku.timeList }
  /-- The end entry moves. Where it stands in the list is the law of the time list. -/
  entry : t.bku.timeList.Perm (⟨p.booking.e + x, i, .stop, false⟩ :: s.bku.timeList.filter fun e =>
    !(e.record == i && e.kind == .stop))
  outside : t = { s with bku := t.bku, ntc := s.ntc.raise (bookingObject i) }

/-- The end entry of the record of `p` in place `i` has been taken (R109, R110, R111, R118). In LIVE and RUN_ON run-on is
granted when it is enabled, below its limit and at least 60 s long, and else the record enters ENDING; in STARTING it
enters ENDING; in ARMED and WAITING it is settled as a NO_SHOW. -/
def State.EndTaken (s t : State) (i : Fin 192) (p : Place) : Prop :=
  let b := p.booking
  let starts := (b.ports.flatMap s.timeline).filterMap fun j =>
    if j = i then none else (s.place j).bind fun r => if b.e ≤ r.booking.s0 then some r.booking.s0 else none
  let x := min (max32 - b.e) (match starts.min? with
    | none => b.quantum
    | some n => min b.quantum (n - s.dir.margin - b.e))
  let mayExtend := b.runOn = true ∧ b.used < b.limit
  match b.state with
  | .live | .runOn =>
    if mayExtend ∧ 60 ≤ x then s.Extended t i p x
    else s.Ended t i p (if b.e = b.e0 then .completed else if mayExtend then .overrunCut else .runOnLimit)
  | .starting => s.Ended t i p (if b.e = b.e0 then .completed else .runOnLimit)
  | .armed | .waiting =>
    let q : Place := { p with booking := { b with reason := some .noShow, endSecond := some s.tb.seconds } }
    s.SettledAs t i q (formSettlement (s.terms b) q.booking q.meter)
  | .scheduled | .ending | .closing => t = s

/-- BKU has taken the entry `e` (R81): it has left the list, and the record's state has done with it what the life cycle
gives (R101, R102, R104, R109, R110, R118). -/
def State.EntryTaken (e : TimeEntry) (s t : State) : Prop :=
  let s1 : State := { s with bku := { s.bku with timeList := s.bku.timeList.filter (· != e) } }
  match s.place e.record with
  | none => t = s1
  | some p => match e.kind with
    | .arm =>
      t = if p.booking.state = .scheduled then
          (s1.setPlace e.record (some { p with booking := { p.booking with
            state := .armed, reason := some .cueWindow } })).raise (bookingObject e.record)
        else s1
    | .start =>
      if p.booking.trigger = .time ∧ p.booking.state = .scheduled ∨
          p.booking.trigger = .timeOrCue ∧ p.booking.state = .armed then s1.Triggered t e.record p .timeStart
      else t = s1
    | .stop => s1.EndTaken t e.record p

/-- What a take completion does for the record in place `i` (R108, R117, R147): one in ENDING whose disconnects were
included leaves service and is settled; one in STARTING whose connects were included goes on air. -/
def State.Completed (included : List Rider) (i : Fin 192) (s t : State) : Prop :=
  match s.place i with
  | none => t = s
  | some p =>
    if (⟨i, false⟩ : Rider) ∈ included ∧ p.booking.state = .ending then
      s.LeftService t i p (formSettlement (s.terms p.booking) p.booking p.meter)
    else if (⟨i, true⟩ : Rider) ∈ included ∧ p.booking.state = .starting then
      let open_ := MeterSet.gateOf (s.terms p.booking).basis p.meter.copies
      t = (s.setPlace i (some { p with
        booking := { p.booking with state := .live, reason := some .onAir, liveStart := some s.tb.seconds }
        meter := { p.meter with phase := .running, gate := open_, episode := if open_ then none else some 0 } })).raise
        (bookingObject i)
    else t = s

/-! ### Markers and takes -/

/-- A holder is a booking slot (R123, R133). -/
def Holder.isSlot : Holder → Bool
  | .slot _ => true
  | .patch | .nobody => false

/-- A holder is a slot of the booking `id` in place `i`. -/
def Holder.isSlotOf (i : Fin 192) (id : Half) : Holder → Bool
  | .slot ref => ref.record == i && ref.id == id
  | .patch | .nobody => false

/-- The take under way in `s` has come to its end with `left` ports left SUSPECT (R131): XPC is IDLE, the take is
recorded, and BKU has taken the report of the riders. -/
def State.TakeEnded (s t : State) (left : Nat) : Prop :=
  t = State.bkuCompletion { s with xpc := { s.xpc with
    inFlight := false, orders := [], timer := none, included := []
    lastTake := some ⟨s.xpc.stamp, s.xpc.sent, s.xpc.confirmed, left⟩ } } s.xpc.included

/-- The record of place `i` holds port `p` with a slot. -/
def State.heldByPlace (s : State) (i : Fin 192) (p : Fin 32) : Prop :=
  ∃ ref : SlotRef, (s.xport p).holder = .slot ref ∧ ref.record = i

/-- The flag of port `p` moves when the flags of `ports` are worked out anew, and a slot of place `i` holds it. -/
def State.flagMoved (s : State) (ports : List (Fin 32)) (i : Fin 192) (p : Fin 32) : Prop :=
  p ∈ ports ∧ s.deliveredNow p ≠ (s.xport p).delivered ∧ s.heldByPlace i p

/-- A meter set whose slot copies have become `copies` and whose gate has then been evaluated once (R145, R146). In
RUNNING an episode opens with the gate's closing, and closes with its opening: an episode of some length is counted, may
be the longest, and is credited where the grace lies within it (R149). -/
def MeterSet.gatedWith (basis : GateBasis) (grace : Nat) (copies : List (Option Bool)) (m : MeterSet) : MeterSet :=
  let m1 : MeterSet := { m with copies := copies }
  let open_ := MeterSet.gateOf basis copies
  if m.phase ≠ .running ∨ open_ = m.gate then m1
  else if open_ = true then
    match m.episode with
    | none | some 0 => { m1 with gate := true, episode := none }
    | some (k + 1) => { m1 with
        gate := true
        episode := none
        episodes := min max16 (m.episodes + 1)
        longest := max m.longest (k + 1)
        oc := if grace * 1000 ≤ k + 1 then m.oc + (k + 1) else m.oc }
  else { m1 with gate := false, episode := some 0 }

/-- XPC has worked out the flags of `ports` anew in one event and has handed the changes to MTR (R137, R145, R146). -/
structure State.FlagsTaken (s t : State) (ports : List (Fin 32)) : Prop where
  /-- R137. -/
  delivered : ∀ p, t.xport p = { s.xport p with
    delivered := if p ∈ ports then s.deliveredNow p else (s.xport p).delivered }
  /-- R145, R146, R149: the copies of the slots concerned follow the flags, the other copies stand, and the gate of each
  booking concerned is then evaluated once. -/
  concerned : ∀ i x, s.place i = some x → (∃ p, s.flagMoved ports i p) → ∃ copies : List (Option Bool),
    copies.length = x.meter.copies.length ∧
    (∀ k : Nat, (∀ p, s.flagMoved ports i p → (s.xport p).holder ≠ .slot ⟨i, k, x.booking.id⟩) →
      copies[k]? = x.meter.copies[k]?) ∧
    (∀ (k : Nat) (p : Fin 32), s.flagMoved ports i p → (s.xport p).holder = .slot ⟨i, k, x.booking.id⟩ →
      k < copies.length → ∃ q, s.flagMoved ports i q ∧ (s.xport q).holder = .slot ⟨i, k, x.booking.id⟩ ∧
        copies[k]? = some (s.deliveredNow q)) ∧
    t.place i = some { x with
      meter := x.meter.gatedWith (s.terms x.booking).basis (s.terms x.booking).grace copies }
  /-- Every other place stands. -/
  others : ∀ i, (s.place i = none ∨ ∀ p, ¬s.flagMoved ports i p) → t.place i = s.place i
  outside : t = { s with
    bku := { s.bku with places := t.bku.places }, xpc := { s.xpc with ports := t.xpc.ports } }

/-- A take has started at the ports `ports` (R127, R128): the holder of each is the desired one and its entry is gone
(steps 1 and 3), each that does not carry its desired input gets an order, in increasing port order (steps 2 and 4), and
the flags are worked out anew (step 5). XPC is IN_FLIGHT, with the confirm timer, where an order was made. -/
def State.TakeStarted (s t : State) (ports : List (Fin 32)) : Prop :=
  let v : State := { s with xpc := { s.xpc with ports := tab fun p =>
    let x := s.xport p
    if p ∈ ports then
      { x with
        holder := x.claim
        entry := none
        delivered := if x.claim = x.holder then x.delivered else none }
    else x } }
  let orders : List Order := ports.filterMap fun p =>
    let input := v.desiredInput (v.xport p)
    if (v.xport p).committed = input.committed then none else some ⟨p, input⟩
  v.FlagsTaken { v with bku := t.bku, xpc := { v.xpc with ports := t.xpc.ports } } ports ∧
  t = { s with
    bku := t.bku
    xpc := { s.xpc with
      ports := t.xpc.ports
      inFlight := s.xpc.inFlight || !orders.isEmpty
      orders := orders
      timer := if orders = [] then s.xpc.timer else some (s.tb.elapsed + s.xpc.timeout)
      included := ports.flatMap fun p => (s.xport p).entryOrNew.riders
      stamp := s.tb.frame
      sent := orders.length
      confirmed := 0
      matrixOut := orders.map Order.word } }

/-- XPC has taken a marker (R127): a take in flight, and a map with nothing pending and nothing SUSPECT, stand; else a
take starts at the ports with an entry or SUSPECT, and one that makes no order ends at once. -/
def State.XpcTook (s t : State) : Prop :=
  let ports := (List.finRange 32).filter fun p => (s.xport p).entry.isSome || (s.xport p).committed == .suspect
  if s.xpc.inFlight = true ∨ ports = [] then t = s
  else ∃ u, s.TakeStarted u ports ∧ if u.xpc.orders = [] then u.TakeEnded t 0 else t = u

/-- RMON has taken a marker (R31): every drill in COUNTDOWN is counted down, and one that reaches 0 is ACTIVE, with its
duration expiry fixed and its route's health worked out, as one event. -/
def State.DrillsTaken (s t : State) : Prop :=
  State.HealthTaken { s with rmon := { s.rmon with drills := tab fun c => (s.drill c).map fun d =>
    match d.phase with
    | .countdown n => { d with phase := if n ≤ 1 then .active (s.tb.elapsed + d.duration) else .countdown (n - 1) }
    | .active _ => d } } t
    ((List.finRange 24).filter fun c => (s.drill c).any fun d =>
      match d.phase with
      | .countdown n => decide (n ≤ 1)
      | .active _ => false)

/-- XPC has taken the changes of effective health that RMON made between `s` and `h` (R132, R137). -/
def State.HealthHeard (s h u t : State) : Prop :=
  u.FlagsTaken t ((List.finRange 32).filter fun p =>
    match (u.xport p).holder with
    | .slot ref => (u.slotRoute ref).any fun r => h.health r != s.health r
    | .patch | .nobody => false)

/-- XPC has taken a re-source of `feed` from route `old` to route `new` (R126), and MTR has counted it (R152). -/
def State.Resourced (feed old new : Fin 48) (s t : State) : Prop :=
  let v : State := { s with xpc := { s.xpc with ports := tab fun p =>
    let x := s.xport p
    { x with
      patch := if x.patch = some old then some new else x.patch
      entry := if s.claimedBy x feed = true ∨ x.patch = some old then some x.entryOrNew else x.entry } } }
  ∃ w, v.FlagsTaken w ((List.finRange 32).filter fun p => v.heldBy p feed) ∧
    t = w.mapPlaces fun p =>
      if p.meter.phase = .running ∧ feed ∈ p.booking.feeds then
        { p with meter := { p.meter with np := min max16 (p.meter.np + 1) } }
      else p

/-- XPC and MTR have taken the selection changes that PSEL made between `s` and `h` (R57), in circuit order (log entry
28). -/
def State.SelectionsHeard (s h u t : State) : Prop :=
  InOrder (fun c u t => match s.selectedSide c, h.selectedSide c with
    | some old, some new =>
      if old = new then t = u else u.Resourced (routeOf c .a) (routeOf c old) (routeOf c new) t
    | _, _ => t = u) (List.finRange 24) u t

/-- RMON has taken a marker and PSEL what RMON handed on, and then XPC and MTR what they were handed, with `others`
between, in some order (R132, log entry 4). -/
def State.DrillsTakenApart (others : List (State → State → Prop)) (s t : State) : Prop :=
  ∃ h, s.DrillsTaken h ∧ ∃ events : List (State → State → Prop),
    events.Perm (s.HealthHeard h :: s.SelectionsHeard h :: others) ∧
      InOrder Raced events { h with xpc := s.xpc, bku := s.bku } t

/-- A reference marker has come in `s` and has been taken by every block (R13, R183): TB counts the frame, TCU starts the
pulse, and RMON, BKU and XPC take the marker one after another, in some order, with what RMON hands on taken in RMON's
event or apart from it (log entry 4). -/
def State.MarkerTaken (s t : State) : Prop :=
  let s1 : State := { s with
    tb := { s.tb with
      frame := if s.tb.frameMax = 0 then 0 else if s.tb.frame < s.tb.frameMax then s.tb.frame + 1 else 1
      lastMarker := s.tb.osc }
    tcu := { s.tcu with markerPulse := some 2 } }
  ∃ readers : List (State → State → Prop),
    (readers.Perm [State.DrillsTaken, State.WaitingTaken, State.XpcTook] ∨
      readers = [State.DrillsTakenApart [State.WaitingTaken, State.XpcTook]] ∨
      readers = [State.WaitingTaken, State.DrillsTakenApart [State.XpcTook]]) ∧ InOrder Raced readers s1 t

/-! ### Network time -/

/-- An entry of the time list is due: the boundary of its second has been handed to BKU (R81), or it was due at its
admission (R90). -/
def State.isDue (s : State) (e : TimeEntry) : Bool :=
  decide (e.second ≤ if s.tb.boundary.isSome then s.tb.seconds - 1 else s.tb.seconds) || e.atOnce

/-- What was due at the present second has been taken (R2, R27, R81): the second boundary that TB holds is handed on,
RMON takes the works edges handed to it, and BKU the entries that are due, in list order. -/
def State.SecondTaken (s t : State) : Prop :=
  let v : State := match s.tb.boundary with
    | some n => { s with tb := { s.tb with boundary := none }, rmon := { s.rmon with worksDue := some n } }
    | none => s
  ∃ w, (match v.rmon.worksDue with
    | some n => State.WorksTaken n { v with rmon := { v.rmon with worksDue := none } } w
    | none => w = v) ∧
    Exhausts (fun u => u.bku.timeList.find? u.isDue) State.EntryTaken w t

/-- The entry `e` has been taken in a replay (R5): a record that it moves out of SCHEDULED is flagged (R7). -/
def State.EntryReplayed (e : TimeEntry) (s t : State) : Prop :=
  ∃ u, State.EntryTaken e s u ∧
    t = if s.stateAt e.record = some .scheduled ∧ u.stateAt e.record ≠ some .scheduled then
        u.onBooking e.record fun b => { b with timeStepped := true }
      else u

/-- BKU has taken its entries up to second `n` of a replay, in list order (R5). -/
def State.EntriesReplayed (n : Nat) (s t : State) : Prop :=
  Exhausts (fun u => u.bku.timeList.head?.filter fun e => decide (e.second ≤ n)) State.EntryReplayed s t

/-- RMON and BKU have taken second `n` of a replay, in either order (R5, R105, log entry 4). -/
def State.SecondReplayed (n : Nat) (s t : State) : Prop :=
  ∃ readers : List (State → State → Prop),
    readers.Perm [State.WorksTaken n, State.EntriesReplayed n] ∧ InOrder Raced readers s t

/-- BKU or RMON has an expiry at second `n` (R5). -/
def State.hasExpiry (s : State) (n : Nat) : Prop :=
  (∃ e ∈ s.bku.timeList, e.second = n) ∨ ∃ r, (s.route r).worksStart = n ∨ (s.route r).worksEnd = n

/-- The seconds after `lo` and up to `hi` that hold an expiry are replayed, in increasing order (R5). -/
inductive State.Replayed (hi : Nat) : Nat → State → State → Prop
  | done {lo : Nat} {s : State} : (∀ n, lo < n → n ≤ hi → ¬s.hasExpiry n) → State.Replayed hi lo s s
  | second {lo n : Nat} {s u t : State} : lo < n → n ≤ hi → s.hasExpiry n → (∀ m, lo < m → m < n → ¬s.hasExpiry m) →
    State.SecondReplayed n s u → State.Replayed hi n u t → State.Replayed hi lo s t

/-- The settlement record of a booking that has not gone to air (R155, R163, R164): no meter counts, and the money that
its outcome gives. -/
def Booking.unaired (b : Booking) (m : MeterSet) (fee : Nat) : Settlement :=
  { id := b.id, account := b.account, tariff := b.tariff, outcome := b.reason, s0 := b.s0, e0 := b.e0, finalEnd := b.e,
    liveStart := b.liveStart, endSecond := b.endSecond, l := m.l, s := m.s, o := m.o, oc := m.oc, t := m.t, gs := 0,
    gt := 0, gc := 0, nt := m.nt, np := m.np, episodes := m.episodes, longest := m.longest, gross := fee, credit := 0,
    net := fee, saturated := false, timeStepped := b.timeStepped, suspectSeen := m.suspectSeen,
    patchReleased := b.patchReleased, slots := b.feeds.zip b.ports }

/-! ### Runs -/

/-- Some commands, one after another, lead from one state to another. -/
def Runs : List Instr → State → State → Prop
  | [], s, t => t = s
  | c :: cs, s, t => ∃ u, exec c s = .next u ∧ Runs cs u t

end Sys2Proof.Machine
end

