-- ==== Sys2Proof/WellFormed.lean ====
section
/-! DEFINITION. Which commands the outside world can give. -/

namespace Sys2Proof

/-- A kind code is one of Table 11-6. -/
def isRequestKind (kind : Byte) : Bool := (requestKind kind []).isSome

/-- A reference pulse falls within the current millisecond (R1): its offset from the latest tick is at most 27,000. -/
def pulseWithinTick (offset : Nat) : Bool := decide (offset ≤ 27000)

/-- A good frame has a body of at most 512 bytes (Table 11-3), and the row is for kinds that are not of Table 11-6. -/
def unknownFrame (kind : Byte) (body : List Byte) : Bool := !isRequestKind kind && decide (body.length ≤ 512)

/-- A command that can be given. Every operand of the other rows is taken as it comes. -/
def Instr.wellFormed : Instr → Bool
  | .referencePulse offset => pulseWithinTick offset
  | .unknownKind _ kind body => unknownFrame kind body
  | .powerOnReset .. | .millisecondTick | .secondBoundary | .internalFrameInstant | .lossLimitExpiry
  | .drillActivation .. | .drillEnd .. | .markerPulseEnd | .statusWord .. | .cardLoss .. | .failTimerExpiry ..
  | .clearTimerExpiry .. | .blockClose | .worksEdge | .guardExpiry .. | .wtrExpiry .. | .armEntry .. | .startEntry ..
  | .endEntry .. | .cueInputChange .. | .cueEdge .. | .confirm .. | .confirmTimerExpiry | .gapTimerExpiry
  | .frameReceived | .transmitterFree | .resetAll | .resetTraffic | .ident .. | .status .. | .reset .. | .setTime ..
  | .readTime .. | .setReference .. | .setRoute .. | .setWorks .. | .readHealth .. | .drill .. | .drillAbort ..
  | .setCircuit .. | .force .. | .lockout .. | .clear .. | .readCircuit .. | .setPort .. | .setHandoff ..
  | .setAccount .. | .deleteEntry .. | .setMargin .. | .book .. | .amend .. | .cancel .. | .endBooking .. | .swap ..
  | .readBooking .. | .listPort .. | .patch .. | .unpatch .. | .readPort .. | .setConfirm .. | .readMeter ..
  | .setTariff .. | .settlePeek .. | .settleRelease .. | .readAccount .. | .clearAccount .. | .setNotices ..
  | .setTally .. | .setCue .. | .byteReceived .. => true

end Sys2Proof
end

