-- ==== Sys2Proof/Certificates/Slice0/Obligations.lean ====
section
/-! DEFINITION. The statements for the provers. -/

open Sys2Proof Sys2Proof.Machine

/-! ### The machine as a whole -/

/-- With a command at the front of the queue, the step is that command on the state with the queue's rest. The queue
of commands is the model's (log entry 11). -/
def Obligations.StepRunsFront : Prop :=
  ∀ (c : Instr) (rest : List Instr) (s : State),
    step { s with pending := c :: rest } = exec c { s with pending := rest }

/-- Every command leads to a next state, leaves the queue of commands as it is, and leaves the line rate as it is but
for a power-on/pin reset, which reads the straps (R186). -/
def Obligations.EveryCommandCompletes : Prop :=
  ∀ (c : Instr) (s : State), ∃ t, exec c s = .next t ∧ t.pending = s.pending ∧
    (t.lnk.strap = s.lnk.strap ∨ ∃ straps, c = .powerOnReset straps ∧ t.lnk.strap = straps)

/-- Every step keeps the law of the notice list (R176). -/
def Obligations.NoticeListLawKept : Prop := ∀ s t : State, s.ntc.Law → step s = .next t → t.ntc.Law

/-- Every step keeps the law of the meters (R148, R149). -/
def Obligations.MeterLawKept : Prop := ∀ s t : State, s.MeterLaw → step s = .next t → t.MeterLaw

/-- Every step keeps the meters of a booking in the phase that its state gives (R144), at 0 until it enters LIVE, and
with no episode open outside RUNNING (R148, R149). No tick, no change of a selected route, no change of a delivered flag
and no SUSPECT event changes a meter or a count of a set that does not run, before LIVE or after entry to ENDING (R148).
-/
def Obligations.MeterPhasesKept : Prop :=
  (∀ s t : State, s.PhaseLaw → step s = .next t → t.PhaseLaw) ∧
  ∀ (s : State) (i : Fin 192) (p : Place), s.place i = some p → p.meter.phase ≠ .running →
    s.tickMeters.place i = some p ∧ (∀ feed, (s.countProtection feed).place i = some p) ∧
    (∀ ports, ∃ copies, (s.recomputeFlags ports).place i = some { p with meter := { p.meter with copies := copies } }) ∧
    ∀ port, ∃ seen, (s.suspectEvent port).place i = some { p with meter := { p.meter with suspectSeen := seen } }

/-- Every step keeps the counts of the part in their ranges (R1, R2, R11, R13, R82, R165, R169, R188, R189). -/
def Obligations.RangesKept : Prop := ∀ s t : State, s.InRange → step s = .next t → t.InRange

/-- Every step keeps the law of the selector (R46). -/
def Obligations.SelectorLawKept : Prop := ∀ s t : State, s.SelectorLaw → step s = .next t → t.SelectorLaw

/-- Every step keeps effective health as R34 computes it, with a drill set only while its partner is OK (R32). -/
def Obligations.HealthLawKept : Prop := ∀ s t : State, s.HealthLaw → step s = .next t → t.HealthLaw

/-- Every step keeps the law of the closing list (R165, R166), and with it booking ids unique across the table and the
settlement queue (R78). -/
def Obligations.ClosingAndIdLawsKept : Prop :=
  ∀ s t : State, s.ClosingLaw → step s = .next t → t.ClosingLaw ∧ (s.IdLaw → t.IdLaw)

/-- Every step keeps each reference count at the number of records that name the entry (R67). -/
def Obligations.CountsLawKept : Prop := ∀ s t : State, s.CountsLaw → step s = .next t → t.CountsLaw

/-- Every step keeps the law of the timelines (R79). -/
def Obligations.TimelineLawKept : Prop := ∀ s t : State, s.TimelineLaw → step s = .next t → t.TimelineLaw

/-- Every step keeps the law of the time list (R81, R90). -/
def Obligations.TimeListLawKept : Prop := ∀ s t : State, s.TimeListLaw → step s = .next t → t.TimeListLaw

/-- Every step keeps the law of takes and of parked ports (R127, R128, R138). -/
def Obligations.TakeLawKept : Prop := ∀ s t : State, s.TakeLaw → step s = .next t → t.TakeLaw

/-- The laws that every step keeps hold after reset. -/
def Obligations.LawsAtReset : Prop :=
  State.reset.ntc.Law ∧ State.reset.MeterLaw ∧ State.reset.InRange ∧ State.reset.SelectorLaw ∧ State.reset.HealthLaw ∧
    State.reset.ClosingLaw ∧ State.reset.IdLaw ∧ State.reset.CountsLaw ∧ State.reset.TimelineLaw ∧ State.reset.TakeLaw ∧
    State.reset.PhaseLaw ∧ State.reset.TimeListLaw

/-! ### Resets -/

/-- What the reset tables give after a power-on/pin reset (R15, R38, R60, R75, R99, R142, R173, R181, R185, R197): the
line rate is read from the straps and READY waits with kind POWER_ON. That a message on the line goes on to its end is
read from R180 (10.5; DEDUCED, log entry 23). -/
def Obligations.PowerOnSetsTheTables : Prop :=
  ∀ (straps : Fin 4) (s : State), ∃ t, Leads (.powerOnReset straps) s t ∧
    (t.tb.seconds = 0 ∧ t.tb.sub = 0 ∧ t.tb.elapsed = 0 ∧ t.tb.source = .internal ∧ t.tb.rate = 0 ∧
      t.tb.refState = .free ∧ t.tb.qual = 0 ∧ t.tb.prevPulse = none ∧ t.tb.genRestart = t.tb.osc ∧ t.tb.frame = 0 ∧
      t.tb.frameMax = 0) ∧
    (∀ k, t.rmon.cards.get k = none) ∧
    (∀ r, t.route r =
      { bad := true, failed := true, failTimer := none, clearTimer := none, blockSum := 0, degraded := false,
        settings := ⟨10, 2000, 250, 25⟩, worksStart := 1, worksEnd := 0, worksActive := false, effective := .failed,
        changeFrame := 0, reported := .failed, flaps := 0 }) ∧
    (∀ c, t.drill c = none ∧ t.circuit c =
      { selector := some .selA, revertive := true, degSwitch := false, guardTime := 50, wtrSecs := 300, guard := none,
        wtr := none, switchCount := 0, lastReason := .auto, changeFrame := 0 }) ∧
    (∀ p, t.dir.ports.get p = ⟨true, none⟩ ∧ t.timeline p = [] ∧ t.xport p =
      { committed := .suspect, holder := .nobody, patch := none, entry := some ⟨.nobody, []⟩, delivered := none }) ∧
    (∀ a, t.dir.accounts.get a = ⟨none, 0⟩ ∧ t.stl.totals.get a = ⟨0, 0, 0⟩) ∧
    (∀ h, t.dir.handoffs.get h = ⟨none, 0⟩) ∧ t.dir.margin = 120 ∧ (∀ i, t.place i = none) ∧ t.bku.timeList = [] ∧
    (t.xpc.inFlight = false ∧ t.xpc.orders = [] ∧ t.xpc.timer = none ∧ t.xpc.timeout = 20 ∧ t.xpc.lastTake = none ∧
      t.xpc.newlySuspect = 0) ∧
    (∀ x, t.stl.tariffs.get x = { terms := ⟨60, 0, 0, 0, 0, 0, 0, .all⟩, valid := false, refs := 0 }) ∧
    t.stl.queue = [] ∧ t.stl.closing = [] ∧
    ((∀ o, t.ntc.pending o = false) ∧ t.ntc.list = [] ∧ ∀ k, t.ntc.mask.get k = true) ∧
    (∀ l, t.tcu.lines.get l = ⟨.off, none, false⟩ ∧ t.tallyLevel l = false) ∧
    (∀ l, t.tcu.cues.get l = { input := s.cueInput l, accepted := s.cueInput l, timer := none, enabled := true,
                               invert := false }) ∧
    (t.lnk.strap = straps ∧ t.lnk.rx = [] ∧ t.lnk.gap = none ∧ t.lnk.queue = [] ∧ t.lnk.busySlot = false ∧
      t.lnk.replies = [] ∧ t.lnk.errors = 0 ∧ t.lnk.hold = none ∧ t.lnk.ready = some .powerOn ∧
      t.lnk.line.map (·.message) = s.lnk.line.map (·.message))

/-- The end of the reply to an accepted RESET ALL frees its place and performs the reset (R196): what LNK keeps is kept,
the other blocks have their reset values, the cue filters among them (R185, R197), and the requests behind the RESET are
then served. A pin reset that follows at once sends one READY, of kind POWER_ON (R196). The command of the same name is
the same event, after which the transmitter makes no choice (log entry 20). A gap timer moves with elapsed time (log
entry 12), the tick divider goes on (log entry 27), the last marker is the reset (log entry 17), and a MARKER pulse ends
(log entry 29). -/
def Obligations.ResetAllPerformed : Prop :=
  ∀ (s : State) (m : Message) (q : Queued) (behind : List Queued),
    s.lnk.line = some ⟨m, .reset .all⟩ → s.lnk.queue = q :: behind →
    ∃ u : State, exec .resetAll s = .next u.serveQueue ∧ exec .transmitterFree s = .next u.serveQueue ∧
      (behind = [] → u.serveQueue = u) ∧
      u.rmon = State.reset.rmon ∧ u.circuits = State.reset.circuits ∧ u.dir = State.reset.dir ∧
      u.bku = State.reset.bku ∧ u.xpc = State.reset.xpc ∧ u.stl = State.reset.stl ∧ u.ntc = State.reset.ntc ∧
      u.tb = { State.reset.tb with
        osc := s.tb.osc, lastTick := s.tb.lastTick, genRestart := s.tb.osc, lastMarker := s.tb.osc } ∧
      (u.tcu.lines = State.reset.tcu.lines ∧ u.tcu.markerPulse = none ∧
        ∀ l, u.tcu.cues.get l = { input := s.cueInput l, accepted := s.cueInput l, timer := none, enabled := true,
                                  invert := false }) ∧
      u.lnk = { s.lnk with
        queue := behind, line := none, errors := 0, hold := none, ready := some .resetAll
        gap := s.lnk.gap.map (· - s.tb.elapsed) } ∧
      u.raceCount = s.raceCount ∧ u.pending = s.pending ∧
      ∀ straps, ∃ t, exec (.powerOnReset straps) u.serveQueue = .next t ∧
        t.lnk.line = some ⟨.ready .powerOn, .nothing⟩ ∧ t.lnk.ready = none

/-- The end of the reply to an accepted RESET TRAFFIC frees its place and performs that reset (R39, R61, R76, R100,
R143, R174, R181, R196, R197): the booking table, the settlement queue and every count are emptied, every port is
SUSPECT with an entry for none, the BOOKING, TAKE and SETTLEMENT objects are withdrawn, and drills are removed with a
health event; all else stands, and the requests behind the RESET are then served. The command of the same name is the
same event, after which the transmitter makes no choice (log entry 20). -/
def Obligations.ResetTrafficPerformed : Prop :=
  ∀ (s : State) (m : Message) (q : Queued) (behind : List Queued),
    s.lnk.line = some ⟨m, .reset .traffic⟩ → s.lnk.queue = q :: behind →
    let kept (o : Fin 267) : Bool := decide (classOf o = 0 ∨ classOf o = 1 ∨ classOf o = 3)
    ∃ v : State, exec .resetTraffic s = .next v.serveQueue ∧ exec .transmitterFree s = .next v.serveQueue ∧
      (behind = [] → v.serveQueue = v) ∧
      State.HealthTaken { s with
        rmon := { s.rmon with drills := tab fun _ => none }
        dir := { s.dir with
          accounts := tab fun a => { s.dir.accounts.get a with refs := 0 }
          handoffs := tab fun h => { s.dir.handoffs.get h with refs := 0 } }
        bku := { places := tab fun _ => none, timelines := tab fun _ => [], timeList := [] }
        xpc := { s.xpc with
          ports := tab fun _ =>
            { committed := .suspect, holder := .nobody, patch := none, entry := some ⟨.nobody, []⟩, delivered := none }
          inFlight := false, orders := [], timer := none, included := [], newlySuspect := 0 }
        stl := { s.stl with
          tariffs := tab fun x => { s.stl.tariffs.get x with refs := 0 }, queue := [], closing := [] }
        ntc := { s.ntc with flags := tab fun o => s.ntc.pending o && kept o, list := s.ntc.list.filter kept }
        lnk := { s.lnk with queue := behind, line := none, hold := none, ready := some .resetTraffic } } v
        ((List.finRange 24).filter fun c => (s.drill c).isSome)

/-! ### TB -/

/-- The millisecond tick (R1, R2, R24, R148, R183). Every tick brings elapsed time on by one, up to its maximum, and the
oscillator by 27,000 counts. Where nothing was due and untaken (log entry 3), network time counts on, the meters of
every booking in RUNNING advance by one millisecond each, and nothing else changes. -/
def Obligations.TickCounts : Prop :=
  (∀ s : State, ∃ t, exec .millisecondTick s = .next t ∧ t.tb.elapsed = min 281474976710655 (s.tb.elapsed + 1) ∧
    t.tb.lastTick = s.tb.lastTick + 27000 ∧ t.pending = s.pending) ∧
  ∀ s : State, s.takeDue = s → ∃ t, Leads .millisecondTick s t ∧
    (t.tb.seconds, t.tb.sub, t.tb.boundary) =
      (if s.tb.sub < 999 then (s.tb.seconds, s.tb.sub + 1, s.tb.boundary)
       else if s.tb.seconds < 4294967295 then (s.tb.seconds + 1, 0, some (s.tb.seconds + 1))
       else (s.tb.seconds, s.tb.sub, s.tb.boundary)) ∧
    t.tb = { s.tb with
      seconds := t.tb.seconds, sub := t.tb.sub, boundary := t.tb.boundary,
      elapsed := min 281474976710655 (s.tb.elapsed + 1), lastTick := s.tb.lastTick + 27000,
      osc := max s.tb.osc (s.tb.lastTick + 27000) } ∧
    t.rmon = { s.rmon with blockDue := t.rmon.blockDue } ∧
    (t.rmon.blockDue = true ↔
      s.rmon.blockDue = true ∨ s.tb.elapsed < t.tb.elapsed ∧ t.tb.elapsed % 1000 = 0) ∧
    t.bku.timelines = s.bku.timelines ∧ t.bku.timeList = s.bku.timeList ∧
    (∀ i, s.place i = none → t.place i = none) ∧
    (∀ i p, s.place i = some p → t.place i = some { p with meter :=
      if p.meter.phase ≠ .running ∨ 4294967295 ≤ p.meter.l then p.meter
      else if p.meter.gate = true then
        { p.meter with
          l := p.meter.l + 1, s := p.meter.s + 1, t := if p.meter.overtime then p.meter.t + 1 else p.meter.t }
      else { p.meter with l := p.meter.l + 1, o := p.meter.o + 1, episode := p.meter.episode.map (· + 1) } }) ∧
    t.tcu = { s.tcu with markerPulse := s.tcu.markerPulse.map (· - 1) } ∧
    t.circuits = s.circuits ∧ t.dir = s.dir ∧ t.xpc = s.xpc ∧ t.stl = s.stl ∧ t.ntc = s.ntc ∧ t.lnk = s.lnk ∧
    t.raceCount = s.raceCount ∧ t.pending = s.pending

/-- TB's own instants. The internal generator reaches its period (R8): a marker in FREE, SEEKING and HOLDOVER, and a
restart alone in LOCKED. The loss limit passes in LOCKED (R10, R14): HOLDOVER, with the loss instant a marker, the
generator restarted there, the count 0, the previous pulse forgotten and the REFERENCE object pending. Before its
instant either command finds nothing (log entry 2). -/
def Obligations.GeneratorInstants : Prop :=
  ∀ s : State,
    let s1 : State := { s with tb := { s.tb with osc := s.tb.nextInstant, genRestart := s.tb.nextInstant } }
    let s2 : State := { s with tb := { s.tb with
      osc := s.tb.lossInstant, genRestart := s.tb.lossInstant, refState := .holdover, qual := 0, prevPulse := none } }
    (if s.tb.nextInstant ≤ s.tb.lastTick + 27000 then
      if s.tb.refState = .locked then Leads .internalFrameInstant s s1
      else ∃ t, Leads .internalFrameInstant s t ∧ s1.MarkerTaken t
    else Leads .internalFrameInstant s s) ∧
    if s.tb.refState = .locked ∧ s.tb.lossInstant ≤ s.tb.lastTick + 27000 then
      ∃ t, Leads .lossLimitExpiry s t ∧ (s2.raise referenceObject).MarkerTaken t
    else Leads .lossLimitExpiry s s

/-- A pulse on the reference input, with TB's own instants up to it taken (R10, R11, Table 1-5). In FREE it has no
effect. In LOCKED one at least 0.9P after the last accepted pulse is a marker and restarts the generator, an earlier
one is discarded. In SEEKING and HOLDOVER it is scored; the eighth good interval locks, with a marker when the last
marker is at least 0.5P back. -/
def Obligations.ReferencePulse : Prop :=
  ∀ (offset : Nat) (s : State),
    let t0 := max s.tb.osc (s.tb.lastTick + offset)
    let P := period s.tb.rate
    let at0 : TB := { s.tb with osc := t0 }
    let q := match s.tb.prevPulse with
      | some p => if 9 * P ≤ 10 * (t0 - p) ∧ 10 * (t0 - p) ≤ 11 * P then s.tb.qual + 1 else 0
      | none => 0
    t0 ≤ s.tb.nextInstant → (s.tb.refState = .locked → t0 ≤ s.tb.lossInstant) →
    match s.tb.refState with
    | .free => Leads (.referencePulse offset) s { s with tb := at0 }
    | .locked =>
      if 9 * P ≤ 10 * (t0 - s.tb.lastPulse) then
        ∃ t, Leads (.referencePulse offset) s t ∧
          State.MarkerTaken { s with tb := { at0 with lastPulse := t0, genRestart := t0 } } t
      else Leads (.referencePulse offset) s { s with tb := at0 }
    | .seeking | .holdover =>
      let locked : TB := { at0 with
        qual := q, prevPulse := some t0, lastPulse := t0, genRestart := t0, refState := .locked }
      if q = 8 then
        if P ≤ 2 * (t0 - s.tb.lastMarker) then
          ∃ t, Leads (.referencePulse offset) s t ∧
            State.MarkerTaken { s with tb := locked, ntc := s.ntc.raise referenceObject } t
        else Leads (.referencePulse offset) s { s with tb := locked, ntc := s.ntc.raise referenceObject }
      else Leads (.referencePulse offset) s { s with tb := { at0 with qual := q, prevPulse := some t0 } }

/-- Four requests that read and change nothing: READ_TIME (R3), SETTLE_PEEK (R167), READ_ACCOUNT (R170) and IDENT
(R194). -/
def Obligations.PlainReads : Prop :=
  ∀ (tag account : Byte) (s : State), s.Ready →
    Answered (.readTime tag) s
      ⟨.ok, .clock s.tb.seconds s.tb.sub s.tb.elapsed s.tb.source s.tb.rate s.tb.refState s.tb.frame s.tb.frameMax⟩ s ∧
    Answered (.settlePeek tag) s
      (match s.stl.queue with
       | x :: rest => ⟨.ok, .settlement x (rest.length + 1) s.stl.closing.length⟩
       | [] => ⟨.noSuch, .noSettlement 0 0⟩) s ∧
    (if h : account.toNat < 16 then
      let a : Fin 16 := ⟨account.toNat, h⟩
      Answered (.readAccount tag account) s
        ⟨.ok, .accountTotals a (s.dir.accounts.get a).permitted.isSome (s.dir.accounts.get a).refs
          (s.stl.totals.get a)⟩ s
    else Answered (.readAccount tag account) s ⟨.badField, .empty⟩ s) ∧
    Answered (.ident tag) s ⟨.ok, .ident 4832 1 48 32 192 64 4 s.lnk.strap⟩ s

/-- SET_TIME (R4 to R7, R29). The present second clears the sub-count. Before any other value is judged, what is due at
the present second is taken (log entry 15). A step of more than 2 s with a record on its way is then refused TIME_STEP.
A forward step with no entry and no works edge in its range moves network time and flags the records on their way; the
replay of the others is a statement of its own. A backward step moves network time, flags those records and sets the
works flags anew. -/
def Obligations.SetTime : Prop :=
  ∀ (tag : Byte) (second : Word) (s : State), s.Ready →
    let n := second.toNat
    let c := s.tb.seconds
    let s0 := s.takeSecond
    let flagged (p : Place) : Place :=
      { p with booking := { p.booking with timeStepped := p.booking.timeStepped || p.booking.state.active } }
    let moved : State := { s0 with
      tb := { s0.tb with seconds := n, sub := 0 }
      bku := { s0.bku with places := tab fun i => (s0.place i).map flagged } }
    if n = c then
      Answered (.setTime tag second) s ⟨.ok, .time n 0⟩ { s with tb := { s.tb with sub := 0 } }
    else
      s0.tb = { s.tb with boundary := none } ∧ s0.tcu = s.tcu ∧ s0.pending = s.pending ∧
      if (c + 2 < n ∨ n + 2 < c) ∧ ∃ i p, s0.place i = some p ∧ p.booking.state.active = true then
        Answered (.setTime tag second) s ⟨.timeStep, .time c s.tb.sub⟩ s0
      else if c < n then
        Answered (.setTime tag second) s ⟨.ok, .time n 0⟩ (s0.stepForward n) ∧
          (s0.stepForward n).tb = moved.tb ∧ (s0.stepForward n).tcu = s.tcu ∧ (s0.stepForward n).pending = s.pending ∧
          ((∀ e ∈ s0.bku.timeList, n < e.second) →
            (∀ r, ((s0.route r).worksStart ≤ c ∨ n < (s0.route r).worksStart) ∧
              ((s0.route r).worksEnd ≤ c ∨ n < (s0.route r).worksEnd)) →
            s0.stepForward n = moved)
      else
        ∃ t, Answered (.setTime tag second) s ⟨.ok, .time n 0⟩ t ∧
          State.HealthTaken { moved with rmon := { s0.rmon with routes := tab fun r => { s0.route r with
            worksActive :=
              if (s0.route r).worksStart ≤ (s0.route r).worksEnd then
                decide ((s0.route r).worksStart ≤ n ∧ n < (s0.route r).worksEnd)
              else (s0.route r).worksActive } } } t (List.finRange 24)

/-- Taking what is due (R2, R27, R81), and the replay of a forward step (R5, R7, R29, R120). The boundary that TB holds
is handed on, the works edges of its second are taken, and then the entries that are due, in list order. A forward step
moves network time, flags the records on their way, and then replays, in increasing order, the seconds of its range that
hold an expiry: at each one RMON takes the works edges and BKU the entries, in either order, and a record that leaves
SCHEDULED is flagged. That what is due comes before the step is log entry 15. -/
def Obligations.Replay : Prop :=
  (∀ s : State, s.LimitsLow → s.SecondTaken s.takeSecond) ∧
  ∀ (s : State) (n : Nat), s.tb.seconds < n → s.LimitsLow → s.TimeListLaw →
    (∀ e ∈ s.bku.timeList, s.tb.seconds < e.second) →
    State.Replayed n s.tb.seconds { s with
      tb := { s.tb with seconds := n, sub := 0 }
      bku := { s.bku with places := tab fun i => (s.place i).map fun p =>
        { p with booking := { p.booking with
          timeStepped := p.booking.timeStepped || p.booking.state.active } } } } (s.stepForward n)

/-- SET_REFERENCE (R9, R14): the codes are checked; the three values are stored, the state moves as R9's table gives,
entry to SEEKING clears the qualification, and a change of state makes the REFERENCE object pending. That a change of
rate in SEEKING enters SEEKING anew, with no change of state to report, is log entry 16 (DEDUCED). With a new rate the
generator measures its period from the last marker, or where LOCKED is left from the last accepted pulse (R8; log entry
17, DEDUCED). -/
def Obligations.SetReference : Prop :=
  ∀ (tag source rate : Byte) (frameMax : Half) (s : State), s.Ready →
    if h : source.toNat ≤ 1 ∧ rate.toNat ≤ 3 then
      let src : Source := if source = 0 then .internal else .external
      let rt : Fin 4 := ⟨rate.toNat, by omega⟩
      let st : RefState :=
        if src = .internal then .free
        else if s.tb.refState = .free ∨ rt ≠ s.tb.rate then .seeking
        else s.tb.refState
      let enters : Bool := decide (src = .external ∧ (s.tb.refState = .free ∨ rt ≠ s.tb.rate))
      Answered (.setReference tag source rate frameMax) s ⟨.ok, .reference src rt frameMax.toNat st⟩
        { s with
          tb := { s.tb with
            source := src, rate := rt, frameMax := frameMax.toNat, refState := st
            qual := if enters then 0 else s.tb.qual
            prevPulse := if enters then none else s.tb.prevPulse
            genRestart :=
              if rt = s.tb.rate then s.tb.genRestart
              else if s.tb.refState = .locked then s.tb.lastPulse
              else s.tb.lastMarker }
          ntc := if st = s.tb.refState then s.ntc else s.ntc.raise referenceObject }
    else Answered (.setReference tag source rate frameMax) s ⟨.badField, .empty⟩ s

/-! ### RMON -/

/-- One RMON event works out effective health, change frames, flaps and HEALTH objects, aborts the drills of unfit
partners (that a partner is unfit is tested as the model reads R32, log entry 22), and hands the changes to PSEL and XPC
(R32, R34, R35, R46). -/
def Obligations.HealthEventTaken : Prop :=
  ∀ (s : State) (cs : List (Fin 24)), cs.Nodup → s.HealthTaken (s.healthEvent cs) cs

/-- The status link (R17, R18, R20, R21, R23; Table 11-11). A good word starts the card's silence timer, sets the raw
state and adds the increment, and health is worked out in the same event. A group with another length, a wrong check or
a card above 5 has no effect. When a card's silence timer expires the card is lost, its eight routes go to BAD under
R20, and health is worked out for its four circuits in the same event; a timer that is stopped or not due is left (log
entry 2). -/
def Obligations.StatusLink : Prop :=
  (∀ (k : Fin 6) (slot : Fin 8) (los lof : Bool) (increment : Byte) (s : State),
    let b0 : Byte := BitVec.ofNat 8 (32 * k.val + 4 * slot.val + 2 * los.toNat + lof.toNat)
    let r := cardRoute k slot
    let x := if los || lof then (s.route r).toBad s.tb.elapsed else (s.route r).toGood s.tb.elapsed
    let s1 := (s.setCard k (some (s.tb.elapsed + 150))).setRoute r
      { x with blockSum := min 65535 (x.blockSum + increment.toNat) }
    ∃ t, Leads (.statusWord [b0, increment, 255 - (b0 + increment)]) s t ∧ s1.HealthTaken t [circuitOf r]) ∧
  (∀ (group : List Byte) (s : State),
    (∀ b0 b1 check, group = [b0, b1, check] → check ≠ 255 - (b0 + b1) ∨ 5 < (b0 >>> 5).toNat) →
    Leads (.statusWord group) s s) ∧
  ∀ (k : Fin 6) (s : State),
    if isDue (s.rmon.cards.get k) s.tb.elapsed = true then
      ∃ t, Leads (.cardLoss k) s t ∧
        State.HealthTaken { s with rmon := { s.rmon with
          cards := upd s.rmon.cards k none
          routes := tab fun r => if cardOf r = k then (s.route r).toBad s.tb.elapsed else s.route r } } t
          ((List.finRange 24).filter fun c => c.val / 4 == k.val)
    else Leads (.cardLoss k) s s

/-- The hold-offs: what a change of raw state does to the fail state and the two timers (the tables of R20 and R21), and
what an expiry does (R22): the fail state changes, the timer stops, and health is worked out. A timer that is not due is
left (log entry 2). -/
def Obligations.HoldOffs : Prop :=
  (∀ (x : Route) (now : Nat),
    x.toBad now =
      (if x.bad = true then x
       else if x.failed = true then { x with bad := true, clearTimer := none }
       else if x.settings.failHold = 0 then { x with bad := true, failed := true }
       else { x with bad := true, failTimer := some (now + x.settings.failHold) }) ∧
    x.toGood now =
      (if x.bad = false then x
       else if x.failed = false then { x with bad := false, failTimer := none }
       else if x.settings.clearHold = 0 then { x with bad := false, failed := false }
       else { x with bad := false, clearTimer := some (now + x.settings.clearHold) })) ∧
  ∀ (r : Fin 48) (s : State),
    (if isDue (s.route r).failTimer s.tb.elapsed = true then
      ∃ t, Leads (.failTimerExpiry r) s t ∧
        (s.setRoute r { s.route r with failed := true, failTimer := none }).HealthTaken t [circuitOf r]
    else Leads (.failTimerExpiry r) s s) ∧
    if isDue (s.route r).clearTimer s.tb.elapsed = true then
      ∃ t, Leads (.clearTimerExpiry r) s t ∧
        (s.setRoute r { s.route r with failed := false, clearTimer := none }).HealthTaken t [circuitOf r]
    else Leads (.clearTimerExpiry r) s s

/-- What comes at block and second boundaries. A second boundary that TB has produced is handed on (R2). A degrade block
closes (R24): every degraded flag follows its sum and thresholds, and every sum is cleared. The works edges of the
second handed to RMON are taken (R27). Each of the last two is one health event for all routes. With nothing outstanding
each command finds nothing (log entry 2). -/
def Obligations.BlockAndSecondBoundaries : Prop :=
  ∀ s : State,
    Leads .secondBoundary s
      (match s.tb.boundary with
       | some n => { s with tb := { s.tb with boundary := none }, rmon := { s.rmon with worksDue := some n } }
       | none => s) ∧
    (if s.rmon.blockDue = true then
      ∃ t, Leads .blockClose s t ∧
        State.HealthTaken { s with rmon := { s.rmon with
          blockDue := false
          routes := tab fun r =>
            let x := s.route r
            { x with
              blockSum := 0
              degraded :=
                if x.settings.degThr = 0 then false
                else if x.settings.degThr ≤ x.blockSum then true
                else if x.blockSum < x.settings.clrThr then false
                else x.degraded } } } t (List.finRange 24)
    else Leads .blockClose s s) ∧
    match s.rmon.worksDue with
    | some n => ∃ t, Leads .worksEdge s t ∧
        State.WorksTaken n { s with rmon := { s.rmon with worksDue := none } } t
    | none => Leads .worksEdge s s

/-- SET_ROUTE (R26): a route out of range or a clear threshold above the degrade threshold is refused; hold-offs are
clamped; a degrade threshold of 0 clears the degraded flag, with the health event that this makes. -/
def Obligations.SetRoute : Prop :=
  ∀ (tag route : Byte) (failHold clearHold degThr clrThr : Half) (s : State), s.Ready →
    let c : Instr := .setRoute tag route failHold clearHold degThr clrThr
    if h : route.toNat < 48 then
      if degThr.toNat < clrThr.toNat then Answered c s ⟨.badField, .empty⟩ s
      else
        let r : Fin 48 := ⟨route.toNat, h⟩
        let set : RouteSettings := ⟨min 1000 failHold.toNat, min 60000 clearHold.toNat, degThr.toNat, clrThr.toNat⟩
        if degThr.toNat = 0 then
          ∃ t, Answered c s ⟨.ok, .route set⟩ t ∧
            (s.setRoute r { s.route r with settings := set, degraded := false }).HealthTaken t [circuitOf r]
        else Answered c s ⟨.ok, .route set⟩ (s.setRoute r { s.route r with settings := set })
    else Answered c s ⟨.badField, .empty⟩ s

/-- SET_WORKS (R28). A feed meets the new window where it is the split route itself and the window and the booked window
have a second in common, or where it is the pair circuit's feed and the two works windows and the booked window have
one. The records in conflict are counted; with any and no force the request is refused BOOKING_CONFLICT with their
number; otherwise the window is stored, and its active flag set, in one health event. -/
def Obligations.SetWorks : Prop :=
  (∀ (s : State) (r feed : Fin 48) (start stop s0 e0 : Nat),
    let partner := s.route (routeOf (circuitOf r) (sideOf r).other)
    s.feedMeetsWorks r start stop feed s0 e0 = true ↔
      match (s.circuit (circuitOf r)).mode with
      | .split => feed = r ∧ ∃ n, start ≤ n ∧ n < stop ∧ s0 ≤ n ∧ n < e0
      | .pair => feed.val = 2 * (r.val / 2) ∧
          ∃ n, start ≤ n ∧ n < stop ∧ partner.worksStart ≤ n ∧ n < partner.worksEnd ∧ s0 ≤ n ∧ n < e0) ∧
  ∀ (tag route : Byte) (start stop : Word) (force : Byte) (s : State), s.Ready →
    let c : Instr := .setWorks tag route start stop force
    if h : route.toNat < 48 ∧ force.toNat < 2 then
      let r : Fin 48 := ⟨route.toNat, h.1⟩
      let n := ((List.finRange 192).filter fun i => (s.place i).any fun p =>
        p.booking.state != .ending && p.booking.state != .closing &&
          p.booking.feeds.any fun f => s.feedMeetsWorks r start.toNat stop.toNat f p.booking.s0 p.booking.e0).length
      if 0 < n ∧ force = 0 then Answered c s ⟨.bookingConflict, .conflicts n⟩ s
      else ∃ t, Answered c s ⟨.ok, .works start.toNat stop.toNat n⟩ t ∧
        (s.setRoute r { s.route r with
          worksStart := start.toNat, worksEnd := stop.toNat
          worksActive := decide (start.toNat ≤ s.tb.seconds ∧ s.tb.seconds < stop.toNat) }).HealthTaken t [circuitOf r]
    else Answered c s ⟨.badField, .empty⟩ s

/-- Drills. A drill whose duration has expired is removed, with a health event (R31); the marker that brings a count to
0 activates the drill itself, and the row of that name activates one that stands at count 0 (log entry 25); any other
drill is left (log entry 2). DRILL (R30): refused BAD_FIELD for its fields, and STATE for a booked split feed, a partner
that is not OK or a drill already set; otherwise a drill counts down, its duration clamped. DRILL_ABORT (R33): a drill
set on that route is removed, with a health event where it was ACTIVE, and the reply gives its phase; with none set on
that route the request is refused STATE. -/
def Obligations.Drills : Prop :=
  (∀ (c : Fin 24) (s : State),
    (match s.drill c with
     | some ⟨side, .countdown 0, duration⟩ => ∃ t, Leads (.drillActivation c) s t ∧
         (s.setDrill c (some ⟨side, .active (s.tb.elapsed + duration), duration⟩)).HealthTaken t [c]
     | _ => Leads (.drillActivation c) s s) ∧
    match s.drill c with
    | some ⟨_, .active expiry, _⟩ =>
      if expiry ≤ s.tb.elapsed then ∃ t, Leads (.drillEnd c) s t ∧ (s.setDrill c none).HealthTaken t [c]
      else Leads (.drillEnd c) s s
    | _ => Leads (.drillEnd c) s s) ∧
  ∀ (tag route : Byte) (delay duration : Half) (s : State), s.Ready →
    let c : Instr := .drill tag route delay duration
    if h : route.toNat < 48 then
      let r : Fin 48 := ⟨route.toNat, h⟩
      let k := circuitOf r
      (if delay = 0 then Answered c s ⟨.badField, .empty⟩ s
      else if (s.circuit k).mode = .split ∧ (∃ i p, s.place i = some p ∧ r ∈ p.booking.feeds) ∨
          s.health (routeOf k (sideOf r).other) ≠ .ok ∨ s.drill k ≠ none then
        Answered c s ⟨.state, .empty⟩ s
      else
        let d := max 10 (min 60000 duration.toNat)
        Answered c s ⟨.ok, .drill r delay.toNat d⟩ (s.setDrill k (some ⟨sideOf r, .countdown delay.toNat, d⟩))) ∧
      match s.drill k with
      | some d =>
        if d.side = sideOf r then
          match d.phase with
          | .countdown _ => Answered (.drillAbort tag route) s ⟨.ok, .drillPhase .countdown⟩ (s.setDrill k none)
          | .active _ => ∃ t, Answered (.drillAbort tag route) s ⟨.ok, .drillPhase .active⟩ t ∧
              (s.setDrill k none).HealthTaken t [k]
        else Answered (.drillAbort tag route) s ⟨.state, .empty⟩ s
      | none => Answered (.drillAbort tag route) s ⟨.state, .empty⟩ s
    else Answered c s ⟨.badField, .empty⟩ s ∧ Answered (.drillAbort tag route) s ⟨.badField, .empty⟩ s

/-! ### PSEL -/

/-- The evaluation tables (R46, R47, R48), with what each switch and each change of state hands on (R57). A guard timer
expires (R49): it stops, and the circuit is evaluated. A WTR timer expires in WTR (R51): the circuit switches to A with
reason WTR_EXPIRY, whether or not a guard timer runs. A timer that is not due is left (log entry 2). -/
def Obligations.Evaluation : Prop :=
  (∀ (s : State) (c : Fin 24) (why : CircuitReason), s.Evaluated (s.evaluate c why) c why) ∧
  ∀ (c : Fin 24) (s : State),
    (if isDue (s.circuit c).guard s.tb.elapsed = true then
      ∃ t, Leads (.guardExpiry c) s t ∧ (s.setCircuit c { s.circuit c with guard := none }).Evaluated t c .auto
    else Leads (.guardExpiry c) s s) ∧
    if isDue (s.circuit c).wtr s.tb.elapsed = true then
      (s.circuit c).selector = some .wtr →
        ∃ t, Leads (.wtrExpiry c) s t ∧
          s.SelectorMoved t c ((s.circuit c).switched .selA .wtrExpiry s.tb.elapsed s.tb.frame)
    else Leads (.wtrExpiry c) s s

/-- FORCE, LOCKOUT and CLEAR (R52, R54, R55): their refusals, and the accepted orders, which stop both timers. CLEAR is
followed by an evaluation with its reason; where that evaluation enters WTR the reason is AUTO, or WTR_EXPIRY with a
period of 0 (DEDUCED, log entry 13). -/
def Obligations.ProtectionOrders : Prop :=
  ∀ (tag circuit target : Byte) (s : State), s.Ready →
    if h : circuit.toNat < 24 then
      let c : Fin 24 := ⟨circuit.toNat, h⟩
      let k := s.circuit c
      let side : Side := if target = 0 then .a else .b
      let forced : SelState := if target = 0 then .forcedA else .forcedB
      (if 2 ≤ target.toNat then Answered (.force tag circuit target) s ⟨.badField, .empty⟩ s
      else if k.selector = none ∨ k.selector = some .lockout ∨ (s.health (routeOf c side)).usable = false then
        Answered (.force tag circuit target) s ⟨.state, .empty⟩ s
      else if k.selector = some forced then
        Answered (.force tag circuit target) s
          ⟨.ok, .protection k.selector (some (routeOf c side)) k.switchCount⟩ s
      else
        let x := k.ordered forced .force s.tb.frame
        ∃ t, Answered (.force tag circuit target) s
          ⟨.ok, .protection (some forced) (some (routeOf c side)) x.switchCount⟩ t ∧ s.SelectorMoved t c x) ∧
      (match k.selector with
      | none => Answered (.lockout tag circuit) s ⟨.state, .empty⟩ s
      | some .lockout =>
        Answered (.lockout tag circuit) s ⟨.ok, .protection k.selector (some (routeOf c .a)) k.switchCount⟩ s
      | some _ =>
        let x := k.ordered .lockout .lockout s.tb.frame
        ∃ t, Answered (.lockout tag circuit) s
          ⟨.ok, .protection (some .lockout) (some (routeOf c .a)) x.switchCount⟩ t ∧ s.SelectorMoved t c x) ∧
      match k.selector with
      | none | some .selA | some .selB | some .wtr => Answered (.clear tag circuit) s ⟨.state, .empty⟩ s
      | some .forcedA | some .forcedB | some .lockout =>
        let auto : SelState := if k.selector = some .forcedB then .selB else .selA
        ∃ u t : State, s.SelectorMoved u c (k.ordered auto .clear s.tb.frame) ∧ u.Evaluated t c .clear ∧
          Answered (.clear tag circuit) s
            ⟨.ok, .protection (t.circuit c).selector (t.selectedRoute c) (t.circuit c).switchCount⟩ t
    else
      Answered (.force tag circuit target) s ⟨.badField, .empty⟩ s ∧
      Answered (.lockout tag circuit) s ⟨.badField, .empty⟩ s ∧ Answered (.clear tag circuit) s ⟨.badField, .empty⟩ s

/-- SET_CIRCUIT (R41 to R44): its checks, the change of mode and the effect of the options. -/
def Obligations.SetCircuit : Prop :=
  ∀ (tag circuit mode revertive degSwitch : Byte) (guardTime wtrSecs : Half) (s : State), s.Ready →
    let request : Instr := .setCircuit tag circuit mode revertive degSwitch guardTime wtrSecs
    if h : circuit.toNat < 24 ∧ mode.toNat < 2 ∧ revertive.toNat < 2 ∧ degSwitch.toNat < 2 then
      let c : Fin 24 := ⟨circuit.toNat, h.1⟩
      let k := s.circuit c
      let m : Mode := if mode = 0 then .pair else .split
      let inUse := (∃ i p, s.place i = some p ∧ (routeOf c .a ∈ p.booking.feeds ∨ routeOf c .b ∈ p.booking.feeds)) ∨
        ∃ q, (s.xport q).patch = some (routeOf c .a) ∨ (s.xport q).patch = some (routeOf c .b)
      if m ≠ k.mode ∧ inUse then Answered request s ⟨.inUse, .empty⟩ s
      else if m ≠ k.mode ∧ s.drill c ≠ none then Answered request s ⟨.state, .empty⟩ s
      else
        let x : Circuit := { k with
          revertive := revertive == 1, degSwitch := degSwitch == 1, guardTime := min 10000 guardTime.toNat
          wtrSecs := min 3600 wtrSecs.toNat }
        let stored := s.setCircuit c x
        ∃ t, Answered request s ⟨.ok, .circuit (t.circuitView c)⟩ t ∧
          match k.mode, m with
          | .split, .split => t = stored
          | .pair, .split => t = s.setCircuit c { x with selector := none, guard := none, wtr := none }
          | .split, .pair =>
            (s.setCircuit c { x with selector := some .selA, guard := none, wtr := none }).Evaluated t c .auto
          | .pair, .pair => ∃ u : State,
            (if k.revertive = true ∧ x.revertive = false ∧ k.selector = some .wtr then
              stored.SelectorMoved u c (x.fallenBack s.tb.frame)
            else u = stored) ∧
            if (k.revertive ≠ x.revertive ∨ k.degSwitch ≠ x.degSwitch) ∧
                (k.selector = some .selA ∨ k.selector = some .selB ∨ k.selector = some .wtr) then
              u.Evaluated t c .auto
            else t = u
    else Answered request s ⟨.badField, .empty⟩ s

/-! ### DIR and the tariff table -/

/-- SET_PORT (R62, R63, R136). A refusal carries the fields of the port that the request names; one that names no port
carries none (log entry 6). -/
def Obligations.SetPort : Prop :=
  ∀ (tag port setting : Byte) (s : State), s.Ready →
    let c : Instr := .setPort tag port setting
    if h : port.toNat < 32 then
      let p : Fin 32 := ⟨port.toNat, h⟩
      let d := s.dir.ports.get p
      let view (enabled : Bool) : Result := .port p ⟨enabled, (s.timeline p).length, d.handoff⟩
      let stored (enabled : Bool) : State :=
        { s with dir := { s.dir with ports := upd s.dir.ports p ⟨enabled, d.handoff⟩ } }
      if 2 ≤ setting.toNat then Answered c s ⟨.badField, view d.enabled⟩ s
      else if setting = 1 then Answered c s ⟨.ok, view true⟩ (stored true)
      else if d.enabled = false then Answered c s ⟨.ok, view false⟩ s
      else if (s.timeline p).length ≠ 0 then Answered c s ⟨.inUse, view true⟩ s
      else Answered c s ⟨.ok, view false⟩ ((stored false).setXPort p
        { s.xport p with patch := none, entry := some { (s.xport p).entryOrNew with desired := .nobody } })
    else Answered c s ⟨.badField, .empty⟩ s

/-- SET_HANDOFF (R65). The first clause says which fields pass the first check, and what they store. -/
def Obligations.SetHandoff : Prop :=
  ∀ (tag handoff account count port0 port1 port2 port3 maskPresent : Byte) (mask : Half),
    let c : Instr := .setHandoff tag handoff account count port0 port1 port2 port3 maskPresent mask
    let given := State.handoffFields handoff account count port0 port1 port2 port3 maskPresent mask
    let named := [port0, port1, port2, port3].take count.toNat
    (given = none ↔ ¬(handoff.toNat < 16 ∧ account.toNat < 16 ∧ 1 ≤ count.toNat ∧ count.toNat ≤ 4 ∧
      (∀ b ∈ named, b.toNat < 32) ∧ named.Nodup ∧ maskPresent.toNat < 2)) ∧
    (∀ h e, given = some (h, e) → h.val = handoff.toNat ∧ e.account.val = account.toNat ∧
      e.members.map (·.val) = named.map (·.toNat) ∧ e.mask = if maskPresent = 1 then mask else 0xFFFF) ∧
    ∀ s : State, s.Ready →
      match given with
      | none => Answered c s ⟨.badField, .empty⟩ s
      | some (h, e) =>
        if (s.dir.handoffs.get h).refs ≠ 0 then Answered c s ⟨.inUse, .empty⟩ s
        else if (s.dir.accounts.get e.account).permitted = none then Answered c s ⟨.noSuch, .empty⟩ s
        else if ∃ p ∈ e.members, ∃ g, (s.dir.ports.get p).handoff = some g ∧ g ≠ h then
          Answered c s ⟨.conflict, .empty⟩ s
        else ∃ t, Answered c s ⟨.ok, .handoff e 0⟩ { s with dir := t } ∧
          t.handoffs = upd s.dir.handoffs h ⟨some e, 0⟩ ∧ t.accounts = s.dir.accounts ∧ t.margin = s.dir.margin ∧
          ∀ p, (t.ports.get p).enabled = (s.dir.ports.get p).enabled ∧
            (t.ports.get p).handoff =
              if p ∈ e.members then some h
              else if (s.dir.ports.get p).handoff = some h then none
              else (s.dir.ports.get p).handoff

/-- DELETE_ENTRY (R66), for each kind and its range. -/
def Obligations.DeleteEntry : Prop :=
  ∀ (tag kind index : Byte) (s : State), s.Ready →
    let c : Instr := .deleteEntry tag kind index
    if kind = 0 then
      if h : index.toNat < 16 then
        let a : Fin 16 := ⟨index.toNat, h⟩
        let x := s.dir.accounts.get a
        if x.permitted = none then Answered c s ⟨.noSuch, .empty⟩ s
        else if x.refs ≠ 0 ∨ ∃ g e, (s.dir.handoffs.get g).entry = some e ∧ e.account = a then
          Answered c s ⟨.inUse, .empty⟩ s
        else Answered c s ⟨.ok, .entry .account a.val⟩
          { s with dir := { s.dir with accounts := upd s.dir.accounts a ⟨none, 0⟩ } }
      else Answered c s ⟨.badField, .empty⟩ s
    else if kind = 1 then
      if h : index.toNat < 16 then
        let g : Fin 16 := ⟨index.toNat, h⟩
        let x := s.dir.handoffs.get g
        if x.entry = none then Answered c s ⟨.noSuch, .empty⟩ s
        else if x.refs ≠ 0 then Answered c s ⟨.inUse, .empty⟩ s
        else ∃ t, Answered c s ⟨.ok, .entry .handoff g.val⟩ { s with dir := t } ∧
          t.handoffs = upd s.dir.handoffs g ⟨none, 0⟩ ∧ t.accounts = s.dir.accounts ∧ t.margin = s.dir.margin ∧
          ∀ p, t.ports.get p = if (s.dir.ports.get p).handoff = some g then ⟨(s.dir.ports.get p).enabled, none⟩
            else s.dir.ports.get p
      else Answered c s ⟨.badField, .empty⟩ s
    else if kind = 2 then
      if h : index.toNat < 8 then
        let k : Fin 8 := ⟨index.toNat, h⟩
        let x := s.stl.tariffs.get k
        if x.valid = false then Answered c s ⟨.noSuch, .empty⟩ s
        else if x.refs ≠ 0 then Answered c s ⟨.inUse, .empty⟩ s
        else Answered c s ⟨.ok, .entry .tariff k.val⟩
          { s with stl := { s.stl with tariffs := upd s.stl.tariffs k ⟨x.terms, false, 0⟩ } }
      else Answered c s ⟨.badField, .empty⟩ s
    else Answered c s ⟨.badField, .empty⟩ s

/-- Four requests that store a setting: SET_ACCOUNT (R64), SET_MARGIN (R70), SET_CONFIRM (R139) and SET_TARIFF (R159,
with the ranges of Table 9-2 in their order). -/
def Obligations.SettingsStored : Prop :=
  ∀ (tag account permitted timeout : Byte) (margin : Half) (f : TariffFields) (s : State), s.Ready →
    (if h : account.toNat < 16 then
      let a : Fin 16 := ⟨account.toNat, h⟩
      if (s.dir.accounts.get a).refs ≠ 0 then Answered (.setAccount tag account permitted) s ⟨.inUse, .empty⟩ s
      else Answered (.setAccount tag account permitted) s ⟨.ok, .account a permitted 0⟩
        { s with dir := { s.dir with accounts := upd s.dir.accounts a ⟨some permitted, 0⟩ } }
    else Answered (.setAccount tag account permitted) s ⟨.badField, .empty⟩ s) ∧
    (if 600 < margin.toNat then Answered (.setMargin tag margin) s ⟨.badField, .empty⟩ s
    else if ∃ i, s.place i ≠ none then Answered (.setMargin tag margin) s ⟨.inUse, .empty⟩ s
    else Answered (.setMargin tag margin) s ⟨.ok, .margin margin.toNat⟩
      { s with dir := { s.dir with margin := margin.toNat } }) ∧
    Answered (.setConfirm tag timeout) s ⟨.ok, .timeout (max 5 (min 200 timeout.toNat))⟩
      { s with xpc := { s.xpc with timeout := max 5 (min 200 timeout.toNat) } } ∧
    if h : f.tariff.toNat < 8 then
      let k : Fin 8 := ⟨f.tariff.toNat, h⟩
      let x (basis : GateBasis) : TariffTerms :=
        ⟨f.granule.toNat, f.reservation.toNat, f.base.toNat, f.overtime.toNat, f.swapFee.toNat, f.credit.toNat,
          f.grace.toNat, basis⟩
      if ¬(1 ≤ f.granule.toNat ∧ f.granule.toNat ≤ 3600) then
        Answered (.setTariff tag f) s ⟨.badField, .fieldAtFault 0⟩ s
      else if 16777215 < f.reservation.toNat then Answered (.setTariff tag f) s ⟨.badField, .fieldAtFault 1⟩ s
      else if 16777215 < f.swapFee.toNat then Answered (.setTariff tag f) s ⟨.badField, .fieldAtFault 4⟩ s
      else if 3600 < f.grace.toNat then Answered (.setTariff tag f) s ⟨.badField, .fieldAtFault 6⟩ s
      else if 2 < f.basis.toNat then Answered (.setTariff tag f) s ⟨.badField, .fieldAtFault 7⟩ s
      else if (s.stl.tariffs.get k).refs ≠ 0 then Answered (.setTariff tag f) s ⟨.inUse, .empty⟩ s
      else
        let terms := x (if f.basis = 0 then .all else if f.basis = 1 then .any else .flat)
        Answered (.setTariff tag f) s ⟨.ok, .tariff k terms true 0⟩
          { s with stl := { s.stl with tariffs := upd s.stl.tariffs k ⟨terms, true, 0⟩ } }
    else Answered (.setTariff tag f) s ⟨.badField, .empty⟩ s

/-! ### XPC and MTR -/

/-- PATCH (R133) and UNPATCH (R134). -/
def Obligations.Patches : Prop :=
  ∀ (tag port route : Byte) (s : State), s.Ready →
    if h : port.toNat < 32 then
      let p : Fin 32 := ⟨port.toNat, h⟩
      let x := s.xport p
      (if g : route.toNat < 48 then
        let r : Fin 48 := ⟨route.toNat, g⟩
        if (s.dir.ports.get p).enabled = false then Answered (.patch tag port route) s ⟨.state, .empty⟩ s
        else if x.holder.isSlot = true ∨ x.entry.any (·.desired.isSlot) = true then
          Answered (.patch tag port route) s ⟨.inUse, .empty⟩ s
        else Answered (.patch tag port route) s ⟨.ok, .patched p (some r) x.holder⟩
          (s.setXPort p { x with patch := some r, entry := some { x.entryOrNew with desired := .patch } })
      else Answered (.patch tag port route) s ⟨.badField, .empty⟩ s) ∧
      match x.patch with
      | none => Answered (.unpatch tag port) s ⟨.state, .empty⟩ s
      | some r => Answered (.unpatch tag port) s ⟨.ok, .unpatched p r⟩ (s.setXPort p
          (if x.claim = .patch then
            { x with patch := none, entry := some { x.entryOrNew with desired := .nobody } }
          else { x with patch := none }))
    else
      Answered (.patch tag port route) s ⟨.badField, .empty⟩ s ∧ Answered (.unpatch tag port) s ⟨.badField, .empty⟩ s

/-- The three blocks that take a reference marker. RMON counts every drill down and activates those whose count it
brings to 0, as one event (R31). BKU tests every record in WAITING, in booking-table order (R106). XPC leaves a take in
flight, and a map with nothing pending and nothing SUSPECT, as it is; else it starts a take at the ports with an entry
or SUSPECT, and one that makes no order completes at once (R127, R128, R131). XPC and MTR may be handed what a drill
changed apart from RMON's event, so that a take starts on a selection whose re-source comes behind it (R132): then too
XPC works the flags out anew, and makes the entries of the re-source, which MTR counts (R126, R137, R152). That several
circuits go in circuit order there is the model's choice (log entry 28). -/
def Obligations.MarkerReaders : Prop :=
  ∀ s : State, s.DrillsTaken s.rmonMarker ∧ s.WaitingTaken s.waitingTests ∧ s.XpcTook s.xpcMarker ∧
    (∀ (c : Fin 24) (old new : Side),
      s.Resourced (routeOf c .a) (routeOf c old) (routeOf c new) (s.handSelection c old new)) ∧
    (∀ before after : State, State.HealthHeard before after s (s.xpcHealth (before.healthChanges after)) ∧
      State.SelectionsHeard before after s (State.handSelections before after s)) ∧
    State.DrillsTakenApart [State.WaitingTaken, State.XpcTook] s (s.splitMarker [State.waitingTests, State.xpcMarker]) ∧
    State.DrillsTakenApart [State.XpcTook] s (s.splitMarker [State.xpcMarker])

/-- The confirms (R129, R130, R131, R140, R154). A group that is no word for an open order of a take in flight is
ignored. A matching confirm closes its order and commits its input, and the port's flag is worked out anew; with the
last SUSPECT mark gone the TAKE object is pending; the last open order's confirm ends the take. At the confirm timer's
expiry the ports of the open orders become SUSPECT, their bookings are marked, the TAKE object is pending, and the take
ends with BKU taking its report. That a CONFIRM_TIMER_EXPIRY which is not due leaves the state is the model's choice (log
entry 2). -/
def Obligations.Confirms : Prop :=
  ∀ s : State,
    (∀ group, (∀ o : Order, group = o.word → s.xpc.inFlight = false ∨ o ∉ s.xpc.orders) → Leads (.confirm group) s s) ∧
    (∀ o ∈ s.xpc.orders, s.xpc.inFlight = true →
      let rest := s.xpc.orders.filter (· != o)
      let v : State := { s with xpc := { s.xpc with
        ports := upd s.xpc.ports o.port { s.xport o.port with committed := o.input.committed }
        orders := rest
        confirmed := s.xpc.confirmed + 1 } }
      ∃ u t : State, Leads (.confirm o.word) s t ∧ v.FlagsTaken u [o.port] ∧
        let w : State :=
          if (s.xport o.port).committed = .suspect ∧ ∀ p, (u.xport p).committed ≠ .suspect then u.raise takeObject else u
        if rest = [] then w.TakeEnded t 0 else t = w) ∧
    if isDue s.xpc.timer s.tb.elapsed = true then
      let ports := s.xpc.orders.map (·.port)
      ∃ (newly : BitVec 32) (u t : State), Leads .confirmTimerExpiry s t ∧
        (∀ p : Fin 32, newly.getLsbD p.val =
          (s.xpc.newlySuspect.getLsbD p.val || decide (p ∈ ports ∧ (s.xport p).committed ≠ .suspect))) ∧
        State.FlagsTaken { s with
          bku := { s.bku with places := tab fun i => (s.place i).map fun x =>
            if (ports.any fun p => (s.xport p).holder.isSlotOf i x.booking.id) = true then
              { x with meter := { x.meter with suspectSeen := true } }
            else x }
          xpc := { s.xpc with
            ports := tab fun p => if p ∈ ports then { s.xport p with committed := .suspect } else s.xport p
            newlySuspect := newly
            orders := [] } } u ports ∧
        (u.raise takeObject).TakeEnded t ports.length
    else Leads .confirmTimerExpiry s s

/-- BKU takes the report of a take completion, as one event in booking-table order (R108, R117, R147, R155, R163, R164):
the records in STARTING whose connects it included go to LIVE, with their meters running; those in ENDING whose
disconnects it included leave the timelines, and each is settled with the record that its frozen meters give; every
other record stands. The SETTLEMENT object is pending where a settlement record was appended (R172). -/
def Obligations.TakeCompletion : Prop :=
  ∀ (s : State) (included : List Rider), ∃ u, InOrder (State.Completed included) (List.finRange 192) s u ∧
    s.bkuCompletion included = if s.stl.queue.length < u.stl.queue.length then u.raise settlementObject else u

/-- XPC recomputes the flags of some ports and hands the changes to MTR (R137, R145, R146, R149): the copies of the
slots concerned follow, then the gate of each running booking concerned is the one its copies and basis give, an episode
opening or closing with it. The other copies stand, and so do N_p, every meter and everything else of the bookings, and
all else of the part. -/
def Obligations.FlagsReachTheMeters : Prop :=
  ∀ (s : State) (ports : List (Fin 32)), s.FlagsTaken (s.recomputeFlags ports) ports

/-! ### BKU -/

/-- BOOK (R69, R82 to R89). The first two clauses say which fields Table 5-2 takes, and what they store. Then the six
checks in order with their statuses and the slot at fault, and admission into the lowest free place, with the record's
entries in the time list, an arm entry whose second has come being due at once (R81, R90). -/
def Obligations.Book : Prop :=
  (∀ (f : BookFields) (now : Nat),
    let named := [f.feed0, f.feed1, f.feed2, f.feed3].take f.count.toNat
    (bookingOf f now = none ↔ ¬(f.id ≠ 0 ∧ f.account.toNat < 16 ∧ f.handoff.toNat < 16 ∧ f.tariff.toNat < 8 ∧
      1 ≤ f.count.toNat ∧ f.count.toNat ≤ 4 ∧ (∀ b ∈ named, b.toNat < 48) ∧ named.Nodup ∧ now < f.s0.toNat ∧
      f.s0.toNat + 60 ≤ f.e0.toNat ∧ f.e0.toNat ≤ f.s0.toNat + 86400 ∧ f.trigger.toNat < 3 ∧
      (f.trigger ≠ 0 → f.cueLine.toNat < 4 ∧ f.cueEdge.toNat < 3) ∧ f.startRule.toNat < 2 ∧ f.runOn.toNat < 2 ∧
      f.limit.toNat ≤ 15)) ∧
    ∀ b, bookingOf f now = some b →
      b.id = f.id ∧ b.account.val = f.account.toNat ∧ b.handoff.val = f.handoff.toNat ∧ b.tariff.val = f.tariff.toNat ∧
      b.feeds.map (·.val) = named.map (·.toNat) ∧
      b = { id := b.id, account := b.account, tariff := b.tariff, handoff := b.handoff, feeds := b.feeds
            ports := [], s0 := f.s0.toNat, e0 := f.e0.toNat, e := f.e0.toNat, extension := 0
            trigger := if f.trigger = 0 then .time else if f.trigger = 1 then .cue else .timeOrCue
            cueLine := if f.trigger = 0 then none else some (Fin.ofNat 4 f.cueLine.toNat)
            cueEdge := if f.trigger = 0 then none
              else some (if f.cueEdge = 0 then .rise else if f.cueEdge = 1 then .fall else .both)
            cueLead := if f.trigger = 0 then none else some (min 3600 f.cueLead.toNat)
            startRule := if f.startRule = 0 then .allOrWait else .asAvailable
            runOn := f.runOn == 1
            quantum := max 60 (min 1800 f.quantum.toNat)
            limit := f.limit.toNat, used := 0, state := .scheduled, reason := none, shortened := false
            timeStepped := false, patchReleased := false, liveStart := none, endSecond := none }) ∧
  ∀ (tag : Byte) (f : BookFields) (s : State), s.Ready →
    let refused (st : Status) (slot : Option Nat) : Prop :=
      Answered (.book tag f) s ⟨st, .slotAtFault slot⟩ s
    match bookingOf f s.tb.seconds with
    | none => refused .badField none
    | some b =>
      if (∃ i p, s.place i = some p ∧ p.booking.id = b.id) ∨ ∃ x ∈ s.stl.queue, x.id = b.id then refused .exists_ none
      else match (s.dir.accounts.get b.account).permitted, (s.dir.handoffs.get b.handoff).entry with
      | none, _ | some _, none => refused .noSuch none
      | some permitted, some h =>
        if (s.stl.tariffs.get b.tariff).valid = false then refused .noSuch none
        else if h.account ≠ b.account then refused .badField none
        else if permitted.getLsbD b.tariff.val = false then refused .badField none
        else match b.feeds.findIdx? fun r => (s.carrying r).isNone with
        | some slot => refused .noSuch (some slot)
        | none =>
          match b.feeds.findIdx? fun r =>
              s.feedMeetsWorks r (s.route r).worksStart (s.route r).worksEnd r b.s0 b.e0 with
          | some slot => refused .worksConflict (some slot)
          | none =>
            match s.allocatePorts b with
            | .inl slot => refused .conflict (some slot)
            | .inr ports =>
              match (List.finRange 192).find? fun i => (s.place i).isNone with
              | none => refused .noRoom none
              | some i =>
                ∃ t, Answered (.book tag f) s ⟨.ok, .booked b.id i ports b.cueLead b.quantum⟩ t ∧
                  t.place i = some ⟨{ b with ports := ports }, MeterSet.fresh b.feeds.length, none⟩ ∧
                  (∀ j, j ≠ i → t.place j = s.place j) ∧
                  (∀ q, t.timeline q =
                    if q ∈ ports then
                      (s.timeline q).takeWhile (fun j => decide (s.startAt j ≤ b.s0)) ++
                        i :: (s.timeline q).dropWhile fun j => decide (s.startAt j ≤ b.s0)
                    else s.timeline q) ∧
                  t.bku.timeList.Perm (s.bku.timeList ++ State.entriesOf s.tb.seconds i b) ∧
                  (∀ a, t.dir.accounts.get a = { s.dir.accounts.get a with
                    refs := (s.dir.accounts.get a).refs + if a = b.account then 1 else 0 }) ∧
                  (∀ g, t.dir.handoffs.get g = { s.dir.handoffs.get g with
                    refs := (s.dir.handoffs.get g).refs + if g = b.handoff then 1 else 0 }) ∧
                  (∀ k, t.stl.tariffs.get k = { s.stl.tariffs.get k with
                    refs := (s.stl.tariffs.get k).refs + if k = b.tariff then 1 else 0 }) ∧
                  t.dir.ports = s.dir.ports ∧ t.dir.margin = s.dir.margin ∧
                  t.stl = { s.stl with tariffs := t.stl.tariffs } ∧
                  t = { s with bku := t.bku, dir := t.dir, stl := t.stl }

/-- Allocation (R71, R72, R73, R87). The start member is the fold of the masked id modulo the member count. Each slot in
turn takes the first member, in ring order from it, that is enabled, not given to an earlier slot, and clear of every
span on its timeline under the margin; a slot that finds none is the one at fault. -/
def Obligations.Allocation : Prop :=
  (∀ (id mask : Half) (m : Nat),
    let x := id &&& mask
    let low (n : Nat) : Bool := x.getLsbD (2 * n)
    let high (n : Nat) : Bool := x.getLsbD (2 * n + 1)
    let bit (f : Nat → Bool) : Nat := ((List.range 8).countP f) % 2
    startMember id mask m = (bit low + 2 * bit high) % m) ∧
  ∀ (s : State) (b : Booking) (h : HandoffEntry), (s.dir.handoffs.get b.handoff).entry = some h →
    let start := startMember b.id h.mask h.members.length
    let ring := h.members.drop start ++ h.members.take start
    let fits (given : List (Fin 32)) (p : Fin 32) : Prop := (s.dir.ports.get p).enabled = true ∧ p ∉ given ∧
      ∀ j ∈ s.timeline p, ∀ q, s.place j = some q →
        q.booking.e + s.dir.margin ≤ b.s0 ∨ b.e0 + s.dir.margin ≤ q.booking.s0
    let firstFit (given : List (Fin 32)) (p : Fin 32) : Prop :=
      ∃ before after, ring = before ++ p :: after ∧ fits given p ∧ ∀ q ∈ before, ¬fits given q
    match s.allocatePorts b with
    | .inr ports => ports.length = b.feeds.length ∧
        ∀ n p, ports[n]? = some p → firstFit (ports.take n) p
    | .inl slot => slot < b.feeds.length ∧ ∃ given, given.length = slot ∧
        (∀ n p, given[n]? = some p → firstFit (given.take n) p) ∧ ∀ q ∈ ring, ¬fits given q

/-- AMEND (R92, R93): its checks in order, with the port at fault, and the new end. -/
def Obligations.Amend : Prop :=
  ∀ (tag : Byte) (id : Half) (newEnd : Word) (s : State), s.Ready →
    let c : Instr := .amend tag id newEnd
    let n := newEnd.toNat
    match s.findRecord id with
    | none => (∀ i p, s.place i = some p → p.booking.id ≠ id) ∧ Answered c s ⟨.noSuch, .empty⟩ s
    | some i => ∃ p, s.place i = some p ∧ p.booking.id = id ∧
      let b := p.booking
      if b.state = .ending ∨ b.state = .closing then Answered c s ⟨.state, .empty⟩ s
      else if n ≤ s.tb.seconds then Answered c s ⟨.badField, .empty⟩ s
      else if n < b.s0 + b.extension + 60 ∨ b.s0 + b.extension + 86400 < n then Answered c s ⟨.badField, .empty⟩ s
      else match b.ports.find? fun q => (s.timeline q).any fun j => decide (j ≠ i) && (s.place j).any fun r =>
          !decide (r.booking.e + s.dir.margin ≤ b.s0 ∨ n + s.dir.margin ≤ r.booking.s0) with
        | some q => Answered c s ⟨.conflict, .portAtFault q⟩ s
        | none => ∃ t, Answered c s ⟨.ok, .amended id n⟩ t ∧
            t.bku = { (s.setPlace i (some { p with booking := { b with e := n } })).bku with
              timeList := t.bku.timeList } ∧
            t.bku.timeList.Perm (⟨n, i, .stop, false⟩ :: s.bku.timeList.filter fun e =>
              !(e.record == i && e.kind == .stop)) ∧
            t = { s with bku := t.bku }

/-- CANCEL (R94, R163 to R165) and END (R113, R116): who is refused, and the accepted ones: a settlement record with
outcome CANCELLED and no money, or ENDING with reason ENDED_EARLY. That a CANCEL which finds the settlement queue full,
and so moves the record to CLOSING, makes the BOOKING object pending is log entry 14 (DEDUCED). -/
def Obligations.CancelAndEnd : Prop :=
  ∀ (tag : Byte) (id : Half) (s : State), s.Ready →
    match s.findRecord id with
    | none => (∀ i p, s.place i = some p → p.booking.id ≠ id) ∧ Answered (.cancel tag id) s ⟨.noSuch, .empty⟩ s ∧
        Answered (.endBooking tag id) s ⟨.noSuch, .empty⟩ s
    | some i => ∃ p, s.place i = some p ∧ p.booking.id = id ∧
      let b := p.booking
      (if b.state = .scheduled ∨ b.state = .armed ∨ b.state = .waiting then
        let q : Place := { p with booking := { b with reason := some .cancelled, endSecond := some s.tb.seconds } }
        ∃ t, Answered (.cancel tag id) s ⟨.ok, .cancelled id (decide (64 ≤ s.stl.queue.length))⟩ t ∧
          s.SettledAs t i q (q.booking.unaired p.meter 0)
      else Answered (.cancel tag id) s ⟨.state, .empty⟩ s) ∧
      if b.state = .starting ∨ b.state = .live ∨ b.state = .runOn then
        ∃ t, Answered (.endBooking tag id) s ⟨.ok, .ended id s.tb.seconds⟩ t ∧
          State.Ended { s with bku := { s.bku with
            timeList := s.bku.timeList.filter fun e => !(e.record == i && e.kind == .stop) } } t i p .endedEarly
      else Answered (.endBooking tag id) s ⟨.state, .empty⟩ s

/-- SWAP (R115, R125, R153): its checks in order, and the new feed. -/
def Obligations.Swap : Prop :=
  ∀ (tag : Byte) (id : Half) (slot feed : Byte) (s : State), s.Ready →
    let c : Instr := .swap tag id slot feed
    match s.findRecord id with
    | none => (∀ i p, s.place i = some p → p.booking.id ≠ id) ∧ Answered c s ⟨.noSuch, .empty⟩ s
    | some i => ∃ p, s.place i = some p ∧ p.booking.id = id ∧
      let b := p.booking
      if ¬(b.state = .live ∨ b.state = .runOn) then Answered c s ⟨.state, .empty⟩ s
      else if h : feed.toNat < 48 ∧ slot.toNat < b.feeds.length then
        let f : Fin 48 := ⟨feed.toNat, h.1⟩
        let k := circuitOf f
        let blocked := match (s.circuit k).mode with
          | .split => (s.route f).worksActive = true
          | .pair => (s.route (routeOf k .a)).worksActive = true ∧ (s.route (routeOf k .b)).worksActive = true
        if s.carrying f = none then Answered c s ⟨.noSuch, .empty⟩ s
        else if f ∈ b.feeds then Answered c s ⟨.badField, .empty⟩ s
        else (blocked → Answered c s ⟨.worksConflict, .empty⟩ s) ∧
          (¬blocked → ∃ t, Answered c s ⟨.ok, .swapped slot.toNat f (s.carrying f)⟩ t ∧
            (∃ q, t.place i = some q ∧ q.booking = { b with feeds := b.feeds.set slot.toNat f } ∧ q.held = p.held ∧
              q.meter.nt = min max16 (p.meter.nt + 1) ∧ q.meter.phase = p.meter.phase ∧ q.meter.l = p.meter.l ∧
              q.meter.s = p.meter.s ∧ q.meter.o = p.meter.o ∧ q.meter.t = p.meter.t ∧ q.meter.np = p.meter.np) ∧
            (∀ j, j ≠ i → t.place j = s.place j) ∧
            (∀ q, b.ports[slot.toNat]? = some q →
              (t.xport q).entry = some { (s.xport q).entryOrNew with desired := .slot ⟨i, slot.toNat, b.id⟩ } ∧
              (t.xport q).committed = (s.xport q).committed ∧ (t.xport q).holder = (s.xport q).holder ∧
              (t.xport q).patch = (s.xport q).patch ∧
              ((s.xport q).holder = .slot ⟨i, slot.toNat, b.id⟩ → (t.xport q).delivered = t.deliveredNow q)) ∧
            (∀ q, b.ports[slot.toNat]? ≠ some q → t.xport q = s.xport q) ∧
            t.bku = { s.bku with places := t.bku.places } ∧
            t = { s with bku := t.bku, xpc := { s.xpc with ports := t.xpc.ports } })
      else Answered c s ⟨.badField, .empty⟩ s

/-- The entry that BKU takes next is the first of the time list that is due (R81, R90). The arm and start entries that
are next are taken (R101, R102, R104, R107): a record in SCHEDULED is ARMED; a TIME record in SCHEDULED, and a
TIME_OR_CUE record in ARMED, is triggered. An entry that is not the next one is not taken (log entry 2). -/
def Obligations.ArmAndStartEntries : Prop :=
  ∀ (i : Fin 192) (s : State),
    s.nextEntry = s.bku.timeList.find? s.isDue ∧
    (∀ e, s.nextEntry = some e → e.record = i → e.kind = .arm → ∃ t, Leads (.armEntry i) s t ∧ State.EntryTaken e s t) ∧
    (∀ e, s.nextEntry = some e → e.record = i → e.kind = .start →
      ∃ t, Leads (.startEntry i) s t ∧ State.EntryTaken e s t) ∧
    ((∀ e, s.nextEntry = some e → ¬(e.record = i ∧ e.kind = .arm)) → Leads (.armEntry i) s s) ∧
    ((∀ e, s.nextEntry = some e → ¬(e.record = i ∧ e.kind = .start)) → Leads (.startEntry i) s s)

/-- The end entry that BKU takes next (R81, R109, R110, R111, R118, R150, R163, R164). In LIVE and RUN_ON run-on is
granted when it is enabled, below its limit and at least 60 s long, and else the record enters ENDING with the reason of
R110's table. In STARTING it enters ENDING. In ARMED and WAITING it is settled as a NO_SHOW. An end entry that is not
the next one is not taken (log entry 2). -/
def Obligations.EndEntry : Prop :=
  ∀ (i : Fin 192) (s : State),
    (∀ e, s.nextEntry = some e → e.record = i → e.kind = .stop → ∃ t, Leads (.endEntry i) s t ∧ State.EntryTaken e s t) ∧
    ((∀ e, s.nextEntry = some e → ¬(e.record = i ∧ e.kind = .stop)) → Leads (.endEntry i) s s)

/-- The events of TCU: a cue input changes, and starts or stops its filter (R184); the filter expires, the accepted
level follows, and an enabled line offers the edge, in booking-table order, to the ARMED records on the line, and each
that takes the direction loses its start entry and is triggered by the start test (R103, R104, R107); the MARKER pulse
ends (R183). A filter or a pulse that is not due is left (log entry 2). -/
def Obligations.CueAndPulseEvents : Prop :=
  ∀ (l : Fin 4) (level : Bool) (s : State),
    let x := s.tcu.cues.get l
    let now := level != x.invert
    Leads (.cueInputChange l level) s (s.setCueLine l
      (if level = x.input then x
      else { x with
        input := level
        timer := if now = x.accepted then none else some (x.timer.getD (s.tb.elapsed + 20)) })) ∧
    (if isDue x.timer s.tb.elapsed = true then
      let filtered := x.input != x.invert
      let dir : Edge := if filtered then .rise else .fall
      let s1 := s.setCueLine l { x with timer := none, accepted := filtered }
      if filtered = x.accepted ∨ x.enabled = false then Leads (.cueEdge l) s s1
      else ∃ t, Leads (.cueEdge l) s t ∧ InOrder (State.Offered l dir) (List.finRange 192) s1 t
    else Leads (.cueEdge l) s s) ∧
    Leads .markerPulseEnd s
      (if s.tcu.markerPulse = some 0 then { s with tcu := { s.tcu with markerPulse := none } } else s)

/-! ### STL -/

/-- Pricing (R161, R162): granules rounded up for service and down for credit, the charges, the credit held to the time
charge, and the clamp of each money field; and the law of pricing before the clamp. The settlement record of a booking
(R155, R163, R164) has its meters and counts and this price, with the outcome CANCELLED no money, and for a NO_SHOW,
whose meters are 0, the reservation fee alone. -/
def Obligations.Pricing : Prop :=
  (∀ (t : TariffTerms) (b : Booking) (m : MeterSet),
    let y := priceMeters t m
    formSettlement t b m =
      (if b.reason = some .cancelled then b.unaired m 0
      else { b.unaired m 0 with
        gs := y.gs, gt := y.gt, gc := y.gc, gross := y.gross, credit := y.credit, net := y.net
        saturated := y.saturated }) ∧
    (b.reason = some .noShow → t.reservation ≤ 4294967295 → m.AllZero →
      formSettlement t b m = b.unaired m t.reservation)) ∧
  ∀ (t : TariffTerms) (m : MeterSet), 0 < t.granule → m.t ≤ m.s →
    let x := priceMeters t m
    let g := 1000 * t.granule
    let charge := x.gs * t.base + x.gt * t.overtime
    let gross := t.reservation + charge + m.nt * t.swapFee
    let credit := min (x.gc * t.credit) charge
    ((m.s - m.t ≤ x.gs * g ∧ (x.gs = 0 ∨ (x.gs - 1) * g < m.s - m.t)) ∧
      (m.t ≤ x.gt * g ∧ (x.gt = 0 ∨ (x.gt - 1) * g < m.t)) ∧ (x.gc * g ≤ m.oc ∧ m.oc < (x.gc + 1) * g)) ∧
    x.gross = min gross 4294967295 ∧ x.credit = min credit 4294967295 ∧ x.net = min (gross - credit) 4294967295 ∧
    credit ≤ gross ∧
    (x.saturated = true ↔ 4294967295 < gross ∨ 4294967295 < credit ∨ 4294967295 < gross - credit)

/-- SETTLE_RELEASE (R166, R168): the oldest record named is removed, and the head of the closing list, with the
settlement record it holds, is served in the same event; any other id is refused NO_SUCH with nothing changed. -/
def Obligations.SettleRelease : Prop :=
  ∀ (tag : Byte) (id : Half) (s : State), s.Ready →
    let c : Instr := .settleRelease tag id
    match s.stl.queue with
    | [] => Answered c s ⟨.noSuch, .notReleased none 0⟩ s
    | x :: rest =>
      if x.id ≠ id then Answered c s ⟨.noSuch, .notReleased (some x.id) (rest.length + 1)⟩ s
      else match s.stl.closing with
        | [] => Answered c s ⟨.ok, .released id rest.length none (rest.head?.map (·.id))⟩
            { s with stl := { s.stl with queue := rest } }
        | i :: others => ∀ (p : Place) (y : Settlement), s.place i = some p → p.held = some y →
            ∃ t, Answered c s
              ⟨.ok, .released id (rest.length + 1) (some p.booking.id) ((rest ++ [y]).head?.map (·.id))⟩ t ∧
              t.stl.queue = rest ++ [y] ∧ t.stl.closing = others ∧ t.place i = none ∧
              (∀ j, j ≠ i → t.place j = s.place j) ∧
              t.stl.totals = upd s.stl.totals y.account
                { net := min max48 ((s.stl.totals.get y.account).net + y.net)
                  credit := min max48 ((s.stl.totals.get y.account).credit + y.credit)
                  closed := min max16 ((s.stl.totals.get y.account).closed + 1) } ∧
              (∀ k, t.stl.tariffs.get k = { s.stl.tariffs.get k with
                refs := (s.stl.tariffs.get k).refs - if k = p.booking.tariff then 1 else 0 }) ∧
              (∀ a, t.dir.accounts.get a = { s.dir.accounts.get a with
                refs := (s.dir.accounts.get a).refs - if a = p.booking.account then 1 else 0 }) ∧
              (∀ g, t.dir.handoffs.get g = { s.dir.handoffs.get g with
                refs := (s.dir.handoffs.get g).refs - if g = p.booking.handoff then 1 else 0 }) ∧
              t.ntc = (s.ntc.raise settlementObject).withdraw (bookingObject i) ∧
              t.bku.timeList = s.bku.timeList.filter (·.record != i) ∧
              t.tb = s.tb ∧ t.rmon = s.rmon ∧ t.circuits = s.circuits ∧ t.xpc = s.xpc ∧ t.tcu = s.tcu ∧
              t.dir.ports = s.dir.ports ∧ t.dir.margin = s.dir.margin ∧ t.pending = s.pending

/-- CLEAR_ACCOUNT (R171): in one event the totals are read and set to 0, for any account, defined or not, and nothing
else changes. -/
def Obligations.ClearAccount : Prop :=
  ∀ (tag account : Byte) (s : State), s.Ready →
    if h : account.toNat < 16 then
      let a : Fin 16 := ⟨account.toNat, h⟩
      Answered (.clearAccount tag account) s ⟨.ok, .totals (s.stl.totals.get a)⟩
        { s with stl := { s.stl with totals := upd s.stl.totals a ⟨0, 0, 0⟩ } }
    else Answered (.clearAccount tag account) s ⟨.badField, .empty⟩ s

/-! ### NTC, TCU and the reads -/

/-- SET_NOTICES (R177), SET_TALLY (R182) and SET_CUE (R184): the fields, what is stored, and what each does to the
notice list, the line's level and the accepted level. That the parameter of a tally source which takes none is stored
and reported as sent is log entry 24 (DEDUCED). -/
def Obligations.PanelSettings : Prop :=
  ∀ (tag line source inv enable : Byte) (param : Six) (h c b r t x : Byte) (s : State), s.Ready →
    (if ∀ y ∈ [h, c, b, r, t, x], y.toNat < 2 then
      let mask : Table Bool 6 := tab fun k => [h, c, b, r, t, x][k.val]? == some 1
      let list := s.ntc.list.filter (fun o => mask.get (classOf o)) ++ (List.finRange 267).filter fun o =>
        s.ntc.pending o && mask.get (classOf o) && !s.ntc.mask.get (classOf o)
      Answered (.setNotices tag h c b r t x) s ⟨.ok, .notices mask list.length⟩
        { s with ntc := { s.ntc with mask := mask, list := list } }
    else Answered (.setNotices tag h c b r t x) s ⟨.badField, .empty⟩ s) ∧
    (if g : line.toNat < 8 ∧ source.toNat < 10 ∧ inv.toNat < 2 ∧
        (source = 1 ∨ source = 2 → param.toNat < 48) ∧ (source = 3 → param.toNat < 32) ∧
        (source = 4 → param.toNat < 24) then
      ∃ src, tallySourceOf source = some src ∧
        let l : Fin 8 := ⟨line.toNat, g.1⟩
        let stored : TallyLine := ⟨src, some param, inv == 1⟩
        let s1 : State := { s with tcu := { s.tcu with lines := upd s.tcu.lines l stored } }
        Answered (.setTally tag line source param inv) s
          ⟨.ok, .tally src (some param) (inv == 1) (s.tallyValue stored != (inv == 1))⟩ s1 ∧
        s1.tallyLevel l = (s.tallyValue stored != (inv == 1))
    else Answered (.setTally tag line source param inv) s ⟨.badField, .empty⟩ s) ∧
    if g : line.toNat < 4 ∧ enable.toNat < 2 ∧ inv.toNat < 2 then
      let l : Fin 4 := ⟨line.toNat, g.1⟩
      let q := s.tcu.cues.get l
      let accepted := q.accepted != ((inv == 1) != q.invert)
      Answered (.setCue tag line enable inv) s ⟨.ok, .cue (enable == 1) (inv == 1) accepted q.timer.isSome⟩
        (s.setCueLine l { q with enabled := enable == 1, invert := inv == 1, accepted := accepted })
    else Answered (.setCue tag line enable inv) s ⟨.badField, .empty⟩ s

/-- The other reads: READ_HEALTH (R37), which sets reported health and withdraws the HEALTH object with no flap, and
READ_CIRCUIT (R59), READ_BOOKING (R97), LIST_PORT (R98), READ_PORT (R141), READ_METER (R156) and STATUS (R195), which
change nothing. READ_METER gives the gate in RUNNING alone. -/
def Obligations.Reads : Prop :=
  ∀ (tag n start : Byte) (id : Half) (s : State), s.Ready →
    (if h : n.toNat < 48 then
      let r : Fin 48 := ⟨n.toNat, h⟩
      Answered (.readHealth tag n) s ⟨.ok, .health (s.healthView r)⟩
        ((s.setRoute r { s.route r with reported := s.health r }).withdraw (healthObject r))
    else Answered (.readHealth tag n) s ⟨.badField, .empty⟩ s) ∧
    (if h : n.toNat < 24 then
      let c : Fin 24 := ⟨n.toNat, h⟩
      let k := s.circuit c
      Answered (.readCircuit tag n) s
        ⟨.ok, .circuitStatus ⟨k.mode, k.revertive, k.degSwitch, k.guardTime, k.wtrSecs, k.selector, s.selectedRoute c⟩
          ⟨k.guard.map (· - s.tb.elapsed), k.wtr.map fun x => (x - s.tb.elapsed + 999) / 1000,
            s.health (routeOf c .a), s.health (routeOf c .b), k.switchCount, k.lastReason, k.changeFrame⟩⟩ s
    else Answered (.readCircuit tag n) s ⟨.badField, .empty⟩ s) ∧
    (match s.findRecord id with
    | none => (∀ i p, s.place i = some p → p.booking.id ≠ id) ∧
        Answered (.readBooking tag id) s ⟨.noSuch, .empty⟩ s ∧ Answered (.readMeter tag id) s ⟨.noSuch, .empty⟩ s
    | some i => ∃ p, s.place i = some p ∧ p.booking.id = id ∧
        Answered (.readBooking tag id) s ⟨.ok, .booking i p.booking (p.booking.feeds.map s.carrying)⟩ s ∧
        Answered (.readMeter tag id) s
          ⟨.ok, .meter
            { id := id, record := i, state := p.booking.state, phase := p.meter.phase
              basis := (s.terms p.booking).basis, grace := (s.terms p.booking).grace
              gateOpen := if p.meter.phase = .running then some p.meter.gate else none, copies := p.meter.copies
              l := p.meter.l, s := p.meter.s, o := p.meter.o, t := p.meter.t, oc := p.meter.oc
              episode := p.meter.episode, episodes := p.meter.episodes, longest := p.meter.longest, nt := p.meter.nt
              np := p.meter.np, suspectSeen := p.meter.suspectSeen }⟩ s) ∧
    (if h : n.toNat < 32 then
      let p : Fin 32 := ⟨n.toNat, h⟩
      (if start.toNat < 192 then
        Answered (.listPort tag n start) s ⟨.ok, .timeline p (s.timeline p).length
          ((((s.timeline p).drop start.toNat).take 16).filterMap (s.timelineView p))⟩ s
      else Answered (.listPort tag n start) s ⟨.badField, .empty⟩ s) ∧
      Answered (.readPort tag n) s ⟨.ok, .portStatus (s.portDirView p) (s.portView p)⟩ s
    else Answered (.listPort tag n start) s ⟨.badField, .empty⟩ s ∧
      Answered (.readPort tag n) s ⟨.badField, .empty⟩ s) ∧
    Answered (.status tag) s ⟨.ok, .status
      { errors := s.lnk.errors, queued := s.lnk.queue.length + 1, busySlot := s.lnk.busySlot, elapsed := s.tb.elapsed
        refState := s.tb.refState, cardsAlive := (List.finRange 6).map fun k => (s.rmon.cards.get k).isSome
        records := ((List.finRange 192).filter fun i => (s.place i).isSome).length, closing := s.stl.closing.length
        queueDepth := s.stl.queue.length, listLength := s.ntc.list.length, inFlight := s.xpc.inFlight
        suspectPorts := ((List.finRange 32).filter fun p => (s.xport p).committed == .suspect).length }⟩ s

/-! ### LNK -/

/-- Arrival and service (R189, R190, R196). A request with a place joins the queue, and the requests of the queue are
served; the fifth is answered BUSY from the BUSY slot; the sixth is dropped and counted. Requests are served in arrival
order, one at a time, each reply made at its service; none is served while a reset hold stands. A kind that is
not of Table 11-6 is answered UNKNOWN_KIND, and a body of the wrong length BAD_LENGTH. RESET sets the hold of its scope,
and its reply ends in the reset. -/
def Obligations.Arrivals : Prop :=
  (∀ (c : Instr) (tag : Byte) (r : Request) (s : State), requestOf c = some (tag, r) →
    if s.lnk.queue.length < 4 then
      Leads c s (State.serveQueue { s with lnk := { s.lnk with queue := s.lnk.queue ++ [⟨tag, r, false⟩] } })
    else if s.lnk.busySlot = false then
      Leads c s { s with lnk := { s.lnk with
        busySlot := true
        replies := s.lnk.replies ++ [⟨⟨r.replyKind, tag, .busy, .empty⟩, .busySlot⟩] } }
    else Leads c s { s with lnk := { s.lnk with errors := min 65535 (s.lnk.errors + 1) } }) ∧
  (∀ s : State, (s.lnk.hold ≠ none ∨ ∀ q ∈ s.lnk.queue, q.served = true) → s.serveQueue = s) ∧
  (∀ (s : State) (done : List Queued) (q : Queued) (rest : List Queued), s.lnk.queue = done ++ q :: rest →
    (∀ d ∈ done, d.served = true) → q.served = false → s.lnk.hold = none →
    let x := s.serveBody q.request
    s.serveQueue = State.serveQueue { x.1 with lnk := { s.lnk with
      queue := done ++ { q with served := true } :: rest
      hold := x.1.lnk.hold
      replies := s.lnk.replies ++ [⟨replyTo q.tag q.request x.2,
        match x.1.lnk.hold with
        | some scope => .reset scope
        | none => .place⟩] } }) ∧
  ∀ (tag kind scope : Byte) (body : List Byte) (s : State), s.Ready →
    (match requestKind kind body with
    | none => Answered (.unknownKind tag kind body) s ⟨.unknownKind, .empty⟩ s ∧
        (Request.unknownKind kind).replyKind = 0x80
    | some (n, _) => n ≠ body.length → Answered (.unknownKind tag kind body) s ⟨.badLength, .empty⟩ s) ∧
    if scope.toNat < 2 then
      let sc : Scope := if scope = 0 then .all else .traffic
      Leads (.reset tag scope) s { s with lnk := { s.lnk with
        queue := s.lnk.queue ++ [⟨tag, .reset scope, true⟩]
        replies := s.lnk.replies ++ [⟨replyTo tag (.reset scope) ⟨.ok, .empty⟩, .reset sc⟩]
        hold := some sc } }
    else Answered (.reset tag scope) s ⟨.badField, .empty⟩ s

/-- Receiving (R187, R188): a byte in HUNT and in a frame, with the gap timer; the gap timer's expiry; a frame over
length, and a complete frame that is checked, as its own command or before the byte that follows it. Both go through the
bytes received from their first marker on: a good frame is an arrival, and what follows it is gone through in turn; a
frame over length, or whose check fails, is counted, and the bytes after its marker are gone through again; an
unfinished one is the frame in progress. Three clauses are the model's choice: a FRAME_RECEIVED with no complete frame and
a GAP_TIMER_EXPIRY that is not due leave the state (log entry 2), and a complete frame is checked before the next byte is
taken (log entry 3). -/
def Obligations.Receiving : Prop :=
  ∀ (b : Byte) (s : State),
    let rx := s.lnk.rx ++ [b]
    let length := 256 * (rx.getD 1 0).toNat + (rx.getD 2 0).toNat
    let hunt : State := { s with lnk := { s.lnk with rx := [], gap := none } }
    let counted : State := { s with lnk := { s.lnk with
      rx := [], gap := none, errors := min 65535 (s.lnk.errors + 1) } }
    (complete s.lnk.rx = false →
      if s.lnk.rx = [] ∧ b ≠ 0xC5 then Leads (.byteReceived b) s s
      else if 3 ≤ rx.length ∧ 512 < length then Leads (.byteReceived b) s (s.rescanAll rx)
      else if 3 ≤ rx.length ∧ 7 + length ≤ rx.length then
        Leads (.byteReceived b) s { s with lnk := { s.lnk with rx := rx, gap := none } }
      else Leads (.byteReceived b) s { s with lnk := { s.lnk with rx := rx, gap := some (s.tb.elapsed + 6) } }) ∧
    (complete s.lnk.rx = true → oversize s.lnk.rx = false →
      Leads .frameReceived s (s.rescanAll s.lnk.rx) ∧
      exec (.byteReceived b) s = exec (.byteReceived b) (s.rescanAll s.lnk.rx)) ∧
    (complete s.lnk.rx = false → Leads .frameReceived s s) ∧
    (if isDue s.lnk.gap s.tb.elapsed = true then Leads .gapTimerExpiry s counted else Leads .gapTimerExpiry s s) ∧
    ∀ bytes : List Byte,
      (0xC5 ∉ bytes → s.rescanAll bytes = hunt) ∧
      ∀ before rest : List Byte, bytes = before ++ 0xC5 :: rest → 0xC5 ∉ before →
        let frame : List Byte := 0xC5 :: rest
        if 3 ≤ frame.length ∧ 512 < bodyLength frame then s.rescanAll bytes = counted.rescanAll rest
        else if 3 ≤ frame.length ∧ 7 + bodyLength frame ≤ frame.length then
          if checkOk frame = true then
            s.rescanAll bytes = State.rescanAll (hunt.arrive (byteAt frame 4)
              (parseRequest (byteAt frame 3) ((frame.drop 5).take (bodyLength frame)))) (frame.drop (7 + bodyLength frame))
          else s.rescanAll bytes = counted.rescanAll rest
        else s.rescanAll bytes = { s with lnk := { s.lnk with rx := frame, gap := some (s.tb.elapsed + 6) } }

/-- A frame built as Table 11-3 gives, sent byte by byte to LNK in HUNT and then checked, is the arrival of its request
(R187, R188, R189). The line is busy meanwhile, so that the transmitter makes no choice. -/
def Obligations.FramesAreTaken : Prop :=
  ∀ (kind tag : Byte) (body : List Byte) (c : Instr) (s : State), body.length ≤ 512 → s.lnk.rx = [] →
    s.lnk.gap = none → s.lnk.line ≠ none → requestOf c = some (tag, parseRequest kind body) →
    ∃ u, Runs ((frameOf kind tag body).map Instr.byteReceived) s u ∧ u = { s with lnk := { s.lnk with rx := u.lnk.rx } } ∧
      exec .frameReceived u = exec c s

/-- The transmitter (R36, R140, R178, R179, R189). The end of a message frees what it holds, and a transmitter that is
then free sends READY first, then the oldest reply, then the head of the notice list, whose flag and owner it clears.
One that was free when something began to wait chooses in the same way, except that a reply and a notice that have
become ready together go in either order (log entry 4). One that is sending begins nothing. The end of a reply that
performs a reset is the command of that reset (log entry 20). -/
def Obligations.Transmitter : Prop :=
  ∀ s : State,
    (match s.lnk.line with
    | none => exec .transmitterFree s = .next s.becomesFree
    | some ⟨_, .nothing⟩ => exec .transmitterFree s = .next { s with lnk := { s.lnk with line := none } }.becomesFree
    | some ⟨_, .place⟩ => exec .transmitterFree s =
        .next { s with lnk := { s.lnk with line := none, queue := s.lnk.queue.tail } }.becomesFree
    | some ⟨_, .busySlot⟩ => exec .transmitterFree s =
        .next { s with lnk := { s.lnk with line := none, busySlot := false } }.becomesFree
    | some ⟨_, .reset .all⟩ => exec .transmitterFree s = exec .resetAll s
    | some ⟨_, .reset .traffic⟩ => exec .transmitterFree s = exec .resetTraffic s) ∧
    let replied (s : State) (t : State) : Prop := ∃ u rest, s.lnk.replies = u :: rest ∧
      t = { s with lnk := { s.lnk with replies := rest, line := some ⟨.reply u.reply, u.ends⟩ } }
    let noticed (s : State) (t : State) : Prop := ∃ o rest, s.ntc.list = o :: rest ∧
      t.ntc = { s.ntc with flags := upd s.ntc.flags o false, list := rest } ∧
      t.lnk = { s.lnk with line := (s.noticeOf o).map fun n => ⟨.notice n, .nothing⟩ } ∧
      (∀ r, t.route r = if o = healthObject r then { s.route r with reported := s.health r } else s.route r) ∧
      t.rmon = { s.rmon with routes := t.rmon.routes } ∧
      t.xpc = (if o = takeObject then { s.xpc with newlySuspect := 0 } else s.xpc) ∧
      t = { s with ntc := t.ntc, lnk := t.lnk, rmon := t.rmon, xpc := t.xpc }
    if s.lnk.line ≠ none then s.becomesFree = s ∧ s.transmit = s
    else match s.lnk.ready with
      | some k =>
        let t : State := { s with lnk := { s.lnk with ready := none, line := some ⟨.ready k, .nothing⟩ } }
        s.becomesFree = t ∧ s.transmit = t
      | none =>
        if s.lnk.replies = [] then
          if s.ntc.list = [] then s.becomesFree = s ∧ s.transmit = s else noticed s s.becomesFree ∧ noticed s s.transmit
        else replied s s.becomesFree ∧
          if s.ntc.list = [] then replied s s.transmit
          else replied s.raced s.transmit ∨ noticed s.raced s.transmit
end

