-- ==== Sys2Proof/Laws/State.lean ====
section
/-! SUPPORT. The small lemmas of the tables and of the updates of State: what each update leaves, field by field. -/

namespace Sys2Proof

/-! ### Tables -/

theorem get_eq {α : Type} {n : Nat} (t : Table α n) (i : Fin n) : t.get i = t[i.val] := rfl

@[simp] theorem upd_get {α : Type} {n : Nat} (t : Table α n) (i : Fin n) (a : α) : (upd t i a).get i = a := by
  simp [get_eq, upd]

theorem upd_get_ne {α : Type} {n : Nat} (t : Table α n) {i j : Fin n} (a : α) (h : i ≠ j) :
    (upd t i a).get j = t.get j := by
  have h2 : i.val ≠ j.val := fun e => h (Fin.ext e)
  rw [get_eq, get_eq, upd, Vector.getElem_set_ne _ _ h2]

theorem upd_get_eq {α : Type} {n : Nat} (t : Table α n) (i j : Fin n) (a : α) :
    (upd t i a).get j = if i = j then a else t.get j := by
  by_cases h : i = j
  · subst h; simp
  · simp [h, upd_get_ne t a h]

@[simp] theorem tab_get {α : Type} {n : Nat} (f : Fin n → α) (i : Fin n) : (tab f).get i = f i := by
  simp [get_eq, tab]

@[simp] theorem same_get {α : Type} (n : Nat) (a : α) (i : Fin n) : (same n a).get i = a := by
  simp [get_eq, same]

theorem table_ext {α : Type} {n : Nat} {t u : Table α n} (h : ∀ i, t.get i = u.get i) : t = u := by
  apply Vector.ext
  intro i hi
  exact h ⟨i, hi⟩

namespace Machine.State

/-- A fold whose every step keeps a projection keeps it. -/
theorem foldl_keeps {β γ : Type} (g : State → γ) {f : State → β → State} (h : ∀ s b, g (f s b) = g s) (l : List β)
    (s : State) : g (l.foldl f s) = g s := by
  induction l generalizing s with
  | nil => rfl
  | cons b bs ih => simp [ih, h]

/-- A fold whose every step keeps a property keeps it. -/
theorem foldl_inv {β : Type} (P : State → Prop) {f : State → β → State} (h : ∀ s b, P s → P (f s b)) (l : List β)
    (s : State) (hs : P s) : P (l.foldl f s) := by
  induction l generalizing s with
  | nil => exact hs
  | cons b bs ih => exact ih _ (h _ _ hs)

/-! ### Reading back what an update wrote -/

@[simp] theorem setRoute_route (s : State) (r : Fin 48) (x : Route) : (s.setRoute r x).route r = x := by
  simp [setRoute, route]

theorem setRoute_route_ne (s : State) {r q : Fin 48} (x : Route) (h : r ≠ q) : (s.setRoute r x).route q = s.route q := by
  simp [setRoute, route, upd_get_ne _ _ h]

@[simp] theorem setDrill_drill (s : State) (c : Fin 24) (d : Option Drill) : (s.setDrill c d).drill c = d := by
  simp [setDrill, drill]

theorem setDrill_drill_ne (s : State) {c k : Fin 24} (d : Option Drill) (h : c ≠ k) :
    (s.setDrill c d).drill k = s.drill k := by
  simp [setDrill, drill, upd_get_ne _ _ h]

@[simp] theorem setCircuit_circuit (s : State) (c : Fin 24) (k : Circuit) : (s.setCircuit c k).circuit c = k := by
  simp [setCircuit, circuit]

theorem setCircuit_circuit_ne (s : State) {c d : Fin 24} (k : Circuit) (h : c ≠ d) :
    (s.setCircuit c k).circuit d = s.circuit d := by
  simp [setCircuit, circuit, upd_get_ne _ _ h]

@[simp] theorem setPlace_place (s : State) (i : Fin 192) (p : Option Place) : (s.setPlace i p).place i = p := by
  simp [setPlace, place]

theorem setPlace_place_ne (s : State) {i j : Fin 192} (p : Option Place) (h : i ≠ j) :
    (s.setPlace i p).place j = s.place j := by
  simp [setPlace, place, upd_get_ne _ _ h]

@[simp] theorem setXPort_xport (s : State) (p : Fin 32) (x : XPort) : (s.setXPort p x).xport p = x := by
  simp [setXPort, xport]

theorem setXPort_xport_ne (s : State) {p q : Fin 32} (x : XPort) (h : p ≠ q) :
    (s.setXPort p x).xport q = s.xport q := by
  simp [setXPort, xport, upd_get_ne _ _ h]

@[simp] theorem mapRoutes_route (s : State) (f : Route → Route) (r : Fin 48) :
    (s.mapRoutes f).route r = f (s.route r) := by
  simp [mapRoutes, route]

@[simp] theorem mapPlaces_place (s : State) (f : Place → Place) (i : Fin 192) :
    (s.mapPlaces f).place i = (s.place i).map f := by
  simp [mapPlaces, place]

/-! ### What each update leaves -/

@[simp] theorem setRoute_tb (s : State) (r : Fin 48) (x : Route) : (s.setRoute r x).tb = s.tb := rfl
@[simp] theorem setRoute_circuits (s : State) (r : Fin 48) (x : Route) : (s.setRoute r x).circuits = s.circuits := rfl
@[simp] theorem setRoute_dir (s : State) (r : Fin 48) (x : Route) : (s.setRoute r x).dir = s.dir := rfl
@[simp] theorem setRoute_bku (s : State) (r : Fin 48) (x : Route) : (s.setRoute r x).bku = s.bku := rfl
@[simp] theorem setRoute_xpc (s : State) (r : Fin 48) (x : Route) : (s.setRoute r x).xpc = s.xpc := rfl
@[simp] theorem setRoute_stl (s : State) (r : Fin 48) (x : Route) : (s.setRoute r x).stl = s.stl := rfl
@[simp] theorem setRoute_ntc (s : State) (r : Fin 48) (x : Route) : (s.setRoute r x).ntc = s.ntc := rfl
@[simp] theorem setRoute_tcu (s : State) (r : Fin 48) (x : Route) : (s.setRoute r x).tcu = s.tcu := rfl
@[simp] theorem setRoute_lnk (s : State) (r : Fin 48) (x : Route) : (s.setRoute r x).lnk = s.lnk := rfl
@[simp] theorem setRoute_raceCount (s : State) (r : Fin 48) (x : Route) : (s.setRoute r x).raceCount = s.raceCount := rfl
@[simp] theorem setRoute_pending (s : State) (r : Fin 48) (x : Route) : (s.setRoute r x).pending = s.pending := rfl

@[simp] theorem setDrill_tb (s : State) (c : Fin 24) (d : Option Drill) : (s.setDrill c d).tb = s.tb := rfl
@[simp] theorem setDrill_circuits (s : State) (c : Fin 24) (d : Option Drill) : (s.setDrill c d).circuits = s.circuits := rfl
@[simp] theorem setDrill_dir (s : State) (c : Fin 24) (d : Option Drill) : (s.setDrill c d).dir = s.dir := rfl
@[simp] theorem setDrill_bku (s : State) (c : Fin 24) (d : Option Drill) : (s.setDrill c d).bku = s.bku := rfl
@[simp] theorem setDrill_xpc (s : State) (c : Fin 24) (d : Option Drill) : (s.setDrill c d).xpc = s.xpc := rfl
@[simp] theorem setDrill_stl (s : State) (c : Fin 24) (d : Option Drill) : (s.setDrill c d).stl = s.stl := rfl
@[simp] theorem setDrill_ntc (s : State) (c : Fin 24) (d : Option Drill) : (s.setDrill c d).ntc = s.ntc := rfl
@[simp] theorem setDrill_tcu (s : State) (c : Fin 24) (d : Option Drill) : (s.setDrill c d).tcu = s.tcu := rfl
@[simp] theorem setDrill_lnk (s : State) (c : Fin 24) (d : Option Drill) : (s.setDrill c d).lnk = s.lnk := rfl
@[simp] theorem setDrill_raceCount (s : State) (c : Fin 24) (d : Option Drill) : (s.setDrill c d).raceCount = s.raceCount := rfl
@[simp] theorem setDrill_pending (s : State) (c : Fin 24) (d : Option Drill) : (s.setDrill c d).pending = s.pending := rfl

@[simp] theorem setCard_tb (s : State) (k : Fin 6) (t : Option Nat) : (s.setCard k t).tb = s.tb := rfl
@[simp] theorem setCard_circuits (s : State) (k : Fin 6) (t : Option Nat) : (s.setCard k t).circuits = s.circuits := rfl
@[simp] theorem setCard_dir (s : State) (k : Fin 6) (t : Option Nat) : (s.setCard k t).dir = s.dir := rfl
@[simp] theorem setCard_bku (s : State) (k : Fin 6) (t : Option Nat) : (s.setCard k t).bku = s.bku := rfl
@[simp] theorem setCard_xpc (s : State) (k : Fin 6) (t : Option Nat) : (s.setCard k t).xpc = s.xpc := rfl
@[simp] theorem setCard_stl (s : State) (k : Fin 6) (t : Option Nat) : (s.setCard k t).stl = s.stl := rfl
@[simp] theorem setCard_ntc (s : State) (k : Fin 6) (t : Option Nat) : (s.setCard k t).ntc = s.ntc := rfl
@[simp] theorem setCard_tcu (s : State) (k : Fin 6) (t : Option Nat) : (s.setCard k t).tcu = s.tcu := rfl
@[simp] theorem setCard_lnk (s : State) (k : Fin 6) (t : Option Nat) : (s.setCard k t).lnk = s.lnk := rfl
@[simp] theorem setCard_raceCount (s : State) (k : Fin 6) (t : Option Nat) : (s.setCard k t).raceCount = s.raceCount := rfl
@[simp] theorem setCard_pending (s : State) (k : Fin 6) (t : Option Nat) : (s.setCard k t).pending = s.pending := rfl

@[simp] theorem mapRoutes_tb (s : State) (f : Route → Route) : (s.mapRoutes f).tb = s.tb := rfl
@[simp] theorem mapRoutes_circuits (s : State) (f : Route → Route) : (s.mapRoutes f).circuits = s.circuits := rfl
@[simp] theorem mapRoutes_dir (s : State) (f : Route → Route) : (s.mapRoutes f).dir = s.dir := rfl
@[simp] theorem mapRoutes_bku (s : State) (f : Route → Route) : (s.mapRoutes f).bku = s.bku := rfl
@[simp] theorem mapRoutes_xpc (s : State) (f : Route → Route) : (s.mapRoutes f).xpc = s.xpc := rfl
@[simp] theorem mapRoutes_stl (s : State) (f : Route → Route) : (s.mapRoutes f).stl = s.stl := rfl
@[simp] theorem mapRoutes_ntc (s : State) (f : Route → Route) : (s.mapRoutes f).ntc = s.ntc := rfl
@[simp] theorem mapRoutes_tcu (s : State) (f : Route → Route) : (s.mapRoutes f).tcu = s.tcu := rfl
@[simp] theorem mapRoutes_lnk (s : State) (f : Route → Route) : (s.mapRoutes f).lnk = s.lnk := rfl
@[simp] theorem mapRoutes_raceCount (s : State) (f : Route → Route) : (s.mapRoutes f).raceCount = s.raceCount := rfl
@[simp] theorem mapRoutes_pending (s : State) (f : Route → Route) : (s.mapRoutes f).pending = s.pending := rfl

@[simp] theorem onRoute_tb (s : State) (r : Fin 48) (f : Route → Route) : (s.onRoute r f).tb = s.tb := rfl
@[simp] theorem onRoute_circuits (s : State) (r : Fin 48) (f : Route → Route) : (s.onRoute r f).circuits = s.circuits := rfl
@[simp] theorem onRoute_dir (s : State) (r : Fin 48) (f : Route → Route) : (s.onRoute r f).dir = s.dir := rfl
@[simp] theorem onRoute_bku (s : State) (r : Fin 48) (f : Route → Route) : (s.onRoute r f).bku = s.bku := rfl
@[simp] theorem onRoute_xpc (s : State) (r : Fin 48) (f : Route → Route) : (s.onRoute r f).xpc = s.xpc := rfl
@[simp] theorem onRoute_stl (s : State) (r : Fin 48) (f : Route → Route) : (s.onRoute r f).stl = s.stl := rfl
@[simp] theorem onRoute_ntc (s : State) (r : Fin 48) (f : Route → Route) : (s.onRoute r f).ntc = s.ntc := rfl
@[simp] theorem onRoute_tcu (s : State) (r : Fin 48) (f : Route → Route) : (s.onRoute r f).tcu = s.tcu := rfl
@[simp] theorem onRoute_lnk (s : State) (r : Fin 48) (f : Route → Route) : (s.onRoute r f).lnk = s.lnk := rfl
@[simp] theorem onRoute_raceCount (s : State) (r : Fin 48) (f : Route → Route) : (s.onRoute r f).raceCount = s.raceCount := rfl
@[simp] theorem onRoute_pending (s : State) (r : Fin 48) (f : Route → Route) : (s.onRoute r f).pending = s.pending := rfl

@[simp] theorem setCircuit_tb (s : State) (c : Fin 24) (k : Circuit) : (s.setCircuit c k).tb = s.tb := rfl
@[simp] theorem setCircuit_rmon (s : State) (c : Fin 24) (k : Circuit) : (s.setCircuit c k).rmon = s.rmon := rfl
@[simp] theorem setCircuit_dir (s : State) (c : Fin 24) (k : Circuit) : (s.setCircuit c k).dir = s.dir := rfl
@[simp] theorem setCircuit_bku (s : State) (c : Fin 24) (k : Circuit) : (s.setCircuit c k).bku = s.bku := rfl
@[simp] theorem setCircuit_xpc (s : State) (c : Fin 24) (k : Circuit) : (s.setCircuit c k).xpc = s.xpc := rfl
@[simp] theorem setCircuit_stl (s : State) (c : Fin 24) (k : Circuit) : (s.setCircuit c k).stl = s.stl := rfl
@[simp] theorem setCircuit_ntc (s : State) (c : Fin 24) (k : Circuit) : (s.setCircuit c k).ntc = s.ntc := rfl
@[simp] theorem setCircuit_tcu (s : State) (c : Fin 24) (k : Circuit) : (s.setCircuit c k).tcu = s.tcu := rfl
@[simp] theorem setCircuit_lnk (s : State) (c : Fin 24) (k : Circuit) : (s.setCircuit c k).lnk = s.lnk := rfl
@[simp] theorem setCircuit_raceCount (s : State) (c : Fin 24) (k : Circuit) : (s.setCircuit c k).raceCount = s.raceCount := rfl
@[simp] theorem setCircuit_pending (s : State) (c : Fin 24) (k : Circuit) : (s.setCircuit c k).pending = s.pending := rfl

@[simp] theorem stopTimers_tb (s : State) (c : Fin 24) : (s.stopTimers c).tb = s.tb := rfl
@[simp] theorem stopTimers_rmon (s : State) (c : Fin 24) : (s.stopTimers c).rmon = s.rmon := rfl
@[simp] theorem stopTimers_dir (s : State) (c : Fin 24) : (s.stopTimers c).dir = s.dir := rfl
@[simp] theorem stopTimers_bku (s : State) (c : Fin 24) : (s.stopTimers c).bku = s.bku := rfl
@[simp] theorem stopTimers_xpc (s : State) (c : Fin 24) : (s.stopTimers c).xpc = s.xpc := rfl
@[simp] theorem stopTimers_stl (s : State) (c : Fin 24) : (s.stopTimers c).stl = s.stl := rfl
@[simp] theorem stopTimers_ntc (s : State) (c : Fin 24) : (s.stopTimers c).ntc = s.ntc := rfl
@[simp] theorem stopTimers_tcu (s : State) (c : Fin 24) : (s.stopTimers c).tcu = s.tcu := rfl
@[simp] theorem stopTimers_lnk (s : State) (c : Fin 24) : (s.stopTimers c).lnk = s.lnk := rfl
@[simp] theorem stopTimers_raceCount (s : State) (c : Fin 24) : (s.stopTimers c).raceCount = s.raceCount := rfl
@[simp] theorem stopTimers_pending (s : State) (c : Fin 24) : (s.stopTimers c).pending = s.pending := rfl

@[simp] theorem setPlace_tb (s : State) (i : Fin 192) (p : Option Place) : (s.setPlace i p).tb = s.tb := rfl
@[simp] theorem setPlace_rmon (s : State) (i : Fin 192) (p : Option Place) : (s.setPlace i p).rmon = s.rmon := rfl
@[simp] theorem setPlace_circuits (s : State) (i : Fin 192) (p : Option Place) : (s.setPlace i p).circuits = s.circuits := rfl
@[simp] theorem setPlace_dir (s : State) (i : Fin 192) (p : Option Place) : (s.setPlace i p).dir = s.dir := rfl
@[simp] theorem setPlace_xpc (s : State) (i : Fin 192) (p : Option Place) : (s.setPlace i p).xpc = s.xpc := rfl
@[simp] theorem setPlace_stl (s : State) (i : Fin 192) (p : Option Place) : (s.setPlace i p).stl = s.stl := rfl
@[simp] theorem setPlace_ntc (s : State) (i : Fin 192) (p : Option Place) : (s.setPlace i p).ntc = s.ntc := rfl
@[simp] theorem setPlace_tcu (s : State) (i : Fin 192) (p : Option Place) : (s.setPlace i p).tcu = s.tcu := rfl
@[simp] theorem setPlace_lnk (s : State) (i : Fin 192) (p : Option Place) : (s.setPlace i p).lnk = s.lnk := rfl
@[simp] theorem setPlace_raceCount (s : State) (i : Fin 192) (p : Option Place) : (s.setPlace i p).raceCount = s.raceCount := rfl
@[simp] theorem setPlace_pending (s : State) (i : Fin 192) (p : Option Place) : (s.setPlace i p).pending = s.pending := rfl

@[simp] theorem mapPlaces_tb (s : State) (f : Place → Place) : (s.mapPlaces f).tb = s.tb := rfl
@[simp] theorem mapPlaces_rmon (s : State) (f : Place → Place) : (s.mapPlaces f).rmon = s.rmon := rfl
@[simp] theorem mapPlaces_circuits (s : State) (f : Place → Place) : (s.mapPlaces f).circuits = s.circuits := rfl
@[simp] theorem mapPlaces_dir (s : State) (f : Place → Place) : (s.mapPlaces f).dir = s.dir := rfl
@[simp] theorem mapPlaces_xpc (s : State) (f : Place → Place) : (s.mapPlaces f).xpc = s.xpc := rfl
@[simp] theorem mapPlaces_stl (s : State) (f : Place → Place) : (s.mapPlaces f).stl = s.stl := rfl
@[simp] theorem mapPlaces_ntc (s : State) (f : Place → Place) : (s.mapPlaces f).ntc = s.ntc := rfl
@[simp] theorem mapPlaces_tcu (s : State) (f : Place → Place) : (s.mapPlaces f).tcu = s.tcu := rfl
@[simp] theorem mapPlaces_lnk (s : State) (f : Place → Place) : (s.mapPlaces f).lnk = s.lnk := rfl
@[simp] theorem mapPlaces_raceCount (s : State) (f : Place → Place) : (s.mapPlaces f).raceCount = s.raceCount := rfl
@[simp] theorem mapPlaces_pending (s : State) (f : Place → Place) : (s.mapPlaces f).pending = s.pending := rfl

@[simp] theorem setXPort_tb (s : State) (p : Fin 32) (x : XPort) : (s.setXPort p x).tb = s.tb := rfl
@[simp] theorem setXPort_rmon (s : State) (p : Fin 32) (x : XPort) : (s.setXPort p x).rmon = s.rmon := rfl
@[simp] theorem setXPort_circuits (s : State) (p : Fin 32) (x : XPort) : (s.setXPort p x).circuits = s.circuits := rfl
@[simp] theorem setXPort_dir (s : State) (p : Fin 32) (x : XPort) : (s.setXPort p x).dir = s.dir := rfl
@[simp] theorem setXPort_bku (s : State) (p : Fin 32) (x : XPort) : (s.setXPort p x).bku = s.bku := rfl
@[simp] theorem setXPort_stl (s : State) (p : Fin 32) (x : XPort) : (s.setXPort p x).stl = s.stl := rfl
@[simp] theorem setXPort_ntc (s : State) (p : Fin 32) (x : XPort) : (s.setXPort p x).ntc = s.ntc := rfl
@[simp] theorem setXPort_tcu (s : State) (p : Fin 32) (x : XPort) : (s.setXPort p x).tcu = s.tcu := rfl
@[simp] theorem setXPort_lnk (s : State) (p : Fin 32) (x : XPort) : (s.setXPort p x).lnk = s.lnk := rfl
@[simp] theorem setXPort_raceCount (s : State) (p : Fin 32) (x : XPort) : (s.setXPort p x).raceCount = s.raceCount := rfl
@[simp] theorem setXPort_pending (s : State) (p : Fin 32) (x : XPort) : (s.setXPort p x).pending = s.pending := rfl

@[simp] theorem onXPort_tb (s : State) (p : Fin 32) (f : XPort → XPort) : (s.onXPort p f).tb = s.tb := rfl
@[simp] theorem onXPort_rmon (s : State) (p : Fin 32) (f : XPort → XPort) : (s.onXPort p f).rmon = s.rmon := rfl
@[simp] theorem onXPort_circuits (s : State) (p : Fin 32) (f : XPort → XPort) : (s.onXPort p f).circuits = s.circuits := rfl
@[simp] theorem onXPort_dir (s : State) (p : Fin 32) (f : XPort → XPort) : (s.onXPort p f).dir = s.dir := rfl
@[simp] theorem onXPort_bku (s : State) (p : Fin 32) (f : XPort → XPort) : (s.onXPort p f).bku = s.bku := rfl
@[simp] theorem onXPort_stl (s : State) (p : Fin 32) (f : XPort → XPort) : (s.onXPort p f).stl = s.stl := rfl
@[simp] theorem onXPort_ntc (s : State) (p : Fin 32) (f : XPort → XPort) : (s.onXPort p f).ntc = s.ntc := rfl
@[simp] theorem onXPort_tcu (s : State) (p : Fin 32) (f : XPort → XPort) : (s.onXPort p f).tcu = s.tcu := rfl
@[simp] theorem onXPort_lnk (s : State) (p : Fin 32) (f : XPort → XPort) : (s.onXPort p f).lnk = s.lnk := rfl
@[simp] theorem onXPort_raceCount (s : State) (p : Fin 32) (f : XPort → XPort) : (s.onXPort p f).raceCount = s.raceCount := rfl
@[simp] theorem onXPort_pending (s : State) (p : Fin 32) (f : XPort → XPort) : (s.onXPort p f).pending = s.pending := rfl

@[simp] theorem raise_tb (s : State) (o : Fin 267) : (s.raise o).tb = s.tb := rfl
@[simp] theorem raise_rmon (s : State) (o : Fin 267) : (s.raise o).rmon = s.rmon := rfl
@[simp] theorem raise_circuits (s : State) (o : Fin 267) : (s.raise o).circuits = s.circuits := rfl
@[simp] theorem raise_dir (s : State) (o : Fin 267) : (s.raise o).dir = s.dir := rfl
@[simp] theorem raise_bku (s : State) (o : Fin 267) : (s.raise o).bku = s.bku := rfl
@[simp] theorem raise_xpc (s : State) (o : Fin 267) : (s.raise o).xpc = s.xpc := rfl
@[simp] theorem raise_stl (s : State) (o : Fin 267) : (s.raise o).stl = s.stl := rfl
@[simp] theorem raise_tcu (s : State) (o : Fin 267) : (s.raise o).tcu = s.tcu := rfl
@[simp] theorem raise_lnk (s : State) (o : Fin 267) : (s.raise o).lnk = s.lnk := rfl
@[simp] theorem raise_raceCount (s : State) (o : Fin 267) : (s.raise o).raceCount = s.raceCount := rfl
@[simp] theorem raise_pending (s : State) (o : Fin 267) : (s.raise o).pending = s.pending := rfl

@[simp] theorem withdraw_tb (s : State) (o : Fin 267) : (s.withdraw o).tb = s.tb := rfl
@[simp] theorem withdraw_rmon (s : State) (o : Fin 267) : (s.withdraw o).rmon = s.rmon := rfl
@[simp] theorem withdraw_circuits (s : State) (o : Fin 267) : (s.withdraw o).circuits = s.circuits := rfl
@[simp] theorem withdraw_dir (s : State) (o : Fin 267) : (s.withdraw o).dir = s.dir := rfl
@[simp] theorem withdraw_bku (s : State) (o : Fin 267) : (s.withdraw o).bku = s.bku := rfl
@[simp] theorem withdraw_xpc (s : State) (o : Fin 267) : (s.withdraw o).xpc = s.xpc := rfl
@[simp] theorem withdraw_stl (s : State) (o : Fin 267) : (s.withdraw o).stl = s.stl := rfl
@[simp] theorem withdraw_tcu (s : State) (o : Fin 267) : (s.withdraw o).tcu = s.tcu := rfl
@[simp] theorem withdraw_lnk (s : State) (o : Fin 267) : (s.withdraw o).lnk = s.lnk := rfl
@[simp] theorem withdraw_raceCount (s : State) (o : Fin 267) : (s.withdraw o).raceCount = s.raceCount := rfl
@[simp] theorem withdraw_pending (s : State) (o : Fin 267) : (s.withdraw o).pending = s.pending := rfl

@[simp] theorem setCueLine_tb (s : State) (l : Fin 4) (x : CueLine) : (s.setCueLine l x).tb = s.tb := rfl
@[simp] theorem setCueLine_rmon (s : State) (l : Fin 4) (x : CueLine) : (s.setCueLine l x).rmon = s.rmon := rfl
@[simp] theorem setCueLine_circuits (s : State) (l : Fin 4) (x : CueLine) : (s.setCueLine l x).circuits = s.circuits := rfl
@[simp] theorem setCueLine_dir (s : State) (l : Fin 4) (x : CueLine) : (s.setCueLine l x).dir = s.dir := rfl
@[simp] theorem setCueLine_bku (s : State) (l : Fin 4) (x : CueLine) : (s.setCueLine l x).bku = s.bku := rfl
@[simp] theorem setCueLine_xpc (s : State) (l : Fin 4) (x : CueLine) : (s.setCueLine l x).xpc = s.xpc := rfl
@[simp] theorem setCueLine_stl (s : State) (l : Fin 4) (x : CueLine) : (s.setCueLine l x).stl = s.stl := rfl
@[simp] theorem setCueLine_ntc (s : State) (l : Fin 4) (x : CueLine) : (s.setCueLine l x).ntc = s.ntc := rfl
@[simp] theorem setCueLine_lnk (s : State) (l : Fin 4) (x : CueLine) : (s.setCueLine l x).lnk = s.lnk := rfl
@[simp] theorem setCueLine_raceCount (s : State) (l : Fin 4) (x : CueLine) : (s.setCueLine l x).raceCount = s.raceCount := rfl
@[simp] theorem setCueLine_pending (s : State) (l : Fin 4) (x : CueLine) : (s.setCueLine l x).pending = s.pending := rfl

@[simp] theorem markerStamp_rmon (s : State) : (s.markerStamp).rmon = s.rmon := rfl
@[simp] theorem markerStamp_circuits (s : State) : (s.markerStamp).circuits = s.circuits := rfl
@[simp] theorem markerStamp_dir (s : State) : (s.markerStamp).dir = s.dir := rfl
@[simp] theorem markerStamp_bku (s : State) : (s.markerStamp).bku = s.bku := rfl
@[simp] theorem markerStamp_xpc (s : State) : (s.markerStamp).xpc = s.xpc := rfl
@[simp] theorem markerStamp_stl (s : State) : (s.markerStamp).stl = s.stl := rfl
@[simp] theorem markerStamp_ntc (s : State) : (s.markerStamp).ntc = s.ntc := rfl
@[simp] theorem markerStamp_lnk (s : State) : (s.markerStamp).lnk = s.lnk := rfl
@[simp] theorem markerStamp_raceCount (s : State) : (s.markerStamp).raceCount = s.raceCount := rfl
@[simp] theorem markerStamp_pending (s : State) : (s.markerStamp).pending = s.pending := rfl

@[simp] theorem raced_tb (s : State) : (s.raced).tb = s.tb := rfl
@[simp] theorem raced_rmon (s : State) : (s.raced).rmon = s.rmon := rfl
@[simp] theorem raced_circuits (s : State) : (s.raced).circuits = s.circuits := rfl
@[simp] theorem raced_dir (s : State) : (s.raced).dir = s.dir := rfl
@[simp] theorem raced_bku (s : State) : (s.raced).bku = s.bku := rfl
@[simp] theorem raced_xpc (s : State) : (s.raced).xpc = s.xpc := rfl
@[simp] theorem raced_stl (s : State) : (s.raced).stl = s.stl := rfl
@[simp] theorem raced_ntc (s : State) : (s.raced).ntc = s.ntc := rfl
@[simp] theorem raced_tcu (s : State) : (s.raced).tcu = s.tcu := rfl
@[simp] theorem raced_lnk (s : State) : (s.raced).lnk = s.lnk := rfl
@[simp] theorem raced_pending (s : State) : (s.raced).pending = s.pending := rfl

@[simp] theorem countError_tb (s : State) : (s.countError).tb = s.tb := rfl
@[simp] theorem countError_rmon (s : State) : (s.countError).rmon = s.rmon := rfl
@[simp] theorem countError_circuits (s : State) : (s.countError).circuits = s.circuits := rfl
@[simp] theorem countError_dir (s : State) : (s.countError).dir = s.dir := rfl
@[simp] theorem countError_bku (s : State) : (s.countError).bku = s.bku := rfl
@[simp] theorem countError_xpc (s : State) : (s.countError).xpc = s.xpc := rfl
@[simp] theorem countError_stl (s : State) : (s.countError).stl = s.stl := rfl
@[simp] theorem countError_ntc (s : State) : (s.countError).ntc = s.ntc := rfl
@[simp] theorem countError_tcu (s : State) : (s.countError).tcu = s.tcu := rfl
@[simp] theorem countError_raceCount (s : State) : (s.countError).raceCount = s.raceCount := rfl
@[simp] theorem countError_pending (s : State) : (s.countError).pending = s.pending := rfl

@[simp] theorem hunt_tb (s : State) : (s.hunt).tb = s.tb := rfl
@[simp] theorem hunt_rmon (s : State) : (s.hunt).rmon = s.rmon := rfl
@[simp] theorem hunt_circuits (s : State) : (s.hunt).circuits = s.circuits := rfl
@[simp] theorem hunt_dir (s : State) : (s.hunt).dir = s.dir := rfl
@[simp] theorem hunt_bku (s : State) : (s.hunt).bku = s.bku := rfl
@[simp] theorem hunt_xpc (s : State) : (s.hunt).xpc = s.xpc := rfl
@[simp] theorem hunt_stl (s : State) : (s.hunt).stl = s.stl := rfl
@[simp] theorem hunt_ntc (s : State) : (s.hunt).ntc = s.ntc := rfl
@[simp] theorem hunt_tcu (s : State) : (s.hunt).tcu = s.tcu := rfl
@[simp] theorem hunt_raceCount (s : State) : (s.hunt).raceCount = s.raceCount := rfl
@[simp] theorem hunt_pending (s : State) : (s.hunt).pending = s.pending := rfl

@[simp] theorem startFrame_tb (s : State) (frame : List Byte) : (s.startFrame frame).tb = s.tb := rfl
@[simp] theorem startFrame_rmon (s : State) (frame : List Byte) : (s.startFrame frame).rmon = s.rmon := rfl
@[simp] theorem startFrame_circuits (s : State) (frame : List Byte) : (s.startFrame frame).circuits = s.circuits := rfl
@[simp] theorem startFrame_dir (s : State) (frame : List Byte) : (s.startFrame frame).dir = s.dir := rfl
@[simp] theorem startFrame_bku (s : State) (frame : List Byte) : (s.startFrame frame).bku = s.bku := rfl
@[simp] theorem startFrame_xpc (s : State) (frame : List Byte) : (s.startFrame frame).xpc = s.xpc := rfl
@[simp] theorem startFrame_stl (s : State) (frame : List Byte) : (s.startFrame frame).stl = s.stl := rfl
@[simp] theorem startFrame_ntc (s : State) (frame : List Byte) : (s.startFrame frame).ntc = s.ntc := rfl
@[simp] theorem startFrame_tcu (s : State) (frame : List Byte) : (s.startFrame frame).tcu = s.tcu := rfl
@[simp] theorem startFrame_raceCount (s : State) (frame : List Byte) : (s.startFrame frame).raceCount = s.raceCount := rfl
@[simp] theorem startFrame_pending (s : State) (frame : List Byte) : (s.startFrame frame).pending = s.pending := rfl

@[simp] theorem enqueue_tb (s : State) (tag : Byte) (r : Request) : (s.enqueue tag r).tb = s.tb := rfl
@[simp] theorem enqueue_rmon (s : State) (tag : Byte) (r : Request) : (s.enqueue tag r).rmon = s.rmon := rfl
@[simp] theorem enqueue_circuits (s : State) (tag : Byte) (r : Request) : (s.enqueue tag r).circuits = s.circuits := rfl
@[simp] theorem enqueue_dir (s : State) (tag : Byte) (r : Request) : (s.enqueue tag r).dir = s.dir := rfl
@[simp] theorem enqueue_bku (s : State) (tag : Byte) (r : Request) : (s.enqueue tag r).bku = s.bku := rfl
@[simp] theorem enqueue_xpc (s : State) (tag : Byte) (r : Request) : (s.enqueue tag r).xpc = s.xpc := rfl
@[simp] theorem enqueue_stl (s : State) (tag : Byte) (r : Request) : (s.enqueue tag r).stl = s.stl := rfl
@[simp] theorem enqueue_ntc (s : State) (tag : Byte) (r : Request) : (s.enqueue tag r).ntc = s.ntc := rfl
@[simp] theorem enqueue_tcu (s : State) (tag : Byte) (r : Request) : (s.enqueue tag r).tcu = s.tcu := rfl
@[simp] theorem enqueue_raceCount (s : State) (tag : Byte) (r : Request) : (s.enqueue tag r).raceCount = s.raceCount := rfl
@[simp] theorem enqueue_pending (s : State) (tag : Byte) (r : Request) : (s.enqueue tag r).pending = s.pending := rfl

@[simp] theorem reply_tb (s : State) (tag : Byte) (r : Request) (a : Answer) (e : Ends) : (s.reply tag r a e).tb = s.tb := rfl
@[simp] theorem reply_rmon (s : State) (tag : Byte) (r : Request) (a : Answer) (e : Ends) : (s.reply tag r a e).rmon = s.rmon := rfl
@[simp] theorem reply_circuits (s : State) (tag : Byte) (r : Request) (a : Answer) (e : Ends) : (s.reply tag r a e).circuits = s.circuits := rfl
@[simp] theorem reply_dir (s : State) (tag : Byte) (r : Request) (a : Answer) (e : Ends) : (s.reply tag r a e).dir = s.dir := rfl
@[simp] theorem reply_bku (s : State) (tag : Byte) (r : Request) (a : Answer) (e : Ends) : (s.reply tag r a e).bku = s.bku := rfl
@[simp] theorem reply_xpc (s : State) (tag : Byte) (r : Request) (a : Answer) (e : Ends) : (s.reply tag r a e).xpc = s.xpc := rfl
@[simp] theorem reply_stl (s : State) (tag : Byte) (r : Request) (a : Answer) (e : Ends) : (s.reply tag r a e).stl = s.stl := rfl
@[simp] theorem reply_ntc (s : State) (tag : Byte) (r : Request) (a : Answer) (e : Ends) : (s.reply tag r a e).ntc = s.ntc := rfl
@[simp] theorem reply_tcu (s : State) (tag : Byte) (r : Request) (a : Answer) (e : Ends) : (s.reply tag r a e).tcu = s.tcu := rfl
@[simp] theorem reply_raceCount (s : State) (tag : Byte) (r : Request) (a : Answer) (e : Ends) : (s.reply tag r a e).raceCount = s.raceCount := rfl
@[simp] theorem reply_pending (s : State) (tag : Byte) (r : Request) (a : Answer) (e : Ends) : (s.reply tag r a e).pending = s.pending := rfl

end Machine.State

end Sys2Proof
end

