-- ==== Sys2Proof/Laws/Frames.lean ====
section
/-! SUPPORT. The frame of the shared operations: which parts of State each of them may change. -/

namespace Sys2Proof.Machine

/-- The parts of State. -/
inductive Part where
  | tb | rmon | circuits | dir | bku | xpc | stl | ntc | tcu | lnk | raceCount | pending
  deriving DecidableEq

/-- A part is the same in two states. -/
def Part.same (s t : State) : Part → Prop
  | .tb => t.tb = s.tb
  | .rmon => t.rmon = s.rmon
  | .circuits => t.circuits = s.circuits
  | .dir => t.dir = s.dir
  | .bku => t.bku = s.bku
  | .xpc => t.xpc = s.xpc
  | .stl => t.stl = s.stl
  | .ntc => t.ntc = s.ntc
  | .tcu => t.tcu = s.tcu
  | .lnk => t.lnk = s.lnk
  | .raceCount => t.raceCount = s.raceCount
  | .pending => t.pending = s.pending

/-- `t` is `s` outside the parts of a list. -/
def Agree (l : List Part) (s t : State) : Prop := ∀ p, p ∉ l → p.same s t

namespace Agree

theorem refl {l : List Part} (s : State) : Agree l s s := fun p _ => by cases p <;> rfl

theorem trans {l : List Part} {s t u : State} (h : Agree l s t) (k : Agree l t u) : Agree l s u := fun p hp => by
  have a := h p hp
  have b := k p hp
  cases p <;> exact Eq.trans b a

theorem mono {l m : List Part} {s t : State} (h : Agree l s t) (sub : l ⊆ m) : Agree m s t :=
  fun p hp => h p fun hl => hp (sub hl)

/-- An operation that agrees outside fewer parts comes last. -/
theorem next {l m : List Part} {s t u : State} (h : Agree l s t) (k : Agree m t u) (sub : m ⊆ l) : Agree l s u :=
  h.trans (k.mono sub)

theorem foldl {β : Type} {l : List Part} {f : State → β → State} (h : ∀ s b, Agree l s (f s b)) (bs : List β)
    (s : State) : Agree l s (bs.foldl f s) := by
  induction bs generalizing s with
  | nil => exact refl s
  | cons b bs ih => exact (h s b).trans (ih _)

theorem rmon {l : List Part} (s : State) (x : RMON) (h : Part.rmon ∈ l) : Agree l s { s with rmon := x } :=
  fun p hp => by cases p <;> first | rfl | exact absurd h hp
theorem circuits {l : List Part} (s : State) (x : Table Circuit 24) (h : Part.circuits ∈ l) :
    Agree l s { s with circuits := x } := fun p hp => by cases p <;> first | rfl | exact absurd h hp
theorem bku {l : List Part} (s : State) (x : BKU) (h : Part.bku ∈ l) : Agree l s { s with bku := x } :=
  fun p hp => by cases p <;> first | rfl | exact absurd h hp
theorem xpc {l : List Part} (s : State) (x : XPC) (h : Part.xpc ∈ l) : Agree l s { s with xpc := x } :=
  fun p hp => by cases p <;> first | rfl | exact absurd h hp
theorem stl {l : List Part} (s : State) (x : STL) (h : Part.stl ∈ l) : Agree l s { s with stl := x } :=
  fun p hp => by cases p <;> first | rfl | exact absurd h hp
theorem ntc {l : List Part} (s : State) (x : NTC) (h : Part.ntc ∈ l) : Agree l s { s with ntc := x } :=
  fun p hp => by cases p <;> first | rfl | exact absurd h hp
theorem tcu {l : List Part} (s : State) (x : TCU) (h : Part.tcu ∈ l) : Agree l s { s with tcu := x } :=
  fun p hp => by cases p <;> first | rfl | exact absurd h hp
theorem lnk {l : List Part} (s : State) (x : LNK) (h : Part.lnk ∈ l) : Agree l s { s with lnk := x } :=
  fun p hp => by cases p <;> first | rfl | exact absurd h hp
theorem tb {l : List Part} (s : State) (x : TB) (h : Part.tb ∈ l) : Agree l s { s with tb := x } :=
  fun p hp => by cases p <;> first | rfl | exact absurd h hp
theorem race {l : List Part} (s : State) (n : Nat) (h : Part.raceCount ∈ l) : Agree l s { s with raceCount := n } :=
  fun p hp => by cases p <;> first | rfl | exact absurd h hp

end Agree

/-- What meters and delivered flags may change. -/
abbrev flagParts : List Part := [.bku, .xpc]
/-- What a selection change may change. -/
abbrev selParts : List Part := [.circuits, .bku, .xpc, .ntc]
/-- What an event of RMON may change. -/
abbrev healthParts : List Part := [.rmon, .circuits, .bku, .xpc, .ntc, .raceCount]
/-- What settling a record may change. -/
abbrev settleParts : List Part := [.dir, .bku, .stl, .ntc]
/-- What an event of BKU may change. -/
abbrev lifeParts : List Part := [.dir, .bku, .xpc, .stl, .ntc]
/-- What a marker may change. -/
abbrev markerParts : List Part := [.tb, .rmon, .circuits, .dir, .bku, .xpc, .stl, .ntc, .tcu, .raceCount]
/-- What a step of network time may change. -/
abbrev stepParts : List Part := [.tb, .rmon, .circuits, .dir, .bku, .xpc, .stl, .ntc, .raceCount]
/-- What the transmitter may change. -/
abbrev sendParts : List Part := [.rmon, .xpc, .ntc, .lnk, .raceCount]
/-- What no command changes: the queue of commands. -/
abbrev allParts : List Part := [.tb, .rmon, .circuits, .dir, .bku, .xpc, .stl, .ntc, .tcu, .lnk, .raceCount]

namespace State

/-! ### Meters and delivered flags -/

theorem onPlace_agree (s : State) (i : Fin 192) (f : Place → Place) : Agree [.bku] s (s.onPlace i f) := by
  unfold onPlace
  split
  · exact Agree.bku s _ (by decide)
  · exact Agree.refl s

theorem onBooking_agree (s : State) (i : Fin 192) (f : Booking → Booking) : Agree [.bku] s (s.onBooking i f) :=
  onPlace_agree s i _

theorem onMeter_agree (s : State) (i : Fin 192) (f : MeterSet → MeterSet) : Agree [.bku] s (s.onMeter i f) :=
  onPlace_agree s i _

theorem evalGateAt_agree (s : State) (i : Fin 192) : Agree flagParts s (s.evalGateAt i) := by
  unfold evalGateAt
  split
  · exact Agree.bku s _ (by decide)
  · exact Agree.refl s

theorem storeFlag_agree (s : State) (p : Fin 32) : Agree flagParts s (s.storeFlag p) := by
  unfold storeFlag
  have h : Agree flagParts s (s.onXPort p fun x => { x with delivered := s.deliveredNow p }) :=
    Agree.xpc s _ (by decide)
  dsimp only
  split
  · exact h.trans ((onPlace_agree _ _ _).mono (by decide))
  · exact h

theorem recomputeFlags_agree (s : State) (ps : List (Fin 32)) : Agree flagParts s (s.recomputeFlags ps) :=
  (Agree.foldl (fun s p => storeFlag_agree s p) _ s).trans (Agree.foldl (fun s i => evalGateAt_agree s i) _ _)

theorem resource_agree (s : State) (f o n : Fin 48) : Agree flagParts s (s.resource f o n) :=
  (Agree.xpc s _ (by decide)).trans (recomputeFlags_agree _ _)

theorem xpcHealth_agree (s : State) (l : List (Fin 48)) : Agree flagParts s (s.xpcHealth l) :=
  recomputeFlags_agree s _

/-! ### Events in any order -/

theorem placeFreely_spec (f : State → State) (fs : List (State → State)) (s : State) :
    (placeFreely f fs s).1.Perm (f :: fs) ∧ ∃ n, (placeFreely f fs s).2 = { s with raceCount := n } := by
  induction fs generalizing s with
  | nil => exact ⟨List.Perm.refl _, s.raceCount, rfl⟩
  | cons g gs ih =>
    unfold placeFreely
    split
    · exact ⟨List.Perm.refl _, s.raceCount + 1, rfl⟩
    · obtain ⟨perm, n, h⟩ := ih s.raced
      exact ⟨(perm.cons g).trans (List.Perm.swap f g gs), n, h⟩

theorem orderFreely_spec (fs : List (State → State)) (s : State) :
    (orderFreely fs s).1.Perm fs ∧ ∃ n, (orderFreely fs s).2 = { s with raceCount := n } := by
  induction fs with
  | nil => exact ⟨List.Perm.refl _, s.raceCount, rfl⟩
  | cons f fs ih =>
    obtain ⟨perm, n, h⟩ := ih
    obtain ⟨perm1, m, h1⟩ := placeFreely_spec f (orderFreely fs s).1 (orderFreely fs s).2
    exact ⟨perm1.trans (perm.cons f), m, h1.trans (by rw [h])⟩

/-- What events in any order can do: they are taken in one of their orders, after some number of open orders have been
decided. -/
theorem inAnyOrder_spec (fs : List (State → State)) (s : State) :
    ∃ (order : List (State → State)) (n : Nat),
      order.Perm fs ∧ s.inAnyOrder fs = order.foldl (fun s f => f s) { s with raceCount := n } := by
  obtain ⟨perm, n, h⟩ := orderFreely_spec fs s
  exact ⟨_, n, perm, by rw [← h]; rfl⟩

theorem inAnyOrder_agree {l : List Part} (hl : Part.raceCount ∈ l) {fs : List (State → State)}
    (h : ∀ f ∈ fs, ∀ u, Agree l u (f u)) (s : State) : Agree l s (s.inAnyOrder fs) := by
  obtain ⟨order, n, perm, eq⟩ := inAnyOrder_spec fs s
  rw [eq]
  have all (order : List (State → State)) (k : ∀ f ∈ order, ∀ u, Agree l u (f u)) (u : State) :
      Agree l u (order.foldl (fun s f => f s) u) := by
    induction order generalizing u with
    | nil => exact Agree.refl u
    | cons f fs ih =>
      exact (k f (List.mem_cons_self ..) u).trans (ih (fun g hg => k g (List.mem_cons_of_mem f hg)) _)
  exact (Agree.race s n hl).trans (all order (fun f hf => h f (perm.mem_iff.1 hf)) _)

/-! ### PSEL -/

theorem handSelection_agree (s : State) (c : Fin 24) (o n : Side) : Agree flagParts s (s.handSelection c o n) :=
  (resource_agree s _ _ _).trans (Agree.bku _ _ (by decide))

theorem changeSelector_agree (s : State) (c : Fin 24) (st : SelState) (why : CircuitReason) :
    Agree selParts s (s.changeSelector c st why) := by
  have h (k : Circuit) : Agree selParts s ((s.setCircuit c k).raise (circuitObject c)) :=
    (Agree.circuits s _ (by decide)).trans (Agree.ntc _ _ (by decide))
  unfold changeSelector
  dsimp only
  split
  · split
    · exact (h _).trans ((handSelection_agree _ _ _ _).mono (by decide))
    · exact h _
  · exact h _

theorem setCircuit_agree (s : State) (c : Fin 24) (k : Circuit) : Agree selParts s (s.setCircuit c k) :=
  Agree.circuits s _ (by decide)

theorem guardedSwitch_agree (s : State) (c : Fin 24) (st : SelState) (why : CircuitReason) :
    Agree selParts s (s.guardedSwitch c st why) := (setCircuit_agree s _ _).trans (changeSelector_agree _ _ _ _)

theorem enterWtr_agree (s : State) (c : Fin 24) : Agree selParts s (s.enterWtr c) := by
  unfold enterWtr
  have h := (setCircuit_agree s c { s.circuit c with wtr := some (s.tb.elapsed + (s.circuit c).wtrSecs * 1000) }).trans
    (changeSelector_agree _ c .wtr .auto)
  dsimp only
  split
  · exact h.trans (guardedSwitch_agree _ _ _ _)
  · exact h

theorem evaluate_agree (s : State) (c : Fin 24) (why : CircuitReason) : Agree selParts s (s.evaluate c why) := by
  unfold evaluate
  dsimp only
  repeat' split
  all_goals first
    | exact Agree.refl s
    | exact guardedSwitch_agree _ _ _ _
    | exact enterWtr_agree _ _
    | exact (setCircuit_agree s _ _).trans (changeSelector_agree _ _ _ _)

theorem pselCircuit_agree (l : List (Fin 48)) (s : State) (c : Fin 24) : Agree selParts s (pselCircuit l s c) := by
  unfold pselCircuit
  repeat' split
  all_goals first
    | exact Agree.refl s
    | exact evaluate_agree _ _ _
    | exact ((setCircuit_agree s _ _).trans (changeSelector_agree _ _ _ _)).trans (evaluate_agree _ _ _)

theorem pselHealth_agree (s : State) (l : List (Fin 48)) : Agree selParts s (s.pselHealth l) :=
  Agree.foldl (fun s c => pselCircuit_agree l s c) _ s

/-! ### RMON -/

theorem partnerAbort_agree (s : State) (c : Fin 24) : Agree [.rmon] s (s.partnerAbort c) := by
  unfold partnerAbort
  repeat' split
  all_goals first
    | exact Agree.refl s
    | exact Agree.rmon s _ (by decide)

theorem applyHealth_agree (s : State) (r : Fin 48) : Agree [.rmon, .ntc] s (s.applyHealth r) := by
  unfold applyHealth
  dsimp only
  split
  · exact ((Agree.rmon s _ (by decide)).trans (Agree.rmon _ _ (by decide))).trans (Agree.ntc _ _ (by decide))
  · exact (Agree.rmon s _ (by decide)).trans (Agree.ntc _ _ (by decide))

theorem handHealth_agree (s : State) (l : List (Fin 48)) : Agree healthParts s (s.handHealth l) := by
  unfold handHealth
  have h : Agree healthParts s s.raced := Agree.race s _ (by decide)
  split
  · exact (h.trans ((xpcHealth_agree _ _).mono (by decide))).trans ((pselHealth_agree _ _).mono (by decide))
  · exact (h.trans ((pselHealth_agree _ _).mono (by decide))).trans ((xpcHealth_agree _ _).mono (by decide))

/-- An RMON event leaves TB, DIR, STL, TCU, LNK and the queue of commands (R34). -/
theorem healthEvent_agree (s : State) (cs : List (Fin 24)) : Agree healthParts s (s.healthEvent cs) := by
  unfold healthEvent
  have a := Agree.foldl (fun s c => (partnerAbort_agree s c).mono (m := healthParts) (by decide)) cs s
  have b (t : State) (l : List (Fin 48)) : Agree healthParts t (l.foldl applyHealth t) :=
    Agree.foldl (fun s r => (applyHealth_agree s r).mono (by decide)) l t
  dsimp only
  split
  · exact a.trans (b _ _)
  · exact (a.trans (b _ _)).trans (handHealth_agree _ _)

theorem worksEdges_agree (s : State) (n : Nat) : Agree healthParts s (s.worksEdges n) := by
  unfold worksEdges healthEventAll
  refine Agree.trans ?_ (healthEvent_agree _ _)
  exact Agree.rmon s _ (by decide)

/-! ### STL and BKU -/

theorem countRefs_agree (s : State) (b : Booking) (f : Nat → Nat) : Agree [.dir, .stl] s (s.countRefs b f) :=
  fun p hp => by cases p <;> first | rfl | exact absurd (by decide) hp

theorem raise_agree (s : State) (o : Fin 267) : Agree [.ntc] s (s.raise o) := Agree.ntc s _ (by decide)

theorem withdraw_agree (s : State) (o : Fin 267) : Agree [.ntc] s (s.withdraw o) := Agree.ntc s _ (by decide)

theorem setPlace_agree (s : State) (i : Fin 192) (p : Option Place) : Agree [.bku] s (s.setPlace i p) :=
  Agree.bku s _ (by decide)

theorem onXPort_agree (s : State) (p : Fin 32) (f : XPort → XPort) : Agree [.xpc] s (s.onXPort p f) :=
  Agree.xpc s _ (by decide)

theorem release_agree (s : State) (i : Fin 192) : Agree settleParts s (s.release i) := by
  unfold release
  split
  · exact Agree.refl s
  · refine Agree.next ?_ (setPlace_agree _ _ _) (by decide)
    refine Agree.next ?_ (withdraw_agree _ _) (by decide)
    exact Agree.next (Agree.bku s _ (by decide)) (countRefs_agree _ _ _) (by decide)

theorem settle_agree (s : State) (i : Fin 192) : Agree settleParts s (s.settle i) := by
  unfold settle
  split
  · exact Agree.refl s
  · dsimp only
    split
    · exact Agree.next (Agree.stl s _ (by decide)) (release_agree _ _) (by decide)
    · refine Agree.next ?_ (raise_agree _ _) (by decide)
      refine Agree.next ?_ (setPlace_agree _ _ _) (by decide)
      intro p hp
      cases p <;> first | rfl | exact absurd (by decide) hp

theorem announce_agree (s b : State) : Agree settleParts s (s.announce b) := by
  unfold announce
  split
  · exact Agree.next (Agree.refl s) (raise_agree _ _) (by decide)
  · exact Agree.refl s

theorem settleNow_agree (s : State) (i : Fin 192) : Agree settleParts s (s.settleNow i) :=
  (settle_agree s i).trans (announce_agree _ _)

theorem serveClosing_agree (s : State) : Agree settleParts s s.serveClosing := by
  unfold serveClosing
  split
  · exact Agree.refl s
  · dsimp only
    split
    · refine Agree.next ?_ (release_agree _ _) (by decide)
      exact Agree.next (Agree.stl s _ (by decide)) (raise_agree _ _) (by decide)
    · exact Agree.stl s _ (by decide)

theorem enterState_agree (s : State) (i : Fin 192) (st : BookingState) (why : Reason) :
    Agree [.bku, .ntc] s (s.enterState i st why) :=
  Agree.next (Agree.next (Agree.refl s) (onBooking_agree s i _) (by decide)) (raise_agree _ _) (by decide)

theorem slots_agree (f : SlotRef → XPort → XPort) (l : List (Fin 32 × SlotRef)) (s : State) :
    Agree [.xpc] s (l.foldl (fun acc x => acc.onXPort x.1 (f x.2)) s) :=
  Agree.foldl (fun s x => onXPort_agree s x.1 _) l s

theorem enterStarting_agree (s : State) (i : Fin 192) (why : Reason) : Agree lifeParts s (s.enterStarting i why) := by
  unfold enterStarting
  split
  · exact Agree.refl s
  · dsimp only
    refine Agree.next ?_ (slots_agree (fun ref x => x.startConnect ref) _ _) (by decide)
    refine Agree.next ?_ (enterState_agree _ _ _ _) (by decide)
    exact Agree.next (Agree.refl s) (onBooking_agree s i _) (by decide)

theorem trigger_agree (s : State) (i : Fin 192) (why : Reason) : Agree lifeParts s (s.trigger i why) := by
  unfold trigger
  split
  · exact Agree.refl s
  · split
    · exact enterStarting_agree _ _ _
    · exact Agree.next (Agree.refl s) (enterState_agree _ _ _ _) (by decide)

theorem waitingTest_agree (s : State) (i : Fin 192) : Agree lifeParts s (s.waitingTest i) := by
  unfold waitingTest
  split
  · exact Agree.refl s
  · split
    · split
      · exact enterStarting_agree _ _ _
      · split
        · exact Agree.refl s
        · exact Agree.next (Agree.refl s) (enterState_agree _ _ _ _) (by decide)
    · exact Agree.refl s

theorem waitingTests_agree (s : State) : Agree lifeParts s s.waitingTests :=
  Agree.foldl (fun s i => waitingTest_agree s i) _ s

theorem cueOffer_agree (s : State) (l : Fin 4) (d : Edge) : Agree lifeParts s (s.cueOffer l d) := by
  refine Agree.foldl (fun s i => ?_) _ s
  split
  · exact Agree.refl s
  · split
    · exact (Agree.bku s _ (by decide)).trans (trigger_agree _ _ _)
    · exact Agree.refl s

theorem enterEnding_agree (s : State) (i : Fin 192) (why : Reason) : Agree lifeParts s (s.enterEnding i why) := by
  unfold enterEnding
  split
  · exact Agree.refl s
  · dsimp only
    refine Agree.next ?_ (slots_agree (fun ref x => x.disconnect ref) _ _) (by decide)
    refine Agree.next ?_ (onMeter_agree _ i _) (by decide)
    refine Agree.next ?_ (enterState_agree _ _ _ _) (by decide)
    exact Agree.next (Agree.refl s) (onBooking_agree s i _) (by decide)

theorem grantRunOn_agree (s : State) (i : Fin 192) (b : Booking) (x : Nat) :
    Agree lifeParts s (s.grantRunOn i b x) := by
  have h (f : Booking → Booking) : Agree lifeParts s ((s.onBooking i f).enterState i .runOn .extended) :=
    Agree.next (Agree.next (Agree.refl s) (onBooking_agree s i _) (by decide)) (enterState_agree _ _ _ _) (by decide)
  unfold grantRunOn
  dsimp only
  split
  · refine Agree.next ?_ (onMeter_agree _ i _) (by decide)
    exact (h _).trans (Agree.bku _ _ (by decide))
  · exact (h _).trans (Agree.bku _ _ (by decide))

theorem attemptRunOn_agree (s : State) (i : Fin 192) (b : Booking) : Agree lifeParts s (s.attemptRunOn i b) := by
  unfold attemptRunOn
  dsimp only
  split
  · exact grantRunOn_agree _ _ _ _
  · exact enterEnding_agree _ _ _

theorem noShow_agree (s : State) (i : Fin 192) : Agree lifeParts s (s.noShow i) :=
  Agree.next (Agree.next (Agree.refl s) (onBooking_agree s i _) (by decide)) (settleNow_agree _ _) (by decide)

theorem takeArm_agree (s : State) (i : Fin 192) : Agree lifeParts s (s.takeArm i) := by
  unfold takeArm
  split
  · exact Agree.next (Agree.refl s) (enterState_agree _ _ _ _) (by decide)
  · exact Agree.refl s

theorem takeStart_agree (s : State) (i : Fin 192) : Agree lifeParts s (s.takeStart i) := by
  unfold takeStart
  split
  · exact Agree.refl s
  · split
    · exact trigger_agree _ _ _
    · exact Agree.refl s

theorem takeEnd_agree (s : State) (i : Fin 192) : Agree lifeParts s (s.takeEnd i) := by
  unfold takeEnd
  split
  · exact Agree.refl s
  · split
    · exact attemptRunOn_agree _ _ _
    · exact attemptRunOn_agree _ _ _
    · exact enterEnding_agree _ _ _
    · exact noShow_agree _ _
    · exact noShow_agree _ _
    · exact Agree.refl s
    · exact Agree.refl s
    · exact Agree.refl s

/-- Taking an entry leaves TB, RMON, PSEL, TCU, LNK and the queue of commands (R81). -/
theorem takeEntry_agree (s : State) (e : TimeEntry) : Agree lifeParts s (s.takeEntry e) := by
  have h := Agree.bku (l := lifeParts) s { s.bku with timeList := s.bku.timeList.filter (· != e) } (by decide)
  unfold takeEntry
  dsimp only
  split
  · exact h.trans (takeArm_agree _ _)
  · exact h.trans (takeStart_agree _ _)
  · exact h.trans (takeEnd_agree _ _)

theorem takeDueEntries_agree (n : Nat) (s : State) : Agree lifeParts s (takeDueEntries n s) := by
  induction n generalizing s with
  | zero => exact Agree.refl s
  | succ n ih =>
    unfold takeDueEntries
    split
    · exact (takeEntry_agree _ _).trans (ih _)
    · exact Agree.refl s

theorem enterLive_agree (s : State) (i : Fin 192) : Agree lifeParts s (s.enterLive i) := by
  unfold enterLive
  split
  · exact Agree.refl s
  · refine Agree.next ?_ (onMeter_agree _ i _) (by decide)
    refine Agree.next ?_ (enterState_agree _ _ _ _) (by decide)
    exact Agree.next (Agree.refl s) (onBooking_agree s i _) (by decide)

theorem disconnected_agree (s : State) (i : Fin 192) : Agree lifeParts s (s.disconnected i) := by
  unfold disconnected
  split
  · exact Agree.refl s
  · exact Agree.next (Agree.bku s _ (by decide)) (settle_agree _ _) (by decide)

theorem completeRecord_agree (l : List Rider) (s : State) (i : Fin 192) :
    Agree lifeParts s (completeRecord l s i) := by
  unfold completeRecord
  split
  · exact disconnected_agree _ _
  · split
    · exact enterLive_agree _ _
    · exact Agree.refl s

/-- BKU at a take completion leaves TB, RMON, PSEL, TCU, LNK and the queue of commands (R131). -/
theorem bkuCompletion_agree (s : State) (l : List Rider) : Agree lifeParts s (s.bkuCompletion l) :=
  Agree.next (Agree.foldl (fun s i => completeRecord_agree l s i) _ s) (announce_agree _ _) (by decide)

/-! ### XPC -/

theorem completeTake_agree (s : State) (n : Nat) : Agree lifeParts s (s.completeTake n) :=
  (Agree.xpc s _ (by decide)).trans (bkuCompletion_agree _ _)

theorem startTake_agree (s : State) (ps : List (Fin 32)) : Agree lifeParts s (s.startTake ps) := by
  have a := Agree.next (l := lifeParts) (Agree.refl s)
    (Agree.foldl (fun s p => onXPort_agree s p XPort.include) ps s) (by decide)
  have b (t : State) (x : XPC) : Agree lifeParts t (State.recomputeFlags { t with xpc := x } ps) :=
    Agree.next (Agree.xpc t _ (by decide)) (recomputeFlags_agree _ _) (by decide)
  unfold startTake
  dsimp only
  split
  · exact (a.trans (b _ _)).trans (completeTake_agree _ _)
  · exact (a.trans (b _ _)).trans (Agree.xpc _ _ (by decide))

theorem xpcMarker_agree (s : State) : Agree lifeParts s s.xpcMarker := by
  unfold xpcMarker
  split
  · exact Agree.refl s
  · exact startTake_agree _ _

theorem acceptConfirm_agree (s : State) (o : Order) : Agree lifeParts s (s.acceptConfirm o) := by
  have a (f : XPort → XPort) : Agree lifeParts s (s.onXPort o.port f) :=
    Agree.next (Agree.refl s) (onXPort_agree s _ f) (by decide)
  have b (t : State) (x : XPC) : Agree lifeParts t (State.recomputeFlags { t with xpc := x } [o.port]) :=
    Agree.next (Agree.xpc t _ (by decide)) (recomputeFlags_agree _ _) (by decide)
  have c (t : State) : Agree lifeParts t (t.raise takeObject) := Agree.ntc t _ (by decide)
  unfold acceptConfirm
  dsimp only
  split
  · refine Agree.trans ?_ (completeTake_agree _ _)
    split
    · exact ((a _).trans (b _ _)).trans (c _)
    · exact (a _).trans (b _ _)
  · split
    · exact ((a _).trans (b _ _)).trans (c _)
    · exact (a _).trans (b _ _)

theorem takeConfirm_agree (s : State) (o : Order) : Agree lifeParts s (s.takeConfirm o) := by
  unfold takeConfirm
  split
  · exact acceptConfirm_agree _ _
  · exact Agree.refl s

theorem suspectEvent_agree (s : State) (p : Fin 32) : Agree [.bku] s (s.suspectEvent p) := by
  unfold suspectEvent
  split
  · exact onPlace_agree s _ _
  · exact Agree.refl s
  · exact Agree.refl s

theorem confirmExpire_agree (s : State) : Agree lifeParts s s.confirmExpire := by
  unfold confirmExpire
  refine Agree.trans ?_ (completeTake_agree _ _)
  refine Agree.next ?_ (raise_agree _ _) (by decide)
  refine Agree.next ?_ (recomputeFlags_agree _ _) (by decide)
  refine Agree.next ?_ (Agree.foldl (fun s p => suspectEvent_agree s p) _ _) (by decide)
  refine Agree.trans ?_ (Agree.xpc _ _ (by decide))
  exact Agree.next (Agree.refl s) (Agree.foldl (fun s p => onXPort_agree s p _) _ s) (by decide)

/-! ### TB -/

theorem rmonMarker_agree (s : State) : Agree healthParts s s.rmonMarker := by
  unfold rmonMarker
  exact (Agree.rmon s _ (by decide)).trans (healthEvent_agree _ _)

theorem handSelections_agree (before after s : State) : Agree flagParts s (handSelections before after s) := by
  refine Agree.foldl (fun s c => ?_) _ s
  split
  · split
    · exact Agree.refl s
    · exact handSelection_agree _ _ _ _
  · exact Agree.refl s

theorem splitMarker_agree {others : List (State → State)} (h : ∀ f ∈ others, ∀ u, Agree markerParts u (f u))
    (s : State) : Agree markerParts s (s.splitMarker others) := by
  have m : Agree markerParts s { s.rmonMarker with xpc := s.xpc, bku := s.bku } := fun p hp => by
    have k := rmonMarker_agree s p fun q => hp ((by decide : healthParts ⊆ markerParts) q)
    cases p <;> first | exact k | exact absurd (by decide) hp
  unfold splitMarker
  refine m.trans (inAnyOrder_agree (l := markerParts) (by decide) ?_ _)
  intro f hf u
  rcases List.mem_cons.1 hf with rfl | hf
  · exact (xpcHealth_agree u _).mono (by decide)
  rcases List.mem_cons.1 hf with rfl | hf
  · exact (handSelections_agree _ _ u).mono (by decide)
  exact h f hf u

theorem allReaders_agree (s : State) : Agree markerParts s s.allReaders := by
  have r (u : State) : Agree markerParts u u.raced := Agree.race u _ (by decide)
  have w (u : State) : Agree markerParts u u.waitingTests := (waitingTests_agree u).mono (by decide)
  have x (u : State) : Agree markerParts u u.xpcMarker := (xpcMarker_agree u).mono (by decide)
  have m (u : State) : Agree markerParts u u.rmonMarker := (rmonMarker_agree u).mono (by decide)
  unfold allReaders
  split
  · exact (r s).trans (inAnyOrder_agree (l := markerParts) (by decide) (by simpa using ⟨m, w, x⟩) _)
  · dsimp only
    split
    · exact ((r s).trans (r _)).trans (splitMarker_agree (by simpa using ⟨w, x⟩) _)
    · exact (((r s).trans (r _)).trans (w _)).trans (splitMarker_agree (by simpa using x) _)

/-- A marker leaves LNK and the queue of commands (R13). -/
theorem marker_agree (s : State) : Agree markerParts s s.marker := by
  unfold marker
  refine Agree.trans ?_ (allReaders_agree _)
  exact fun p hp => by cases p <;> first | rfl | exact absurd (by decide) hp

theorem frameInstant_agree (s : State) : Agree markerParts s s.frameInstant := by
  unfold frameInstant
  dsimp only
  split
  · exact Agree.tb s _ (by decide)
  · exact (Agree.tb s _ (by decide)).trans (marker_agree _)

theorem loseReference_agree (s : State) : Agree markerParts s s.loseReference := by
  unfold loseReference
  refine Agree.trans ?_ (marker_agree _)
  exact Agree.next (Agree.tb s _ (by decide)) (raise_agree _ _) (by decide)

theorem tbUpTo_agree (s : State) (t : Nat) : Agree markerParts s (s.tbUpTo t) := by
  have a (u : State) (c : Prop) [Decidable c] : Agree markerParts u (if c then u.frameInstant else u) := by
    split
    · exact frameInstant_agree u
    · exact Agree.refl u
  have b (u : State) (c : Prop) [Decidable c] : Agree markerParts u (if c then u.loseReference else u) := by
    split
    · exact loseReference_agree u
    · exact Agree.refl u
  unfold tbUpTo
  exact ((a _ _).trans (b _ _)).trans (a _ _)

/-- A pulse leaves LNK and the queue of commands (R10, R11). -/
theorem pulseAt_agree (s : State) (t : Nat) : Agree markerParts s (s.pulseAt t) := by
  unfold pulseAt
  split
  · exact Agree.tb s _ (by decide)
  · unfold lockedPulse
    split
    · exact (Agree.tb s _ (by decide)).trans (marker_agree _)
    · exact Agree.tb s _ (by decide)
  all_goals
    have h (x : TB) : Agree markerParts s (State.raise { s with tb := x } referenceObject) :=
      Agree.next (Agree.tb s x (by decide)) (raise_agree _ _) (by decide)
    unfold scoredPulse
    generalize (if s.goodInterval t = true then s.tb.qual + 1 else 0) = q
    dsimp only
    split
    · split
      · exact (h _).trans (marker_agree _)
      · exact h _
    · exact Agree.tb s _ (by decide)

theorem handBoundary_agree (s : State) : Agree [.tb, .rmon] s s.handBoundary := by
  unfold handBoundary
  split
  · exact fun p hp => by cases p <;> first | rfl | exact absurd (by decide) hp
  · exact Agree.refl s

theorem takeWorksEdge_agree (s : State) : Agree healthParts s s.takeWorksEdge := by
  unfold takeWorksEdge
  split
  · exact (Agree.rmon s _ (by decide)).trans (worksEdges_agree _ _)
  · exact Agree.refl s

/-- What was due at the present second leaves TCU, LNK and the queue of commands (R2). -/
theorem takeSecond_agree (s : State) : Agree stepParts s s.takeSecond := by
  unfold takeSecond
  refine Agree.next ?_ (takeDueEntries_agree _ _) (by decide)
  exact Agree.next (Agree.next (Agree.refl s) (handBoundary_agree s) (by decide)) (takeWorksEdge_agree _) (by decide)

theorem flagStepped_agree (s : State) : Agree [.bku] s s.flagStepped := Agree.bku s _ (by decide)

theorem replayEntry_agree (s : State) (e : TimeEntry) : Agree lifeParts s (s.replayEntry e) := by
  unfold replayEntry
  dsimp only
  split
  · exact Agree.next (takeEntry_agree s e) (onBooking_agree _ _ _) (by decide)
  · exact takeEntry_agree s e

theorem replayEntries_agree (t n : Nat) (s : State) : Agree lifeParts s (replayEntries t n s) := by
  induction n generalizing s with
  | zero => exact Agree.refl s
  | succ n ih =>
    unfold replayEntries
    split
    · split
      · exact (replayEntry_agree _ _).trans (ih _)
      · exact Agree.refl s
    · exact Agree.refl s

theorem replaySecond_agree (s : State) (t : Nat) : Agree stepParts s (s.replaySecond t) := by
  unfold replaySecond
  have h : Agree stepParts s s.raced := Agree.race s _ (by decide)
  dsimp only
  split
  · exact Agree.next (Agree.next h (worksEdges_agree _ _) (by decide)) (replayEntries_agree _ _ _) (by decide)
  · exact Agree.next (Agree.next h (replayEntries_agree _ _ _) (by decide)) (worksEdges_agree _ _) (by decide)

theorem replay_agree (hi n lo : Nat) (s : State) : Agree stepParts s (replay hi n lo s) := by
  induction n generalizing lo s with
  | zero => exact Agree.refl s
  | succ n ih =>
    unfold replay
    split
    · exact (replaySecond_agree _ _).trans (ih _ _)
    · exact Agree.refl s

/-- A forward step leaves TCU, LNK and the queue of commands (R5, R7). -/
theorem stepForward_agree (s : State) (n : Nat) : Agree stepParts s (s.stepForward n) := by
  unfold stepForward
  refine Agree.trans ?_ (replay_agree _ _ _ _)
  exact Agree.next (Agree.tb s _ (by decide)) (flagStepped_agree _) (by decide)

/-- A backward step leaves TCU, LNK and the queue of commands (R6, R7, R29). -/
theorem stepBack_agree (s : State) (n : Nat) : Agree stepParts s (s.stepBack n) := by
  unfold stepBack healthEventAll
  refine Agree.next ?_ (healthEvent_agree _ _) (by decide)
  refine Agree.trans ?_ (Agree.rmon _ _ (by decide))
  refine Agree.next ?_ (flagStepped_agree _) (by decide)
  exact fun p hp => by cases p <;> first | rfl | exact absurd (by decide) hp

/-! ### The transmitter -/

theorem noticeSent_agree (s : State) (o : Fin 267) : Agree [.rmon, .xpc] s (s.noticeSent o) := by
  unfold noticeSent
  split
  · exact Agree.rmon s _ (by decide)
  · split
    · exact Agree.xpc s _ (by decide)
    · exact Agree.refl s

theorem sendNotice_agree (s : State) : Agree sendParts s s.sendNotice := by
  unfold sendNotice
  split
  · exact Agree.refl s
  · refine Agree.trans ?_ (Agree.lnk _ _ (by decide))
    exact Agree.next (Agree.ntc s _ (by decide)) (noticeSent_agree _ _) (by decide)

theorem sendReply_agree (s : State) : Agree [.lnk] s s.sendReply := by
  unfold sendReply
  split
  · exact Agree.refl s
  · exact Agree.lnk s _ (by decide)

theorem choose_agree (s : State) : Agree sendParts s s.choose := by
  unfold choose
  split
  · exact Agree.lnk s _ (by decide)
  · split
    · exact sendNotice_agree s
    · exact Agree.next (Agree.refl s) (sendReply_agree s) (by decide)

theorem becomesFree_agree (s : State) : Agree sendParts s s.becomesFree := by
  unfold becomesFree
  split
  · exact Agree.refl s
  · exact choose_agree s

/-- The transmitter leaves TB, PSEL, DIR, BKU, STL, TCU and the queue of commands (R179). -/
theorem transmit_agree (s : State) : Agree sendParts s s.transmit := by
  have h : Agree sendParts s s.raced := Agree.race s _ (by decide)
  unfold transmit
  split
  · exact Agree.refl s
  · split
    · split
      · exact Agree.next h (sendReply_agree _) (by decide)
      · exact h.trans (sendNotice_agree _)
    · exact choose_agree s

end State

end Sys2Proof.Machine
end

