-- ==== Sys2Proof/Laws/Link.lean ====
section
/-! SUPPORT. What the request queue does with an arrival (R189, R190): service leaves LNK alone, and a request that arrives
while the queue is ready is queued, served and answered. -/

namespace Sys2Proof.Machine

namespace State

/-! ### Service leaves LNK and the queue of commands -/

/-- LNK and the queue of commands are the same in two states. -/
def SameLink (s t : State) : Prop := t.lnk = s.lnk ∧ t.pending = s.pending

theorem SameLink.refl (s : State) : SameLink s s := ⟨rfl, rfl⟩

theorem SameLink.of_agree {l : List Part} {s t : State} (h : Agree l s t) (hl : Part.lnk ∉ l) (hp : Part.pending ∉ l) :
    SameLink s t := ⟨h .lnk hl, h .pending hp⟩

theorem serveTime_link (s : State) (second : Word) : SameLink s (s.serveSetTime second).1 := by
  unfold serveSetTime
  dsimp only
  split
  · exact ⟨rfl, rfl⟩
  · have h := SameLink.of_agree (takeSecond_agree s) (by decide) (by decide)
    split
    · exact h
    · split
      · have k := SameLink.of_agree (stepForward_agree s.takeSecond second.toNat) (by decide) (by decide)
        exact ⟨k.1.trans h.1, k.2.trans h.2⟩
      · have k := SameLink.of_agree (stepBack_agree s.takeSecond second.toNat) (by decide) (by decide)
        exact ⟨k.1.trans h.1, k.2.trans h.2⟩

theorem serveSetReference_link (s : State) (source rate : Byte) (frameMax : Half) :
    SameLink s (s.serveSetReference source rate frameMax).1 := by
  unfold serveSetReference
  split
  · dsimp only
    split
    · exact ⟨rfl, rfl⟩
    · simp [SameLink]
  · exact ⟨rfl, rfl⟩

/-- An RMON event after an update of RMON leaves LNK. -/
theorem healthEvent_link {s u : State} (h : SameLink s u) (cs : List (Fin 24)) : SameLink s (u.healthEvent cs) := by
  have k := SameLink.of_agree (healthEvent_agree u cs) (by decide) (by decide)
  exact ⟨k.1.trans h.1, k.2.trans h.2⟩

theorem serveSetRoute_link (s : State) (route : Byte) (fh ch dt ct : Half) :
    SameLink s (s.serveSetRoute route fh ch dt ct).1 := by
  unfold serveSetRoute
  split
  · exact ⟨rfl, rfl⟩
  · split
    · exact ⟨rfl, rfl⟩
    · dsimp only
      split
      · exact healthEvent_link (u := State.onRoute ..) ⟨rfl, rfl⟩ _
      · exact ⟨rfl, rfl⟩

theorem serveSetWorks_link (s : State) (route : Byte) (start stop : Word) (force : Byte) :
    SameLink s (s.serveSetWorks route start stop force).1 := by
  unfold serveSetWorks
  split
  · dsimp only
    split
    · exact ⟨rfl, rfl⟩
    · exact healthEvent_link (u := State.onRoute ..) ⟨rfl, rfl⟩ _
  · exact ⟨rfl, rfl⟩

theorem serveReadHealth_link (s : State) (route : Byte) : SameLink s (s.serveReadHealth route).1 := by
  unfold serveReadHealth; split <;> exact ⟨rfl, rfl⟩

theorem serveDrill_link (s : State) (route : Byte) (delay duration : Half) :
    SameLink s (s.serveDrill route delay duration).1 := by
  unfold serveDrill; (repeat' split) <;> exact ⟨rfl, rfl⟩

theorem serveDrillAbort_link (s : State) (route : Byte) : SameLink s (s.serveDrillAbort route).1 := by
  unfold serveDrillAbort
  split
  · exact ⟨rfl, rfl⟩
  · dsimp only
    split
    · split
      · dsimp only
        split
        · exact healthEvent_link (u := State.setDrill ..) ⟨rfl, rfl⟩ _
        · exact ⟨rfl, rfl⟩
      · exact ⟨rfl, rfl⟩
    · exact ⟨rfl, rfl⟩

theorem evaluate_link {s u : State} (h : SameLink s u) (c : Fin 24) (why : CircuitReason) :
    SameLink s (u.evaluate c why) := by
  have k := SameLink.of_agree (evaluate_agree u c why) (by decide) (by decide)
  exact ⟨k.1.trans h.1, k.2.trans h.2⟩

theorem changeSelector_link {s u : State} (h : SameLink s u) (c : Fin 24) (st : SelState) (why : CircuitReason) :
    SameLink s (u.changeSelector c st why) := by
  have k := SameLink.of_agree (changeSelector_agree u c st why) (by decide) (by decide)
  exact ⟨k.1.trans h.1, k.2.trans h.2⟩

theorem applyOptions_link {s u : State} (h : SameLink s u) (c : Fin 24) (old : Circuit) :
    SameLink s (u.applyOptions c old) := by
  have k : SameLink s (if old.revertive ∧ !(u.circuit c).revertive ∧ (u.circuit c).selector = some .wtr then
      (u.setCircuit c { u.circuit c with wtr := none }).changeSelector c .selB .auto else u) := by
    split
    · exact changeSelector_link (u := State.setCircuit ..) h _ _ _
    · exact h
  unfold applyOptions
  dsimp only
  split
  · exact evaluate_link k _ _
  · exact k

theorem serveSetCircuit_link (s : State) (circuit mode rev deg : Byte) (guard wtr : Half) :
    SameLink s (s.serveSetCircuit circuit mode rev deg guard wtr).1 := by
  unfold serveSetCircuit
  split
  · dsimp only
    split
    · exact ⟨rfl, rfl⟩
    · split
      · exact ⟨rfl, rfl⟩
      · dsimp only
        split
        · exact ⟨rfl, rfl⟩
        · exact evaluate_link (u := State.setCircuit ..) ⟨rfl, rfl⟩ _ _
        · exact applyOptions_link (u := State.setCircuit ..) ⟨rfl, rfl⟩ _ _
        · exact ⟨rfl, rfl⟩
  · exact ⟨rfl, rfl⟩

theorem serveForce_link (s : State) (circuit target : Byte) : SameLink s (s.serveForce circuit target).1 := by
  unfold serveForce
  split
  · split
    · exact ⟨rfl, rfl⟩
    · exact ⟨rfl, rfl⟩
    · split
      · exact ⟨rfl, rfl⟩
      · dsimp only
        split
        · exact ⟨rfl, rfl⟩
        · exact changeSelector_link (u := State.stopTimers ..) ⟨rfl, rfl⟩ _ _ _
  · exact ⟨rfl, rfl⟩

theorem serveLockout_link (s : State) (circuit : Byte) : SameLink s (s.serveLockout circuit).1 := by
  unfold serveLockout
  split
  · exact ⟨rfl, rfl⟩
  · split
    · exact ⟨rfl, rfl⟩
    · dsimp only
      split
      · exact ⟨rfl, rfl⟩
      · exact changeSelector_link (u := State.stopTimers ..) ⟨rfl, rfl⟩ _ _ _

theorem serveClear_link (s : State) (circuit : Byte) : SameLink s (s.serveClear circuit).1 := by
  unfold serveClear
  split
  · exact ⟨rfl, rfl⟩
  · split
    · exact ⟨rfl, rfl⟩
    · split
      · exact ⟨rfl, rfl⟩
      · exact evaluate_link (changeSelector_link (u := State.stopTimers ..) ⟨rfl, rfl⟩ _ _ _) _ _

theorem settleNow_link {s u : State} (h : SameLink s u) (i : Fin 192) : SameLink s (u.settleNow i) := by
  have k := SameLink.of_agree (settleNow_agree u i) (by decide) (by decide)
  exact ⟨k.1.trans h.1, k.2.trans h.2⟩

theorem onBooking_link {s u : State} (h : SameLink s u) (i : Fin 192) (f : Booking → Booking) :
    SameLink s (u.onBooking i f) := by
  have k := SameLink.of_agree (onBooking_agree u i f) (by decide) (by decide)
  exact ⟨k.1.trans h.1, k.2.trans h.2⟩

theorem serveAmend_link (s : State) (id : Half) (e : Word) : SameLink s (s.serveAmend id e).1 := by
  unfold serveAmend
  dsimp only
  (repeat' split) <;> first | exact ⟨rfl, rfl⟩ | exact onBooking_link (SameLink.refl s) _ _

theorem serveCancel_link (s : State) (id : Half) : SameLink s (s.serveCancel id).1 := by
  unfold serveCancel
  split
  · exact ⟨rfl, rfl⟩
  · split
    · exact ⟨rfl, rfl⟩
    · split
      · exact ⟨rfl, rfl⟩
      · exact settleNow_link (onBooking_link ⟨rfl, rfl⟩ _ _) _

theorem serveEnd_link (s : State) (id : Half) : SameLink s (s.serveEnd id).1 := by
  unfold serveEnd
  split
  · exact ⟨rfl, rfl⟩
  · split
    · exact ⟨rfl, rfl⟩
    · split
      · exact ⟨rfl, rfl⟩
      · have k := SameLink.of_agree (enterEnding_agree { s with bku := s.bku.dropEntry ‹_› .stop } ‹_› .endedEarly)
          (by decide) (by decide)
        exact ⟨k.1, k.2⟩

theorem swapSlot_link (s : State) (i : Fin 192) (b : Booking) (slot : Nat) (feed : Fin 48) :
    SameLink s (s.swapSlot i b slot feed) := by
  have h (f : Booking → Booking) (g : MeterSet → MeterSet) : Agree flagParts s ((s.onBooking i f).onMeter i g) :=
    Agree.next (Agree.next (Agree.refl s) (onBooking_agree s i f) (by decide)) (onMeter_agree _ i g) (by decide)
  unfold swapSlot
  dsimp only
  split
  · exact SameLink.of_agree (h _ _) (by decide) (by decide)
  · split
    · exact SameLink.of_agree (((h _ _).next (onXPort_agree _ _ _) (by decide)).trans (recomputeFlags_agree _ _))
        (by decide) (by decide)
    · exact SameLink.of_agree ((h _ _).next (onXPort_agree _ _ _) (by decide)) (by decide) (by decide)

theorem serveSwap_link (s : State) (id : Half) (slot feed : Byte) : SameLink s (s.serveSwap id slot feed).1 := by
  unfold serveSwap
  dsimp only
  (repeat' split) <;> first | exact ⟨rfl, rfl⟩ | exact swapSlot_link ..

theorem serveClosing_link {s u : State} (h : SameLink s u) : SameLink s u.serveClosing := by
  have k := SameLink.of_agree (serveClosing_agree u) (by decide) (by decide)
  exact ⟨k.1.trans h.1, k.2.trans h.2⟩

theorem serveSettleRelease_link (s : State) (id : Half) : SameLink s (s.serveSettleRelease id).1 := by
  unfold serveSettleRelease
  split
  · exact serveClosing_link ⟨rfl, rfl⟩
  · exact ⟨rfl, rfl⟩

/-- The service of any request but RESET leaves LNK and the queue of commands (R190). -/
theorem serveBody_link (s : State) (r : Request) (h : ∀ scope, r ≠ .reset scope) : SameLink s (s.serveBody r).1 := by
  cases r
  case reset scope => exact absurd rfl (h scope)
  case setTime => exact serveTime_link ..
  case setReference => exact serveSetReference_link ..
  case setRoute => exact serveSetRoute_link ..
  case setWorks => exact serveSetWorks_link ..
  case readHealth => exact serveReadHealth_link ..
  case drill => exact serveDrill_link ..
  case drillAbort => exact serveDrillAbort_link ..
  case setCircuit => exact serveSetCircuit_link ..
  case force => exact serveForce_link ..
  case lockout => exact serveLockout_link ..
  case clear => exact serveClear_link ..
  case amend => exact serveAmend_link ..
  case cancel => exact serveCancel_link ..
  case endBooking => exact serveEnd_link ..
  case swap => exact serveSwap_link ..
  case settleRelease => exact serveSettleRelease_link ..
  all_goals
    simp only [serveBody, serveIdent, serveStatus, serveReadTime, serveReadCircuit, serveSetPort, serveSetHandoff,
      serveSetAccount, serveDeleteEntry, deleteAccount, deleteHandoff, deleteTariff, serveSetMargin, serveBook,
      serveReadBooking, serveListPort, servePatch, serveUnpatch, serveReadPort, serveSetConfirm, serveReadMeter,
      serveSetTariff, serveSettlePeek, serveReadAccount, serveClearAccount, serveSetNotices, serveSetTally, serveSetCue]
    (repeat' split) <;> exact ⟨rfl, rfl⟩

/-! ### A queued request changes nothing but LNK -/

@[simp] theorem enqueue_route (s : State) (tag : Byte) (r : Request) (k : Fin 48) :
    (s.enqueue tag r).route k = s.route k := rfl
@[simp] theorem enqueue_health (s : State) (tag : Byte) (r : Request) (k : Fin 48) :
    (s.enqueue tag r).health k = s.health k := rfl
@[simp] theorem enqueue_healthNow (s : State) (tag : Byte) (r : Request) (k : Fin 48) :
    (s.enqueue tag r).healthNow k = s.healthNow k := rfl
@[simp] theorem enqueue_drill (s : State) (tag : Byte) (r : Request) (c : Fin 24) :
    (s.enqueue tag r).drill c = s.drill c := rfl
@[simp] theorem enqueue_circuit (s : State) (tag : Byte) (r : Request) (c : Fin 24) :
    (s.enqueue tag r).circuit c = s.circuit c := rfl
@[simp] theorem enqueue_selectedRoute (s : State) (tag : Byte) (r : Request) (c : Fin 24) :
    (s.enqueue tag r).selectedRoute c = s.selectedRoute c := rfl
@[simp] theorem enqueue_carrying (s : State) (tag : Byte) (r : Request) (f : Fin 48) :
    (s.enqueue tag r).carrying f = s.carrying f := rfl
@[simp] theorem enqueue_place (s : State) (tag : Byte) (r : Request) (i : Fin 192) :
    (s.enqueue tag r).place i = s.place i := rfl
@[simp] theorem enqueue_stateAt (s : State) (tag : Byte) (r : Request) (i : Fin 192) :
    (s.enqueue tag r).stateAt i = s.stateAt i := rfl
@[simp] theorem enqueue_findRecord (s : State) (tag : Byte) (r : Request) (id : Half) :
    (s.enqueue tag r).findRecord id = s.findRecord id := rfl
@[simp] theorem enqueue_xport (s : State) (tag : Byte) (r : Request) (p : Fin 32) :
    (s.enqueue tag r).xport p = s.xport p := rfl
@[simp] theorem enqueue_timeline (s : State) (tag : Byte) (r : Request) (p : Fin 32) :
    (s.enqueue tag r).timeline p = s.timeline p := rfl
@[simp] theorem enqueue_portRefs (s : State) (tag : Byte) (r : Request) (p : Fin 32) :
    (s.enqueue tag r).portRefs p = s.portRefs p := rfl
@[simp] theorem enqueue_recordsWhere (s : State) (tag : Byte) (r : Request) (f : Booking → Bool) :
    (s.enqueue tag r).recordsWhere f = s.recordsWhere f := rfl
@[simp] theorem enqueue_terms (s : State) (tag : Byte) (r : Request) (b : Booking) :
    (s.enqueue tag r).terms b = s.terms b := rfl

/-! ### An arrival that is served at once -/

/-- Marking the first unserved request of a queue that was all served marks the one just queued. -/
theorem markServed_append {l : List Queued} (h : ∀ q ∈ l, q.served = true) (q : Queued) (hq : q.served = false) :
    markServed (l ++ [q]) = l ++ [{ q with served := true }] := by
  induction l with
  | nil => simp [markServed, hq]
  | cons x xs ih =>
    have hx := h x (by simp)
    have hxs := ih fun y hy => h y (by simp [hy])
    simp [markServed, hx, hxs]

theorem find_unserved {l : List Queued} (h : ∀ q ∈ l, q.served = true) : l.find? (fun q => !q.served) = none := by
  simpa using h

/-- Nothing is served where every request is served. -/
theorem serveUpTo_done (n : Nat) (s : State) (h : ∀ q ∈ s.lnk.queue, q.served = true) : serveUpTo n s = s := by
  cases n with
  | zero => rfl
  | succ n => simp [serveUpTo, find_unserved h]

/-- What an arrival does while the queue is ready, for any request but RESET (R189, R190, R191). -/
theorem arrive_ready (s : State) (tag : Byte) (r : Request) (hs : s.Ready) (h : ∀ scope, r ≠ .reset scope) :
    s.arrive tag r =
      { ((s.enqueue tag r).serveBody r).1 with
        lnk := s.lnk.answered tag r ((s.enqueue tag r).serveBody r).2 } := by
  obtain ⟨hroom, hhold, hserved⟩ := hs
  have key : serveUpTo (s.lnk.queue.length + 1) (s.enqueue tag r) =
      serveUpTo s.lnk.queue.length ((s.enqueue tag r).serveOne ⟨tag, r, false⟩) := by
    have hf : (s.lnk.queue ++ [(⟨tag, r, false⟩ : Queued)]).find? (fun q => !q.served) = some ⟨tag, r, false⟩ := by
      rw [List.find?_append, find_unserved hserved]; rfl
    simp [serveUpTo, enqueue, hhold, hf]
  have hlink := serveBody_link (s.enqueue tag r) r h
  have hone : (s.enqueue tag r).serveOne ⟨tag, r, false⟩ =
      { ((s.enqueue tag r).serveBody r).1 with
        lnk := s.lnk.answered tag r ((s.enqueue tag r).serveBody r).2 } := by
    simp only [serveOne, reply, endsOf, hlink.1]
    simp [enqueue, hhold, LNK.answered, replyTo, markServed_append hserved]
  unfold arrive
  rw [if_pos hroom]
  unfold serveQueue
  rw [show (s.enqueue tag r).lnk.queue.length = s.lnk.queue.length + 1 by simp [enqueue], key, hone]
  refine serveUpTo_done _ _ ?_
  simp only [LNK.answered, List.mem_append, List.mem_singleton]
  rintro q (hq | rfl)
  · exact hserved q hq
  · rfl

end State

/-! ### Request rows -/

/-- A request row is the arrival of its request (R189). -/
theorem exec_request {c : Instr} {tag : Byte} {r : Request} (h : requestOf c = some (tag, r)) (s : State) :
    exec c s = .next (s.arrive tag r).transmit := by
  cases c <;> simp only [requestOf, reduceCtorEq, Option.some.injEq, Prod.mk.injEq] at h <;>
    (obtain ⟨rfl, rfl⟩ := h; rfl)

/-- A request row whose queue is ready is answered as the service of its request gives, for any request but RESET. -/
theorem answered_of_serve {c : Instr} {tag : Byte} {r : Request} (h : requestOf c = some (tag, r)) {s : State}
    (hs : s.Ready) (hr : ∀ scope, r ≠ .reset scope) :
    Answered c s ((s.enqueue tag r).serveBody r).2 ((s.enqueue tag r).serveBody r).1 := by
  refine ⟨tag, r, h, ?_⟩
  rw [Leads, exec_request h, State.arrive_ready s tag r hs hr]

/-- To show how a request is answered: its service hands back that answer, and makes that state outside LNK. -/
theorem Answered.intro {c : Instr} {tag : Byte} {r : Request} (h : requestOf c = some (tag, r)) {s : State}
    (hs : s.Ready) (hr : ∀ scope, r ≠ .reset scope) {a : Answer} {t : State}
    (ha : ((s.enqueue tag r).serveBody r).2 = a)
    (ht : { ((s.enqueue tag r).serveBody r).1 with lnk := s.lnk } = { t with lnk := s.lnk }) : Answered c s a t := by
  obtain ⟨tag', r', h', k⟩ := answered_of_serve h hs hr
  rw [h, Option.some.injEq, Prod.mk.injEq] at h'
  obtain ⟨rfl, rfl⟩ := h'
  refine ⟨tag, r, h, ?_⟩
  rw [ha] at k
  have e (l : LNK) : { ((s.enqueue tag r).serveBody r).1 with lnk := l } = { t with lnk := l } := by
    have := congrArg (fun u : State => { u with lnk := l }) ht
    exact this
  rw [← e]
  exact k

end Sys2Proof.Machine
end

