-- ==== Sys2Proof/Laws/PerInstr.lean ====
section
/-! SUPPORT. A statement about every command as syntax, one lemma for each constructor: a well-formed request row carries a
kind of Table 11-6 and its reply's kind is that plus 0x80, and the reply to any other kind has kind 0x80 (R191). -/

namespace Sys2Proof.Laws.Command

open Sys2Proof.Machine

/-- The kind of the reply to a row's request (R191). -/
def Statement (i : Instr) : Prop :=
  ∀ (tag : Byte) (r : Request), requestOf i = some (tag, r) → i.wellFormed = true →
    isRequestKind r.kind = true ∧ r.replyKind = r.kind + 0x80 ∨
      (∃ kind body, i = .unknownKind tag kind body ∧ isRequestKind kind = false) ∧ r.replyKind = 0x80

/-- A row that brings no request. -/
theorem of_event {i : Instr} (h : requestOf i = none) : Statement i := fun _ _ k => by simp [h] at k

/-- A row whose request has a kind of Table 11-6. -/
theorem of_request {i : Instr} {tag : Byte} {r : Request} (h : requestOf i = some (tag, r))
    (k : isRequestKind r.kind = true) (e : r.replyKind = r.kind + 0x80) : Statement i := fun _ _ h' _ => by
  rw [h] at h'
  cases h'
  exact .inl ⟨k, e⟩

theorem powerOnReset (straps : Fin 4) : Statement (.powerOnReset straps) := of_event rfl
theorem millisecondTick : Statement .millisecondTick := of_event rfl
theorem secondBoundary : Statement .secondBoundary := of_event rfl
theorem internalFrameInstant : Statement .internalFrameInstant := of_event rfl
theorem referencePulse (offset : Nat) : Statement (.referencePulse offset) := of_event rfl
theorem lossLimitExpiry : Statement .lossLimitExpiry := of_event rfl
theorem drillActivation (circuit : Fin 24) : Statement (.drillActivation circuit) := of_event rfl
theorem drillEnd (circuit : Fin 24) : Statement (.drillEnd circuit) := of_event rfl
theorem markerPulseEnd : Statement .markerPulseEnd := of_event rfl
theorem statusWord (group : List Byte) : Statement (.statusWord group) := of_event rfl
theorem cardLoss (card : Fin 6) : Statement (.cardLoss card) := of_event rfl
theorem failTimerExpiry (route : Fin 48) : Statement (.failTimerExpiry route) := of_event rfl
theorem clearTimerExpiry (route : Fin 48) : Statement (.clearTimerExpiry route) := of_event rfl
theorem blockClose : Statement .blockClose := of_event rfl
theorem worksEdge : Statement .worksEdge := of_event rfl
theorem guardExpiry (circuit : Fin 24) : Statement (.guardExpiry circuit) := of_event rfl
theorem wtrExpiry (circuit : Fin 24) : Statement (.wtrExpiry circuit) := of_event rfl
theorem armEntry (record : Fin 192) : Statement (.armEntry record) := of_event rfl
theorem startEntry (record : Fin 192) : Statement (.startEntry record) := of_event rfl
theorem endEntry (record : Fin 192) : Statement (.endEntry record) := of_event rfl
theorem cueInputChange (line : Fin 4) (level : Bool) : Statement (.cueInputChange line level) := of_event rfl
theorem cueEdge (line : Fin 4) : Statement (.cueEdge line) := of_event rfl
theorem confirm (group : List Byte) : Statement (.confirm group) := of_event rfl
theorem confirmTimerExpiry : Statement .confirmTimerExpiry := of_event rfl
theorem gapTimerExpiry : Statement .gapTimerExpiry := of_event rfl
theorem frameReceived : Statement .frameReceived := of_event rfl
theorem unknownKind (tag kind : Byte) (body : List Byte) : Statement (.unknownKind tag kind body) := by
  intro t r h w
  cases h
  have k : requestKind kind [] = none := by
    simp only [Instr.wellFormed, unknownFrame, isRequestKind, Bool.and_eq_true, Bool.not_eq_true'] at w
    simpa using w.1
  have n : requestKind kind body = none := by
    unfold requestKind at k ⊢
    split at k <;> first | rfl | exact absurd k (by simp)
  exact .inr ⟨⟨kind, body, rfl, by simp [isRequestKind, k]⟩, by simp [parseRequest, n, Request.replyKind]⟩
theorem transmitterFree : Statement .transmitterFree := of_event rfl
theorem resetAll : Statement .resetAll := of_event rfl
theorem resetTraffic : Statement .resetTraffic := of_event rfl
theorem ident (tag : Byte) : Statement (.ident tag) := of_request rfl rfl rfl
theorem status (tag : Byte) : Statement (.status tag) := of_request rfl rfl rfl
theorem reset (tag scope : Byte) : Statement (.reset tag scope) := of_request rfl rfl rfl
theorem setTime (tag : Byte) (second : Word) : Statement (.setTime tag second) := of_request rfl rfl rfl
theorem readTime (tag : Byte) : Statement (.readTime tag) := of_request rfl rfl rfl
theorem setReference (tag source rate : Byte) (frameMax : Half) : Statement (.setReference tag source rate frameMax) :=
  of_request rfl rfl rfl
theorem setRoute (tag route : Byte) (failHold clearHold degThr clrThr : Half)
    : Statement (.setRoute tag route failHold clearHold degThr clrThr) :=
  of_request rfl rfl rfl
theorem setWorks (tag route : Byte) (start stop : Word) (force : Byte)
    : Statement (.setWorks tag route start stop force) :=
  of_request rfl rfl rfl
theorem readHealth (tag route : Byte) : Statement (.readHealth tag route) := of_request rfl rfl rfl
theorem drill (tag route : Byte) (delay duration : Half) : Statement (.drill tag route delay duration) :=
  of_request rfl rfl rfl
theorem drillAbort (tag route : Byte) : Statement (.drillAbort tag route) := of_request rfl rfl rfl
theorem setCircuit (tag circuit mode revertive degSwitch : Byte) (guardTime wtrSecs : Half)
    : Statement (.setCircuit tag circuit mode revertive degSwitch guardTime wtrSecs) :=
  of_request rfl rfl rfl
theorem force (tag circuit target : Byte) : Statement (.force tag circuit target) := of_request rfl rfl rfl
theorem lockout (tag circuit : Byte) : Statement (.lockout tag circuit) := of_request rfl rfl rfl
theorem clear (tag circuit : Byte) : Statement (.clear tag circuit) := of_request rfl rfl rfl
theorem readCircuit (tag circuit : Byte) : Statement (.readCircuit tag circuit) := of_request rfl rfl rfl
theorem setPort (tag port setting : Byte) : Statement (.setPort tag port setting) := of_request rfl rfl rfl
theorem setHandoff (tag handoff account count port0 port1 port2 port3 maskPresent : Byte) (mask : Half)
    : Statement (.setHandoff tag handoff account count port0 port1 port2 port3 maskPresent mask) :=
  of_request rfl rfl rfl
theorem setAccount (tag account permitted : Byte) : Statement (.setAccount tag account permitted) :=
  of_request rfl rfl rfl
theorem deleteEntry (tag kind index : Byte) : Statement (.deleteEntry tag kind index) := of_request rfl rfl rfl
theorem setMargin (tag : Byte) (margin : Half) : Statement (.setMargin tag margin) := of_request rfl rfl rfl
theorem book (tag : Byte) (fields : BookFields) : Statement (.book tag fields) := of_request rfl rfl rfl
theorem amend (tag : Byte) (id : Half) (newEnd : Word) : Statement (.amend tag id newEnd) := of_request rfl rfl rfl
theorem cancel (tag : Byte) (id : Half) : Statement (.cancel tag id) := of_request rfl rfl rfl
theorem endBooking (tag : Byte) (id : Half) : Statement (.endBooking tag id) := of_request rfl rfl rfl
theorem swap (tag : Byte) (id : Half) (slot feed : Byte) : Statement (.swap tag id slot feed) := of_request rfl rfl rfl
theorem readBooking (tag : Byte) (id : Half) : Statement (.readBooking tag id) := of_request rfl rfl rfl
theorem listPort (tag port start : Byte) : Statement (.listPort tag port start) := of_request rfl rfl rfl
theorem patch (tag port route : Byte) : Statement (.patch tag port route) := of_request rfl rfl rfl
theorem unpatch (tag port : Byte) : Statement (.unpatch tag port) := of_request rfl rfl rfl
theorem readPort (tag port : Byte) : Statement (.readPort tag port) := of_request rfl rfl rfl
theorem setConfirm (tag timeout : Byte) : Statement (.setConfirm tag timeout) := of_request rfl rfl rfl
theorem readMeter (tag : Byte) (id : Half) : Statement (.readMeter tag id) := of_request rfl rfl rfl
theorem setTariff (tag : Byte) (fields : TariffFields) : Statement (.setTariff tag fields) := of_request rfl rfl rfl
theorem settlePeek (tag : Byte) : Statement (.settlePeek tag) := of_request rfl rfl rfl
theorem settleRelease (tag : Byte) (id : Half) : Statement (.settleRelease tag id) := of_request rfl rfl rfl
theorem readAccount (tag account : Byte) : Statement (.readAccount tag account) := of_request rfl rfl rfl
theorem clearAccount (tag account : Byte) : Statement (.clearAccount tag account) := of_request rfl rfl rfl
theorem setNotices (tag health circuit booking reference take settlement : Byte)
    : Statement (.setNotices tag health circuit booking reference take settlement) :=
  of_request rfl rfl rfl
theorem setTally (tag line source : Byte) (param : Six) (invert : Byte)
    : Statement (.setTally tag line source param invert) :=
  of_request rfl rfl rfl
theorem setCue (tag line enable invert : Byte) : Statement (.setCue tag line enable invert) := of_request rfl rfl rfl
theorem byteReceived (byte : Byte) : Statement (.byteReceived byte) := of_event rfl

end Sys2Proof.Laws.Command
end

