-- ==== Sys2Proof/Tests/Slice0.lean ====
section
/-! SUPPORT. Tests on small states, with results from the manual's examples and tables, and for each statement of the
certificates a witness that its hypotheses and clauses can be met. -/

namespace Sys2Proof.Tests

open Sys2Proof.Machine

-- Each evaluation by the kernel waits for the theorems before it; one at a time needs no thread for each of them.
set_option Elab.async false

/-! ### States to test on -/

/-- A booking record: id 1, feed 0 of slot 0 on port 0, [100, 160), by time, in a state. -/
def record (st : BookingState) : Booking :=
  { id := 1, account := 0, tariff := 0, handoff := 0, feeds := [0], ports := [0], s0 := 100, e0 := 160, e := 160,
    extension := 0, trigger := .time, cueLine := none, cueEdge := none, cueLead := none, startRule := .allOrWait,
    runOn := false, quantum := 60, limit := 0, used := 0, state := st, reason := none, shortened := false,
    timeStepped := false, patchReleased := false, liveStart := none, endSecond := none }

/-- The part after reset, with one record in a state in place 0 and its entries, on the timeline of port 0. -/
def withRecord (b : Booking) : State := State.reset.admitRecord 0 b

/-- The part after reset, with network time at a second. -/
def atSecond (n : Nat) : State := { State.reset with tb := { TB.reset with seconds := n } }

/-- The part after reset, with every route OK. -/
def allOk : State := State.reset.mapRoutes fun r => { r with effective := .ok, failed := false, bad := false }

/-- `s` with a first time-list entry of place 0, due now. -/
def due (kind : EntryKind) (s : State) : State := { s with bku := { s.bku with timeList := [⟨s.tb.seconds, 0, kind, false⟩] } }

/-- `s` with a take in flight that waits for one order, of route 1 to port 0. -/
def inFlight (s : State) : State :=
  { s with xpc := { s.xpc with inFlight := true, orders := [⟨0, .route 1⟩], timer := some 0 } }

/-- A message on the line, whose end does something. -/
def sending (e : Ends) (s : State) : State := { s with lnk := { s.lnk with line := some ⟨.ready .powerOn, e⟩ } }

/-- `s` with a request that has been served in its queue. -/
def served (s : State) : State := { s with lnk := { s.lnk with queue := [⟨7, .ident, true⟩] } }

/-- The state after some commands, where each of them leads to one. -/
def after (cs : List Instr) (s : State) : State := cs.foldl (fun s c => match exec c s with
  | .next t => t
  | .fault _ | .refused _ => s) s

theorem ready_of_lnk {s : State} (h : s.lnk = State.reset.lnk) : s.Ready := by
  unfold State.Ready
  rw [h]
  decide +kernel

theorem reset_ready : State.reset.Ready := ready_of_lnk rfl

/-! ### Ill-formed commands are refused -/

theorem test_wf_pulse_beyond_tick : (Instr.referencePulse 27001).wellFormed = false := by decide
theorem test_wf_pulse_within_tick : (Instr.referencePulse 27000).wellFormed = true := by decide
theorem test_wf_known_kind : (Instr.unknownKind 1 0x40 []).wellFormed = false := by decide
theorem test_wf_long_body : (Instr.unknownKind 1 0x99 (List.replicate 513 0)).wellFormed = false := by decide +kernel
theorem test_wf_unknown_kind : (Instr.unknownKind 1 0x99 []).wellFormed = true := by decide

/-! ### Formats -/

/-- R188: the check over the digits 1 to 9. -/
theorem test_check_of_digits : crc [0x31, 0x32, 0x33, 0x34, 0x35, 0x36, 0x37, 0x38, 0x39] = 0x29B1 := by decide +kernel

/-- Table 11-6: a SET_PORT body, a body of the wrong length, and a kind that is not listed. -/
theorem test_requests_parsed :
    parseRequest 0x40 [5, 1] = .setPort 5 1 ∧ parseRequest 0x40 [5] = .badLength 0x40 ∧
      parseRequest 0x45 [] = .unknownKind 0x45 ∧ parseRequest 0x10 [1, 2, 3, 4] = .setTime 0x01020304 := by
  decide +kernel

/-- Table 11-11: a status word of card 2, slot 6 with LOS, and a confirm of PARK at port 31. -/
theorem test_words_parsed :
    parseStatus [0x5A, 0x01, 0xA4] = some (2, 6, true, 1) ∧ parseStatus [0x5A, 0x01, 0xA5] = none ∧
      Order.parse [0x1F, 0x3F, 0xA1] = some ⟨31, .park⟩ ∧ Order.parse [0x1F, 0x30, 0xB0] = none := by decide +kernel

/-- R193: the sizes of a settlement record and of a BOOK reply. -/
theorem test_layout_sizes :
    (formSettlement ⟨60, 0, 0, 0, 0, 0, 0, .all⟩ (record .ending) (MeterSet.fresh 1)).bytes.length = 89 ∧
      (bookedBytes 1 0 [0] (some 5) 60).length = 11 := by decide +kernel

/-! ### Allocation -/

/-- Table 4-2. -/
theorem test_start_members_of_table : ([1, 2, 3, 4, 5, 6, 7, 8].map fun id => startMember id 0xFFFF 4) = [1, 2, 3, 1, 0, 3, 2, 2] ∧
    ([1, 2, 3, 4, 5, 6, 7, 8].map fun id => startMember id 0xFFFF 3) = [1, 2, 0, 1, 0, 0, 2, 2] := by decide +kernel

/-- 4.7.1. -/
theorem test_start_member_of_example :
    startMember 0x3A5D 0xFFFF 3 = 1 ∧ startMember 0x3A5D 0x00FF 4 = 2 ∧ startMember 0x3A5D 0 3 = 0 := by decide +kernel

/-- The state of 4.8.1 before admission, in seconds of the day: handoff 3 of P8, P9, P10, with spans on P9 and P10. -/
def sharedHandoff (margin : Nat) (p8 : Bool) : State :=
  let on (id : Half) (s0 e : Nat) : Option Place :=
    some ⟨{ record .scheduled with id := id, s0 := s0, e0 := e, e := e }, MeterSet.fresh 1, none⟩
  { State.reset with
    dir := { DIR.reset with
      ports := upd DIR.reset.ports 8 ⟨p8, some 3⟩
      handoffs := upd DIR.reset.handoffs 3 ⟨some ⟨5, [8, 9, 10], 0xFFFF⟩, 0⟩
      margin := margin }
    bku := { BKU.reset with
      places := upd (upd BKU.reset.places 0 (on 812 46800 53940)) 1 (on 655 61200 64800)
      timelines := upd (upd BKU.reset.timelines 9 [0]) 10 [1] } }

/-- 4.8.1 and its variants. -/
theorem test_allocation_of_example :
    let b : Booking := { record .scheduled with id := 0x3A5D, handoff := 3, feeds := [0, 2], s0 := 54000, e0 := 60900, e := 60900 }
    (sharedHandoff 120 true).allocatePorts b = .inr [10, 8] ∧ (sharedHandoff 120 false).allocatePorts b = .inl 1 ∧
      (sharedHandoff 0 true).allocatePorts b = .inr [9, 10] := by decide +kernel

/-! ### Metering and pricing -/

/-- 9.3.1. -/
theorem test_price_of_overrunning_match :
    let m : MeterSet := { MeterSet.fresh 1 with s := 7137500, t := 434500, oc := 185000, nt := 2 }
    priceMeters ⟨60, 5000, 1200, 1800, 250, 1500, 30, .all⟩ m =
      { gs := 112, gt := 8, gc := 3, gross := 154300, credit := 4500, net := 149800, saturated := false } := by
  decide +kernel

/-- 9.3.2. -/
theorem test_price_saturates :
    let m : MeterSet := { MeterSet.fresh 1 with s := 113390000, t := 27000000, oc := 10000 }
    priceMeters ⟨1, 5000, 65535, 65535, 250, 65535, 0, .all⟩ m =
      { gs := 86390, gt := 27000, gc := 10, gross := 4294967295, credit := 655350, net := 4294967295,
        saturated := true } := by decide +kernel

/-- 8.6: episodes of 71 ms and of 186,000 ms close under a grace of 30 s. -/
theorem test_grace_of_episodes :
    let m : MeterSet := MeterSet.closeEpisode 30 { MeterSet.fresh 2 with phase := .running, episode := some 71 }
    let n : MeterSet := MeterSet.closeEpisode 30 { m with episode := some 186000 }
    (m.episodes, m.longest, m.oc) = (1, 71, 0) ∧ (n.episodes, n.longest, n.oc) = (2, 186000, 186000) := by decide +kernel

/-! ### Protection -/

/-- 3.11.1 at 100,000 and at 605,000, on circuit 11. -/
theorem test_switch_and_return :
    let s : State := { allOk with tb := { TB.reset with elapsed := 100000 } }
    let t : State := (s.setRoute 22 { s.route 22 with effective := .failed }).evaluate 11 .auto
    let back : State := { State.reset with tb := { TB.reset with elapsed := 605000 } }.setCircuit 11
      { Circuit.reset with selector := some .wtr, wtr := some 605000, switchCount := 1 }
    (t.circuit 11).selector = some .selB ∧ (t.circuit 11).guard = some 100050 ∧ (t.circuit 11).switchCount = 1 ∧
      ((back.wtrExpiry 11).circuit 11).selector = some .selA ∧ ((back.wtrExpiry 11).circuit 11).guard = some 605050 ∧
      ((back.wtrExpiry 11).circuit 11).lastReason = .wtrExpiry := by decide +kernel

/-! ### The request queue -/

/-- 11.8: six requests while a message is on the line. -/
theorem test_queue_fills :
    let s : State := sending .nothing { State.reset with lnk := { State.reset.lnk with ready := none, errors := 17 } }
    let t : State := after [.settlePeek 1, .readTime 2, .readHealth 3 0, .readCircuit 4 0, .status 5, .ident 6] s
    (t.lnk.queue.map (·.tag)) = [1, 2, 3, 4] ∧ (t.lnk.queue.all (·.served)) = true ∧ t.lnk.busySlot = true ∧
      t.lnk.errors = 18 ∧ (t.lnk.replies.map (·.reply.tag)) = [1, 2, 3, 4, 5] ∧
      (t.lnk.replies.getLast?.map (·.reply.status)) = some .busy := by decide +kernel

/-- Table 11-3: a READ_TIME frame arrives byte by byte while the line is busy, and is checked. -/
theorem test_frame_arrives :
    let s : State := sending .nothing State.reset
    let t : State := after ((frameOf 0x11 0x2A []).map .byteReceived ++ [.frameReceived]) s
    t.lnk.rx = [] ∧ (t.lnk.replies.map fun u => (u.reply.kind, u.reply.tag)) = [(0x91, 0x2A)] := by decide +kernel

/-- R179: a reply made while a notice is on the line goes before any further notice. -/
theorem test_reply_before_further_notice :
    let s : State := sending .nothing { State.reset with
      ntc := { NTC.reset with flags := upd NTC.reset.flags takeObject true, list := [takeObject] }
      lnk := { State.reset.lnk with ready := none, replies := [⟨⟨0x91, 1, .ok, .empty⟩, .place⟩] } }
    (after [.transmitterFree] s).lnk.line = some ⟨.reply ⟨0x91, 1, .ok, .empty⟩, .place⟩ := by decide +kernel

/-! ### Witnesses of the invariants -/

/-- A state that keeps every law, with a record in its table and a command in its queue. -/
def lawful : State := { withRecord (record .scheduled) with pending := [.readTime 1] }

theorem lawful_steps : ∃ t, step lawful = .next t := ⟨_, rfl⟩

theorem lawful_places : ∀ i : Fin 192,
    lawful.place i = if i = 0 then some ⟨record .scheduled, MeterSet.fresh 1, none⟩ else none := by decide +kernel

theorem lawful_place {i : Fin 192} {p : Place} (h : lawful.place i = some p) :
    i = 0 ∧ p = ⟨record .scheduled, MeterSet.fresh 1, none⟩ := by
  rw [lawful_places] at h
  split at h
  · exact ⟨‹_›, (Option.some.inj h).symm⟩
  · cases h

theorem witness_NoticeListLawKept : lawful.ntc.Law ∧ ∃ t, step lawful = .next t :=
  ⟨by unfold NTC.Law; decide +kernel, lawful_steps⟩

theorem witness_MeterLawKept : lawful.MeterLaw ∧ ∃ t, step lawful = .next t :=
  ⟨fun i p h => by obtain ⟨-, rfl⟩ := lawful_place h; unfold MeterSet.Law; decide +kernel, lawful_steps⟩

theorem lawful_limits : lawful.LimitsLow := fun i p h => by obtain ⟨-, rfl⟩ := lawful_place h; decide

theorem witness_RangesKept : lawful.InRange ∧ ∃ t, step lawful = .next t :=
  ⟨⟨by unfold TB.InRange; decide +kernel, by unfold LNK.Bounded; decide +kernel, by decide +kernel, lawful_limits,
    by decide +kernel⟩, lawful_steps⟩

/-- The law, and a set that does not run. -/
theorem witness_MeterPhasesKept : lawful.PhaseLaw ∧ (∃ t, step lawful = .next t) ∧
    ∃ p, lawful.place 0 = some p ∧ p.meter.phase ≠ .running :=
  ⟨fun i p h => by obtain ⟨-, rfl⟩ := lawful_place h; unfold Place.PhaseLaw MeterSet.AllZero; decide +kernel, lawful_steps,
    ⟨_, lawful_places 0, by decide⟩⟩

/-- A start entry and an end entry of one record are in the list. -/
theorem lawful_entries : lawful.bku.timeList = [⟨100, 0, .start, false⟩, ⟨160, 0, .stop, false⟩] := by decide +kernel

theorem lawful_timeList : lawful.TimeListLaw := by
  refine ⟨by rw [lawful_entries]; decide +kernel, by rw [lawful_entries]; decide +kernel, fun a h => ?_⟩
  rw [lawful_entries] at h
  simp only [List.mem_cons, List.not_mem_nil, or_false] at h
  obtain rfl | rfl := h
  · exact ⟨_, lawful_places 0, rfl, by decide⟩
  · exact ⟨_, lawful_places 0, rfl, by decide⟩

theorem witness_TimeListLawKept : lawful.TimeListLaw ∧ ∃ t, step lawful = .next t := ⟨lawful_timeList, lawful_steps⟩

theorem lawful_circuits : ∀ c : Fin 24, lawful.circuit c = Circuit.reset ∧
    lawful.rankOf c .b ≤ lawful.rankOf c .a := by decide +kernel

theorem witness_SelectorLawKept : lawful.SelectorLaw ∧ ∃ t, step lawful = .next t := by
  refine ⟨fun c => ?_, lawful_steps⟩
  obtain ⟨h, k⟩ := lawful_circuits c
  unfold State.SelectorLawAt
  rw [h]
  refine ⟨?_, by decide, by decide, fun h => absurd h (by decide)⟩
  rintro st ⟨⟩ - -
  exact k

theorem witness_HealthLawKept : lawful.HealthLaw ∧ ∃ t, step lawful = .next t := by
  have h : ∀ c : Fin 24, lawful.drill c = none := by decide +kernel
  exact ⟨⟨by decide +kernel, fun c d k => by rw [h c] at k; cases k⟩, lawful_steps⟩

theorem witness_ClosingAndIdLawsKept : lawful.ClosingLaw ∧ lawful.IdLaw ∧ ∃ t, step lawful = .next t := by
  refine ⟨⟨by decide +kernel, by decide +kernel, by decide +kernel, by decide +kernel, ?_⟩, ⟨?_, by decide +kernel, ?_, ?_⟩,
    lawful_steps⟩
  · intro i p h; obtain ⟨-, rfl⟩ := lawful_place h; decide
  · intro i j p q h k _; rw [(lawful_place h).1, (lawful_place k).1]
  · intro i p h; obtain ⟨-, rfl⟩ := lawful_place h; decide +kernel
  · intro i p x h k; obtain ⟨-, rfl⟩ := lawful_place h; cases k

theorem witness_CountsLawKept : lawful.CountsLaw ∧ ∃ t, step lawful = .next t :=
  ⟨⟨by decide +kernel, by decide +kernel, by decide +kernel⟩, lawful_steps⟩

theorem witness_TimelineLawKept : lawful.TimelineLaw ∧ ∃ t, step lawful = .next t := by
  have one : ∀ q : Fin 32, lawful.timeline q = if q = 0 then [0] else [] := by decide +kernel
  refine ⟨⟨?_, ?_, ?_⟩, lawful_steps⟩
  · intro i p h; obtain ⟨-, rfl⟩ := lawful_place h; decide
  · intro q i h
    rw [one] at h
    split at h
    · cases List.mem_singleton.mp h
      subst q
      exact ⟨⟨record .scheduled, MeterSet.fresh 1, none⟩, lawful_places 0, by decide, by decide⟩
    · cases h
  · intro q; rw [one]; split <;> simp

theorem witness_TakeLawKept : lawful.TakeLaw ∧ ∃ t, step lawful = .next t :=
  ⟨by unfold State.TakeLaw; decide +kernel, lawful_steps⟩

/-! ### Witnesses of resets and of TB -/

/-- `s` with a reset's reply on the line, and a request behind the RESET. -/
def resetting (e : Scope) (s : State) : State :=
  sending (.reset e) { s with lnk := { s.lnk with queue := [⟨7, .reset 0, true⟩, ⟨8, .readTime, false⟩] } }

theorem witness_ResetAllPerformed :
    (∃ m q, (sending (.reset .all) (served State.reset)).lnk.line = some ⟨m, .reset .all⟩ ∧
      (sending (.reset .all) (served State.reset)).lnk.queue = q :: []) ∧
    ∃ m q r, (resetting .all State.reset).lnk.line = some ⟨m, .reset .all⟩ ∧
      (resetting .all State.reset).lnk.queue = q :: [r] := ⟨⟨_, _, rfl, rfl⟩, _, _, _, rfl, rfl⟩

theorem witness_ResetTrafficPerformed :
    (∃ m q, (sending (.reset .traffic) (served State.reset)).lnk.line = some ⟨m, .reset .traffic⟩ ∧
      (sending (.reset .traffic) (served State.reset)).lnk.queue = q :: []) ∧
    ∃ m q r, (resetting .traffic State.reset).lnk.line = some ⟨m, .reset .traffic⟩ ∧
      (resetting .traffic State.reset).lnk.queue = q :: [r] := ⟨⟨_, _, rfl, rfl⟩, _, _, _, rfl, rfl⟩

/-- Nothing is due: below the end of a second, at it, and at the last second of all. -/
theorem witness_TickCounts :
    let at_ (n sub : Nat) : State := { State.reset with tb := { TB.reset with seconds := n, sub := sub } }
    (at_ 0 998).takeDue = at_ 0 998 ∧ (at_ 0 999).takeDue = at_ 0 999 ∧
      (at_ 4294967295 999).takeDue = at_ 4294967295 999 := by decide +kernel

/-- The part after reset, with TB in a reference state at an instant of the oscillator. -/
def tbAt (st : RefState) (now : Nat) : State :=
  { State.reset with tb := { TB.reset with refState := st, osc := now, lastTick := now } }

/-- The generator's instant and the loss limit at the end of the millisecond, and one count beyond it. -/
theorem witness_GeneratorInstants :
    ((tbAt .free 1053000).tb.nextInstant ≤ 1053000 + 27000 ∧ ¬(tbAt .free 1052999).tb.nextInstant ≤ 1052999 + 27000) ∧
      (tbAt .locked 1053000).tb.nextInstant ≤ 1053000 + 27000 ∧
      ((tbAt .locked 3213000).tb.lossInstant ≤ 3213000 + 27000 ∧
        ¬(tbAt .locked 3212999).tb.lossInstant ≤ 3212999 + 27000) := by decide +kernel

/-- A pulse at 0.9P and one count before it, in every reference state; the eighth good interval with the last
marker 0.5P back and one count less. -/
theorem witness_ReferencePulse :
    let s (st : RefState) (now : Nat) : State := tbAt st now
    let eighth (marker : Nat) : State := { tbAt .seeking 972000 with tb := { (tbAt .seeking 972000).tb with
      qual := 7, prevPulse := some 0, lastMarker := marker } }
    (972000 ≤ (s .free 972000).tb.nextInstant ∧ 972000 ≤ (s .locked 972000).tb.nextInstant ∧
      972000 ≤ (s .locked 972000).tb.lossInstant ∧ 971999 ≤ (s .locked 971999).tb.nextInstant ∧
      971999 ≤ (s .locked 971999).tb.lossInstant ∧ 972000 ≤ (s .holdover 972000).tb.nextInstant) ∧
    9 * period 0 ≤ 10 * 972000 ∧ ¬9 * period 0 ≤ 10 * 971999 ∧
    (972000 ≤ (eighth 432000).tb.nextInstant ∧ period 0 ≤ 2 * (972000 - 432000)) ∧
    (972000 ≤ (eighth 432001).tb.nextInstant ∧ ¬period 0 ≤ 2 * (972000 - 432001)) := by decide +kernel

/-- A settlement record. -/
def settlement : Settlement := formSettlement ⟨60, 0, 0, 0, 0, 0, 0, .all⟩ (record .ending) (MeterSet.fresh 1)

/-- The part after reset, with one settlement record in the queue. -/
def oneSettled : State := { State.reset with stl := { STL.reset with queue := [settlement] } }

theorem witness_PlainReads : State.reset.Ready ∧ oneSettled.Ready ∧ oneSettled.stl.queue ≠ [] ∧ (15 : Byte).toNat < 16 ∧
    ¬(16 : Byte).toNat < 16 := ⟨reset_ready, ready_of_lnk rfl, by decide +kernel, by decide, by decide⟩

/-- The present second; a step of 2 s and of 3 s with a record armed; a forward step with nothing in its range; a
backward step. Nothing is due before any of them. -/
theorem witness_SetTime :
    let armed : State := { withRecord (record .armed) with tb := { TB.reset with seconds := 10 } }
    armed.Ready ∧ armed.takeSecond = armed ∧ (∃ i p, armed.place i = some p ∧ p.booking.state.active = true) ∧
      ¬(10 + 2 < 12) ∧ 10 + 2 < 13 ∧ (atSecond 10).Ready ∧ (atSecond 10).takeSecond = atSecond 10 ∧
      (∀ e ∈ (atSecond 10).bku.timeList, 11 < e.second) ∧
      ∀ r, (((atSecond 10).route r).worksStart ≤ 10 ∨ 11 < ((atSecond 10).route r).worksStart) ∧
        (((atSecond 10).route r).worksEnd ≤ 10 ∨ 11 < ((atSecond 10).route r).worksEnd) := by
  refine ⟨ready_of_lnk rfl, by decide +kernel, ⟨0, _, rfl, by decide⟩, by decide, by decide, ready_of_lnk rfl,
    by decide +kernel, by decide +kernel, ?_⟩
  decide +kernel

/-- A record whose entries lie at and after the second stepped to. -/
theorem witness_Replay : lawful.LimitsLow ∧ lawful.TimeListLaw ∧ lawful.tb.seconds < 100 ∧
    ∀ e ∈ lawful.bku.timeList, lawful.tb.seconds < e.second :=
  ⟨lawful_limits, lawful_timeList, by decide +kernel, by rw [lawful_entries]; decide +kernel⟩

/-- R90, R4: an arm entry due at the present second is taken before a step of 3 s is judged, which is then refused. -/
theorem test_due_arm_entry_refuses_step :
    let b : Booking := { record .scheduled with trigger := .cue, cueLine := some 0, cueEdge := some .rise, cueLead := some 90 }
    let at10 : State := { State.reset with tb := { TB.reset with seconds := 10, boundary := some 10 } }
    let s : State := at10.admitRecord 0 b
    let t : State := after [.setTime 1 13] (sending .nothing s)
    (t.lnk.replies.getLast?.map (·.reply.status)) = some .timeStep ∧ t.stateAt 0 = some .armed := by decide +kernel

/-- R81, R90: an arm entry of second 10 is due at once where the record is admitted at second 10; where it is admitted
before, it waits for the boundary of second 10, and goes there behind the end entry of a lower record. -/
theorem test_arm_entry_waits_for_its_boundary :
    let b : Booking := { record .scheduled with trigger := .cue, cueLine := some 0, cueEdge := some .rise, cueLead := some 90 }
    let tenth (boundary : Option Nat) (s : State) : State := { s with tb := { s.tb with seconds := 10, boundary := boundary } }
    let s : State := (State.reset.admitRecord 5 b).admitRecord 3 { record .live with id := 2, ports := [1], e := 10 }
    let arm (atOnce : Bool) : TimeEntry := ⟨10, 5, .arm, atOnce⟩
    (tenth (some 10) s).nextEntry = none ∧ (after [.armEntry 5] (tenth (some 10) s)).stateAt 5 = some .scheduled ∧
      (tenth none s).nextEntry = some ⟨10, 3, .stop, false⟩ ∧
      (after [.endEntry 3] (tenth none s)).nextEntry = some (arm false) ∧
      ((tenth (some 10) State.reset).admitRecord 5 b).nextEntry = some (arm true) := by decide +kernel

theorem witness_SetReference : State.reset.Ready ∧ ((1 : Byte).toNat ≤ 1 ∧ (3 : Byte).toNat ≤ 3) ∧
    ¬((2 : Byte).toNat ≤ 1) ∧ ¬((4 : Byte).toNat ≤ 3) := ⟨reset_ready, by decide, by decide, by decide⟩

/-! ### Witnesses of RMON -/

theorem witness_HealthEventTaken : (List.finRange 24).Nodup ∧ ([] : List (Fin 24)).Nodup := by decide

/-- A wrong check, a card above 5, and groups of two and four bytes. -/
theorem witness_StatusLink :
    let bad (group : List Byte) : Prop :=
      ∀ b0 b1 check, group = [b0, b1, check] → check ≠ 255 - (b0 + b1) ∨ 5 < (b0 >>> 5).toNat
    bad [0x5A, 0x01, 0xA5] ∧ bad [0xC0, 0x00, 0x3F] ∧ bad [0x5A, 0x01] ∧ bad [0x5A, 0x01, 0xA4, 0x00] := by
  refine ⟨?_, ?_, ?_, ?_⟩ <;> intro b0 b1 check h <;> simp at h
  · obtain ⟨rfl, rfl, rfl⟩ := h; left; decide
  · obtain ⟨rfl, rfl, rfl⟩ := h; right; decide

/-- A timer at its instant, one that is not due, and one that is stopped. -/
theorem witness_StatusLink_silence :
    isDue ((State.reset.setCard 5 (some 0)).rmon.cards.get 5) 0 = true ∧
      isDue ((State.reset.setCard 5 (some 1)).rmon.cards.get 5) 0 = false ∧
      isDue (State.reset.rmon.cards.get 5) 0 = false := by decide +kernel

theorem witness_HoldOffs :
    let s (fail clear : Option Nat) : State :=
      State.reset.setRoute 47 { Route.reset with failTimer := fail, clearTimer := clear }
    isDue ((s (some 0) none).route 47).failTimer 0 = true ∧ isDue ((s (some 1) none).route 47).failTimer 0 = false ∧
      isDue ((s none (some 0)).route 47).clearTimer 0 = true ∧
      isDue ((s none (some 1)).route 47).clearTimer 0 = false := by decide +kernel

theorem witness_BlockAndSecondBoundaries :
    let s : State := { State.reset with
      tb := { TB.reset with boundary := some 1 }, rmon := { RMON.reset with blockDue := true, worksDue := some 1 } }
    s.tb.boundary = some 1 ∧ s.rmon.blockDue = true ∧ s.rmon.worksDue = some 1 ∧ State.reset.tb.boundary = none ∧
      State.reset.rmon.blockDue = false ∧ State.reset.rmon.worksDue = none := by decide +kernel

/-- A drill with a count left and with none, and one at its expiry and before it. -/
theorem witness_Drills_phases :
    let s (phase : DrillPhase) : State := State.reset.setDrill 23 (some ⟨.a, phase, 10⟩)
    (s (.countdown 0)).drill 23 = some ⟨.a, .countdown 0, 10⟩ ∧ (s (.countdown 1)).drill 23 = some ⟨.a, .countdown 1, 10⟩ ∧
      (s (.active 0)).drill 23 = some ⟨.a, .active 0, 10⟩ ∧ 0 ≤ (s (.active 0)).tb.elapsed ∧
      ¬1 ≤ (s (.active 1)).tb.elapsed := by decide +kernel

/-- R31: a marker counts a drill down, and the marker that brings the count to 0 activates it. -/
theorem test_marker_activates_drill :
    Drill.count 5 ⟨.b, .countdown 2, 500⟩ = ⟨.b, .countdown 1, 500⟩ ∧
      Drill.count 5 ⟨.b, .countdown 1, 500⟩ = ⟨.b, .active 505, 500⟩ := by decide

theorem witness_SetRoute : State.reset.Ready ∧ (47 : Byte).toNat < 48 ∧ ¬(48 : Byte).toNat < 48 ∧
    ¬(25 : Half).toNat < (25 : Half).toNat ∧ (24 : Half).toNat < (25 : Half).toNat ∧ (0 : Half).toNat = 0 :=
  ⟨reset_ready, by decide, by decide, by decide, by decide, by decide⟩

/-- Circuit 0 in SPLIT, with a record on feed 0 in [100, 160): windows that end at its start and one second later. -/
theorem witness_SetWorks :
    let s : State := (withRecord (record .scheduled)).setCircuit 0 { Circuit.reset with selector := none }
    s.Ready ∧ ((47 : Byte).toNat < 48 ∧ (1 : Byte).toNat < 2) ∧ ¬(48 : Byte).toNat < 48 ∧ ¬(2 : Byte).toNat < 2 ∧
      s.feedMeetsWorks 0 50 101 0 100 160 = true ∧ s.feedMeetsWorks 0 50 100 0 100 160 = false ∧
      s.worksConflicts 0 50 101 = 1 ∧ s.worksConflicts 0 50 100 = 0 := by
  refine ⟨ready_of_lnk rfl, by decide, by decide, by decide, ?_⟩
  decide +kernel

/-- A route that may be drilled; a partner that is not OK; a booked split feed; drills set, in each phase. -/
theorem witness_Drills :
    let booked : State := { withRecord (record .closing) with rmon := allOk.rmon }.setCircuit 0
      { Circuit.reset with selector := none }
    allOk.Ready ∧ ((47 : Byte).toNat < 48 ∧ ¬(48 : Byte).toNat < 48 ∧ (1 : Half) ≠ 0) ∧
      (allOk.health 46 = .ok ∧ allOk.drill 23 = none ∧ (allOk.circuit 23).mode = .pair) ∧
      (State.reset.Ready ∧ State.reset.health 46 ≠ .ok) ∧
      (booked.Ready ∧ (booked.circuit 0).mode = .split ∧ ∃ i p, booked.place i = some p ∧ 0 ∈ p.booking.feeds) ∧
      (allOk.setDrill 23 (some ⟨.b, .countdown 1, 10⟩)).Ready ∧
      (allOk.setDrill 23 (some ⟨.b, .active 10, 10⟩)).Ready ∧ sideOf 47 = .b := by
  refine ⟨ready_of_lnk rfl, by decide, by decide +kernel, ⟨reset_ready, by decide +kernel⟩,
    ⟨ready_of_lnk rfl, by decide +kernel, 0, _, rfl, by decide⟩, ready_of_lnk rfl, ready_of_lnk rfl, by decide⟩

/-! ### Witnesses of PSEL -/

theorem witness_Evaluation :
    let s (guard wtr : Option Nat) : State :=
      State.reset.setCircuit 23 { Circuit.reset with selector := some .wtr, guard := guard, wtr := wtr }
    isDue ((s (some 0) none).circuit 23).guard 0 = true ∧ isDue ((s (some 1) none).circuit 23).guard 0 = false ∧
      isDue ((s none (some 0)).circuit 23).wtr 0 = true ∧ ((s none (some 0)).circuit 23).selector = some .wtr ∧
      isDue ((s none (some 1)).circuit 23).wtr 0 = false := by decide +kernel

/-- A circuit of usable routes in each state that the clauses tell apart. -/
theorem witness_ProtectionOrders :
    let s (st : Option SelState) : State := allOk.setCircuit 23 { Circuit.reset with selector := st }
    (∀ st, (s st).Ready ∧ ((s st).circuit 23).selector = st) ∧ ((s none).health (routeOf 23 .b)).usable = true ∧
      (State.reset.health (routeOf 23 .b)).usable = false ∧ (23 : Byte).toNat < 24 ∧ ¬(24 : Byte).toNat < 24 ∧
      ¬2 ≤ (1 : Byte).toNat ∧ 2 ≤ (2 : Byte).toNat := by
  refine ⟨fun st => ⟨ready_of_lnk rfl, by simp⟩, by decide +kernel, by decide +kernel, by decide, by decide, by decide,
    by decide⟩

/-- A circuit in PAIR and in SPLIT, free, booked, patched and with a drill set. -/
theorem witness_SetCircuit :
    let split (s : State) : State := s.setCircuit 0 { Circuit.reset with selector := none }
    let patched : State := State.reset.onXPort 0 (·.setPatch 1)
    State.reset.Ready ∧ (split State.reset).Ready ∧ (split State.reset).circuit 0 ≠ Circuit.reset ∧
      (withRecord (record .closing)).Ready ∧ (withRecord (record .closing)).circuitInUse 0 = true ∧
      patched.Ready ∧ patched.circuitInUse 0 = true ∧ State.reset.circuitInUse 0 = false ∧
      (State.reset.setDrill 0 (some ⟨.a, .countdown 1, 10⟩)).Ready ∧ (23 : Byte).toNat < 24 ∧ ¬(24 : Byte).toNat < 24 := by
  refine ⟨reset_ready, ready_of_lnk rfl, by decide +kernel, ready_of_lnk rfl, by decide +kernel, ready_of_lnk rfl,
    by decide +kernel, by decide +kernel, ready_of_lnk rfl, by decide, by decide⟩

/-! ### Witnesses of DIR and of the stored settings -/

/-- Port 31 enabled and disabled, and port 0 with a record on its timeline. -/
theorem witness_SetPort :
    let off : State := { State.reset with dir := { DIR.reset with ports := same 32 ⟨false, none⟩ } }
    State.reset.Ready ∧ off.Ready ∧ (withRecord (record .scheduled)).Ready ∧
      ((off.dir.ports.get 31).enabled = false ∧ (State.reset.dir.ports.get 31).enabled = true) ∧
      ((State.reset.timeline 31).length = 0 ∧ ((withRecord (record .scheduled)).timeline 0).length ≠ 0) ∧
      ((31 : Byte).toNat < 32 ∧ ¬(32 : Byte).toNat < 32) ∧ 2 ≤ (2 : Byte).toNat ∧ ¬2 ≤ (1 : Byte).toNat := by
  refine ⟨reset_ready, ready_of_lnk rfl, ready_of_lnk rfl, ?_⟩
  decide +kernel

/-- Handoff 15 of account 15: fields that pass and fields that fail; a locked handoff, an undefined account, a port of
another handoff, and a request that is accepted. -/
theorem witness_SetHandoff :
    let given := State.handoffFields 15 15 4 31 0 1 2 1 0x00FF
    let named : DIR := { DIR.reset with accounts := upd DIR.reset.accounts 15 ⟨some 0, 0⟩ }
    let s (d : DIR) : State := { State.reset with dir := d }
    given = some (15, ⟨15, [31, 0, 1, 2], 0x00FF⟩) ∧ State.handoffFields 16 15 4 31 0 1 2 1 0 = none ∧
      State.handoffFields 15 15 5 31 0 1 2 1 0 = none ∧ State.handoffFields 15 15 2 31 31 1 2 1 0 = none ∧
      (∀ d, (s d).Ready) ∧ (named.accounts.get 15).permitted ≠ none ∧ (DIR.reset.accounts.get 15).permitted = none ∧
      (named.handoffRefs 15 (· + 1)).handoffs.get 15 = ⟨none, 1⟩ ∧ (named.handoffs.get 15).refs = 0 ∧
      ((named.assignPorts 14 [31]).ports.get 31).handoff = some 14 := by
  refine ⟨by decide +kernel, by decide +kernel, by decide +kernel, by decide +kernel, fun d => ready_of_lnk rfl, ?_⟩
  decide +kernel

/-- Entries that are defined and free, named by a handoff, counted, and undefined. -/
theorem witness_DeleteEntry :
    let s (d : DIR) (q : STL) : State := { State.reset with dir := d, stl := q }
    let account (refs : Nat) : DIR := { DIR.reset with accounts := upd DIR.reset.accounts 15 ⟨some 1, refs⟩ }
    let handoff (refs : Nat) : DIR := { account 0 with handoffs := upd DIR.reset.handoffs 15 ⟨some ⟨15, [0], 0⟩, refs⟩ }
    let tariff (refs : Nat) : STL := STL.reset.onTariff 7 fun x => { x with valid := true, refs := refs }
    (∀ d q, (s d q).Ready) ∧ ((account 0).accounts.get 15 = ⟨some 1, 0⟩ ∧ (account 1).accounts.get 15 = ⟨some 1, 1⟩) ∧
      ((handoff 0).handoffs.get 15).entry.isSome = true ∧ ((handoff 1).handoffs.get 15).refs = 1 ∧
      ((tariff 0).tariffs.get 7).valid = true ∧ ((tariff 1).tariffs.get 7).refs = 1 ∧
      (DIR.reset.accounts.get 15).permitted = none ∧ (DIR.reset.handoffs.get 15).entry = none ∧
      (STL.reset.tariffs.get 7).valid = false ∧ (16 : Byte).toNat = 16 ∧ (8 : Byte).toNat = 8 := by
  refine ⟨fun d q => ready_of_lnk rfl, ?_⟩
  decide +kernel

/-- The bounds of the fields, a counted account and tariff, and a booking table that is not empty. -/
theorem witness_SettingsStored :
    let s (refs : Nat) : State := { State.reset with
      dir := { DIR.reset with accounts := upd DIR.reset.accounts 15 ⟨some 1, refs⟩ }
      stl := STL.reset.onTariff 7 fun x => { x with refs := refs } }
    (∀ n, (s n).Ready) ∧ (withRecord (record .closing)).Ready ∧ (∃ i, (withRecord (record .closing)).place i ≠ none) ∧
      (¬∃ i, State.reset.place i ≠ none) ∧ (¬600 < (600 : Half).toNat ∧ 600 < (601 : Half).toNat) ∧
      (((s 0).dir.accounts.get 15).refs = 0 ∧ ((s 1).dir.accounts.get 15).refs ≠ 0 ∧
        ((s 0).stl.tariffs.get 7).refs = 0 ∧ ((s 1).stl.tariffs.get 7).refs ≠ 0) ∧
      ((1 ≤ (3600 : Half).toNat ∧ (3600 : Half).toNat ≤ 3600) ∧ ¬(3601 : Half).toNat ≤ 3600 ∧
        ¬16777215 < (16777215 : Word).toNat ∧ 16777215 < (16777216 : Word).toNat ∧ ¬2 < (2 : Byte).toNat ∧
        2 < (3 : Byte).toNat) := by
  refine ⟨fun n => ready_of_lnk rfl, ready_of_lnk rfl, ⟨0, by decide +kernel⟩, by decide +kernel, ?_⟩
  decide +kernel

/-! ### Witnesses of XPC and MTR -/

/-- Slot 0 of the record in place 0. -/
def slot0 : SlotRef := ⟨0, 0, 1⟩

/-- Port 31 held by nobody, by a patch and by a slot, and disabled. -/
theorem witness_Patches :
    let s (x : XPort) : State := State.reset.setXPort 31 x
    let off : State := { State.reset with dir := { DIR.reset with ports := same 32 ⟨false, none⟩ } }
    (∀ x, (s x).Ready ∧ (s x).xport 31 = x) ∧ (off.Ready ∧ (off.dir.ports.get 31).enabled = false) ∧
      (State.reset.dir.ports.get 31).enabled = true ∧ XPort.reset.patch = none ∧
      (XPort.reset.setPatch 5).patch = some 5 ∧ (XPort.reset.setPatch 5).claim = .patch ∧
      ({ XPort.reset with holder := .slot slot0 } : XPort).holder.isSlot = true ∧
      (31 : Byte).toNat < 32 ∧ ¬(32 : Byte).toNat < 32 ∧ (47 : Byte).toNat < 48 ∧ ¬(48 : Byte).toNat < 48 := by
  refine ⟨fun x => ⟨ready_of_lnk rfl, by simp⟩, ⟨ready_of_lnk rfl, by decide +kernel⟩, ?_⟩
  decide +kernel

/-- Every port carries PARK, with no entry. -/
def parked : State :=
  { State.reset with xpc := { XPC.reset with ports := same 32 ⟨.park, .nobody, none, none, none⟩ } }

/-- Nothing to take; a take that sends orders; one that sends none; a take in flight. -/
theorem witness_MarkerReaders :
    let same_ : State := parked.onXPort 31 fun x => { x with entry := some ⟨.nobody, []⟩ }
    parked.takePorts = [] ∧ (same_.takePorts = [31] ∧ same_.xpcMarker.xpc.orders = []) ∧
      (State.reset.takePorts ≠ [] ∧ State.reset.xpcMarker.xpc.orders ≠ []) ∧
      (inFlight State.reset).xpc.inFlight = true := by decide +kernel

/-- R132: PSEL has moved circuit 0 to its B route. A take that starts before XPC takes the re-source orders the new route
for a SUSPECT port of feed 0, and the re-source then makes a new entry. -/
theorem test_resource_behind_take_start :
    let s : State := { allOk with
      bku := (withRecord (record .live)).bku
      xpc := { parked.xpc with ports := upd parked.xpc.ports 0 { XPort.reset with holder := .slot slot0, entry := none } } }
    let moved := s.setCircuit 0 { Circuit.reset with selector := some .selB }
    let started := moved.xpcMarker
    let done := s.handSelections moved started
    started.xpc.orders = [⟨0, .route 1⟩] ∧ (started.xport 0).entry = none ∧ done.xpc.orders = [⟨0, .route 1⟩] ∧
      (done.xport 0).entry = some ⟨.slot slot0, []⟩ := by decide +kernel

/-- A group that is no word; an order that is one of two and one that is the last, at a SUSPECT port that is the last
SUSPECT one; the confirm timer at its instant and before it; a holder's booking at the port. -/
theorem witness_Confirms :
    let last : State := inFlight (parked.onXPort 0 fun x => { x with committed := .suspect })
    let two : State := { last with xpc := { last.xpc with orders := [⟨0, .route 1⟩, ⟨31, .park⟩] } }
    let held : State := inFlight ((withRecord (record .live)).setXPort 0 { XPort.reset with holder := .slot slot0 })
    let o : Order := ⟨0, .route 1⟩
    (∀ o : Order, ([] : List Byte) = o.word → last.xpc.inFlight = false ∨ o ∉ last.xpc.orders) ∧
      (o ∈ last.xpc.orders ∧ last.xpc.inFlight = true ∧ last.xpc.orders.filter (· != o) = [] ∧
        (last.xport 0).committed = .suspect ∧ last.suspectPorts = [0]) ∧
      (o ∈ two.xpc.orders ∧ two.xpc.inFlight = true ∧ two.xpc.orders.filter (· != o) ≠ []) ∧
      (isDue last.xpc.timer last.tb.elapsed = true ∧ isDue (some 1) last.tb.elapsed = false) ∧
      (isDue held.xpc.timer held.tb.elapsed = true ∧ 0 ∈ held.xpc.orders.map (·.port) ∧
        (held.xport 0).holder = .slot slot0 ∧ (held.place 0).map (·.booking.id) = some slot0.id) := by
  refine ⟨fun o h => by simp [Order.word] at h, ?_⟩
  decide +kernel

/-- A record in STARTING and one in ENDING, with the riders that name them. -/
theorem witness_TakeCompletion :
    (∃ p, (withRecord (record .starting)).place 0 = some p ∧ p.booking.state = .starting) ∧
      (∃ p, (withRecord (record .ending)).place 0 = some p ∧ p.booking.state = .ending) ∧
      (withRecord (record .ending)).place 1 = none := ⟨⟨_, rfl, rfl⟩, ⟨_, rfl, rfl⟩, by decide +kernel⟩

/-- A slot of a running booking, whose port carries nothing although its flag says delivered. -/
def undelivered : State :=
  ((withRecord (record .live)).setXPort 0 { XPort.reset with holder := .slot slot0, delivered := some true }).onMeter 0
    fun m => { m with phase := .running, gate := true, copies := [some true] }

/-- The flag changes, the gate closes, and an episode opens. -/
theorem witness_FlagsReachTheMeters :
    undelivered.deliveredNow 0 ≠ (undelivered.xport 0).delivered ∧ (undelivered.xport 0).holder = .slot slot0 ∧
      (undelivered.place 0).map (fun x => (x.booking.id, x.meter.copies.length, x.meter.phase, x.meter.gate)) =
        some (slot0.id, 1, .running, true) ∧
      ((undelivered.recomputeFlags [0]).place 0).map (fun y => (y.meter.gate, y.meter.episode)) = some (false, some 0) := by
  decide +kernel

/-! ### Witnesses of BKU -/

/-- The BOOK body of a booking of feeds 0 and 2 under handoff 3, [100, 160). -/
def body : BookFields := ⟨1, 5, 0, 3, 2, 0, 2, 0, 0, 100, 160, 0, 0, 0, 0, 0, 0, 60, 0⟩

/-- Account 5 with tariff 0 permitted, handoff 3 of ports 8, 9, 10, and tariff 0. -/
def bookable : State := { State.reset with
  dir := { DIR.reset with
    accounts := upd DIR.reset.accounts 5 ⟨some 1, 0⟩
    handoffs := upd DIR.reset.handoffs 3 ⟨some ⟨5, [8, 9, 10], 0xFFFF⟩, 0⟩ }
  stl := STL.reset.onTariff 0 fun x => { x with valid := true } }

/-- The status of the reply to the last of some requests, each of them served. -/
def lastStatus (cs : List Instr) (s : State) : Option Status :=
  ((after cs (sending .nothing s)).lnk.replies.getLast?).map (·.reply.status)

/-- Every outcome of BOOK is met: fields, id, account, tariff, owner, permission, route, works, ports, room, and
admission. -/
theorem witness_Book :
    let out (f : BookFields) (s : State) : Option Status := lastStatus [.book 1 f] s
    let dir (d : DIR → DIR) : State := { bookable with dir := d bookable.dir }
    let full : State := { bookable with bku := { BKU.reset with
      places := same 192 (some ⟨{ record .scheduled with id := 2 }, MeterSet.fresh 1, none⟩) } }
    let works : State := (bookable.setRoute 0 { Route.reset with worksStart := 159, worksEnd := 200 }).setRoute 1
      { Route.reset with worksStart := 0, worksEnd := 160 }
    (bookable.Ready ∧ (sharedHandoff 120 true).Ready) ∧
    [out { body with e0 := 159 } bookable, out { body with id := 0 } bookable, out body (withRecord (record .live)),
      out body State.reset, out { body with tariff := 1 } bookable,
      out body (dir fun d => { d with accounts := upd d.accounts 5 ⟨some 2, 0⟩ }),
      out body (dir fun d => { d with handoffs := upd d.handoffs 3 ⟨some ⟨6, [8], 0⟩, 0⟩ }),
      out { body with feed1 := 3 } bookable, out body works,
      out body (dir fun d => { d with ports := upd (upd d.ports 8 ⟨false, none⟩) 9 ⟨false, none⟩ }), out body full,
      out body bookable] =
    [some .badField, some .badField, some .exists_, some .noSuch, some .noSuch, some .badField, some .badField,
      some .noSuch, some .worksConflict, some .conflict, some .noRoom, some .ok] := by
  refine ⟨⟨ready_of_lnk rfl, ready_of_lnk rfl⟩, ?_⟩
  decide +kernel

theorem witness_Allocation : (bookable.dir.handoffs.get 3).entry = some ⟨5, [8, 9, 10], 0xFFFF⟩ := by decide +kernel

/-- An unknown id; ENDING; an end in the past, below the least span, at both bounds of the span and beyond; a conflict. -/
theorem witness_Amend :
    let s (st : BookingState) : State := withRecord (record st)
    let next : State := (s .live).admitRecord 1 { record .scheduled with id := 2, s0 := 400, e0 := 460, e := 460 }
    let out (s : State) (id : Half) (n : Word) : Option Status := lastStatus [.amend 1 id n] s
    (∀ st, (s st).Ready) ∧ (s .live).findRecord 2 = none ∧ (s .live).findRecord 1 = some 0 ∧
      [out (s .ending) 1 200, out (s .live) 1 0, out (s .live) 1 159, out (s .live) 1 160, out (s .live) 1 86500,
        out (s .live) 1 86501, out next 1 281, out next 1 280] =
      [some .state, some .badField, some .badField, some .ok, some .ok, some .badField, some .conflict, some .ok] := by
  refine ⟨fun st => ready_of_lnk rfl, ?_⟩
  decide +kernel

/-- `s` with a settlement queue that is full. -/
def fullQueue (s : State) : State := { s with stl := { s.stl with queue := List.replicate 64 { settlement with id := 9 } } }

/-- An unknown id, and a record in each state, with room in the settlement queue and with none. -/
theorem witness_CancelAndEnd :
    let s (st : BookingState) : State := withRecord (record st)
    (∀ st, (s st).Ready ∧ (fullQueue (s st)).Ready) ∧ (s .live).findRecord 2 = none ∧
      (∀ st, (s st).findRecord 1 = some 0) ∧ ∀ st, (record st).ports.Nodup := by
  refine ⟨fun st => ⟨ready_of_lnk rfl, ready_of_lnk rfl⟩, by decide +kernel, fun st => ?_, fun st => by simp [record]⟩
  cases st <;> decide +kernel

/-- R144, R165: a record cancelled against a full queue waits in CLOSING with its meters frozen. -/
theorem test_closing_is_frozen :
    ((after [.cancel 1 1] (fullQueue (withRecord (record .scheduled)))).place 0).map
      (fun p => (p.booking.state, p.meter.phase, p.held.isSome)) = some (.closing, .frozen, true) := by decide +kernel

/-- A record in SCHEDULED and in LIVE; slots and feeds in range and out of it; a feed that does not exist, one of the
booking, one with both routes under works, and one that is free. -/
theorem witness_Swap :
    let s (st : BookingState) : State := withRecord (record st)
    let works : State := ((s .live).setRoute 46 { Route.reset with worksActive := true }).setRoute 47
      { Route.reset with worksActive := true }
    let out (s : State) (slot feed : Byte) : Option Status := lastStatus [.swap 1 1 slot feed] s
    (∀ st, (s st).Ready) ∧ works.Ready ∧
      [out (s .scheduled) 0 46, out (s .live) 1 46, out (s .live) 0 48, out (s .live) 0 47, out (s .live) 0 0,
        out works 0 46, out (s .runOn) 0 46] =
      [some .state, some .badField, some .badField, some .noSuch, some .badField, some .worksConflict, some .ok] := by
  refine ⟨fun st => ready_of_lnk rfl, ready_of_lnk rfl, ?_⟩
  decide +kernel

/-- The next entry is the arm entry, the start entry, an entry of another record; the start test's three outcomes. -/
theorem witness_ArmAndStartEntries :
    let s (k : EntryKind) : State := due k (withRecord (record .scheduled))
    let waits : State := (due .start (withRecord (record .scheduled))).onXPort 31 id
    let busy : State := (waits.admitRecord 1 { record .live with id := 2, s0 := 10, e0 := 90, e := 90 })
    let ready : State := { waits with rmon := allOk.rmon }
    let reason (s : State) : Option Reason := ((after [.startEntry 0] s).place 0).bind (·.booking.reason)
    (∀ k, (s k).nextEntry = some ⟨0, 0, k, false⟩) ∧ (record .scheduled).ports.Nodup ∧
      reason waits = some .feedsUnavailable ∧ reason { busy with bku := { busy.bku with timeList := waits.bku.timeList } } =
        some .portOccupied ∧ reason ready = some .timeStart ∧ State.reset.nextEntry = none := by
  refine ⟨fun k => by cases k <;> decide +kernel, ?_⟩
  decide +kernel

/-- The end entry in each state, and run-on at the least span of 60 s and one second below it. -/
theorem witness_EndEntry :
    let s (b : Booking) : State := due .stop (withRecord b)
    let more (margin : Nat) : State :=
      let x : State := s { record .live with runOn := true, limit := 1 }
      let y := x.admitRecord 1 { record .scheduled with id := 2, s0 := 340, e0 := 400, e := 400 }
      { y with bku := { y.bku with timeList := x.bku.timeList }, dir := { y.dir with margin := margin } }
    let reason (s : State) : Option Reason := ((after [.endEntry 0] s).place 0).bind (·.booking.reason)
    (∀ st, (s (record st)).nextEntry = some ⟨0, 0, .stop, false⟩) ∧ (record .live).ports.Nodup ∧
      (more 120).nextEntry = some ⟨0, 0, .stop, false⟩ ∧ reason (more 120) = some .extended ∧
      reason (more 121) = some .completed ∧ reason (s (record .live)) = some .completed ∧
      reason (s { record .starting with e0 := 150 }) = some .runOnLimit := by
  refine ⟨fun st => by cases st <;> decide +kernel, ?_⟩
  decide +kernel

/-- A filter at its expiry and before it, an enabled line with a new level and a matching record, and a pulse at its
end. -/
theorem witness_CueAndPulseEvents :
    let q : CueLine := { input := true, accepted := false, timer := some 0, enabled := true, invert := false }
    let b : Booking := { record .armed with trigger := .cue, cueLine := some 3, cueEdge := some .rise }
    let s : State := (withRecord b).setCueLine 3 q
    isDue q.timer s.tb.elapsed = true ∧ isDue (some 1) s.tb.elapsed = false ∧ (q.input != q.invert) ≠ q.accepted ∧
      ((after [.cueEdge 3] s).place 0).map (·.booking.state) = some .waiting ∧
      ((after [.cueEdge 3] { s with rmon := allOk.rmon }).place 0).map (·.booking.state) = some .starting ∧
      (after [.markerPulseEnd] { s with tcu := { s.tcu with markerPulse := some 0 } }).tcu.markerPulse = none := by
  decide +kernel

/-! ### Witnesses of STL -/

theorem witness_Pricing :
    (MeterSet.fresh 1).AllZero ∧ 0 < (⟨1, 0, 0, 0, 0, 0, 0, .all⟩ : TariffTerms).granule ∧ (MeterSet.fresh 1).t ≤ (MeterSet.fresh 1).s := by
  unfold MeterSet.AllZero
  decide

/-- An empty queue, another id, a record with no closing list, and one with a closing record that waits for room. -/
theorem witness_SettleRelease :
    let s : State := fullQueue ((withRecord (record .closing)).setPlace 0
      (some ⟨record .closing, MeterSet.fresh 1, some settlement⟩))
    let closing : State := { s with stl := { s.stl with closing := [0] } }
    State.reset.Ready ∧ oneSettled.Ready ∧ closing.Ready ∧ settlement.id = 1 ∧ oneSettled.stl.closing = [] ∧
      closing.stl.closing = [0] ∧ (closing.stl.queue.head?).map (·.id) = some 9 ∧
      closing.place 0 = some ⟨record .closing, MeterSet.fresh 1, some settlement⟩ ∧
      (after [.settleRelease 1 9] closing).stl.queue.getLast? = some settlement := by
  refine ⟨reset_ready, ready_of_lnk rfl, ready_of_lnk rfl, ?_⟩
  decide +kernel

theorem witness_ClearAccount : State.reset.Ready ∧ (15 : Byte).toNat < 16 ∧ ¬(16 : Byte).toNat < 16 :=
  ⟨reset_ready, by decide, by decide⟩

/-! ### Witnesses of NTC, TCU and the reads -/

/-- The bounds of the fields, by the replies. -/
theorem witness_PanelSettings :
    State.reset.Ready ∧
      [lastStatus [.setNotices 1 0 1 0 1 0 1] State.reset, lastStatus [.setNotices 1 0 1 0 1 0 2] State.reset,
        lastStatus [.setTally 1 7 9 63 1] State.reset, lastStatus [.setTally 1 8 0 0 0] State.reset,
        lastStatus [.setTally 1 0 10 0 0] State.reset, lastStatus [.setTally 1 0 1 47 0] State.reset,
        lastStatus [.setTally 1 0 2 48 0] State.reset, lastStatus [.setTally 1 0 3 31 0] State.reset,
        lastStatus [.setTally 1 0 3 32 0] State.reset, lastStatus [.setTally 1 0 4 23 0] State.reset,
        lastStatus [.setTally 1 0 4 24 0] State.reset, lastStatus [.setCue 1 3 1 1] State.reset,
        lastStatus [.setCue 1 4 1 1] State.reset] =
      [some .ok, some .badField, some .ok, some .badField, some .badField, some .ok, some .badField, some .ok,
        some .badField, some .ok, some .badField, some .ok, some .badField] := by
  refine ⟨reset_ready, ?_⟩
  decide +kernel

/-- The bounds of the fields, and an id in the table and one that is not. -/
theorem witness_Reads :
    State.reset.Ready ∧ (withRecord (record .live)).Ready ∧ (withRecord (record .live)).findRecord 1 = some 0 ∧
      State.reset.findRecord 1 = none ∧ ((47 : Byte).toNat < 48 ∧ ¬(48 : Byte).toNat < 48) ∧
      ((23 : Byte).toNat < 24 ∧ ¬(24 : Byte).toNat < 24) ∧ ((31 : Byte).toNat < 32 ∧ ¬(32 : Byte).toNat < 32) ∧
      (191 : Byte).toNat < 192 ∧ ¬(192 : Byte).toNat < 192 := by
  refine ⟨reset_ready, ready_of_lnk rfl, ?_⟩
  decide +kernel

/-! ### Witnesses of LNK -/

/-- A request while a hold stands, with four in the queue, and with the BUSY slot in use as well; an unserved request
behind a served one; kinds of another length and of none; scopes 1 and 2. -/
theorem witness_Arrivals :
    let q (n : Nat) : State := { State.reset with lnk := { State.reset.lnk with queue := List.replicate n ⟨7, .ident, true⟩ } }
    let held : State := { q 3 with lnk := { (q 3).lnk with hold := some .all } }
    requestOf (.ident 1) = some (1, .ident) ∧ (held.lnk.queue.length < 4 ∧ held.lnk.hold ≠ none) ∧
      (¬(q 4).lnk.queue.length < 4 ∧ (q 4).lnk.busySlot = false) ∧
      ((resetting .all State.reset).lnk.queue = [⟨7, .reset 0, true⟩] ++ ⟨8, .readTime, false⟩ :: [] ∧
        (resetting .all State.reset).lnk.hold = none) ∧ State.reset.Ready ∧ requestKind 0x45 [] = none ∧
      ((requestKind 0x40 [5]).map (·.1) = some 2) ∧ (1 : Byte).toNat < 2 ∧ ¬(2 : Byte).toNat < 2 := by
  refine ⟨rfl, by decide +kernel, by decide +kernel, ⟨rfl, rfl⟩, reset_ready, by decide +kernel, by decide +kernel, by decide, by decide⟩

/-- The part after reset, with some bytes received, and with the gap timer running where it is given. -/
def received (bs : List Byte) (gap : Option Nat) : State :=
  { State.reset with lnk := { State.reset.lnk with rx := bs, gap := gap } }

/-- A byte in HUNT, in a frame, at a length of 512 and of 513, and the last byte; a complete frame that awaits its check;
the gap timer at its expiry and before it; bytes with no marker, and behind the first marker a frame over length, a good
one, one with a bad check and an unfinished one, with a second marker among the bytes that follow. -/
theorem witness_Receiving :
    let good : List Byte := frameOf 0x11 0x2A []
    let s (bs : List Byte) : State := received bs (some 0)
    complete (s []).lnk.rx = false ∧ complete (s [0xC5, 2]).lnk.rx = false ∧
      256 * ([0xC5, 2, 0] : List Byte)[1].toNat + ([0xC5, 2, 0] : List Byte)[2].toNat = 512 ∧
      256 * ([0xC5, 2, 1] : List Byte)[1].toNat + ([0xC5, 2, 1] : List Byte)[2].toNat = 513 ∧
      complete good.dropLast = false ∧ (complete good = true ∧ oversize good = false) ∧
      isDue (s good).lnk.gap 0 = true ∧ isDue (some 1) 0 = false ∧ (0xC5 : Byte) ∉ ([2, 1] : List Byte) ∧
      512 < bodyLength ([0xC5, 2, 1] ++ good) ∧
      (7 + bodyLength (good ++ [0xC5]) ≤ (good ++ [0xC5]).length ∧ checkOk (good ++ [0xC5]) = true) ∧
      (7 + bodyLength (good.dropLast ++ [0xC5]) ≤ (good.dropLast ++ [0xC5]).length ∧
        checkOk (good.dropLast ++ [0xC5]) = false) ∧
      ¬7 + bodyLength good.dropLast ≤ good.dropLast.length := by decide +kernel

/-- R188: the bytes of a discarded frame hold a second marker, from which a good frame is taken. -/
theorem test_rescan_finds_second_marker :
    let t : State := after ((([0xC5, 0, 0, 1, 2] : List Byte) ++ frameOf 0x11 0x2A []).map .byteReceived ++ [.frameReceived])
      (sending .nothing State.reset)
    t.lnk.rx = [] ∧ t.lnk.errors = 1 ∧ (t.lnk.replies.map fun u => (u.reply.kind, u.reply.tag)) = [(0x91, 0x2A)] := by
  decide +kernel

theorem witness_FramesAreTaken :
    let s : State := sending .nothing State.reset
    ([] : List Byte).length ≤ 512 ∧ s.lnk.rx = [] ∧ s.lnk.gap = none ∧ s.lnk.line ≠ none ∧
      requestOf (.readTime 0x2A) = some (0x2A, parseRequest 0x11 []) := by decide +kernel

/-- The line free and busy with each end; READY, a reply, a notice, and the last two together. -/
theorem witness_Transmitter :
    let idle : State := { State.reset with lnk := { State.reset.lnk with ready := none } }
    let r : State := { idle with lnk := { idle.lnk with replies := [⟨⟨0x91, 1, .ok, .empty⟩, .place⟩] } }
    let n (s : State) : State := { s with ntc := { s.ntc with flags := upd s.ntc.flags takeObject true, list := [takeObject] } }
    State.reset.lnk.ready ≠ none ∧ State.reset.lnk.line = none ∧ (∀ e, (sending e State.reset).lnk.line ≠ none) ∧
      (idle.lnk.ready = none ∧ idle.lnk.replies = [] ∧ idle.ntc.list = []) ∧
      (r.lnk.replies ≠ [] ∧ r.ntc.list = []) ∧ ((n idle).lnk.replies = [] ∧ (n idle).ntc.list ≠ []) ∧
      (n r).lnk.replies ≠ [] ∧ (n r).ntc.list ≠ [] := by
  refine ⟨by decide +kernel, by decide +kernel, fun e => by simp [sending], ?_⟩
  decide +kernel

end Sys2Proof.Tests
end

