-- ==== Sys2Proof/Proofs/PlainReads.lean ====
section
/-! PROOFS. The requests that only read (O21): the service of each hands the state back as it is, so the arrival of the
request leaves everything outside LNK. -/

namespace Sys2Proof.Machine

/-! ### What the reads hand back -/

/-- An identifier in its range is accepted (R192). -/
theorem idOf_of_lt {w n : Nat} {b : BitVec w} (h : b.toNat < n) : idOf n b = some ⟨b.toNat, h⟩ := dif_pos h

/-- An identifier out of its range is refused (R192). -/
theorem idOf_of_not_lt {w n : Nat} {b : BitVec w} (h : ¬b.toNat < n) : idOf n b = none := dif_neg h

namespace State

/-- SETTLE_PEEK with a settlement record in the queue: the oldest, and how many there are (R167). -/
theorem serveSettlePeek_of_cons {s : State} {x : Settlement} {rest : List Settlement} (h : s.stl.queue = x :: rest) :
    s.serveSettlePeek = (s, ⟨.ok, .settlement x (rest.length + 1) s.stl.closing.length⟩) := by
  simp [serveSettlePeek, h, okWith]

/-- SETTLE_PEEK with the queue empty (R167). -/
theorem serveSettlePeek_of_nil {s : State} (h : s.stl.queue = []) :
    s.serveSettlePeek = (s, ⟨.noSuch, .noSettlement 0 0⟩) := by
  simp [serveSettlePeek, h]

/-- READ_ACCOUNT of an account of the directory (R170). -/
theorem serveReadAccount_of_lt (s : State) {account : Byte} (h : account.toNat < 16) :
    s.serveReadAccount account =
      (s, ⟨.ok, .accountTotals ⟨account.toNat, h⟩ (s.dir.accounts.get ⟨account.toNat, h⟩).permitted.isSome
        (s.dir.accounts.get ⟨account.toNat, h⟩).refs (s.stl.totals.get ⟨account.toNat, h⟩)⟩) := by
  simp only [serveReadAccount, idOf_of_lt h, okWith]

/-- READ_ACCOUNT of a number past the directory (R170, R192). -/
theorem serveReadAccount_of_not_lt (s : State) {account : Byte} (h : ¬account.toNat < 16) :
    s.serveReadAccount account = (s, ⟨.badField, .empty⟩) := by
  simp only [serveReadAccount, idOf_of_not_lt h, refusal]

end State

/-! ### The requests -/

/-- A request whose service hands its state back changes nothing outside LNK. -/
theorem Answered.of_read {c : Instr} {tag : Byte} {r : Request} (h : requestOf c = some (tag, r)) {s : State}
    (hs : s.Ready) (hr : ∀ scope, r ≠ .reset scope) {a : Answer}
    (hread : (s.enqueue tag r).serveBody r = (s.enqueue tag r, a)) : Answered c s a s :=
  Answered.intro h hs hr (by rw [hread]) (by rw [hread]; rfl)

theorem readTime_answered (tag : Byte) {s : State} (hs : s.Ready) :
    Answered (.readTime tag) s
      ⟨.ok, .clock s.tb.seconds s.tb.sub s.tb.elapsed s.tb.source s.tb.rate s.tb.refState s.tb.frame s.tb.frameMax⟩ s :=
  Answered.of_read (r := .readTime) rfl hs (fun _ => nofun) rfl

theorem settlePeek_answered_of_cons (tag : Byte) {s : State} (hs : s.Ready) {x : Settlement} {rest : List Settlement}
    (h : s.stl.queue = x :: rest) :
    Answered (.settlePeek tag) s ⟨.ok, .settlement x (rest.length + 1) s.stl.closing.length⟩ s :=
  Answered.of_read (r := .settlePeek) rfl hs (fun _ => nofun)
    (State.serveSettlePeek_of_cons (s := s.enqueue tag .settlePeek) h)

theorem settlePeek_answered_of_nil (tag : Byte) {s : State} (hs : s.Ready) (h : s.stl.queue = []) :
    Answered (.settlePeek tag) s ⟨.noSuch, .noSettlement 0 0⟩ s :=
  Answered.of_read (r := .settlePeek) rfl hs (fun _ => nofun)
    (State.serveSettlePeek_of_nil (s := s.enqueue tag .settlePeek) h)

theorem readAccount_answered_of_lt (tag : Byte) {account : Byte} {s : State} (hs : s.Ready)
    (h : account.toNat < 16) :
    Answered (.readAccount tag account) s
      ⟨.ok, .accountTotals ⟨account.toNat, h⟩ (s.dir.accounts.get ⟨account.toNat, h⟩).permitted.isSome
        (s.dir.accounts.get ⟨account.toNat, h⟩).refs (s.stl.totals.get ⟨account.toNat, h⟩)⟩ s :=
  Answered.of_read (r := .readAccount account) rfl hs (fun _ => nofun)
    (State.serveReadAccount_of_lt (s.enqueue tag (.readAccount account)) h)

theorem readAccount_answered_of_not_lt (tag : Byte) {account : Byte} {s : State} (hs : s.Ready)
    (h : ¬account.toNat < 16) : Answered (.readAccount tag account) s ⟨.badField, .empty⟩ s :=
  Answered.of_read (r := .readAccount account) rfl hs (fun _ => nofun)
    (State.serveReadAccount_of_not_lt (s.enqueue tag (.readAccount account)) h)

theorem ident_answered (tag : Byte) {s : State} (hs : s.Ready) :
    Answered (.ident tag) s ⟨.ok, .ident 4832 1 48 32 192 64 4 s.lnk.strap⟩ s :=
  Answered.of_read (r := .ident) rfl hs (fun _ => nofun) rfl

/-- Settles O21: the service of each of the four requests hands the state back. -/
theorem plainReads : Obligations.PlainReads := by
  intro tag account s hs
  refine ⟨readTime_answered tag hs, ?settlePeek, ?readAccount, ident_answered tag hs⟩
  case settlePeek =>
    split
    next h => exact settlePeek_answered_of_cons tag hs h
    next h => exact settlePeek_answered_of_nil tag hs h
  case readAccount =>
    split
    next h => exact readAccount_answered_of_lt tag hs h
    next h => exact readAccount_answered_of_not_lt tag hs h

end Sys2Proof.Machine
end

