-- ==== Sys2Proof/Proofs/DeleteEntry.lean ====
section
/-! PROOFS. DELETE_ENTRY (O37): what the deletion of each kind of entry answers and makes of the tables, one lemma for
each of its outcomes, and from them the answer to the request. -/

namespace Sys2Proof.Machine

/-! ### The changes to the tables -/

/-- An account with no references whose permitted set is taken away is back at its reset value (R66). -/
theorem DIR.setPermitted_none {d : DIR} {a : Fin 16} (h : (d.accounts.get a).refs = 0) :
    d.setPermitted a none = { d with accounts := upd d.accounts a ⟨none, 0⟩ } := by
  simp only [DIR.setPermitted, h]

/-- A handoff with no references whose entry is taken away is back at its reset value (R66). -/
theorem DIR.setEntry_none {d : DIR} {g : Fin 16} (h : (d.handoffs.get g).refs = 0) :
    d.setEntry g none = { d with handoffs := upd d.handoffs g ⟨none, 0⟩ } := by
  simp only [DIR.setEntry, h]

/-- With no members, exactly the ports that record the handoff lose it (R65, R66). -/
theorem DIR.assignPorts_nil_get (d : DIR) (g : Fin 16) (p : Fin 32) :
    (d.assignPorts g []).ports.get p =
      if (d.ports.get p).handoff = some g then ⟨(d.ports.get p).enabled, none⟩ else d.ports.get p := by
  simp [DIR.assignPorts]

/-- A tariff with no references that is made not valid keeps its terms (R66). -/
theorem STL.onTariff_invalid {q : STL} {k : Fin 8} (h : (q.tariffs.get k).refs = 0) :
    (q.onTariff k fun x => { x with valid := false }) =
      { q with tariffs := upd q.tariffs k ⟨(q.tariffs.get k).terms, false, 0⟩ } := by
  rw [STL.onTariff, h]

namespace State

/-! ### The outcomes for each kind -/

theorem deleteAccount_of_undefined {s : State} {a : Fin 16} (h : (s.dir.accounts.get a).permitted = none) :
    s.deleteAccount a = (s, refusal .noSuch) := if_pos h

/-- Some handoff belongs to the account. -/
theorem any_handoff_of_account_iff (s : State) (a : Fin 16) :
    ((List.finRange 16).any fun g => (s.dir.handoffs.get g).entry.any fun e => e.account == a) = true ↔
      ∃ g e, (s.dir.handoffs.get g).entry = some e ∧ e.account = a := by
  simp [Option.any_eq_true]

theorem deleteAccount_of_inUse {s : State} {a : Fin 16} (h : (s.dir.accounts.get a).permitted ≠ none)
    (used : (s.dir.accounts.get a).refs ≠ 0 ∨ ∃ g e, (s.dir.handoffs.get g).entry = some e ∧ e.account = a) :
    s.deleteAccount a = (s, refusal .inUse) := by
  rw [← any_handoff_of_account_iff] at used
  rw [deleteAccount, if_neg h, if_pos used]

theorem deleteAccount_of_free {s : State} {a : Fin 16} (h : (s.dir.accounts.get a).permitted ≠ none)
    (free : ¬((s.dir.accounts.get a).refs ≠ 0 ∨ ∃ g e, (s.dir.handoffs.get g).entry = some e ∧ e.account = a)) :
    s.deleteAccount a =
      ({ s with dir := { s.dir with accounts := upd s.dir.accounts a ⟨none, 0⟩ } }, okWith (.entry .account a.val)) := by
  have unreferenced : (s.dir.accounts.get a).refs = 0 := by
    by_contra used
    exact free (.inl used)
  rw [← any_handoff_of_account_iff] at free
  rw [deleteAccount, if_neg h, if_neg free, DIR.setPermitted_none unreferenced]

theorem deleteHandoff_of_undefined {s : State} {g : Fin 16} (h : (s.dir.handoffs.get g).entry = none) :
    s.deleteHandoff g = (s, refusal .noSuch) := if_pos h

theorem deleteHandoff_of_inUse {s : State} {g : Fin 16} (h : (s.dir.handoffs.get g).entry ≠ none)
    (used : (s.dir.handoffs.get g).refs ≠ 0) : s.deleteHandoff g = (s, refusal .inUse) := by
  rw [deleteHandoff, if_neg h, if_pos used]

theorem deleteHandoff_of_free {s : State} {g : Fin 16} (h : (s.dir.handoffs.get g).entry ≠ none)
    (free : (s.dir.handoffs.get g).refs = 0) :
    s.deleteHandoff g =
      ({ s with dir := DIR.assignPorts { s.dir with handoffs := upd s.dir.handoffs g ⟨none, 0⟩ } g [] },
        okWith (.entry .handoff g.val)) := by
  rw [deleteHandoff, if_neg h, if_neg (not_not.mpr free), DIR.setEntry_none free]

theorem deleteTariff_of_invalid {s : State} {k : Fin 8} (h : (s.stl.tariffs.get k).valid = false) :
    s.deleteTariff k = (s, refusal .noSuch) := by
  simp [deleteTariff, h]

theorem deleteTariff_of_inUse {s : State} {k : Fin 8} (h : ¬(s.stl.tariffs.get k).valid = false)
    (used : (s.stl.tariffs.get k).refs ≠ 0) : s.deleteTariff k = (s, refusal .inUse) := by
  simp [deleteTariff, h, used]

theorem deleteTariff_of_free {s : State} {k : Fin 8} (h : ¬(s.stl.tariffs.get k).valid = false)
    (free : (s.stl.tariffs.get k).refs = 0) :
    s.deleteTariff k =
      ({ s with stl := { s.stl with tariffs := upd s.stl.tariffs k ⟨(s.stl.tariffs.get k).terms, false, 0⟩ } },
        okWith (.entry .tariff k.val)) := by
  simp [deleteTariff, h, free, STL.onTariff_invalid]

/-! ### The kind and the index -/

theorem serveDeleteEntry_account (s : State) (index : Byte) :
    s.serveDeleteEntry 0 index =
      if h : index.toNat < 16 then s.deleteAccount ⟨index.toNat, h⟩ else (s, refusal .badField) := by
  by_cases h : index.toNat < 16 <;> simp [serveDeleteEntry, entryClassOf, idOf, h]

theorem serveDeleteEntry_handoff (s : State) (index : Byte) :
    s.serveDeleteEntry 1 index =
      if h : index.toNat < 16 then s.deleteHandoff ⟨index.toNat, h⟩ else (s, refusal .badField) := by
  by_cases h : index.toNat < 16 <;> simp [serveDeleteEntry, entryClassOf, idOf, h]

theorem serveDeleteEntry_tariff (s : State) (index : Byte) :
    s.serveDeleteEntry 2 index =
      if h : index.toNat < 8 then s.deleteTariff ⟨index.toNat, h⟩ else (s, refusal .badField) := by
  by_cases h : index.toNat < 8 <;> simp [serveDeleteEntry, entryClassOf, idOf, h]

/-- A kind that is none of the three (R66). -/
theorem serveDeleteEntry_otherKind (s : State) {kind : Byte} (index : Byte) (account : kind ≠ 0) (handoff : kind ≠ 1)
    (tariff : kind ≠ 2) : s.serveDeleteEntry kind index = (s, refusal .badField) := by
  have none_named : entryClassOf kind = none := by rw [entryClassOf, if_neg account, if_neg handoff, if_neg tariff]
  simp only [serveDeleteEntry, none_named]

end State

/-! ### The request -/

/-- A request whose service makes `t` of the state, and of LNK only what the queued request made of it. -/
theorem Answered.of_update {c : Instr} {tag : Byte} {r : Request} (h : requestOf c = some (tag, r)) {s t : State}
    (hs : s.Ready) (hr : ∀ scope, r ≠ .reset scope) {a : Answer}
    (hserve : (s.enqueue tag r).serveBody r = (t.enqueue tag r, a)) : Answered c s a t :=
  Answered.intro h hs hr (by rw [hserve]) (by rw [hserve]; rfl)

theorem deleteEntry_answered {tag kind index : Byte} {s t : State} (hs : s.Ready) {a : Answer}
    (hserve : (s.enqueue tag (.deleteEntry kind index)).serveDeleteEntry kind index =
      (t.enqueue tag (.deleteEntry kind index), a)) : Answered (.deleteEntry tag kind index) s a t :=
  Answered.of_update (r := .deleteEntry kind index) rfl hs (fun _ => nofun) hserve

/-- Settles O37: for each kind, what the service makes of the index in range, by the outcomes of the deletion, and the
refusal of an index out of range; then the refusal of any other kind. -/
theorem deleteEntry : Obligations.DeleteEntry := by
  intro tag kind index s hs c
  have answered {t : State} {a : Answer} := deleteEntry_answered (tag := tag) (kind := kind) (index := index) (t := t)
    (a := a) hs
  split
  case isTrue account =>
    subst account
    have serve := State.serveDeleteEntry_account (s.enqueue tag (.deleteEntry 0 index)) index
    split
    case isTrue inRange =>
      rw [dif_pos inRange] at serve
      dsimp only
      split_ifs with undefined used
      · exact answered (serve.trans (State.deleteAccount_of_undefined undefined))
      · exact answered (serve.trans (State.deleteAccount_of_inUse undefined used))
      · exact answered (serve.trans (State.deleteAccount_of_free undefined used))
    case isFalse outOfRange => exact answered (serve.trans (dif_neg outOfRange))
  case isFalse notAccount =>
  split
  case isTrue handoff =>
    subst handoff
    have serve := State.serveDeleteEntry_handoff (s.enqueue tag (.deleteEntry 1 index)) index
    split
    case isTrue inRange =>
      rw [dif_pos inRange] at serve
      dsimp only
      split_ifs with undefined used
      · exact answered (serve.trans (State.deleteHandoff_of_undefined undefined))
      · exact answered (serve.trans (State.deleteHandoff_of_inUse undefined used))
      · exact ⟨_, answered (serve.trans (State.deleteHandoff_of_free undefined (not_not.mp used))), rfl, rfl, rfl,
          DIR.assignPorts_nil_get _ _⟩
    case isFalse outOfRange => exact answered (serve.trans (dif_neg outOfRange))
  case isFalse notHandoff =>
  split
  case isTrue tariff =>
    subst tariff
    have serve := State.serveDeleteEntry_tariff (s.enqueue tag (.deleteEntry 2 index)) index
    split
    case isTrue inRange =>
      rw [dif_pos inRange] at serve
      dsimp only
      split_ifs with invalid used
      · exact answered (serve.trans (State.deleteTariff_of_invalid invalid))
      · exact answered (serve.trans (State.deleteTariff_of_inUse invalid used))
      · exact answered (serve.trans (State.deleteTariff_of_free invalid (not_not.mp used)))
    case isFalse outOfRange => exact answered (serve.trans (dif_neg outOfRange))
  case isFalse notTariff => exact answered (State.serveDeleteEntry_otherKind _ index notAccount notHandoff notTariff)

end Sys2Proof.Machine
end

