-- ==== Sys2Proof/Proofs/PlaceChanges.lean ====
section
/-! PROOFS. What a step can make of the places of the booking table: a list of changes, each an event of one block at one
record, and the lemmas that every operation, and with them every step, makes such changes alone. -/

namespace Sys2Proof.Machine

/-! ### The changes of one place -/

/-- What one event may make of a place. A change of a record alone stays among the states of one phase; the changes of
phase are `live`, `ending` and `closing`. -/
inductive Place.Change : Option Place → Option Place → Prop
  /-- Admission (R89, R144). -/
  | admission (b : Booking) (slots : Nat) (state : b.state = .scheduled) (start : b.liveStart = none) :
    Change none (some ⟨b, .fresh slots, none⟩)
  /-- The record is released (R95). -/
  | release (p : Place) : Change (some p) none
  /-- Fields of the record change, its state among those of one phase. -/
  | record (p : Place) (b : Booking) (phase : b.state.phase = p.booking.state.phase)
    (start : b.liveStart = p.booking.liveStart) : Change (some p) (some { p with booking := b })
  /-- A slot's delivered flag is copied (R145). -/
  | copies (p : Place) (cs : List (Option Bool)) :
    Change (some p) (some { p with meter := { p.meter with copies := cs } })
  /-- A SUSPECT event (R154). -/
  | suspect (p : Place) : Change (some p) (some { p with meter := { p.meter with suspectSeen := true } })
  /-- The gate is evaluated (R146). -/
  | gate (p : Place) (basis : GateBasis) (grace : Nat) :
    Change (some p) (some { p with meter := p.meter.evalGate basis grace })
  /-- A millisecond tick (R148). -/
  | tick (p : Place) : Change (some p) (some { p with meter := p.meter.tick })
  /-- A protection switch is counted (R152). -/
  | protect (p : Place) (running : p.meter.phase = .running) :
    Change (some p) (some { p with meter := { p.meter with np := satAdd max16 p.meter.np 1 } })
  /-- A swap is counted (R153). -/
  | swap (p : Place) (running : p.booking.state.phase = .running) :
    Change (some p) (some { p with meter := { p.meter with nt := satAdd max16 p.meter.nt 1 } })
  /-- Overtime begins (R150). -/
  | overtime (p : Place) (running : p.booking.state.phase = .running) :
    Change (some p) (some { p with meter := { p.meter with overtime := true } })
  /-- Entry to LIVE (R108, R147). -/
  | live (p : Place) (b : Booking) (basis : GateBasis) (state : b.state = .live) (start : b.liveStart ≠ none) :
    Change (some p) (some { p with booking := b, meter := p.meter.start basis })
  /-- Entry to ENDING (R116, R151). -/
  | ending (p : Place) (b : Booking) (grace : Nat) (state : b.state = .ending)
    (start : b.liveStart = p.booking.liveStart) :
    Change (some p) (some { p with booking := b, meter := p.meter.freeze grace })
  /-- Entry to CLOSING from before LIVE or from ENDING (R165). -/
  | closing (p : Place) (x : Settlement) (stopped : p.booking.state.phase ≠ .running) :
    Change (some p) (some ⟨{ p.booking with state := .closing }, { p.meter with phase := .frozen }, some x⟩)

/-- One place becomes another by changes one after another. -/
abbrev Place.Reaches : Option Place → Option Place → Prop := Relation.ReflTransGen Place.Change

namespace State

/-! ### The place after each update -/

theorem onPlace_place (s : State) (i j : Fin 192) (f : Place → Place) :
    (s.onPlace i f).place j = if i = j then (s.place j).map f else s.place j := by
  unfold onPlace
  split
  next p h =>
    by_cases e : i = j
    · subst e; simp [h]
    · simp [e, setPlace_place_ne]
  next h =>
    by_cases e : i = j
    · subst e; simp [h]
    · simp [e]

theorem onBooking_place (s : State) (i j : Fin 192) (f : Booking → Booking) :
    (s.onBooking i f).place j =
      if i = j then (s.place j).map fun p => { p with booking := f p.booking } else s.place j := onPlace_place s i j _

theorem onMeter_place (s : State) (i j : Fin 192) (f : MeterSet → MeterSet) :
    (s.onMeter i f).place j =
      if i = j then (s.place j).map fun p => { p with meter := f p.meter } else s.place j := onPlace_place s i j _

theorem enterState_place (s : State) (i j : Fin 192) (st : BookingState) (why : Reason) :
    (s.enterState i st why).place j =
      if i = j then (s.place j).map fun p => { p with booking := { p.booking with state := st, reason := some why } }
      else s.place j := onBooking_place s i j _

theorem evalGateAt_eq_onPlace (s : State) (i : Fin 192) :
    s.evalGateAt i = s.onPlace i fun p =>
      { p with meter := p.meter.evalGate (s.terms p.booking).basis (s.terms p.booking).grace } := rfl

/-- A place that the first-free search finds is free (R77). -/
theorem place_of_freePlace {s : State} {i : Fin 192} (h : s.freePlace = some i) : s.place i = none := by
  simpa using List.find?_some h

/-- A record described by BOOK's fields is in SCHEDULED and has no live-start second (R82). -/
theorem bookingOf_scheduled {f : BookFields} {now : Nat} {b : Booking} (h : bookingOf f now = some b) :
    b.state = .scheduled ∧ b.liveStart = none := by
  have accepted {c : Prop} [Decidable c] {x : Booking} (hx : x.state = .scheduled ∧ x.liveStart = none)
      (h : (if c then some x else none) = some b) : b.state = .scheduled ∧ b.liveStart = none := by
    split at h
    · exact Option.some.inj h ▸ hx
    · cases h
  simp only [bookingOf, Option.bind_eq_bind, Option.bind_eq_some_iff] at h
  obtain ⟨_, -, _, -, _, -, _, -, trigger, -, _, -, _, -, h⟩ := h
  cases trigger with
  | time => exact accepted ⟨rfl, rfl⟩ h
  | cue | timeOrCue =>
    simp only [Option.bind_eq_some_iff] at h
    obtain ⟨_, -, _, -, _, -, h⟩ := h
    exact accepted ⟨rfl, rfl⟩ h

/-- The place that the admission checks give is free (R77, R83). -/
theorem place_of_admissionChecks {v : State} {b : Booking} {ports : List (Fin 32)} {i : Fin 192}
    (h : v.admissionChecks b = .inr (ports, i)) : v.place i = none := by
  unfold admissionChecks at h
  iterate 6 (split at h; · cases h)
  next free =>
    cases h
    exact place_of_freePlace free

theorem phase_of_cancellable {st : BookingState} (h : cancellable st = true) : st.phase = .notStarted := by
  revert h
  cases st <;> decide

/-- A record in place `i`, where there is one, is in a state whose phase satisfies `P`. -/
def PhaseAt (s : State) (i : Fin 192) (P : MeterPhase → Prop) : Prop :=
  ∀ p, s.place i = some p → P p.booking.state.phase

theorem PhaseAt.of_place {s : State} {i : Fin 192} {p : Place} {P : MeterPhase → Prop} (h : s.place i = some p)
    (phase : P p.booking.state.phase) : s.PhaseAt i P := fun q hq => by
  obtain rfl : p = q := Option.some.inj (h.symm.trans hq)
  exact phase

theorem PhaseAt.of_stateAt {s : State} {i : Fin 192} {st : BookingState} {P : MeterPhase → Prop}
    (h : s.stateAt i = some st) (phase : P st.phase) : s.PhaseAt i P := by
  obtain ⟨p, hp, rfl⟩ : ∃ p, s.place i = some p ∧ p.booking.state = st := by simpa [stateAt] using h
  exact .of_place hp phase

theorem PhaseAt.onBooking {s : State} {i : Fin 192} {P : MeterPhase → Prop} (h : s.PhaseAt i P)
    {f : Booking → Booking} (state : ∀ b, (f b).state = b.state) : (s.onBooking i f).PhaseAt i P := fun q hq => by
  rw [onBooking_place, if_pos rfl, Option.map_eq_some_iff] at hq
  obtain ⟨p, hp, rfl⟩ := hq
  exact (state p.booking).symm ▸ h p hp

/-- A record that enters a state has the phase of that state. -/
theorem phaseAt_enterState (s : State) (i : Fin 192) {st : BookingState} {P : MeterPhase → Prop} (phase : P st.phase)
    (why : Reason) : (s.enterState i st why).PhaseAt i P := fun q hq => by
  rw [enterState_place, if_pos rfl, Option.map_eq_some_iff] at hq
  obtain ⟨p, -, rfl⟩ := hq
  exact phase

/-- Every place of `t` is what changes make of the same place of `s`. -/
structure PlacesReach (s t : State) : Prop where
  reaches : ∀ i, Place.Reaches (s.place i) (t.place i)

namespace PlacesReach

theorem refl (s : State) : s.PlacesReach s := ⟨fun _ => .refl⟩

/-- An update elsewhere than in the booking table. -/
theorem elsewhere {s u t : State} (h : s.PlacesReach u) (same : t.bku.places = u.bku.places) : s.PlacesReach t :=
  ⟨fun i => by simpa only [place, same] using h.reaches i⟩

theorem of_agree {l : List Part} {s u t : State} (h : s.PlacesReach u) (a : Agree l u t) (hl : Part.bku ∉ l) :
    s.PlacesReach t := h.elsewhere (congrArg BKU.places (a .bku hl))

/-- Changes at one place, with the others as they are. -/
theorem at_place {s u t : State} (h : s.PlacesReach u) (i : Fin 192) (here : Place.Reaches (u.place i) (t.place i))
    (others : ∀ j, i ≠ j → t.place j = u.place j) : s.PlacesReach t := by
  refine ⟨fun j => ?_⟩
  by_cases e : i = j
  · exact e ▸ (h.reaches i).trans here
  · exact others j e ▸ h.reaches j

theorem setPlace {s u : State} (h : s.PlacesReach u) {i : Fin 192} {o : Option Place}
    (here : Place.Reaches (u.place i) o) : s.PlacesReach (u.setPlace i o) :=
  h.at_place i (by rwa [setPlace_place]) fun _ => setPlace_place_ne _ _

theorem onPlace {s u : State} (h : s.PlacesReach u) {i : Fin 192} {f : Place → Place}
    (here : ∀ p, u.place i = some p → Place.Reaches (some p) (some (f p))) : s.PlacesReach (u.onPlace i f) := by
  unfold State.onPlace
  split
  next p hp => exact h.setPlace (hp ▸ here p hp)
  next => exact h

theorem mapPlaces {s u : State} (h : s.PlacesReach u) {f : Place → Place}
    (each : ∀ p, Place.Reaches (some p) (some (f p))) : s.PlacesReach (u.mapPlaces f) := by
  refine ⟨fun i => (h.reaches i).trans ?_⟩
  rw [mapPlaces_place]
  cases u.place i with
  | none => exact .refl
  | some p => exact each p

/-- A record changes in fields other than its state and its live-start second. -/
theorem onBooking {s u : State} (h : s.PlacesReach u) {i : Fin 192} {f : Booking → Booking}
    (state : ∀ b, (f b).state = b.state) (start : ∀ b, (f b).liveStart = b.liveStart) :
    s.PlacesReach (u.onBooking i f) :=
  h.onPlace fun p _ => .single (.record p _ (congrArg BookingState.phase (state p.booking)) (start p.booking))

/-- A record enters a state of the phase that it is in. -/
theorem enterState {s u : State} (h : s.PlacesReach u) {i : Fin 192} {st : BookingState} (why : Reason)
    (phase : u.PhaseAt i (· = st.phase)) :
    s.PlacesReach (u.enterState i st why) := by
  have entered : s.PlacesReach (u.onBooking i fun b => { b with state := st, reason := some why }) :=
    h.onPlace fun p hp => .single (.record p _ (phase p hp).symm rfl)
  exact entered.elsewhere rfl

theorem foldl {β : Type} {s u : State} {f : State → β → State} (h : s.PlacesReach u) (l : List β)
    (each : ∀ v b, s.PlacesReach v → s.PlacesReach (f v b)) : s.PlacesReach (l.foldl f u) :=
  foldl_inv s.PlacesReach each l u h

/-- Events in any order make the changes that each of them makes. -/
theorem inAnyOrder {s u : State} (h : s.PlacesReach u) {fs : List (State → State)}
    (each : ∀ f ∈ fs, ∀ v, s.PlacesReach v → s.PlacesReach (f v)) : s.PlacesReach (u.inAnyOrder fs) := by
  obtain ⟨order, n, perm, eq⟩ := inAnyOrder_spec fs u
  have all (order : List (State → State)) (k : ∀ f ∈ order, ∀ v, s.PlacesReach v → s.PlacesReach (f v)) (v : State)
      (hv : s.PlacesReach v) : s.PlacesReach (order.foldl (fun s f => f s) v) := by
    induction order generalizing v with
    | nil => exact hv
    | cons f fs ih => exact ih (fun g hg => k g (List.mem_cons_of_mem f hg)) _ (k f (List.mem_cons_self ..) v hv)
  exact eq ▸ all order (fun f hf => each f (perm.mem_iff.1 hf)) _ (h.elsewhere (by rfl))

end PlacesReach

section Operations
variable {s u : State} (h : s.PlacesReach u)
include h

/-! ### Meters and delivered flags -/

theorem PlacesReach.evalGateAt (i : Fin 192) : s.PlacesReach (u.evalGateAt i) := by
  rw [evalGateAt_eq_onPlace]
  exact h.onPlace fun p _ => .single (.gate p _ _)

theorem PlacesReach.storeCopy (ref : SlotRef) (v : Bool) : s.PlacesReach (u.storeCopy ref v) := by
  refine h.onPlace fun p _ => ?_
  split
  · exact .single (.copies p _)
  · exact .refl

theorem PlacesReach.storeFlag (p : Fin 32) : s.PlacesReach (u.storeFlag p) := by
  unfold State.storeFlag
  dsimp only
  split
  · exact (h.elsewhere (by rfl)).storeCopy _ _
  · exact h.elsewhere rfl

theorem PlacesReach.recomputeFlags (ps : List (Fin 32)) : s.PlacesReach (u.recomputeFlags ps) :=
  (h.foldl _ fun _ p k => k.storeFlag p).foldl _ fun _ i k => k.evalGateAt i

theorem PlacesReach.resource (f o n : Fin 48) : s.PlacesReach (u.resource f o n) :=
  (h.elsewhere (by rfl)).recomputeFlags _

theorem PlacesReach.xpcHealth (l : List (Fin 48)) : s.PlacesReach (u.xpcHealth l) := h.recomputeFlags _

theorem PlacesReach.suspectEvent (p : Fin 32) : s.PlacesReach (u.suspectEvent p) := by
  unfold State.suspectEvent
  split
  · refine h.onPlace fun p _ => ?_
    split
    · exact .single (.suspect p)
    · exact .refl
  · exact h
  · exact h

theorem PlacesReach.countProtection (feed : Fin 48) : s.PlacesReach (u.countProtection feed) := by
  refine h.mapPlaces fun p => ?_
  split
  next run => exact .single (.protect p run.1)
  next => exact .refl

/-! ### PSEL -/

theorem PlacesReach.handSelection (c : Fin 24) (o n : Side) : s.PlacesReach (u.handSelection c o n) :=
  (h.resource _ _ _).countProtection _

theorem PlacesReach.changeSelector (c : Fin 24) (st : SelState) (why : CircuitReason) :
    s.PlacesReach (u.changeSelector c st why) := by
  unfold State.changeSelector
  dsimp only
  split
  · split
    · exact (h.elsewhere (by rfl)).handSelection _ _ _
    · exact h.elsewhere rfl
  · exact h.elsewhere rfl

theorem PlacesReach.guardedSwitch (c : Fin 24) (st : SelState) (why : CircuitReason) :
    s.PlacesReach (u.guardedSwitch c st why) := (h.elsewhere (by rfl)).changeSelector c st why

theorem PlacesReach.enterWtr (c : Fin 24) : s.PlacesReach (u.enterWtr c) := by
  unfold State.enterWtr
  dsimp only
  split
  · exact ((h.elsewhere (by rfl)).changeSelector _ _ _).guardedSwitch _ _ _
  · exact (h.elsewhere (by rfl)).changeSelector _ _ _

theorem PlacesReach.evaluate (c : Fin 24) (why : CircuitReason) : s.PlacesReach (u.evaluate c why) := by
  unfold State.evaluate
  dsimp only
  split
  · split
    · exact h.guardedSwitch _ _ _
    · exact h
  · split
    · exact h.guardedSwitch _ _ _
    · split
      · exact h.enterWtr c
      · exact h
  · split
    · exact h.guardedSwitch _ _ _
    · split
      · exact (h.elsewhere (by rfl)).changeSelector _ _ _
      · exact h
  all_goals exact h

theorem PlacesReach.pselCircuit (l : List (Fin 48)) (c : Fin 24) : s.PlacesReach (pselCircuit l u c) := by
  unfold State.pselCircuit
  split
  case h_1 | h_2 =>
    split
    · split
      · exact ((h.elsewhere (by rfl)).changeSelector _ _ _).evaluate _ _
      · exact h
    · exact h
  case h_3 | h_4 | h_5 => exact h.evaluate _ _
  all_goals exact h

theorem PlacesReach.pselHealth (l : List (Fin 48)) : s.PlacesReach (u.pselHealth l) :=
  h.foldl _ fun _ c k => k.pselCircuit l c

/-! ### RMON -/

theorem PlacesReach.handHealth (l : List (Fin 48)) : s.PlacesReach (u.handHealth l) := by
  unfold State.handHealth
  split
  · exact ((h.elsewhere (by rfl)).xpcHealth l).pselHealth l
  · exact ((h.elsewhere (by rfl)).pselHealth l).xpcHealth l

theorem PlacesReach.healthEvent (cs : List (Fin 24)) : s.PlacesReach (u.healthEvent cs) := by
  have applied (l : List (Fin 48)) : s.PlacesReach (l.foldl applyHealth (cs.foldl partnerAbort u)) :=
    (h.foldl cs fun v c k => k.of_agree (partnerAbort_agree v c) (by decide)).foldl l fun v r k =>
      k.of_agree (applyHealth_agree v r) (by decide)
  unfold State.healthEvent
  dsimp only
  split
  · exact applied _
  · exact (applied _).handHealth _

theorem PlacesReach.worksEdges (n : Nat) : s.PlacesReach (u.worksEdges n) := by
  unfold State.worksEdges State.healthEventAll
  exact (h.elsewhere (by rfl)).healthEvent _

/-! ### STL -/

theorem PlacesReach.release (i : Fin 192) : s.PlacesReach (u.release i) := by
  unfold State.release
  split
  next => exact h
  next p hp =>
    refine (h.elsewhere (by rfl)).setPlace ?_
    exact hp ▸ .single (.release p)

theorem PlacesReach.raise (o : Fin 267) : s.PlacesReach (u.raise o) := h.elsewhere rfl

theorem PlacesReach.announce (before : State) : s.PlacesReach (u.announce before) := by
  unfold State.announce
  split
  · exact h.elsewhere rfl
  · exact h

/-- A record is settled that is not on the air (R163, R165). -/
theorem PlacesReach.settle {i : Fin 192} (stopped : u.PhaseAt i (· ≠ .running)) :
    s.PlacesReach (u.settle i) := by
  unfold State.settle
  split
  next => exact h
  next p hp =>
    dsimp only
    split
    · exact (h.elsewhere (by rfl)).release i
    · refine PlacesReach.raise ((h.elsewhere (by rfl)).setPlace ?_) _
      exact hp ▸ .single (.closing p _ (stopped p hp))

theorem PlacesReach.settleNow {i : Fin 192} (stopped : u.PhaseAt i (· ≠ .running)) :
    s.PlacesReach (u.settleNow i) := (h.settle stopped).announce _

theorem PlacesReach.serveClosing : s.PlacesReach u.serveClosing := by
  unfold State.serveClosing
  split
  · exact h
  · dsimp only
    split
    · exact (h.elsewhere (by rfl)).release _
    · exact h.elsewhere rfl

/-! ### BKU: before LIVE -/

theorem PlacesReach.slots (f : SlotRef → XPort → XPort) (l : List (Fin 32 × SlotRef)) :
    s.PlacesReach (l.foldl (fun acc x => acc.onXPort x.1 (f x.2)) u) := h.of_agree (slots_agree f l u) (by decide)

/-- A record that is not yet on the air enters STARTING. -/
theorem PlacesReach.enterStarting {i : Fin 192} (why : Reason)
    (before : u.PhaseAt i (· = .notStarted)) :
    s.PlacesReach (u.enterStarting i why) := by
  unfold State.enterStarting
  split
  next => exact h
  next p hp =>
    refine PlacesReach.slots ?_ (fun ref x => x.startConnect ref) _
    exact (h.onBooking (by simp) (by simp)).enterState _ (before.onBooking (by simp))

/-- A record that is not yet on the air is triggered (R104). -/
theorem PlacesReach.trigger {i : Fin 192} (cause : Reason)
    (before : u.PhaseAt i (· = .notStarted)) : s.PlacesReach (u.trigger i cause) := by
  unfold State.trigger
  split
  · exact h
  · split
    · exact h.enterStarting _ before
    · exact h.enterState _ before

theorem PlacesReach.waitingTest (i : Fin 192) : s.PlacesReach (u.waitingTest i) := by
  unfold State.waitingTest
  split
  next => exact h
  next p hp =>
    split
    next waiting =>
      have before : u.PhaseAt i (· = .notStarted) := .of_place hp (congrArg BookingState.phase waiting)
      split
      · exact h.enterStarting _ before
      · split
        · exact h
        · exact h.enterState _ before
    next => exact h

theorem PlacesReach.waitingTests : s.PlacesReach u.waitingTests := h.foldl _ fun _ i k => k.waitingTest i

theorem PlacesReach.cueOffer (line : Fin 4) (dir : Edge) : s.PlacesReach (u.cueOffer line dir) := by
  refine h.foldl _ fun v i k => ?_
  split
  next => exact k
  next p hp =>
    split
    next armed =>
      have before : v.PhaseAt i (· = .notStarted) := .of_place hp (congrArg BookingState.phase armed.1)
      exact (k.elsewhere (by rfl)).trigger _ before
    next => exact k

theorem PlacesReach.takeArm (i : Fin 192) : s.PlacesReach (u.takeArm i) := by
  unfold State.takeArm
  split
  next scheduled => exact h.enterState _ (.of_stateAt scheduled rfl)
  next => exact h

theorem PlacesReach.takeStart (i : Fin 192) : s.PlacesReach (u.takeStart i) := by
  unfold State.takeStart
  split
  next => exact h
  next p hp =>
    split
    next due =>
      refine h.trigger _ (.of_place hp ?_)
      obtain ⟨-, scheduled⟩ | ⟨-, armed⟩ := due
      · exact congrArg BookingState.phase scheduled
      · exact congrArg BookingState.phase armed
    next => exact h

/-! ### BKU: LIVE, RUN_ON and ENDING -/

theorem PlacesReach.enterLive (i : Fin 192) : s.PlacesReach (u.enterLive i) := by
  unfold State.enterLive
  split
  next => exact h
  next p hp =>
    refine h.at_place i ?_ fun j other => ?_
    · rw [onMeter_place, enterState_place, onBooking_place, hp]
      simp only [if_true, Option.map_some]
      exact .single (.live p _ _ rfl (Option.some_ne_none _))
    · simp only [onMeter_place, enterState_place, onBooking_place, if_neg other]

theorem PlacesReach.enterEnding (i : Fin 192) (why : Reason) : s.PlacesReach (u.enterEnding i why) := by
  unfold State.enterEnding
  split
  next => exact h
  next p hp =>
    refine PlacesReach.slots ?_ (fun ref x => x.disconnect ref) _
    refine h.at_place i ?_ fun j other => ?_
    · rw [onMeter_place, enterState_place, onBooking_place, hp]
      simp only [if_true, Option.map_some]
      exact .single (.ending p _ _ rfl rfl)
    · simp only [onMeter_place, enterState_place, onBooking_place, if_neg other]

/-- A run-on extension of a record in LIVE or RUN_ON (R111). -/
theorem PlacesReach.grantRunOn {i : Fin 192} {b : Booking} (x : Nat)
    (running : u.PhaseAt i (· = .running)) : s.PlacesReach (u.grantRunOn i b x) := by
  have extended : s.PlacesReach ((u.onBooking i fun b => { b with
      e := b.e + x, extension := b.extension + x, used := b.used + 1,
      shortened := decide (x < b.quantum) }).enterState i .runOn .extended) :=
    (h.onBooking (by simp) (by simp)).enterState _ (running.onBooking (by simp))
  unfold State.grantRunOn
  dsimp only
  split
  · exact (extended.elsewhere (by rfl)).onPlace fun q hq =>
      .single (.overtime q (phaseAt_enterState (P := (· = .running)) _ i rfl .extended q hq))
  · exact extended.elsewhere rfl

theorem PlacesReach.attemptRunOn {i : Fin 192} {b : Booking}
    (running : u.PhaseAt i (· = .running)) : s.PlacesReach (u.attemptRunOn i b) := by
  unfold State.attemptRunOn
  dsimp only
  split
  · exact h.grantRunOn _ running
  · exact h.enterEnding _ _

theorem PlacesReach.noShow {i : Fin 192} (stopped : u.PhaseAt i (· ≠ .running)) :
    s.PlacesReach (u.noShow i) := by
  exact (h.onBooking (by simp) (by simp)).settleNow (stopped.onBooking (by simp))

theorem PlacesReach.takeEnd (i : Fin 192) : s.PlacesReach (u.takeEnd i) := by
  unfold State.takeEnd
  split
  next => exact h
  next p hp =>
    split
    next live => exact h.attemptRunOn (.of_place hp (congrArg BookingState.phase live))
    next runOn => exact h.attemptRunOn (.of_place hp (congrArg BookingState.phase runOn))
    next => exact h.enterEnding _ _
    next armed => exact h.noShow (.of_place hp (by rw [armed]; decide))
    next waiting => exact h.noShow (.of_place hp (by rw [waiting]; decide))
    all_goals exact h

theorem PlacesReach.takeEntry (e : TimeEntry) : s.PlacesReach (u.takeEntry e) := by
  have left : s.PlacesReach { u with bku := { u.bku with timeList := u.bku.timeList.filter (· != e) } } :=
    h.elsewhere rfl
  unfold State.takeEntry
  dsimp only
  split
  · exact left.takeArm _
  · exact left.takeStart _
  · exact left.takeEnd _

theorem PlacesReach.disconnected {i : Fin 192} (ending : u.stateAt i = some .ending) :
    s.PlacesReach (u.disconnected i) := by
  unfold State.disconnected
  split
  next => exact h
  next p hp =>
    have stopped : u.PhaseAt i (· ≠ .running) := .of_stateAt ending (by decide)
    exact (h.elsewhere (by rfl)).settle stopped

theorem PlacesReach.completeRecord (l : List Rider) (i : Fin 192) : s.PlacesReach (completeRecord l u i) := by
  unfold State.completeRecord
  split
  next ending => exact h.disconnected (by simpa using (Bool.and_eq_true_iff.1 ending).2)
  next =>
    split
    · exact h.enterLive i
    · exact h

theorem PlacesReach.bkuCompletion (l : List Rider) : s.PlacesReach (u.bkuCompletion l) :=
  (h.foldl _ fun _ i k => k.completeRecord l i).announce _

/-! ### XPC's takes -/

theorem PlacesReach.withXpc (x : XPC) : s.PlacesReach { u with xpc := x } := h.elsewhere rfl

theorem PlacesReach.completeTake (n : Nat) : s.PlacesReach (u.completeTake n) := (h.elsewhere (by rfl)).bkuCompletion _

theorem PlacesReach.startTake (ps : List (Fin 32)) : s.PlacesReach (u.startTake ps) := by
  have included : s.PlacesReach (ps.foldl (fun acc p => acc.onXPort p XPort.include) u) :=
    h.foldl ps fun _ _ k => k.elsewhere rfl
  unfold State.startTake
  dsimp only
  split
  · exact ((included.withXpc _).recomputeFlags _).completeTake _
  · exact ((included.withXpc _).recomputeFlags _).withXpc _

theorem PlacesReach.xpcMarker : s.PlacesReach u.xpcMarker := by
  unfold State.xpcMarker
  split
  · exact h
  · exact h.startTake _

theorem PlacesReach.acceptConfirm (o : Order) : s.PlacesReach (u.acceptConfirm o) := by
  unfold State.acceptConfirm
  dsimp only
  split
  · refine PlacesReach.completeTake ?_ _
    split
    · exact ((h.elsewhere (by rfl)).recomputeFlags _).raise _
    · exact (h.elsewhere (by rfl)).recomputeFlags _
  · split
    · exact ((h.elsewhere (by rfl)).recomputeFlags _).raise _
    · exact (h.elsewhere (by rfl)).recomputeFlags _

theorem PlacesReach.takeConfirm (o : Order) : s.PlacesReach (u.takeConfirm o) := by
  unfold State.takeConfirm
  split
  · exact h.acceptConfirm o
  · exact h

theorem PlacesReach.confirmExpire : s.PlacesReach u.confirmExpire := by
  have suspected (ps : List (Fin 32)) (f : XPort → XPort) : s.PlacesReach (ps.foldl (fun acc p => acc.onXPort p f) u) :=
    h.foldl ps fun _ _ k => k.elsewhere rfl
  unfold State.confirmExpire
  refine PlacesReach.completeTake (PlacesReach.raise (PlacesReach.recomputeFlags ?_ _) _) _
  exact ((suspected _ _).elsewhere (by rfl)).foldl _ fun _ p k => k.suspectEvent p

/-! ### TB -/

theorem PlacesReach.rmonMarker : s.PlacesReach u.rmonMarker := by
  unfold State.rmonMarker
  exact (h.elsewhere (by rfl)).healthEvent _

theorem PlacesReach.handSelections (before after : State) : s.PlacesReach (handSelections before after u) := by
  refine h.foldl _ fun v c k => ?_
  split
  · split
    · exact k
    · exact k.handSelection _ _ _
  · exact k

theorem PlacesReach.splitMarker {others : List (State → State)}
    (each : ∀ f ∈ others, ∀ v, s.PlacesReach v → s.PlacesReach (f v)) : s.PlacesReach (u.splitMarker others) := by
  unfold State.splitMarker
  refine (h.elsewhere (by rfl)).inAnyOrder fun f hf v k => ?_
  rcases List.mem_cons.1 hf with rfl | hf
  · exact k.xpcHealth _
  rcases List.mem_cons.1 hf with rfl | hf
  · exact k.handSelections _ _
  exact each f hf v k

theorem PlacesReach.allReaders : s.PlacesReach u.allReaders := by
  have bku (v : State) (k : s.PlacesReach v) : s.PlacesReach v.waitingTests := k.waitingTests
  have xpc (v : State) (k : s.PlacesReach v) : s.PlacesReach v.xpcMarker := k.xpcMarker
  have rmon (v : State) (k : s.PlacesReach v) : s.PlacesReach v.rmonMarker := k.rmonMarker
  unfold State.allReaders
  split
  · exact (h.elsewhere (by rfl)).inAnyOrder (by simpa using ⟨rmon, bku, xpc⟩)
  · dsimp only
    split
    · exact (h.elsewhere (by rfl)).splitMarker (by simpa using ⟨bku, xpc⟩)
    · exact (h.elsewhere (t := u.raced.raced) (by rfl)).waitingTests.splitMarker (by simpa using xpc)

theorem PlacesReach.marker : s.PlacesReach u.marker := by
  unfold State.marker
  exact (h.elsewhere (by rfl)).allReaders

theorem PlacesReach.frameInstant : s.PlacesReach u.frameInstant := by
  unfold State.frameInstant
  dsimp only
  split
  · exact h.elsewhere rfl
  · exact (h.elsewhere (by rfl)).marker

theorem PlacesReach.loseReference : s.PlacesReach u.loseReference := by
  unfold State.loseReference
  exact (h.elsewhere (by rfl)).marker

theorem PlacesReach.tbUpTo (t : Nat) : s.PlacesReach (u.tbUpTo t) := by
  have instant {v : State} (k : s.PlacesReach v) (c : Prop) [Decidable c] :
      s.PlacesReach (if c then v.frameInstant else v) := by
    split
    · exact k.frameInstant
    · exact k
  have loss {v : State} (k : s.PlacesReach v) (c : Prop) [Decidable c] :
      s.PlacesReach (if c then v.loseReference else v) := by
    split
    · exact k.loseReference
    · exact k
  exact instant (loss (instant h _) _) _

theorem PlacesReach.pulseAt (t : Nat) : s.PlacesReach (u.pulseAt t) := by
  have scored : s.PlacesReach (u.scoredPulse t) := by
    unfold State.scoredPulse
    generalize (if u.goodInterval t = true then u.tb.qual + 1 else 0) = q
    dsimp only
    split
    · split
      · exact (h.elsewhere (by rfl)).marker
      · exact h.elsewhere rfl
    · exact h.elsewhere rfl
  unfold State.pulseAt
  split
  · exact h.elsewhere rfl
  · unfold State.lockedPulse
    split
    · exact (h.elsewhere (by rfl)).marker
    · exact h.elsewhere rfl
  · exact scored
  · exact scored

theorem PlacesReach.takeWorksEdge : s.PlacesReach u.takeWorksEdge := by
  unfold State.takeWorksEdge
  split
  · exact (h.elsewhere (by rfl)).worksEdges _
  · exact h

theorem PlacesReach.handBoundary : s.PlacesReach u.handBoundary := h.of_agree (handBoundary_agree u) (by decide)

theorem PlacesReach.takeDueEntries (n : Nat) :
    s.PlacesReach (takeDueEntries n u) := by
  induction n generalizing u with
  | zero => exact h
  | succ n ih =>
    unfold State.takeDueEntries
    split
    · exact ih (h.takeEntry _)
    · exact h

theorem PlacesReach.takeSecond : s.PlacesReach u.takeSecond := h.handBoundary.takeWorksEdge.takeDueEntries _

theorem PlacesReach.flagStepped : s.PlacesReach u.flagStepped := by
  refine h.mapPlaces fun p => ?_
  split
  · exact .single (.record p _ rfl rfl)
  · exact .refl

theorem PlacesReach.replayEntry (e : TimeEntry) : s.PlacesReach (u.replayEntry e) := by
  unfold State.replayEntry
  dsimp only
  split
  · exact (h.takeEntry e).onBooking (by simp) (by simp)
  · exact h.takeEntry e

theorem PlacesReach.replayEntries (t n : Nat) :
    s.PlacesReach (replayEntries t n u) := by
  induction n generalizing u with
  | zero => exact h
  | succ n ih =>
    unfold State.replayEntries
    split
    · split
      · exact ih (h.replayEntry _)
      · exact h
    · exact h

theorem PlacesReach.replaySecond (t : Nat) : s.PlacesReach (u.replaySecond t) := by
  unfold State.replaySecond
  dsimp only
  split
  · exact ((h.elsewhere (by rfl)).worksEdges t).replayEntries t _
  · exact ((h.elsewhere (by rfl)).replayEntries t _).worksEdges t

theorem PlacesReach.replay (hi n lo : Nat) : s.PlacesReach (replay hi n lo u) := by
  induction n generalizing lo u with
  | zero => exact h
  | succ n ih =>
    unfold State.replay
    split
    · exact ih (h.replaySecond _) _
    · exact h

theorem PlacesReach.stepForward (n : Nat) : s.PlacesReach (u.stepForward n) := by
  unfold State.stepForward
  exact (h.elsewhere (by rfl)).flagStepped.replay _ _ _

theorem PlacesReach.stepBack (n : Nat) : s.PlacesReach (u.stepBack n) := by
  unfold State.stepBack State.healthEventAll
  exact ((h.elsewhere (by rfl)).flagStepped.elsewhere (by rfl)).healthEvent _

/-! ### Requests -/

theorem PlacesReach.serveSetTime (second : Word) : s.PlacesReach (u.serveSetTime second).1 := by
  unfold State.serveSetTime
  dsimp only
  split
  · exact h.elsewhere rfl
  · split
    · exact h.takeSecond
    · dsimp only
      split
      · exact h.takeSecond.stepForward _
      · exact h.takeSecond.stepBack _

theorem PlacesReach.serveSetReference (source rate : Byte) (frameMax : Half) :
    s.PlacesReach (u.serveSetReference source rate frameMax).1 := by
  unfold State.serveSetReference
  split
  · dsimp only
    split
    · exact h.elsewhere rfl
    · exact h.elsewhere rfl
  · exact h

theorem PlacesReach.serveSetRoute (route : Byte) (fh ch dt ct : Half) :
    s.PlacesReach (u.serveSetRoute route fh ch dt ct).1 := by
  unfold State.serveSetRoute
  split
  · exact h
  · split
    · exact h
    · dsimp only
      split
      · exact (h.elsewhere (by rfl)).healthEvent _
      · exact h.elsewhere rfl

theorem PlacesReach.serveSetWorks (route : Byte) (start stop : Word) (force : Byte) :
    s.PlacesReach (u.serveSetWorks route start stop force).1 := by
  unfold State.serveSetWorks
  split
  · dsimp only
    split
    · exact h
    · exact (h.elsewhere (by rfl)).healthEvent _
  · exact h

theorem PlacesReach.serveDrillAbort (route : Byte) : s.PlacesReach (u.serveDrillAbort route).1 := by
  unfold State.serveDrillAbort
  split
  · exact h
  · dsimp only
    split
    · split
      · dsimp only
        split
        · exact (h.elsewhere (by rfl)).healthEvent _
        · exact h.elsewhere rfl
      · exact h
    · exact h

theorem PlacesReach.applyOptions (c : Fin 24) (old : Circuit) : s.PlacesReach (u.applyOptions c old) := by
  have left : s.PlacesReach (if old.revertive ∧ !(u.circuit c).revertive ∧ (u.circuit c).selector = some .wtr then
      (u.setCircuit c { u.circuit c with wtr := none }).changeSelector c .selB .auto else u) := by
    split
    · exact (h.elsewhere (by rfl)).changeSelector _ _ _
    · exact h
  unfold State.applyOptions
  dsimp only
  split
  · exact left.evaluate _ _
  · exact left

theorem PlacesReach.serveSetCircuit (circuit mode rev deg : Byte) (guard wtr : Half) :
    s.PlacesReach (u.serveSetCircuit circuit mode rev deg guard wtr).1 := by
  unfold State.serveSetCircuit
  split
  · dsimp only
    split
    · exact h
    · split
      · exact h
      · dsimp only
        split
        · exact h.elsewhere rfl
        · exact (h.elsewhere (by rfl)).evaluate _ _
        · exact (h.elsewhere (by rfl)).applyOptions _ _
        · exact h.elsewhere rfl
  · exact h

theorem PlacesReach.serveForce (circuit target : Byte) : s.PlacesReach (u.serveForce circuit target).1 := by
  unfold State.serveForce
  split
  · split
    · exact h
    · exact h
    · split
      · exact h
      · dsimp only
        split
        · exact h
        · exact (h.elsewhere (by rfl)).changeSelector _ _ _
  · exact h

theorem PlacesReach.serveLockout (circuit : Byte) : s.PlacesReach (u.serveLockout circuit).1 := by
  unfold State.serveLockout
  split
  · exact h
  · split
    · exact h
    · dsimp only
      split
      · exact h
      · exact (h.elsewhere (by rfl)).changeSelector _ _ _

theorem PlacesReach.serveClear (circuit : Byte) : s.PlacesReach (u.serveClear circuit).1 := by
  unfold State.serveClear
  split
  · exact h
  · split
    · exact h
    · split
      · exact h
      · exact ((h.elsewhere (by rfl)).changeSelector _ _ _).evaluate _ _

theorem PlacesReach.serveBook (f : BookFields) : s.PlacesReach (u.serveBook f).1 := by
  unfold State.serveBook
  split
  next => exact h
  next b described =>
    obtain ⟨state, start⟩ := bookingOf_scheduled described
    split
    next => exact h
    next ports i admitted =>
      refine (h.elsewhere (by rfl)).setPlace ?_
      exact place_of_admissionChecks admitted ▸ .single (.admission _ _ state start)

theorem PlacesReach.serveAmend (id : Half) (e : Word) : s.PlacesReach (u.serveAmend id e).1 := by
  unfold State.serveAmend
  split
  · exact h
  · split
    · exact h
    · dsimp only
      split_ifs
      · exact h
      · exact h
      · exact h
      · split
        · exact h
        · exact (h.onBooking (f := fun b => { b with e := e.toNat }) (by simp) (by simp)).elsewhere rfl

theorem PlacesReach.serveCancel (id : Half) : s.PlacesReach (u.serveCancel id).1 := by
  unfold State.serveCancel
  split
  next => exact h
  next i _ =>
    split
    next => exact h
    next st state =>
      split
      next => exact h
      next accepted =>
        have phase : st.phase = .notStarted := phase_of_cancellable (by simpa using accepted)
        have stopped : State.PhaseAt { u with bku := u.bku.dropEntries i } i (· ≠ .running) :=
          PhaseAt.of_stateAt (s := { u with bku := u.bku.dropEntries i }) state (by rw [phase]; decide)
        exact ((h.elsewhere (by rfl)).onBooking (by simp) (by simp)).settleNow (stopped.onBooking (by simp))

theorem PlacesReach.serveEnd (id : Half) : s.PlacesReach (u.serveEnd id).1 := by
  unfold State.serveEnd
  split
  · exact h
  · split
    · exact h
    · split
      · exact h
      · exact (h.elsewhere (by rfl)).enterEnding _ _

/-- A slot of a record in LIVE or RUN_ON is swapped (R153). -/
theorem PlacesReach.swapSlot {i : Fin 192} (b : Booking) (slot : Nat) (feed : Fin 48)
    (running : u.PhaseAt i (· = .running)) : s.PlacesReach (u.swapSlot i b slot feed) := by
  have counted : s.PlacesReach ((u.onBooking i fun b => { b with feeds := b.feeds.set slot feed }).onMeter i fun m =>
      { m with nt := satAdd max16 m.nt 1 }) :=
    (h.onBooking (by simp) (by simp)).onPlace fun q hq => .single (.swap q (running.onBooking (by simp) q hq))
  unfold State.swapSlot
  dsimp only
  split
  · exact counted
  · split
    · exact (counted.elsewhere (by rfl)).recomputeFlags _
    · exact counted.elsewhere rfl

theorem PlacesReach.serveSwap (id : Half) (slot feed : Byte) : s.PlacesReach (u.serveSwap id slot feed).1 := by
  unfold State.serveSwap
  split
  next => exact h
  next =>
    split
    next => exact h
    next p hp =>
      dsimp only
      split
      next => exact h
      next onAir =>
        split
        next => exact h
        next =>
          split_ifs
          · exact h
          · exact h
          · exact h
          · exact h
          · refine h.swapSlot _ _ _ (.of_place hp ?_)
            obtain state | state : p.booking.state = .live ∨ p.booking.state = .runOn := by
              simpa [or_iff_not_imp_left] using onAir
            · exact congrArg BookingState.phase state
            · exact congrArg BookingState.phase state

theorem PlacesReach.serveSettleRelease (id : Half) : s.PlacesReach (u.serveSettleRelease id).1 := by
  unfold State.serveSettleRelease
  split
  · exact (h.elsewhere (by rfl)).serveClosing
  · exact h

/-- What the service of any request may make of the booking table (R190). -/
theorem PlacesReach.serveBody (r : Request) : s.PlacesReach (u.serveBody r).1 := by
  cases r
  case setTime => exact h.serveSetTime _
  case setReference => exact h.serveSetReference _ _ _
  case setRoute => exact h.serveSetRoute _ _ _ _ _
  case setWorks => exact h.serveSetWorks _ _ _ _
  case drillAbort => exact h.serveDrillAbort _
  case setCircuit => exact h.serveSetCircuit _ _ _ _ _ _
  case force => exact h.serveForce _ _
  case lockout => exact h.serveLockout _
  case clear => exact h.serveClear _
  case book => exact h.serveBook _
  case amend => exact h.serveAmend _ _
  case cancel => exact h.serveCancel _
  case endBooking => exact h.serveEnd _
  case swap => exact h.serveSwap _ _ _
  case settleRelease => exact h.serveSettleRelease _
  all_goals
    simp only [State.serveBody, serveIdent, serveStatus, serveReset, serveReadTime, serveReadHealth, serveDrill,
      serveReadCircuit, serveSetPort, serveSetHandoff, serveSetAccount, serveDeleteEntry, deleteAccount, deleteHandoff,
      deleteTariff, serveSetMargin, serveReadBooking, serveListPort, servePatch, serveUnpatch, serveReadPort,
      serveSetConfirm, serveReadMeter, serveSetTariff, serveSettlePeek, serveReadAccount, serveClearAccount,
      serveSetNotices, serveSetTally, serveSetCue]
    (repeat' split) <;> exact h.elsewhere rfl

end Operations

/-! ### Resets -/

/-- A reset leaves no record in the table (R99). -/
theorem place_bku_reset {t : State} (reset : t.bku = BKU.reset) (i : Fin 192) : t.place i = none := by
  rw [place, reset]
  exact same_get 192 none i

namespace PlacesReach

/-- An emptied table, each record released. -/
theorem emptied {s t : State} (empty : t.bku = BKU.reset) : s.PlacesReach t := by
  refine ⟨fun i => ?_⟩
  rw [place_bku_reset empty]
  cases place : s.place i with
  | none => exact .refl
  | some p => exact .single (.release p)

theorem performReset (s u : State) (scope : Scope) : s.PlacesReach (u.performReset scope) := by
  cases scope with
  | all => exact emptied rfl
  | traffic => exact (emptied (t := u.clearTraffic) rfl).healthEvent _

section Commands
variable {s u : State} (h : s.PlacesReach u)
include h

/-! ### LNK -/

theorem serveOne (q : Queued) : s.PlacesReach (u.serveOne q) := (h.serveBody q.request).elsewhere rfl

theorem serveUpTo (n : Nat) : s.PlacesReach (State.serveUpTo n u) := by
  induction n generalizing u with
  | zero => exact h
  | succ n ih =>
    unfold State.serveUpTo
    split
    · exact h
    · split
      · exact ih (h.serveOne _)
      · exact h

theorem serveQueue : s.PlacesReach u.serveQueue := h.serveUpTo _

theorem arrive (tag : Byte) (r : Request) : s.PlacesReach (u.arrive tag r) := by
  unfold State.arrive
  split
  · exact (h.elsewhere (by rfl)).serveQueue
  · split
    · exact h.elsewhere rfl
    · exact h.elsewhere rfl

theorem endMessage : s.PlacesReach u.endMessage := by
  unfold State.endMessage
  split
  · exact h
  · dsimp only
    split
    · exact h.elsewhere rfl
    · exact h.elsewhere rfl
    · exact h.elsewhere rfl
    · exact (performReset s _ _).serveQueue

theorem rescan (n : Nat) (bytes : List Byte) :
    s.PlacesReach (State.rescan n bytes u) := by
  induction n generalizing bytes u with
  | zero => exact h
  | succ n ih =>
    unfold State.rescan
    dsimp only
    split
    · exact h
    · split
      · exact h.elsewhere rfl
      · split
        · exact ih (h.arrive _ _) _
        · exact ih (h.elsewhere (by rfl)) _

theorem rescanAll (bytes : List Byte) : s.PlacesReach (u.rescanAll bytes) := (h.elsewhere (by rfl)).rescan _ _

theorem checkFrame : s.PlacesReach u.checkFrame := by
  unfold State.checkFrame
  split
  · exact h.rescanAll _
  · exact h

theorem takeByte (b : Byte) : s.PlacesReach (u.takeByte b) := by
  unfold State.takeByte
  split
  · exact h
  · dsimp only
    split
    · exact h.rescanAll _
    · split
      · exact h.elsewhere rfl
      · exact h.elsewhere rfl

theorem transmit : s.PlacesReach u.transmit := h.of_agree (transmit_agree u) (by decide)

theorem endLine : s.PlacesReach u.endLine := by
  unfold State.endLine
  split
  · exact h.endMessage
  · exact h.endMessage.of_agree (becomesFree_agree _) (by decide)

/-! ### Timers and pins -/

theorem statusWord (group : List Byte) : s.PlacesReach (u.statusWord group) := by
  unfold State.statusWord
  split
  · exact (h.elsewhere (by rfl)).healthEvent _
  · exact h

theorem cardExpiry (k : Fin 6) : s.PlacesReach (u.cardExpiry k) := by
  have bad (l : List (Fin 48)) (f : Route → Route) :
      s.PlacesReach (l.foldl (fun acc r => acc.onRoute r f) (u.setCard k none)) :=
    (h.elsewhere (by rfl)).foldl l fun _ _ k => k.elsewhere rfl
  unfold State.cardExpiry
  split
  · exact (bad _ _).healthEvent _
  · exact h

theorem failExpiry (r : Fin 48) : s.PlacesReach (u.failExpiry r) := by
  unfold State.failExpiry
  split
  · exact (h.elsewhere (by rfl)).healthEvent _
  · exact h

theorem clearExpiry (r : Fin 48) : s.PlacesReach (u.clearExpiry r) := by
  unfold State.clearExpiry
  split
  · exact (h.elsewhere (by rfl)).healthEvent _
  · exact h

theorem closeDueBlock : s.PlacesReach u.closeDueBlock := by
  unfold State.closeDueBlock State.healthEventAll
  split
  · exact (h.elsewhere (by rfl)).healthEvent _
  · exact h

theorem activateDrill (c : Fin 24) : s.PlacesReach (u.activateDrill c) := by
  unfold State.activateDrill
  split
  · split
    · exact (h.elsewhere (by rfl)).healthEvent _
    · exact h
    · exact h
  · exact h

theorem endDrill (c : Fin 24) : s.PlacesReach (u.endDrill c) := by
  unfold State.endDrill
  split
  · split
    · exact (h.elsewhere (by rfl)).healthEvent _
    · exact h
  · exact h
  · exact h

theorem guardExpiry (c : Fin 24) : s.PlacesReach (u.guardExpiry c) := by
  unfold State.guardExpiry
  split
  · exact (h.elsewhere (by rfl)).evaluate _ _
  · exact h

theorem wtrExpiry (c : Fin 24) : s.PlacesReach (u.wtrExpiry c) := by
  unfold State.wtrExpiry
  split
  · exact h.guardedSwitch _ _ _
  · exact h

theorem takeNext (i : Fin 192) (kind : EntryKind) : s.PlacesReach (u.takeNext i kind) := by
  unfold State.takeNext
  split
  · split
    · exact h.takeEntry _
    · exact h
  · exact h

theorem confirmWord (group : List Byte) : s.PlacesReach (u.confirmWord group) := by
  unfold State.confirmWord
  split
  · exact h.takeConfirm _
  · exact h

theorem confirmExpiry : s.PlacesReach u.confirmExpiry := by
  unfold State.confirmExpiry
  split
  · exact h.confirmExpire
  · exact h

theorem dueInstant : s.PlacesReach u.dueInstant := by
  unfold State.dueInstant
  split
  · exact h.frameInstant
  · exact h

theorem dueLoss : s.PlacesReach u.dueLoss := by
  unfold State.dueLoss
  split
  · exact h.loseReference
  · exact h

theorem referencePulse (offset : Nat) : s.PlacesReach (u.referencePulse offset) := (h.tbUpTo _).pulseAt _

theorem endPulse : s.PlacesReach u.endPulse := by
  unfold State.endPulse
  split
  · exact h.elsewhere rfl
  · exact h

theorem cueExpiry (l : Fin 4) : s.PlacesReach (u.cueExpiry l) := by
  unfold State.cueExpiry State.acceptCue
  split
  · dsimp only
    split
    · exact h.elsewhere rfl
    · split
      · exact (h.elsewhere (by rfl)).cueOffer _ _
      · exact h.elsewhere rfl
  · exact h

theorem gapExpiry : s.PlacesReach u.gapExpiry := by
  unfold State.gapExpiry
  split
  · exact h.elsewhere rfl
  · exact h

/-! ### The tick -/

theorem takeTimers : s.PlacesReach u.takeTimers := by
  have cards := h.foldl (List.finRange 6) fun _ k j => j.cardExpiry k
  have fails := cards.foldl (List.finRange 48) fun _ r j => j.failExpiry r
  have clears := fails.foldl (List.finRange 48) fun _ r j => j.clearExpiry r
  have drills := clears.closeDueBlock.foldl (List.finRange 24) fun _ c j => j.endDrill c
  have guards := drills.foldl (List.finRange 24) fun _ c j => j.guardExpiry c
  have wtrs := guards.foldl (List.finRange 24) fun _ c j => j.wtrExpiry c
  have cues := wtrs.confirmExpiry.foldl (List.finRange 4) fun _ l j => j.cueExpiry l
  exact cues.endPulse.gapExpiry

theorem takeDue : s.PlacesReach u.takeDue := by
  unfold State.takeDue
  exact h.checkFrame.takeTimers.takeSecond.tbUpTo _

theorem tickMeters : s.PlacesReach u.tickMeters := h.mapPlaces fun p => .single (.tick p)

theorem tick : s.PlacesReach u.tick := h.takeDue.tickMeters.elsewhere rfl

/-! ### Commands -/

theorem endReset (scope : Scope) {t : State} (led : u.endReset scope = .next t) : s.PlacesReach t := by
  unfold State.endReset at led
  split at led
  · cases led; exact h.endMessage
  · cases led; exact h.transmit

end Commands
end PlacesReach

end State

/-- What a command may make of the booking table. -/
theorem placesReach_of_exec {c : Instr} {s t : State} (led : exec c s = .next t) : s.PlacesReach t := by
  have h := State.PlacesReach.refl s
  have done {u : State} (k : s.PlacesReach u) (led : u.done = .next t) : s.PlacesReach t := by
    cases led; exact k.transmit
  cases request : requestOf c with
  | some r =>
    rw [exec_request request] at led
    cases led
    exact (h.arrive _ _).transmit
  | none =>
    cases c
    case powerOnReset => exact done (.emptied rfl) led
    case millisecondTick => exact done h.tick led
    case secondBoundary => exact done h.handBoundary led
    case internalFrameInstant => exact done h.dueInstant led
    case referencePulse => exact done (h.referencePulse _) led
    case lossLimitExpiry => exact done h.dueLoss led
    case drillActivation => exact done (h.activateDrill _) led
    case drillEnd => exact done (h.endDrill _) led
    case markerPulseEnd => exact done h.endPulse led
    case statusWord => exact done (h.statusWord _) led
    case cardLoss => exact done (h.cardExpiry _) led
    case failTimerExpiry => exact done (h.failExpiry _) led
    case clearTimerExpiry => exact done (h.clearExpiry _) led
    case blockClose => exact done h.closeDueBlock led
    case worksEdge => exact done h.takeWorksEdge led
    case guardExpiry => exact done (h.guardExpiry _) led
    case wtrExpiry => exact done (h.wtrExpiry _) led
    case armEntry => exact done (h.takeNext _ _) led
    case startEntry => exact done (h.takeNext _ _) led
    case endEntry => exact done (h.takeNext _ _) led
    case cueInputChange line level => exact done (h.elsewhere (t := s.changeCue line level) (by rfl)) led
    case cueEdge => exact done (h.cueExpiry _) led
    case confirm => exact done (h.confirmWord _) led
    case confirmTimerExpiry => exact done h.confirmExpiry led
    case gapTimerExpiry => exact done h.gapExpiry led
    case frameReceived => exact done h.checkFrame led
    case transmitterFree => cases led; exact h.endLine
    case resetAll => exact h.endReset .all led
    case resetTraffic => exact h.endReset .traffic led
    case byteReceived => exact done (h.checkFrame.takeByte _) led
    all_goals simp [requestOf] at request

/-- What a step may make of the booking table: each place goes through changes of the list. -/
theorem placesReach_of_step {s t : State} (led : step s = .next t) : s.PlacesReach t := by
  unfold step at led
  split at led
  next => cases led; exact .refl s
  next c rest _ =>
    have reached := placesReach_of_exec led
    exact ⟨reached.reaches⟩

end Sys2Proof.Machine
end

