-- ==== Sys2Proof/Proofs/MeterPhases.lean ====
section
/-! PROOFS. The phases of the meters (O5): each change of a place keeps the law of the phases, so every step does; and
what ticks, selection changes, delivered flags and SUSPECT events make of a set that does not run. -/

namespace Sys2Proof.Machine

/-! ### The operations of a meter set -/

namespace MeterSet

theorem tick_of_not_running {m : MeterSet} (h : m.phase ≠ .running) : m.tick = m := by
  simp [tick, h]

theorem evalGate_of_not_running {m : MeterSet} (h : m.phase ≠ .running) (basis : GateBasis) (grace : Nat) :
    m.evalGate basis grace = m := by
  simp [evalGate, h]

@[simp] theorem closeEpisode_phase (grace : Nat) (m : MeterSet) : (m.closeEpisode grace).phase = m.phase := by
  unfold closeEpisode
  split <;> rfl

@[simp] theorem closeEpisode_episode (grace : Nat) (m : MeterSet) : (m.closeEpisode grace).episode = none := by
  unfold closeEpisode
  split
  · assumption
  · rfl
  · rfl

theorem closeEpisode_of_none {m : MeterSet} (h : m.episode = none) (grace : Nat) : m.closeEpisode grace = m := by
  simp [closeEpisode, h]

@[simp] theorem tick_phase (m : MeterSet) : m.tick.phase = m.phase := by
  unfold tick
  split
  · rfl
  · split <;> rfl

@[simp] theorem evalGate_phase (basis : GateBasis) (grace : Nat) (m : MeterSet) :
    (m.evalGate basis grace).phase = m.phase := by
  unfold evalGate
  dsimp only
  split
  · rfl
  · split
    · exact closeEpisode_phase grace m
    · rfl

end MeterSet

/-! ### The law of the phases at one place -/

namespace Place.PhaseLaw

/-- On the air a place keeps the law when its phase and its live-start second say so. -/
theorem of_running {p : Place} (meter : p.meter.phase = .running) (state : p.booking.state.phase = .running)
    (start : p.booking.liveStart ≠ none) : p.PhaseLaw :=
  ⟨meter.trans state.symm, fun e => absurd (meter.symm.trans e) (by decide), fun e => absurd e start,
    fun e => absurd meter e⟩

/-- A set that runs may change in anything but its phase. -/
theorem of_running_meter {p : Place} (h : p.PhaseLaw) (running : p.meter.phase = .running) {m : MeterSet}
    (same : m.phase = p.meter.phase) : { p with meter := m }.PhaseLaw := by
  obtain ⟨phase, -, zero, -⟩ := h
  exact of_running (same.trans running) (phase.symm.trans running) fun start => (zero start).1 running

/-- A change that leaves every set that does not run as it is, and the phase of every set. -/
theorem of_meter {p : Place} (h : p.PhaseLaw) {f : MeterSet → MeterSet} (phase : ∀ m, (f m).phase = m.phase)
    (stands : ∀ m : MeterSet, m.phase ≠ .running → f m = m) : { p with meter := f p.meter }.PhaseLaw := by
  by_cases running : p.meter.phase = .running
  · exact h.of_running_meter running (phase _)
  · rw [stands p.meter running]
    exact h

theorem of_record {p : Place} (h : p.PhaseLaw) {b : Booking} (phase : b.state.phase = p.booking.state.phase)
    (start : b.liveStart = p.booking.liveStart) : { p with booking := b }.PhaseLaw := by
  unfold PhaseLaw
  rw [phase, start]
  exact h

/-- A set is frozen whose episode is closed (R151). -/
theorem of_frozen {p : Place} (phase : p.meter.phase = .frozen) (state : p.booking.state.phase = .frozen)
    (zero : p.booking.liveStart = none → p.meter.AllZero) (closed : p.meter.episode = none) : p.PhaseLaw := by
  refine ⟨phase.trans state.symm, fun e => ?_, fun start => ⟨fun e => ?_, zero start⟩, fun _ => closed⟩
  · exact absurd (phase.symm.trans e) (by decide)
  · exact absurd (phase.symm.trans e) (by decide)

theorem fresh {b : Booking} (slots : Nat) (state : b.state = .scheduled) (start : b.liveStart = none) :
    Place.PhaseLaw ⟨b, .fresh slots, none⟩ :=
  ⟨(congrArg BookingState.phase state).symm, fun _ => start,
    fun _ => ⟨nofun, rfl, rfl, rfl, rfl, rfl, rfl, rfl, rfl, rfl⟩, fun _ => rfl⟩

/-- Entry to ENDING, from LIVE or from before it (R151). -/
theorem ending {p : Place} (h : p.PhaseLaw) {b : Booking} (grace : Nat) (state : b.state = .ending)
    (start : b.liveStart = p.booking.liveStart) :
    { p with booking := b, meter := p.meter.freeze grace }.PhaseLaw := by
  obtain ⟨-, -, zero, closed⟩ := h
  refine of_frozen rfl (congrArg BookingState.phase state) (fun notLive => ?_)
    (MeterSet.closeEpisode_episode grace p.meter)
  obtain ⟨stopped, zeros⟩ := zero (start ▸ notLive)
  change (p.meter.closeEpisode grace).AllZero
  rw [MeterSet.closeEpisode_of_none (closed stopped)]
  exact zeros

end Place.PhaseLaw

/-- Each change of a place keeps the law of the phases. -/
theorem Place.Change.phaseLaw {o o' : Option Place} (change : Place.Change o o') (h : ∀ p, o = some p → p.PhaseLaw) :
    ∀ q, o' = some q → q.PhaseLaw := by
  intro q hq
  cases change <;> cases hq
  case admission b slots state start => exact .fresh slots state start
  case record p b phase start => exact (h p rfl).of_record phase start
  case copies p cs => exact h p rfl
  case suspect p => exact h p rfl
  case gate p basis grace =>
    exact (h p rfl).of_meter (MeterSet.evalGate_phase basis grace) fun _ stopped =>
      MeterSet.evalGate_of_not_running stopped basis grace
  case tick p => exact (h p rfl).of_meter MeterSet.tick_phase fun _ => MeterSet.tick_of_not_running
  case protect p running => exact (h p rfl).of_running_meter running rfl
  case swap p running => exact (h p rfl).of_running_meter ((h p rfl).1.trans running) rfl
  case overtime p running => exact (h p rfl).of_running_meter ((h p rfl).1.trans running) rfl
  case live p b basis state start => exact .of_running rfl (congrArg BookingState.phase state) start
  case ending p b grace state start => exact (h p rfl).ending grace state start
  case closing p x stopped =>
    obtain ⟨phase, -, zero, closed⟩ := h p rfl
    exact .of_frozen rfl rfl (fun start => (zero start).2) (closed (phase ▸ stopped))

/-- Changes one after another keep the law of the phases. -/
theorem Place.Reaches.phaseLaw {o o' : Option Place} (reaches : Place.Reaches o o')
    (h : ∀ p, o = some p → p.PhaseLaw) : ∀ q, o' = some q → q.PhaseLaw := by
  induction reaches with
  | refl => exact h
  | tail _ change ih => exact change.phaseLaw ih

/-! ### Sets that do not run -/

namespace State

theorem tickMeters_place_of_not_running {s : State} {i : Fin 192} {p : Place} (h : s.place i = some p)
    (stopped : p.meter.phase ≠ .running) : s.tickMeters.place i = some p := by
  rw [tickMeters, mapPlaces_place, h, Option.map_some, MeterSet.tick_of_not_running stopped]

theorem countProtection_place_of_not_running {s : State} {i : Fin 192} {p : Place} (h : s.place i = some p)
    (stopped : p.meter.phase ≠ .running) (feed : Fin 48) : (s.countProtection feed).place i = some p := by
  rw [countProtection, mapPlaces_place, h, Option.map_some, if_neg fun running => stopped running.1]

theorem evalGateAt_place_of_not_running {s : State} {i : Fin 192} {p : Place} (h : s.place i = some p)
    (stopped : p.meter.phase ≠ .running) (j : Fin 192) : (s.evalGateAt j).place i = some p := by
  rw [evalGateAt_eq_onPlace, onPlace_place, h, Option.map_some, MeterSet.evalGate_of_not_running stopped, ite_self]

/-- The place `i` holds `p` but for the slots' copies. -/
def HoldsButCopies (i : Fin 192) (p : Place) (s : State) : Prop :=
  ∃ copies, s.place i = some { p with meter := { p.meter with copies := copies } }

theorem HoldsButCopies.storeFlag {s : State} {i : Fin 192} {p : Place} (h : s.HoldsButCopies i p) (q : Fin 32) :
    (s.storeFlag q).HoldsButCopies i p := by
  obtain ⟨copies, h⟩ := h
  unfold State.storeFlag
  dsimp only
  split
  next ref v _ _ =>
    unfold HoldsButCopies storeCopy
    rw [onPlace_place, show (s.onXPort q _).place i = _ from h]
    split_ifs
    · rw [Option.map_some]
      dsimp only
      split_ifs
      · exact ⟨_, rfl⟩
      · exact ⟨copies, rfl⟩
    · exact ⟨copies, rfl⟩
  next => exact ⟨copies, h⟩

theorem HoldsButCopies.evalGateAt {s : State} {i : Fin 192} {p : Place} (h : s.HoldsButCopies i p)
    (stopped : p.meter.phase ≠ .running) (j : Fin 192) : (s.evalGateAt j).HoldsButCopies i p := by
  obtain ⟨copies, h⟩ := h
  exact ⟨copies, evalGateAt_place_of_not_running h stopped j⟩

theorem recomputeFlags_place_of_not_running {s : State} {i : Fin 192} {p : Place} (h : s.place i = some p)
    (stopped : p.meter.phase ≠ .running) (ports : List (Fin 32)) : (s.recomputeFlags ports).HoldsButCopies i p :=
  foldl_inv (HoldsButCopies i p) (fun _ j k => k.evalGateAt stopped j) _ _
    (foldl_inv (HoldsButCopies i p) (fun _ q k => k.storeFlag q) _ s ⟨p.meter.copies, h⟩)

theorem suspectEvent_place {s : State} {i : Fin 192} {p : Place} (h : s.place i = some p) (port : Fin 32) :
    ∃ seen, (s.suspectEvent port).place i = some { p with meter := { p.meter with suspectSeen := seen } } := by
  unfold suspectEvent
  split
  · rw [onPlace_place, h, Option.map_some]
    split_ifs
    · exact ⟨true, rfl⟩
    · exact ⟨p.meter.suspectSeen, rfl⟩
    · exact ⟨p.meter.suspectSeen, rfl⟩
  · exact ⟨p.meter.suspectSeen, h⟩
  · exact ⟨p.meter.suspectSeen, h⟩

end State

/-! ### Steps -/

theorem phaseLaw_of_step {s t : State} (h : s.PhaseLaw) (led : step s = .next t) : t.PhaseLaw := fun i =>
  ((placesReach_of_step led).reaches i).phaseLaw (h i)

/-- Settles O5: a step takes each place through changes that keep the law of the phases, and the four events leave a set
that does not run but for its copies and its SUSPECT mark. -/
theorem meterPhasesKept : Obligations.MeterPhasesKept :=
  ⟨fun _ _ => phaseLaw_of_step, fun _ _ _ h stopped =>
    ⟨State.tickMeters_place_of_not_running h stopped, State.countProtection_place_of_not_running h stopped,
      State.recomputeFlags_place_of_not_running h stopped, State.suspectEvent_place h⟩⟩

end Sys2Proof.Machine
end

