-- ==== Sys2Proof/Proofs/ClearAccount.lean ====
section
/-! PROOFS. CLEAR_ACCOUNT (O54): what its service answers and makes of the account totals, for an account in its range
and for a number past it, and from them the answer to the request. -/

namespace Sys2Proof.Machine

namespace State

/-- CLEAR_ACCOUNT of an account in range answers the totals as they stood and sets them to 0; the account's entry in the
directory is not looked at (R171). -/
theorem serveClearAccount_of_lt (s : State) {account : Byte} (h : account.toNat < 16) :
    s.serveClearAccount account =
      ({ s with stl := { s.stl with totals := upd s.stl.totals ⟨account.toNat, h⟩ ⟨0, 0, 0⟩ } },
        ⟨.ok, .totals (s.stl.totals.get ⟨account.toNat, h⟩)⟩) := by
  simp only [serveClearAccount, idOf_of_lt h, okWith]

/-- CLEAR_ACCOUNT of a number past the directory (R171, R192). -/
theorem serveClearAccount_of_not_lt (s : State) {account : Byte} (h : ¬account.toNat < 16) :
    s.serveClearAccount account = (s, ⟨.badField, .empty⟩) := by
  simp only [serveClearAccount, idOf_of_not_lt h, refusal]

end State

/-- Settles O54: for an account in range, what the service reads and clears; past the range, the refusal, whose service
hands the state back. -/
theorem clearAccount : Obligations.ClearAccount := by
  intro tag account s hs
  split
  case isTrue inRange =>
    exact Answered.of_update (r := .clearAccount account) rfl hs (fun _ => nofun)
      (State.serveClearAccount_of_lt (s.enqueue tag (.clearAccount account)) inRange)
  case isFalse outOfRange =>
    exact Answered.of_read (r := .clearAccount account) rfl hs (fun _ => nofun)
      (State.serveClearAccount_of_not_lt (s.enqueue tag (.clearAccount account)) outOfRange)

end Sys2Proof.Machine
end

