-- ==== Sys2Proof/Proofs/MeterLaw.lean ====
section
/-! PROOFS. The law of the meters (O4): each change of a place of the booking table keeps it, so every step does. -/

namespace Sys2Proof.Machine

/-! ### The operations of a meter set -/

namespace MeterSet.Law

theorem fresh (slots : Nat) : (MeterSet.fresh slots).Law := ⟨rfl, le_rfl, le_rfl, Nat.zero_le _⟩

/-- The credited outage takes in at most the episode that closes (R149). -/
theorem closeEpisode {m : MeterSet} (h : m.Law) (grace : Nat) : (m.closeEpisode grace).Law := by
  obtain ⟨sum, overtime, outage, held⟩ := h
  unfold MeterSet.closeEpisode
  split
  next none_open => exact ⟨sum, overtime, outage, held⟩
  next zero =>
    rw [zero] at outage
    exact ⟨sum, overtime, outage, held⟩
  next len open_ =>
    refine ⟨sum, overtime, ?_, held⟩
    rw [open_] at outage
    simp only [Option.getD_some, Option.getD_none] at outage ⊢
    split <;> omega

/-- A law that an episode of length 0, opened with no other open, keeps. -/
theorem with_episode {m n : MeterSet} (h : m.Law) (l : n.l = m.l) (s : n.s = m.s) (o : n.o = m.o) (t : n.t = m.t)
    (oc : n.oc = m.oc) (episode : n.episode.getD 0 = 0) : n.Law := by
  obtain ⟨sum, overtime, outage, held⟩ := h
  refine ⟨?_, ?_, ?_, ?_⟩ <;> omega

theorem evalGate {m : MeterSet} (h : m.Law) (basis : GateBasis) (grace : Nat) : (m.evalGate basis grace).Law := by
  unfold MeterSet.evalGate
  dsimp only
  split
  · exact h
  · split
    · exact h.closeEpisode grace
    · exact h.with_episode rfl rfl rfl rfl rfl rfl

theorem start {m : MeterSet} (h : m.Law) (basis : GateBasis) : (m.start basis).Law := by
  refine h.with_episode rfl rfl rfl rfl rfl ?_
  unfold MeterSet.start
  dsimp only
  split <;> rfl

/-- L advances with S or with O, T with S alone, and an open episode with O (R148). -/
theorem tick {m : MeterSet} (h : m.Law) : m.tick.Law := by
  unfold MeterSet.tick
  split
  next => exact h
  next advances =>
    obtain ⟨sum, overtime, outage, held⟩ := h
    have below : m.l < max32 := by simp_all
    split
    · refine ⟨?_, ?_, outage, below⟩
      · simp only; omega
      · simp only; split <;> omega
    · refine ⟨?_, overtime, ?_, below⟩
      · simp only; omega
      · cases open_ : m.episode <;> simp only [open_, Option.map_some, Option.map_none, Option.getD_some,
          Option.getD_none] at outage ⊢ <;> omega

end MeterSet.Law

/-! ### Steps -/

/-- Each change of a place keeps the law of its meters. -/
theorem Place.Change.meterLaw {o o' : Option Place} (change : Place.Change o o') (h : ∀ p, o = some p → p.meter.Law) :
    ∀ q, o' = some q → q.meter.Law := by
  intro q hq
  cases change <;> cases hq
  case admission b slots _ _ => exact .fresh slots
  case record p b _ _ => exact h p rfl
  case copies p cs => exact h p rfl
  case suspect p => exact h p rfl
  case gate p basis grace => exact (h p rfl).evalGate basis grace
  case tick p => exact (h p rfl).tick
  case protect p _ => exact h p rfl
  case swap p _ => exact h p rfl
  case overtime p _ => exact h p rfl
  case live p b basis _ _ => exact (h p rfl).start basis
  case ending p b grace _ _ => exact (h p rfl).closeEpisode grace
  case closing p x _ => exact h p rfl

theorem Place.Reaches.meterLaw {o o' : Option Place} (reaches : Place.Reaches o o')
    (h : ∀ p, o = some p → p.meter.Law) : ∀ q, o' = some q → q.meter.Law := by
  induction reaches with
  | refl => exact h
  | tail _ change ih => exact change.meterLaw ih

/-- Settles O4: a step takes each place through changes that keep the law of the meters. -/
theorem meterLawKept : Obligations.MeterLawKept := fun _ _ h led i =>
  ((placesReach_of_step led).reaches i).meterLaw (h i)

end Sys2Proof.Machine
end

