-- ==== Sys2Proof/Proofs/DeliveredFlags.lean ====
section
/-! PROOFS. Delivered flags and the meters (O43): what one flag stores, what some flags store one after another, and what
the evaluation of the gates then makes of each place. -/

namespace Sys2Proof.Machine

namespace State

/-! ### What carries a feed, and what its delivery rests on -/

/-- Every place holds the same booking record in both states, or none in both. -/
def SameRecords (s t : State) : Prop := ∀ i, (t.place i).map (·.booking) = (s.place i).map (·.booking)

/-- The delivered test of every port rests on the same things in two states: health, selections, bookings, and the ports'
holders and committed inputs (R137). -/
structure SameCarriage (s t : State) : Prop where
  rmon : t.rmon = s.rmon
  circuits : t.circuits = s.circuits
  records : s.SameRecords t
  holder : ∀ p, (t.xport p).holder = (s.xport p).holder
  committed : ∀ p, (t.xport p).committed = (s.xport p).committed

theorem SameRecords.trans {s t u : State} (h : s.SameRecords t) (k : t.SameRecords u) : s.SameRecords u :=
  fun i => (k i).trans (h i)

theorem SameRecords.of_places {s t : State} (h : t.bku.places = s.bku.places) : s.SameRecords t :=
  fun i => by rw [place, place, h]

theorem slotFeed_of_sameRecords {s t : State} (h : s.SameRecords t) (ref : SlotRef) : t.slotFeed ref = s.slotFeed ref := by
  have h := h ref.record
  unfold slotFeed
  cases hs : s.place ref.record <;> cases ht : t.place ref.record <;> simp [hs, ht] at h ⊢
  rw [h]

theorem carrying_of_circuits {s t : State} (h : t.circuits = s.circuits) (f : Fin 48) : t.carrying f = s.carrying f := by
  unfold carrying circuit
  rw [h]

theorem health_of_rmon {s t : State} (h : t.rmon = s.rmon) (r : Fin 48) : t.health r = s.health r := by
  unfold health route
  rw [h]

theorem SameCarriage.refl (s : State) : s.SameCarriage s := ⟨rfl, rfl, fun _ => rfl, fun _ => rfl, fun _ => rfl⟩

theorem SameCarriage.trans {s t u : State} (h : s.SameCarriage t) (k : t.SameCarriage u) : s.SameCarriage u :=
  ⟨k.rmon.trans h.rmon, k.circuits.trans h.circuits, h.records.trans k.records,
    fun p => (k.holder p).trans (h.holder p), fun p => (k.committed p).trans (h.committed p)⟩

theorem SameCarriage.slotRoute {s t : State} (h : s.SameCarriage t) (ref : SlotRef) :
    t.slotRoute ref = s.slotRoute ref := by
  unfold State.slotRoute
  rw [slotFeed_of_sameRecords h.records]
  exact congrArg _ (funext (carrying_of_circuits h.circuits))

theorem SameCarriage.deliveredNow {s t : State} (h : s.SameCarriage t) (p : Fin 32) :
    t.deliveredNow p = s.deliveredNow p := by
  unfold State.deliveredNow
  simp only [h.holder p, h.committed p, h.slotRoute, health_of_rmon h.rmon]

theorem heldBy_of_same {s t : State} (records : s.SameRecords t) {p : Fin 32}
    (holder : (t.xport p).holder = (s.xport p).holder) (feed : Fin 48) : t.heldBy p feed = s.heldBy p feed := by
  unfold heldBy
  simp only [holder, slotFeed_of_sameRecords records]

theorem claimedBy_of_sameRecords {s t : State} (records : s.SameRecords t) (x : XPort) (feed : Fin 48) :
    t.claimedBy x feed = s.claimedBy x feed := by
  unfold claimedBy
  simp only [slotFeed_of_sameRecords records]

/-! ### One flag -/

/-- The copies of the booking `id` in place `i`, once the flag of port `p` has been handed to MTR (R145). -/
def copyFlag (s : State) (i : Fin 192) (id : Half) (copies : List (Option Bool)) (p : Fin 32) : List (Option Bool) :=
  match (s.xport p).holder with
  | .slot ref => if ref.record = i ∧ id = ref.id then copies.set ref.slot (s.deliveredNow p) else copies
  | .patch | .nobody => copies

theorem deliveredNow_of_slot {s : State} {p : Fin 32} {ref : SlotRef} (h : (s.xport p).holder = .slot ref) :
    ∃ b, s.deliveredNow p = some b := by
  unfold deliveredNow
  simp only [h]
  split <;> exact ⟨_, rfl⟩

theorem copyFlag_of_slot {s : State} {p : Fin 32} {ref : SlotRef} (h : (s.xport p).holder = .slot ref) (i : Fin 192)
    (id : Half) (cs : List (Option Bool)) :
    s.copyFlag i id cs p = if ref.record = i ∧ id = ref.id then cs.set ref.slot (s.deliveredNow p) else cs := by
  simp only [copyFlag, h]

theorem SameCarriage.copyFlag {s t : State} (h : s.SameCarriage t) : t.copyFlag = s.copyFlag := by
  funext i id cs p
  unfold State.copyFlag
  simp only [h.holder p, h.deliveredNow p]

theorem onXPort_xport (s : State) (p q : Fin 32) (f : XPort → XPort) :
    (s.onXPort p f).xport q = if p = q then f (s.xport q) else s.xport q := by
  by_cases e : p = q
  · subst e; simp [onXPort]
  · simp [onXPort, e, setXPort_xport_ne]

theorem storeFlag_of_slot {s : State} {p : Fin 32} {ref : SlotRef} {b : Bool} (h : (s.xport p).holder = .slot ref)
    (v : s.deliveredNow p = some b) :
    s.storeFlag p = (s.onXPort p fun x => { x with delivered := s.deliveredNow p }).storeCopy ref b := by
  simp only [storeFlag, h, v]

theorem storeFlag_of_no_slot {s : State} {p : Fin 32} (h : ∀ ref, (s.xport p).holder ≠ .slot ref) :
    s.storeFlag p = s.onXPort p fun x => { x with delivered := s.deliveredNow p } := by
  unfold storeFlag
  dsimp only
  split
  next ref b holder _ => exact absurd holder (h ref)
  next => rfl

theorem storeFlag_place (s : State) (p : Fin 32) (i : Fin 192) :
    (s.storeFlag p).place i = (s.place i).map fun x =>
      { x with meter := { x.meter with copies := s.copyFlag i x.booking.id x.meter.copies p } } := by
  cases holder : (s.xport p).holder with
  | slot ref =>
    obtain ⟨b, v⟩ := deliveredNow_of_slot holder
    rw [storeFlag_of_slot holder v, storeCopy, onPlace_place]
    simp only [copyFlag_of_slot holder, v]
    change (if ref.record = i then (s.place i).map _ else s.place i) = _
    cases s.place i with
    | none => simp
    | some x =>
      by_cases here : ref.record = i
      · by_cases same : x.booking.id = ref.id <;> simp [here, same]
      · simp [here]
  | patch | nobody =>
    rw [storeFlag_of_no_slot (by simp [holder])]
    change s.place i = _
    cases s.place i <;> simp [copyFlag, holder]

theorem storeFlag_xport (s : State) (p q : Fin 32) :
    (s.storeFlag p).xport q =
      { s.xport q with delivered := if p = q then s.deliveredNow q else (s.xport q).delivered } := by
  have stored : ((s.onXPort p fun x => { x with delivered := s.deliveredNow p }).xport q) =
      { s.xport q with delivered := if p = q then s.deliveredNow q else (s.xport q).delivered } := by
    rw [onXPort_xport]
    split
    next e => subst e; rfl
    next => rfl
  cases holder : (s.xport p).holder with
  | slot ref =>
    obtain ⟨b, v⟩ := deliveredNow_of_slot holder
    rw [storeFlag_of_slot holder v, storeCopy]
    exact (congrArg (fun x : XPC => x.ports.get q) (onPlace_agree _ _ _ .xpc (by decide))).trans stored
  | patch | nobody =>
    rw [storeFlag_of_no_slot (by simp [holder])]
    exact stored

/-- Two states differ in the places of the booking table and in the ports of XPC alone. -/
def OnlyPlacesAndPorts (s t : State) : Prop :=
  t = { s with bku := { s.bku with places := t.bku.places }, xpc := { s.xpc with ports := t.xpc.ports } }

theorem OnlyPlacesAndPorts.trans {s t u : State} (h : s.OnlyPlacesAndPorts t) (k : t.OnlyPlacesAndPorts u) :
    s.OnlyPlacesAndPorts u := by
  unfold OnlyPlacesAndPorts at *
  rw [k, h]

theorem onPlace_onlyPlaces (s : State) (i : Fin 192) (f : Place → Place) : s.OnlyPlacesAndPorts (s.onPlace i f) := by
  unfold onPlace
  split <;> rfl

theorem storeFlag_only (s : State) (p : Fin 32) : s.OnlyPlacesAndPorts (s.storeFlag p) := by
  unfold storeFlag
  dsimp only
  split
  · exact OnlyPlacesAndPorts.trans (t := s.onXPort p _) rfl (onPlace_onlyPlaces _ _ _)
  · rfl

theorem OnlyPlacesAndPorts.sameCarriage {s t : State} (h : s.OnlyPlacesAndPorts t) (records : s.SameRecords t)
    (holder : ∀ p, (t.xport p).holder = (s.xport p).holder)
    (committed : ∀ p, (t.xport p).committed = (s.xport p).committed) : s.SameCarriage t :=
  ⟨by rw [h], by rw [h], records, holder, committed⟩

theorem storeFlag_sameCarriage (s : State) (p : Fin 32) : s.SameCarriage (s.storeFlag p) := by
  refine (storeFlag_only s p).sameCarriage (fun i => ?_) (fun q => ?_) fun q => ?_
  · rw [storeFlag_place, Option.map_map]; rfl
  · rw [storeFlag_xport]
  · rw [storeFlag_xport]

/-! ### Some flags, one after another -/

/-- Some flags, each stored as the test gives it in `s`: the places and the ports after them. -/
structure FlagsStored (s t : State) (ports : List (Fin 32)) : Prop where
  carriage : s.SameCarriage t
  only : s.OnlyPlacesAndPorts t
  port : ∀ q, t.xport q =
    { s.xport q with delivered := if q ∈ ports then s.deliveredNow q else (s.xport q).delivered }
  place : ∀ i, t.place i = (s.place i).map fun x =>
    { x with meter := { x.meter with copies := ports.foldl (s.copyFlag i x.booking.id) x.meter.copies } }

theorem flagsStored (s : State) (ports : List (Fin 32)) : s.FlagsStored (ports.foldl storeFlag s) ports := by
  induction ports using List.reverseRecOn with
  | nil => exact ⟨.refl s, rfl, fun q => rfl, fun _ => (congrFun Option.map_id _).symm⟩
  | append_singleton ports p ih =>
    rw [List.foldl_append, List.foldl_cons, List.foldl_nil]
    refine ⟨ih.carriage.trans (storeFlag_sameCarriage _ p), ih.only.trans (storeFlag_only _ p), fun q => ?_, fun i => ?_⟩
    · rw [storeFlag_xport, ih.port, ih.carriage.deliveredNow]
      by_cases e : p = q
      · simp [e]
      · simp [e, Ne.symm e]
    · rw [storeFlag_place, ih.place, ih.carriage.copyFlag, Option.map_map]
      simp only [List.foldl_append, List.foldl_cons, List.foldl_nil]
      rfl

end State

/-! ### The gates -/

namespace MeterSet

theorem evalGate_of_settled {basis : GateBasis} {m : MeterSet} (h : m.phase ≠ .running ∨ gateOf basis m.copies = m.gate)
    (grace : Nat) : m.evalGate basis grace = m := by
  unfold evalGate
  rw [if_pos (by simpa using h)]

@[simp] theorem closeEpisode_copies (grace : Nat) (m : MeterSet) : (m.closeEpisode grace).copies = m.copies := by
  unfold closeEpisode
  split <;> rfl

@[simp] theorem evalGate_copies (basis : GateBasis) (grace : Nat) (m : MeterSet) :
    (m.evalGate basis grace).copies = m.copies := by
  unfold evalGate
  dsimp only
  split
  · rfl
  · split
    · exact closeEpisode_copies grace m
    · rfl

/-- In RUNNING the evaluated gate is the one that the copies give (R146). -/
theorem evalGate_gate {basis : GateBasis} {m : MeterSet} (running : m.phase = .running) (grace : Nat) :
    (m.evalGate basis grace).gate = gateOf basis m.copies := by
  unfold evalGate
  dsimp only
  split
  next settled => simp_all
  next =>
    split
    next open_ => exact open_.symm
    next closed => simpa using closed

/-- A second evaluation with the same copies finds the gate as it should be (R146). -/
theorem evalGate_evalGate (basis : GateBasis) (grace : Nat) (m : MeterSet) :
    (m.evalGate basis grace).evalGate basis grace = m.evalGate basis grace := by
  refine evalGate_of_settled ?_ grace
  by_cases running : m.phase = .running
  · exact .inr (by rw [evalGate_copies, evalGate_gate running])
  · exact .inl (by rwa [evalGate_phase])

/-- The evaluation after new copies, as R145, R146 and R149 give it. -/
theorem evalGate_eq_gatedWith (basis : GateBasis) (grace : Nat) (copies : List (Option Bool)) (m : MeterSet) :
    ({ m with copies := copies } : MeterSet).evalGate basis grace = m.gatedWith basis grace copies := by
  unfold evalGate gatedWith
  dsimp only
  by_cases settled : m.phase ≠ .running ∨ gateOf basis copies = m.gate
  · rw [if_pos (by simpa using settled), if_pos settled]
  · rw [if_neg (by simpa using settled), if_neg settled]
    split
    next =>
      unfold closeEpisode
      rcases m with ⟨phase, cs, gate, ot, l, s, o, t, oc, _ | _ | k, es, lg, nt, np, ss⟩ <;> rfl
    next => rfl

end MeterSet

/-- A place whose gate has been evaluated with the terms of its tariff. -/
def Place.gated (terms : TariffTerms) (x : Place) : Place :=
  { x with meter := x.meter.evalGate terms.basis terms.grace }

namespace State

/-- The gate of place `i` evaluated. -/
def gatedPlace (s : State) (x : Place) : Place := x.gated (s.terms x.booking)

theorem gatedPlace_gatedPlace (s : State) (x : Place) : s.gatedPlace (s.gatedPlace x) = s.gatedPlace x := by
  unfold gatedPlace Place.gated
  rw [MeterSet.evalGate_evalGate]

theorem evalGateAt_place (s : State) (i j : Fin 192) :
    (s.evalGateAt i).place j = if i = j then (s.place j).map s.gatedPlace else s.place j := by
  rw [evalGateAt_eq_onPlace, onPlace_place]
  rfl

/-- Gates that are evaluated one after another: each place named has its gate evaluated, once or more often. -/
structure GatesTaken (s t : State) (l : List (Fin 192)) : Prop where
  only : s.OnlyPlacesAndPorts t
  ports : t.xpc = s.xpc
  place : ∀ j, t.place j = if j ∈ l then (s.place j).map s.gatedPlace else s.place j

theorem gatesTaken (s : State) (l : List (Fin 192)) : s.GatesTaken (l.foldl evalGateAt s) l := by
  induction l using List.reverseRecOn with
  | nil => exact ⟨rfl, rfl, fun _ => rfl⟩
  | append_singleton l i ih =>
    rw [List.foldl_append, List.foldl_cons, List.foldl_nil]
    obtain ⟨only, ports, place⟩ := ih
    have terms : (l.foldl evalGateAt s).gatedPlace = s.gatedPlace := by
      funext x
      unfold gatedPlace State.terms
      rw [only]
    refine ⟨only.trans ?_, (Eq.trans ?_ ports), fun j => ?_⟩
    · rw [evalGateAt_eq_onPlace]; exact onPlace_onlyPlaces _ _ _
    · rw [evalGateAt_eq_onPlace]; exact onPlace_agree _ _ _ .xpc (by decide)
    · rw [evalGateAt_place, place, terms]
      by_cases e : i = j
      · subst e
        by_cases m : i ∈ l
        · simp [m, Function.comp_def, gatedPlace_gatedPlace]
        · simp [m]
      · simp [e, Ne.symm e]

/-! ### The flags of some ports in one event -/

/-- The ports whose flag moves when the flags of `ports` are worked out anew. -/
def movedPorts (s : State) (ports : List (Fin 32)) : List (Fin 32) :=
  ports.filter fun p => s.deliveredNow p != (s.xport p).delivered

theorem mem_movedPorts {s : State} {ports : List (Fin 32)} {p : Fin 32} :
    p ∈ s.movedPorts ports ↔ p ∈ ports ∧ s.deliveredNow p ≠ (s.xport p).delivered := by simp [movedPorts]

theorem mem_holderRecords {s : State} {ports : List (Fin 32)} {i : Fin 192} :
    i ∈ (s.movedPorts ports).filterMap s.holderRecord ↔ ∃ p, s.flagMoved ports i p := by
  simp only [List.mem_filterMap, mem_movedPorts, flagMoved, heldByPlace, and_assoc]
  refine exists_congr fun p => and_congr_right fun _ => and_congr_right fun _ => ?_
  unfold holderRecord
  cases (s.xport p).holder <;> simp

/-- The copies of the booking `id` in place `i` once the flags of `ports` have moved. -/
def copiesAfter (s : State) (ports : List (Fin 32)) (i : Fin 192) (id : Half) (copies : List (Option Bool)) :
    List (Option Bool) := (s.movedPorts ports).foldl (s.copyFlag i id) copies

theorem recomputeFlags_eq (s : State) (ports : List (Fin 32)) :
    s.recomputeFlags ports =
      ((s.movedPorts ports).filterMap s.holderRecord).foldl evalGateAt ((s.movedPorts ports).foldl storeFlag s) := rfl

theorem recomputeFlags_only (s : State) (ports : List (Fin 32)) : s.OnlyPlacesAndPorts (s.recomputeFlags ports) :=
  (flagsStored s _).only.trans (gatesTaken _ _).only

theorem recomputeFlags_xport (s : State) (ports : List (Fin 32)) (p : Fin 32) :
    (s.recomputeFlags ports).xport p =
      { s.xport p with delivered := if p ∈ ports then s.deliveredNow p else (s.xport p).delivered } := by
  have same : (s.recomputeFlags ports).xport p = ((s.movedPorts ports).foldl storeFlag s).xport p :=
    congrArg (fun x : XPC => x.ports.get p) (gatesTaken _ _).ports
  rw [same, (flagsStored s _).port]
  simp only [mem_movedPorts]
  by_cases named : p ∈ ports
  · by_cases moved : s.deliveredNow p = (s.xport p).delivered <;> simp [named, moved]
  · simp [named]

theorem recomputeFlags_place (s : State) (ports : List (Fin 32)) (i : Fin 192) :
    (s.recomputeFlags ports).place i = (s.place i).map fun x =>
      let y : Place :=
        { x with meter := { x.meter with copies := s.copiesAfter ports i x.booking.id x.meter.copies } }
      if i ∈ (s.movedPorts ports).filterMap s.holderRecord then s.gatedPlace y else y := by
  have stored := flagsStored s (s.movedPorts ports)
  have terms : ((s.movedPorts ports).foldl storeFlag s).gatedPlace = s.gatedPlace := by
    funext x
    unfold gatedPlace State.terms
    rw [stored.only]
  rw [recomputeFlags_eq, (gatesTaken _ _).place, stored.place, terms]
  cases s.place i with
  | none => simp
  | some x => split <;> rfl

theorem recomputeFlags_sameCarriage (s : State) (ports : List (Fin 32)) : s.SameCarriage (s.recomputeFlags ports) := by
  refine (recomputeFlags_only s ports).sameCarriage (fun i => ?_) (fun p => ?_) fun p => ?_
  · rw [recomputeFlags_place, Option.map_map]
    congr 1
    funext x
    simp only [Function.comp_apply]
    split <;> rfl
  · rw [recomputeFlags_xport]
  · rw [recomputeFlags_xport]

/-! ### The copies -/

theorem length_copyFlag (s : State) (i : Fin 192) (id : Half) (cs : List (Option Bool)) (p : Fin 32) :
    (s.copyFlag i id cs p).length = cs.length := by
  unfold copyFlag
  split
  · split
    · exact List.length_set
    · rfl
  all_goals rfl

theorem length_foldl_copyFlag (s : State) (i : Fin 192) (id : Half) (l : List (Fin 32)) (cs : List (Option Bool)) :
    (l.foldl (s.copyFlag i id) cs).length = cs.length := by
  induction l generalizing cs with
  | nil => rfl
  | cons p l ih => rw [List.foldl_cons, ih, length_copyFlag]

/-- A port that a slot of another number, or of another booking, holds leaves the copy of slot `k`. -/
theorem getElem?_copyFlag_of_ne {s : State} {i : Fin 192} {id : Half} {k : Nat} {p : Fin 32}
    (h : (s.xport p).holder ≠ .slot ⟨i, k, id⟩) (cs : List (Option Bool)) : (s.copyFlag i id cs p)[k]? = cs[k]? := by
  cases holder : (s.xport p).holder with
  | slot ref =>
    rw [copyFlag_of_slot holder]
    split
    next same =>
      refine List.getElem?_set_ne fun e => h ?_
      rw [holder, ← same.1, same.2, ← e]
    next => rfl
  | patch | nobody => simp [copyFlag, holder]

theorem getElem?_copyFlag_of_eq {s : State} {i : Fin 192} {id : Half} {k : Nat} {p : Fin 32}
    (h : (s.xport p).holder = .slot ⟨i, k, id⟩) {cs : List (Option Bool)} (slot : k < cs.length) :
    (s.copyFlag i id cs p)[k]? = some (s.deliveredNow p) := by
  rw [copyFlag_of_slot h, if_pos ⟨rfl, rfl⟩, List.getElem?_set_self slot]

theorem getElem?_foldl_copyFlag_of_ne {s : State} {i : Fin 192} {id : Half} {k : Nat} {l : List (Fin 32)}
    (h : ∀ p ∈ l, (s.xport p).holder ≠ .slot ⟨i, k, id⟩) (cs : List (Option Bool)) :
    (l.foldl (s.copyFlag i id) cs)[k]? = cs[k]? := by
  induction l generalizing cs with
  | nil => rfl
  | cons p l ih =>
    rw [List.foldl_cons, ih (fun q hq => h q (List.mem_cons_of_mem p hq)),
      getElem?_copyFlag_of_ne (h p (List.mem_cons_self ..))]

/-- A slot that holds some of the ports ends with the flag of one of them: the last. -/
theorem getElem?_foldl_copyFlag_of_mem {s : State} {i : Fin 192} {id : Half} {k : Nat} {l : List (Fin 32)} {p : Fin 32}
    (hp : p ∈ l) (h : (s.xport p).holder = .slot ⟨i, k, id⟩) {cs : List (Option Bool)} (slot : k < cs.length) :
    ∃ q ∈ l, (s.xport q).holder = .slot ⟨i, k, id⟩ ∧
      (l.foldl (s.copyFlag i id) cs)[k]? = some (s.deliveredNow q) := by
  induction l using List.reverseRecOn with
  | nil => cases hp
  | append_singleton l r ih =>
    simp only [List.foldl_append, List.foldl_cons, List.foldl_nil, List.mem_append, List.mem_singleton]
    by_cases last : (s.xport r).holder = .slot ⟨i, k, id⟩
    · exact ⟨r, .inr rfl, last, getElem?_copyFlag_of_eq last (by rwa [length_foldl_copyFlag])⟩
    · have hp : p ∈ l := by
        rcases List.mem_append.1 hp with hp | hp
        · exact hp
        · exact absurd (List.mem_singleton.1 hp ▸ h) last
      obtain ⟨q, hq, holder, copy⟩ := ih hp
      exact ⟨q, .inl hq, holder, by rw [getElem?_copyFlag_of_ne last, copy]⟩

theorem copiesAfter_of_unmoved {s : State} {ports : List (Fin 32)} {i : Fin 192} (h : ∀ p, ¬s.flagMoved ports i p)
    (id : Half) (cs : List (Option Bool)) : s.copiesAfter ports i id cs = cs := by
  refine List.ext_getElem? fun k => getElem?_foldl_copyFlag_of_ne (fun p hp holder => h p ?_) cs
  obtain ⟨named, moved⟩ := mem_movedPorts.1 hp
  exact ⟨named, moved, _, holder, rfl⟩

theorem recomputeFlags_place_of_unmoved {s : State} {ports : List (Fin 32)} {i : Fin 192}
    (h : s.place i = none ∨ ∀ p, ¬s.flagMoved ports i p) : (s.recomputeFlags ports).place i = s.place i := by
  rw [recomputeFlags_place]
  rcases h with free | unmoved
  · rw [free, Option.map_none]
  · simp only [mem_holderRecords, not_exists.2 unmoved, if_false, copiesAfter_of_unmoved unmoved]
    exact congrFun Option.map_id _

/-- What the flags of some ports, worked out anew in one event, make of XPC and MTR (R137, R145, R146, R149). -/
theorem recomputeFlags_taken (s : State) (ports : List (Fin 32)) : s.FlagsTaken (s.recomputeFlags ports) ports where
  delivered := recomputeFlags_xport s ports
  concerned i x hx moved := by
    refine ⟨s.copiesAfter ports i x.booking.id x.meter.copies, length_foldl_copyFlag .., fun k other => ?_,
      fun k p hp holder slot => ?_, ?_⟩
    · refine getElem?_foldl_copyFlag_of_ne (fun p hp holder => other p ?_ holder) _
      obtain ⟨named, moves⟩ := mem_movedPorts.1 hp
      exact ⟨named, moves, _, holder, rfl⟩
    · obtain ⟨q, hq, holds, copy⟩ := getElem?_foldl_copyFlag_of_mem (mem_movedPorts.2 ⟨hp.1, hp.2.1⟩) holder
        (by rwa [← length_foldl_copyFlag])
      obtain ⟨named, moves⟩ := mem_movedPorts.1 hq
      exact ⟨q, ⟨named, moves, _, holds, rfl⟩, holds, copy⟩
    · rw [recomputeFlags_place, hx, Option.map_some]
      simp only [mem_holderRecords, moved, if_true, gatedPlace, Place.gated, MeterSet.evalGate_eq_gatedWith]
  others _ := recomputeFlags_place_of_unmoved
  outside := recomputeFlags_only s ports

end State

/-- Settles O43: the flags that move are stored one after another, and then the gates of their holders are evaluated. -/
theorem flagsReachTheMeters : Obligations.FlagsReachTheMeters := State.recomputeFlags_taken

end Sys2Proof.Machine
end

