-- ==== Sys2Proof/Proofs/NoticeList.lean ====
section
/-! PROOFS. The notice list: the pending flags after each operation of NTC, and the law of the list that each keeps (R175
to R178, R181). -/

namespace Sys2Proof.Machine

namespace NTC

/-! ### Pending flags -/

theorem raise_pending (n : NTC) (o q : Fin 267) : (n.raise o).pending q = (n.pending q || decide (q = o)) := by
  unfold raise
  split
  next set =>
    by_cases e : q = o
    · simp [e, set]
    · simp [e]
  next =>
    by_cases e : q = o
    · simp [e, pending]
    · simp [e, pending, upd_get_ne _ _ (Ne.symm e)]

@[simp] theorem raise_mask (n : NTC) (o : Fin 267) : (n.raise o).mask = n.mask := by
  unfold raise
  split <;> rfl

theorem raise_of_pending {n : NTC} {o : Fin 267} (h : n.pending o = true) : n.raise o = n := if_pos h

theorem raise_raise (n : NTC) (o : Fin 267) : (n.raise o).raise o = n.raise o :=
  raise_of_pending (by simp [raise_pending])

theorem withdraw_pending (n : NTC) (o q : Fin 267) : (n.withdraw o).pending q = (n.pending q && decide (q ≠ o)) := by
  unfold withdraw
  split
  next =>
    by_cases e : q = o
    · simp [e, pending]
    · simp [e, pending, upd_get_ne _ _ (Ne.symm e)]
  next clear =>
    by_cases e : q = o
    · simp_all
    · simp [e]

@[simp] theorem withdraw_mask (n : NTC) (o : Fin 267) : (n.withdraw o).mask = n.mask := by
  unfold withdraw
  split <;> rfl

/-! ### The law of the list -/

theorem raise_law {n : NTC} (h : n.Law) (o : Fin 267) : (n.raise o).Law := by
  obtain ⟨nodup, mem⟩ := h
  by_cases set : n.pending o = true
  · rw [raise_of_pending set]
    exact ⟨nodup, mem⟩
  have absent : o ∉ n.list := fun inList => set ((mem o).1 inList).1
  have list : (n.raise o).list = if n.enabled o then n.list ++ [o] else n.list := by simp [raise, set]
  have enabled (q : Fin 267) : (n.raise o).enabled q = n.enabled q := by simp [NTC.enabled]
  refine ⟨?_, fun q => ?_⟩
  · rw [list]
    split
    · exact nodup.append (List.nodup_singleton o) (by simpa using absent)
    · exact nodup
  · rw [list, enabled, raise_pending]
    by_cases e : q = o
    · subst e
      by_cases on : n.enabled q = true <;> simp [on, absent]
    · by_cases on : n.enabled o = true <;> simp [on, e, mem q]

/-- An object whose flag is cleared and that is taken off the list. -/
theorem cleared_law {n : NTC} (h : n.Law) (o : Fin 267) :
    NTC.Law { n with flags := upd n.flags o false, list := n.list.filter (· != o) } := by
  obtain ⟨nodup, mem⟩ := h
  refine ⟨nodup.filter _, fun q => ?_⟩
  simp only [List.mem_filter, mem q, pending, NTC.enabled]
  by_cases e : q = o
  · simp [e]
  · simp [e, upd_get_ne _ _ (Ne.symm e)]

theorem withdraw_law {n : NTC} (h : n.Law) (o : Fin 267) : (n.withdraw o).Law := by
  unfold withdraw
  split
  · exact cleared_law h o
  · exact h

/-- The head of the list is taken for sending (R178): the others are what the filter leaves. -/
theorem sent_law {n : NTC} (h : n.Law) {o : Fin 267} {rest : List (Fin 267)} (list : n.list = o :: rest) :
    NTC.Law { n with flags := upd n.flags o false, list := rest } := by
  have cleared := cleared_law h o
  obtain ⟨nodup, -⟩ := h
  rw [list, List.nodup_cons] at nodup
  have others : (n.list.filter (· != o)) = rest := by
    rw [list, List.filter_cons_of_neg (by simp), List.filter_eq_self]
    intro q hq
    exact bne_iff_ne.2 fun e => nodup.1 (e ▸ hq)
  rwa [others] at cleared

theorem setMask_law {n : NTC} (h : n.Law) (mask : Table Bool 6) : (n.setMask mask).Law := by
  obtain ⟨nodup, mem⟩ := h
  refine ⟨(nodup.filter _).append ((List.nodup_finRange 267).filter _) fun o kept joins => ?_, fun o => ?_⟩
  · simp only [List.mem_filter, mem o, Bool.and_eq_true, Bool.not_eq_true'] at kept joins
    exact absurd kept.1.2 (by simp [joins.2.2])
  · have split : o ∈ (n.setMask mask).list ↔
        (n.pending o = true ∧ n.enabled o = true) ∧ mask.get (classOf o) = true ∨
          (n.pending o = true ∧ mask.get (classOf o) = true) ∧ n.enabled o = false := by
      simp [setMask, mem o]
    rw [split]
    change _ ↔ n.pending o = true ∧ mask.get (classOf o) = true
    cases n.enabled o <;> simp

theorem resetTraffic_law {n : NTC} (h : n.Law) : n.resetTraffic.Law := by
  obtain ⟨nodup, mem⟩ := h
  refine ⟨nodup.filter _, fun o => ?_⟩
  simp only [resetTraffic, List.mem_filter, mem o, pending, NTC.enabled, tab_get, Bool.and_eq_true]
  tauto

theorem reset_law : NTC.reset.Law := by
  refine ⟨List.nodup_nil, fun o => ?_⟩
  simp [NTC.reset, pending]

end NTC

/-! ### The classes of the objects -/

theorem healthObject_injective {r q : Fin 48} (h : healthObject r = healthObject q) : r = q := by
  simpa [healthObject, Fin.ext_iff] using h

theorem circuitObject_injective {c d : Fin 24} (h : circuitObject c = circuitObject d) : c = d := by
  simpa [circuitObject, Fin.ext_iff] using h

theorem healthObject_ne_circuitObject (r : Fin 48) (c : Fin 24) : healthObject r ≠ circuitObject c := by
  simp only [healthObject, circuitObject, ne_eq, Fin.ext_iff]
  omega

theorem classOf_healthObject (r : Fin 48) : classOf (healthObject r) = 0 := by
  simp [classOf, healthObject]

theorem classOf_circuitObject (c : Fin 24) : classOf (circuitObject c) = 1 := by
  have h : ¬48 + c.val < 48 := by omega
  have k : 48 + c.val < 72 := by omega
  simp [classOf, circuitObject, k]

end Sys2Proof.Machine
end

