-- ==== Sys2Proof/Proofs/Selection.lean ====
section
/-! PROOFS. PSEL (O32): what a re-source leaves and makes, what a change of a selector state hands on, and the evaluation of
a circuit with the expiry of its two timers. -/

namespace Sys2Proof.Machine

theorem upd_upd {α : Type} {n : Nat} (t : Table α n) (i : Fin n) (a b : α) : upd (upd t i a) i b = upd t i b :=
  table_ext fun j => by simp only [upd_get_eq]; split <;> rfl

theorem upd_self {α : Type} {n : Nat} (t : Table α n) (i : Fin n) : upd t i (t.get i) = t :=
  table_ext fun j => by
    rw [upd_get_eq]
    split
    next e => rw [e]
    next => rfl

/-! ### Meter sets under the evaluation of a gate -/

/-- An evaluation leaves of a meter set all but the gate, the episodes and the credited outage (R146, R149). -/
theorem MeterSet.evalGate_frame (basis : GateBasis) (grace : Nat) (m : MeterSet) :
    ∃ gate episode episodes longest oc, m.evalGate basis grace =
      { m with gate := gate, episode := episode, episodes := episodes, longest := longest, oc := oc } := by
  unfold evalGate
  dsimp only
  split
  · exact ⟨_, _, _, _, _, rfl⟩
  · split
    · unfold closeEpisode
      split <;> exact ⟨_, _, _, _, _, rfl⟩
    · exact ⟨_, _, _, _, _, rfl⟩

namespace Place.SameBooking

theorem refl (p : Place) : p.SameBooking p := ⟨rfl, rfl, rfl, rfl, rfl, rfl, rfl, rfl, rfl, rfl⟩

theorem trans {p q r : Place} (h : p.SameBooking q) (k : q.SameBooking r) : p.SameBooking r := by
  obtain ⟨b, hd, ph, ov, l, s, o, t, nt, ss⟩ := h
  obtain ⟨b', hd', ph', ov', l', s', o', t', nt', ss'⟩ := k
  exact ⟨b'.trans b, hd'.trans hd, ph'.trans ph, ov'.trans ov, l'.trans l, s'.trans s, o'.trans o, t'.trans t,
    nt'.trans nt, ss'.trans ss⟩

end Place.SameBooking

namespace State

/-! ### Bookings and takes that stand -/

theorem BookingsKept.refl (s : State) : s.BookingsKept s := by
  refine ⟨rfl, rfl, fun i => ?_⟩
  cases h : s.place i with
  | none => exact .inl ⟨rfl, rfl⟩
  | some p => exact .inr ⟨p, p, rfl, rfl, .refl p⟩

theorem BookingsKept.trans {s t u : State} (h : s.BookingsKept t) (k : t.BookingsKept u) : s.BookingsKept u := by
  refine ⟨k.1.trans h.1, k.2.1.trans h.2.1, fun i => ?_⟩
  rcases h.2.2 i with ⟨hs, ht⟩ | ⟨p, q, hs, ht, same⟩
  · rcases k.2.2 i with ⟨-, hu⟩ | ⟨q, _, ht', -⟩
    · exact .inl ⟨hs, hu⟩
    · cases ht.symm.trans ht'
  · rcases k.2.2 i with ⟨ht', -⟩ | ⟨q', r, ht', hu, same'⟩
    · cases ht.symm.trans ht'
    · cases ht.symm.trans ht'
      exact .inr ⟨p, r, hs, hu, same.trans same'⟩

theorem BookingsKept.sameRecords {s t : State} (h : s.BookingsKept t) : s.SameRecords t := fun i => by
  rcases h.2.2 i with ⟨hs, ht⟩ | ⟨p, q, hs, ht, same⟩
  · rw [hs, ht]
  · rw [hs, ht, Option.map_some, Option.map_some, same.1]

/-- Both places of a booking that is kept. -/
theorem BookingsKept.place {s t : State} (h : s.BookingsKept t) {i : Fin 192} {p q : Place} (hs : s.place i = some p)
    (ht : t.place i = some q) : p.SameBooking q := by
  rcases h.2.2 i with ⟨hs', -⟩ | ⟨p', q', hs', ht', same⟩
  · cases hs.symm.trans hs'
  · cases hs.symm.trans hs'
    cases ht.symm.trans ht'
    exact same

theorem BookingsKept.some_of_some {s t : State} (h : s.BookingsKept t) {i : Fin 192} {p : Place}
    (hs : s.place i = some p) : ∃ q, t.place i = some q ∧ p.SameBooking q := by
  rcases h.2.2 i with ⟨hs', -⟩ | ⟨p', q', hs', ht', same⟩
  · cases hs.symm.trans hs'
  · cases hs.symm.trans hs'
    exact ⟨q', ht', same⟩

theorem FlightKept.refl (s : State) : s.FlightKept s := ⟨rfl, fun _ => ⟨rfl, rfl⟩⟩

theorem FlightKept.trans {s t u : State} (h : s.FlightKept t) (k : t.FlightKept u) : s.FlightKept u := by
  refine ⟨?_, fun p => ⟨(k.2 p).1.trans (h.2 p).1, (k.2 p).2.trans (h.2 p).2⟩⟩
  rw [k.1, h.1]

theorem OnlyPlacesAndPorts.agree {s t : State} (h : s.OnlyPlacesAndPorts t) : Agree flagParts s t := fun p hp => by
  unfold OnlyPlacesAndPorts at h
  cases p <;> first | exact absurd (by decide) hp | (show _ = _; rw [h])

theorem OnlyPlacesAndPorts.flightKept {s t : State} (h : s.OnlyPlacesAndPorts t) (carriage : s.SameCarriage t) :
    s.FlightKept t := by
  refine ⟨?_, fun p => ⟨carriage.committed p, carriage.holder p⟩⟩
  unfold OnlyPlacesAndPorts at h
  rw [h]

/-- A place under the flags of some ports: the booking and N_p stand. -/
theorem recomputeFlags_place_kept (s : State) (ports : List (Fin 32)) (i : Fin 192) :
    (s.place i = none ∧ (s.recomputeFlags ports).place i = none) ∨
      ∃ p q, s.place i = some p ∧ (s.recomputeFlags ports).place i = some q ∧ p.SameBooking q ∧
        q.meter.np = p.meter.np := by
  rw [recomputeFlags_place]
  cases s.place i with
  | none => exact .inl ⟨rfl, rfl⟩
  | some p =>
    refine .inr ⟨p, _, rfl, rfl, ?_⟩
    dsimp only
    split
    · unfold gatedPlace Place.gated
      dsimp only
      obtain ⟨gate, episode, episodes, longest, oc, h⟩ := MeterSet.evalGate_frame (s.terms p.booking).basis
        (s.terms p.booking).grace
        { p.meter with copies := s.copiesAfter ports i p.booking.id p.meter.copies }
      rw [h]
      exact ⟨.refl _, rfl⟩
    · exact ⟨.refl _, rfl⟩

/-! ### A re-source (R126) -/

theorem claim_of_entryOrNew {x y : XPort} (h : y.entryOrNew = x.entryOrNew) : y.claim = x.claim := by
  unfold XPort.claim
  rw [h]

/-- What a re-source makes of a port, in one record (R126). -/
theorem resourcePort_eq (s : State) (feed old new : Fin 48) (x : XPort) :
    s.resourcePort feed old new x = { x with
      patch := if x.patch = some old then some new else x.patch
      entry := if s.claimedBy x feed = true ∨ x.patch = some old then some x.entryOrNew else x.entry } := by
  unfold resourcePort
  by_cases claimed : s.claimedBy x feed = true
  · by_cases patched : x.patch = some old <;> simp [claimed, patched, XPort.entryOrNew]
  · by_cases patched : x.patch = some old <;> simp [claimed, patched]

/-- The ports once a re-source has reached them, with the flags as they were. -/
def resourced (s : State) (feed old new : Fin 48) : State :=
  { s with xpc := { s.xpc with ports := tab fun p => s.resourcePort feed old new (s.xport p) } }

theorem resource_eq (s : State) (feed old new : Fin 48) :
    s.resource feed old new = (s.resourced feed old new).recomputeFlags
      ((List.finRange 32).filter fun p => (s.resourced feed old new).heldBy p feed) := rfl

theorem resourced_xport (s : State) (feed old new : Fin 48) (p : Fin 32) :
    (s.resourced feed old new).xport p = s.resourcePort feed old new (s.xport p) := by
  simp [resourced, xport]

theorem resourced_sameCarriage (s : State) (feed old new : Fin 48) : s.SameCarriage (s.resourced feed old new) := by
  refine ⟨rfl, rfl, fun _ => rfl, fun p => ?_, fun p => ?_⟩
  · rw [resourced_xport, resourcePort_eq]
  · rw [resourced_xport, resourcePort_eq]

theorem resourced_heldBy (s : State) (feed old new : Fin 48) (p : Fin 32) (f : Fin 48) :
    (s.resourced feed old new).heldBy p f = s.heldBy p f :=
  heldBy_of_same (resourced_sameCarriage ..).records ((resourced_sameCarriage ..).holder p) f

/-- A selection change has reached XPC as a re-source of `feed` from `old` to `new`, and MTR as a count (R57, R126,
R152). -/
structure HandedOn (s t : State) (feed old new : Fin 48) : Prop where
  only : s.OnlyPlacesAndPorts t
  carriage : s.SameCarriage t
  port : ∀ p, t.xport p = { s.xport p with
    patch := if (s.xport p).patch = some old then some new else (s.xport p).patch
    entry := if s.claimedBy (s.xport p) feed = true ∨ (s.xport p).patch = some old then some (s.xport p).entryOrNew
      else (s.xport p).entry
    delivered := if s.heldBy p feed = true then t.deliveredNow p else (s.xport p).delivered }
  bookings : s.BookingsKept t
  count : ∀ i p q, s.place i = some p → t.place i = some q →
    q.meter.np = if p.meter.phase = .running ∧ feed ∈ p.booking.feeds then min max16 (p.meter.np + 1) else p.meter.np

theorem countProtection_sameCarriage (s : State) (feed : Fin 48) : s.SameCarriage (s.countProtection feed) := by
  refine ⟨rfl, rfl, fun i => ?_, fun _ => rfl, fun _ => rfl⟩
  rw [countProtection, mapPlaces_place, Option.map_map]
  congr 1
  funext p
  simp only [Function.comp_apply]
  split <;> rfl

theorem handSelection_handedOn (s : State) (c : Fin 24) (old new : Side) :
    s.HandedOn (s.handSelection c old new) (routeOf c .a) (routeOf c old) (routeOf c new) := by
  set feed := routeOf c .a
  set v := s.resourced feed (routeOf c old) (routeOf c new)
  set ports := (List.finRange 32).filter fun p => v.heldBy p feed
  have eq : s.handSelection c old new = (v.recomputeFlags ports).countProtection feed := rfl
  have counted := countProtection_sameCarriage (v.recomputeFlags ports) feed
  have carriage : s.SameCarriage (s.handSelection c old new) :=
    ((resourced_sameCarriage ..).trans (recomputeFlags_sameCarriage v ports)).trans counted
  have place (i : Fin 192) : (s.place i = none ∧ (s.handSelection c old new).place i = none) ∨
      ∃ p q, s.place i = some p ∧ (s.handSelection c old new).place i = some q ∧ p.SameBooking q ∧
        q.meter.np = if p.meter.phase = .running ∧ feed ∈ p.booking.feeds then min max16 (p.meter.np + 1)
          else p.meter.np := by
    rw [eq, countProtection, mapPlaces_place]
    rcases recomputeFlags_place_kept v ports i with ⟨hs, ht⟩ | ⟨p, q, hs, ht, same, np⟩
    · exact .inl ⟨hs, by rw [ht]; rfl⟩
    · refine .inr ⟨p, _, hs, by rw [ht]; rfl, ?_⟩
      obtain ⟨booking, held, phase, rest⟩ := same
      simp only [booking, phase, satAdd, np]
      split
      · exact ⟨⟨rfl, held, rfl, rest⟩, rfl⟩
      · exact ⟨⟨booking, held, phase, rest⟩, np⟩
  refine ⟨?_, carriage, fun p => ?_, ⟨?_, ?_, fun i => ?_⟩, fun i p q hs ht => ?_⟩
  · exact (OnlyPlacesAndPorts.trans (t := v) rfl (recomputeFlags_only v ports)).trans rfl
  · have now : v.deliveredNow p = (s.handSelection c old new).deliveredNow p := by
      rw [carriage.deliveredNow, (resourced_sameCarriage ..).deliveredNow]
    have held : p ∈ ports ↔ s.heldBy p feed = true := by
      simp only [ports, v, List.mem_filter, List.mem_finRange, true_and, resourced_heldBy]
    refine (recomputeFlags_xport v ports p).trans ?_
    rw [resourced_xport, resourcePort_eq]
    simp only [held, now]
  · rw [eq]; exact congrArg (·.bku.timelines) (recomputeFlags_only v ports)
  · rw [eq]; exact congrArg (·.bku.timeList) (recomputeFlags_only v ports)
  · rcases place i with free | ⟨p, q, hs, ht, same, -⟩
    · exact .inl free
    · exact .inr ⟨p, q, hs, ht, same⟩
  · rcases place i with ⟨hs', -⟩ | ⟨p', q', hs', ht', -, np⟩
    · cases hs.symm.trans hs'
    · cases hs.symm.trans hs'
      cases ht.symm.trans ht'
      exact np

/-! ### A change of the selector state (R57) -/

theorem selectedSide_setCircuit_of_same (s : State) {c : Fin 24} {k : Circuit} (same : k.selector = (s.circuit c).selector)
    (d : Fin 24) : (s.setCircuit c k).selectedSide d = s.selectedSide d := by
  unfold selectedSide
  by_cases e : c = d
  · subst e; rw [setCircuit_circuit, same]
  · rw [setCircuit_circuit_ne _ _ e]

end State

/-- The record of a circuit that takes a selector state with a reason, its selected side having been `old` (R57). -/
def Circuit.taking (k : Circuit) (old : Option Side) (st : SelState) (why : CircuitReason) (frame : Nat) : Circuit :=
  { k with
    selector := some st
    switchCount := if old.any (· != st.side) then satAdd max16 k.switchCount 1 else k.switchCount
    lastReason := why
    changeFrame := frame }

namespace State

/-- A change of the selector state where the selected route stays, or there was none: nothing is handed on (R57). -/
theorem changeSelector_of_stays {s : State} {c : Fin 24} {st : SelState} (h : ∀ old, s.selectedSide c = some old → old = st.side)
    (why : CircuitReason) :
    s.changeSelector c st why =
      (s.setCircuit c ((s.circuit c).taking (s.selectedSide c) st why s.tb.frame)).raise (circuitObject c) := by
  unfold changeSelector
  dsimp only
  split
  next side hside => rw [h side hside]; simp [Circuit.taking, hside, h side hside]
  next => rfl

/-- A change of the selector state as a switch (R57). -/
theorem changeSelector_of_switches {s : State} {c : Fin 24} {st : SelState} {old : Side} (h : s.selectedSide c = some old)
    (ne : old ≠ st.side) (why : CircuitReason) :
    s.changeSelector c st why =
      ((s.setCircuit c ((s.circuit c).taking (s.selectedSide c) st why s.tb.frame)).raise (circuitObject c)).handSelection
        c old st.side := by
  unfold changeSelector
  simp [h, ne, Circuit.taking]

/-- A circuit whose record has become `k` and then takes a selector state: one change from the state before both (R57,
R58). -/
theorem changeSelector_moved {s : State} {c : Fin 24} {k : Circuit} (same : k.selector = (s.circuit c).selector)
    (st : SelState) (why : CircuitReason) :
    s.SelectorMoved ((s.setCircuit c k).changeSelector c st why) c (k.taking (s.selectedSide c) st why s.tb.frame) := by
  have side := selectedSide_setCircuit_of_same s same c
  have record : (s.setCircuit c k).circuit c = k := setCircuit_circuit s c k
  by_cases switches : ∃ old, s.selectedSide c = some old ∧ old ≠ st.side
  · obtain ⟨old, was, ne⟩ := switches
    set x := k.taking (s.selectedSide c) st why s.tb.frame
    set v := ((s.setCircuit c k).setCircuit c x).raise (circuitObject c)
    have eq : (s.setCircuit c k).changeSelector c st why = v.handSelection c old st.side := by
      rw [changeSelector_of_switches (side.trans was) ne, side, record]
      rfl
    have handed := handSelection_handedOn v c old st.side
    have circuits : v.circuits = upd s.circuits c x := upd_upd ..
    rw [eq]
    generalize v.handSelection c old st.side = t at handed
    have agree := handed.only.agree
    have the {o n : Side} (ho : s.selectedSide c = some o) (hn : x.selector.map (·.side) = some n) :
        o = old ∧ n = st.side := ⟨Option.some.inj (ho.symm.trans was), (Option.some.inj hn).symm⟩
    refine ⟨?_, ?_, ⟨?_, ?_, ?_, ?_, ?_, ?_, ?_, ?_⟩, ?_, ?_, fun stays => ?_, fun o n p ho hn _ => ?_,
      fun o n p ho hn _ => ?_, fun o n p ho hn _ => ?_, fun o n i p q ho hn _ hp hq => ?_⟩
    · exact (agree .circuits (by decide)).trans circuits
    · exact agree .ntc (by decide)
    · exact agree .tb (by decide)
    · exact agree .rmon (by decide)
    · exact agree .dir (by decide)
    · exact agree .stl (by decide)
    · exact agree .tcu (by decide)
    · exact agree .lnk (by decide)
    · exact agree .raceCount (by decide)
    · exact agree .pending (by decide)
    · exact handed.only.flightKept handed.carriage
    · exact handed.bookings
    · exact absurd (Option.some.inj (stays.trans was)).symm ne
    · obtain ⟨rfl, rfl⟩ := the ho hn
      rw [handed.port]
      rfl
    · obtain ⟨rfl, rfl⟩ := the ho hn
      rw [handed.port]
      rfl
    · rw [handed.port]
      rfl
    · exact handed.count i p q hp hq
  · have stays (old : Side) (h : s.selectedSide c = some old) : old = st.side := by
      by_contra ne
      exact switches ⟨old, h, ne⟩
    have eq := changeSelector_of_stays (s := s.setCircuit c k) (fun old h => stays old (side ▸ h)) why
    rw [side, record] at eq
    rw [eq]
    refine ⟨upd_upd .., rfl, ⟨rfl, rfl, rfl, rfl, rfl, rfl, rfl, rfl⟩, .refl _, .refl _, fun _ => ⟨rfl, rfl⟩,
      fun o n p ho hn ne => ?_, fun o n p ho hn ne => ?_, fun o n p ho hn ne => ?_, fun o n i p q ho hn ne => ?_⟩ <;>
    exact absurd ((stays o ho).trans (Option.some.inj hn)) ne

theorem SelectorMoved.selectedSide {s t : State} {c : Fin 24} {k : Circuit} (h : s.SelectorMoved t c k) :
    t.selectedSide c = k.selector.map (·.side) := by
  rw [State.selectedSide, State.circuit, h.circuit, upd_get]

theorem SelectorMoved.circuit_same {s t : State} {c : Fin 24} {k : Circuit} (h : s.SelectorMoved t c k) :
    t.circuit c = k := by
  rw [State.circuit, h.circuit, upd_get]

theorem SelectorMoved.circuit_ne {s t : State} {c d : Fin 24} {k : Circuit} (h : s.SelectorMoved t c k) (ne : c ≠ d) :
    t.circuit d = s.circuit d := by
  rw [State.circuit, h.circuit, upd_get_ne _ _ ne, State.circuit]

/-- A change of state without a switch, and then another change of the same circuit, are one change (R57). -/
theorem SelectorMoved.after_stay {s u t : State} {c : Fin 24} {k l : Circuit} (first : s.SelectorMoved u c k)
    (stay : k.selector.map (·.side) = s.selectedSide c) (second : u.SelectorMoved t c l) : s.SelectorMoved t c l := by
  obtain ⟨xpc, bku⟩ := first.stays stay
  have side : u.selectedSide c = s.selectedSide c := first.selectedSide.trans stay
  have port (p : Fin 32) : u.xport p = s.xport p := by rw [xport, xpc, xport]
  have place (i : Fin 192) : u.place i = s.place i := by rw [State.place, bku, State.place]
  have records : s.SameRecords u := fun i => by rw [place]
  obtain ⟨tb, rmon, dir, stl, tcu, lnk, race, pending⟩ := first.kept
  obtain ⟨tb', rmon', dir', stl', tcu', lnk', race', pending'⟩ := second.kept
  refine ⟨?_, ?_, ⟨tb'.trans tb, rmon'.trans rmon, dir'.trans dir, stl'.trans stl, tcu'.trans tcu, lnk'.trans lnk,
    race'.trans race, pending'.trans pending⟩, first.flight.trans second.flight, first.bookings.trans second.bookings,
    fun h => ?_, fun o n p ho => ?_, fun o n p ho => ?_, fun o n p ho => ?_, fun o n i p q ho hn ne hp => ?_⟩
  · rw [second.circuit, first.circuit, upd_upd]
  · rw [second.object, first.object, NTC.raise_raise]
  · obtain ⟨xpc', bku'⟩ := second.stays (h.trans side.symm)
    exact ⟨xpc'.trans xpc, bku'.trans bku⟩
  · rw [← port]
    exact second.patch o n p (side.trans ho)
  · rw [← port, ← claimedBy_of_sameRecords records]
    exact second.entry o n p (side.trans ho)
  · rw [← port, ← heldBy_of_same records (congrArg XPort.holder (port p))]
    exact second.delivered o n p (side.trans ho)
  · exact second.count o n i p q (side.trans ho) hn ne ((place i).trans hp)

/-! ### The switches and changes of state -/

/-- A switch starts the guard timer and stops the WTR timer (R48, R49, R51). -/
theorem guardedSwitch_moved {s : State} {c : Fin 24} {st : SelState} {old : Side} (h : s.selectedSide c = some old)
    (ne : old ≠ st.side) (why : CircuitReason) :
    s.SelectorMoved (s.guardedSwitch c st why) c ((s.circuit c).switched st why s.tb.elapsed s.tb.frame) := by
  have moved := changeSelector_moved (s := s) (c := c)
    (k := { s.circuit c with guard := startTimer s.tb.elapsed (s.circuit c).guardTime, wtr := none }) rfl st why
  have record : ({ s.circuit c with guard := startTimer s.tb.elapsed (s.circuit c).guardTime, wtr := none } : Circuit).taking
      (s.selectedSide c) st why s.tb.frame = (s.circuit c).switched st why s.tb.elapsed s.tb.frame := by
    simp only [Circuit.taking, Circuit.switched, h, Option.any_some, bne_iff_ne, ne_eq, ne, not_false_eq_true, if_true,
      startTimer, satAdd]
  rw [record] at moved
  exact moved

theorem selectedSide_of_selector {s : State} {c : Fin 24} {st : SelState} (h : (s.circuit c).selector = some st) :
    s.selectedSide c = some st.side := by rw [selectedSide, h, Option.map_some]

/-- Entry to WTR from SEL_B (R47, R51). -/
theorem enterWtr_restoring {s : State} {c : Fin 24} (h : (s.circuit c).selector = some .selB) :
    s.Restoring (s.enterWtr c) c := by
  have moved := changeSelector_moved (s := s) (c := c)
    (k := { s.circuit c with wtr := some (s.tb.elapsed + (s.circuit c).wtrSecs * 1000) }) rfl .wtr .auto
  have record : ({ s.circuit c with wtr := some (s.tb.elapsed + (s.circuit c).wtrSecs * 1000) } : Circuit).taking
      (s.selectedSide c) .wtr .auto s.tb.frame = (s.circuit c).restoring s.tb.elapsed s.tb.frame := by
    simp [Circuit.taking, Circuit.restoring, selectedSide_of_selector h, SelState.side]
  rw [record] at moved
  unfold Restoring enterWtr
  dsimp only
  by_cases period : (s.circuit c).wtrSecs = 0
  · rw [if_pos (show ((s.circuit c).restoring s.tb.elapsed s.tb.frame).wtrSecs = 0 from period), if_pos period]
    refine ⟨_, moved, ?_⟩
    have left := guardedSwitch_moved (st := .selA) (moved.selectedSide.trans rfl) (by decide) .wtrExpiry
    rw [moved.circuit_same, moved.kept.1] at left
    exact left
  · rw [if_neg (show ¬((s.circuit c).restoring s.tb.elapsed s.tb.frame).wtrSecs = 0 from period), if_neg period]
    exact moved

/-- The fall back from WTR to SEL_B (R44, R48). -/
theorem fallBack_moved {s : State} {c : Fin 24} (h : (s.circuit c).selector = some .wtr) :
    s.SelectorMoved ((s.setCircuit c { s.circuit c with wtr := none }).changeSelector c .selB .auto) c
      ((s.circuit c).fallenBack s.tb.frame) := by
  have moved := changeSelector_moved (s := s) (c := c) (k := { s.circuit c with wtr := none }) rfl .selB .auto
  have record : ({ s.circuit c with wtr := none } : Circuit).taking (s.selectedSide c) .selB .auto s.tb.frame =
      (s.circuit c).fallenBack s.tb.frame := by
    simp [Circuit.taking, Circuit.fallenBack, selectedSide_of_selector h, SelState.side]
  rwa [record] at moved

/-- An order, or a force that is dropped, with both timers stopped (R52 to R55, R57). -/
theorem stopped_moved {s : State} {c : Fin 24} {old : Side} (h : s.selectedSide c = some old) (st : SelState)
    (why : CircuitReason) :
    s.SelectorMoved ((s.stopTimers c).changeSelector c st why) c ((s.circuit c).ordered st why s.tb.frame) := by
  have moved := changeSelector_moved (s := s) (c := c) (k := { s.circuit c with guard := none, wtr := none }) rfl st why
  have record : ({ s.circuit c with guard := none, wtr := none } : Circuit).taking (s.selectedSide c) st why s.tb.frame =
      (s.circuit c).ordered st why s.tb.frame := by
    have side : (s.circuit c).selector.map (·.side) = some old := h
    by_cases e : old = st.side <;>
      simp [Circuit.taking, Circuit.ordered, h, side, e, satAdd]
  rw [record] at moved
  exact moved

/-! ### Evaluation (R46, R47, R48) -/

theorem free_and_ranksBelow (s : State) (c : Fin 24) (side : Side) :
    ((s.circuit c).guard.isNone && s.ranksBelow c side) = true ↔
      (s.circuit c).guard = none ∧ s.rankOf c side < s.rankOf c side.other := by
  simp [ranksBelow]

theorem evaluate_of_selA {s : State} {c : Fin 24} (h : (s.circuit c).selector = some .selA) (why : CircuitReason) :
    s.evaluate c why =
      if (s.circuit c).guard = none ∧ s.rankOf c .a < s.rankOf c .b then s.guardedSwitch c .selB why else s := by
  unfold evaluate
  simp only [h, free_and_ranksBelow, Side.other]

theorem evaluate_of_selB {s : State} {c : Fin 24} (h : (s.circuit c).selector = some .selB) (why : CircuitReason) :
    s.evaluate c why =
      if (s.circuit c).guard = none ∧ s.rankOf c .b < s.rankOf c .a then s.guardedSwitch c .selA why
      else if (s.circuit c).revertive = true ∧ s.rankOf c .a = 2 ∧ (s.health (routeOf c .b)).usable = true then
        s.enterWtr c
      else s := by
  unfold evaluate
  simp only [h, free_and_ranksBelow, Side.other]
  simp only [restoredA, Bool.and_eq_true, decide_eq_true_eq, and_assoc]

theorem evaluate_of_wtr {s : State} {c : Fin 24} (h : (s.circuit c).selector = some .wtr) (why : CircuitReason) :
    s.evaluate c why =
      if (s.circuit c).guard = none ∧ s.rankOf c .b < s.rankOf c .a then s.guardedSwitch c .selA why
      else if s.rankOf c .a ≠ 2 then
        (s.setCircuit c { s.circuit c with wtr := none }).changeSelector c .selB .auto
      else s := by
  unfold evaluate
  simp only [h, free_and_ranksBelow, Side.other, restoredA, Bool.not_eq_true', decide_eq_false_iff_not, ne_eq]

/-- A circuit in SPLIT, and one in a held state, are not evaluated (R46). -/
theorem evaluate_of_held {s : State} {c : Fin 24} (h : ∀ st, (s.circuit c).selector = some st → st.automatic = false)
    (why : CircuitReason) : s.evaluate c why = s := by
  unfold evaluate
  dsimp only
  split
  case h_1 selector | h_2 selector | h_3 selector => exact absurd (h _ selector) (by decide)
  all_goals rfl

/-- The evaluation tables with what they hand on (R46 to R48, R57). -/
theorem evaluate_evaluated (s : State) (c : Fin 24) (why : CircuitReason) : s.Evaluated (s.evaluate c why) c why := by
  unfold Evaluated
  dsimp only
  split
  next selector =>
    rw [evaluate_of_selA selector]
    split
    · exact guardedSwitch_moved (selectedSide_of_selector selector) (by decide) why
    · rfl
  next selector =>
    rw [evaluate_of_selB selector]
    split
    · exact guardedSwitch_moved (selectedSide_of_selector selector) (by decide) why
    · split
      · exact enterWtr_restoring selector
      · rfl
  next selector =>
    rw [evaluate_of_wtr selector]
    split
    · exact guardedSwitch_moved (selectedSide_of_selector selector) (by decide) why
    · split
      · exact fallBack_moved selector
      · rfl
  all_goals
    next selector => exact evaluate_of_held (by simp [selector, SelState.automatic]) why

end State

/-! ### The timers (R49, R51) -/

theorem guardExpiry_leads (c : Fin 24) (s : State) :
    if isDue (s.circuit c).guard s.tb.elapsed = true then
      ∃ t, Leads (.guardExpiry c) s t ∧ (s.setCircuit c { s.circuit c with guard := none }).Evaluated t c .auto
    else Leads (.guardExpiry c) s s := by
  have leads : Leads (.guardExpiry c) s (s.guardExpiry c) := rfl
  unfold State.guardExpiry at leads
  split
  next due =>
    rw [if_pos due] at leads
    exact ⟨_, leads, State.evaluate_evaluated _ _ _⟩
  next later => rwa [if_neg later] at leads

theorem wtrExpiry_leads (c : Fin 24) (s : State) :
    if isDue (s.circuit c).wtr s.tb.elapsed = true then
      (s.circuit c).selector = some .wtr →
        ∃ t, Leads (.wtrExpiry c) s t ∧
          s.SelectorMoved t c ((s.circuit c).switched .selA .wtrExpiry s.tb.elapsed s.tb.frame)
    else Leads (.wtrExpiry c) s s := by
  have leads : Leads (.wtrExpiry c) s (s.wtrExpiry c) := rfl
  unfold State.wtrExpiry at leads
  split
  next due =>
    rw [if_pos due] at leads
    exact fun wtr => ⟨_, leads, State.guardedSwitch_moved (State.selectedSide_of_selector wtr) (by decide) _⟩
  next later => rwa [if_neg later] at leads

/-- Settles O32: the evaluation by its tables, and each expiry by whether its timer is due. -/
theorem evaluation : Obligations.Evaluation :=
  ⟨State.evaluate_evaluated, fun c s => ⟨guardExpiry_leads c s, wtrExpiry_leads c s⟩⟩

end Sys2Proof.Machine
end

