-- ==== Sys2Proof/Proofs/DirectoryRequests.lean ====
section
/-! PROOFS. The requests that store a setting in one event: SET_PORT (O35), SET_HANDOFF (O36), SET_ACCOUNT, SET_MARGIN,
SET_CONFIRM and SET_TARIFF (O38), PATCH and UNPATCH (O39). One lemma for each outcome of a service, and from them the answer
to the request. -/

namespace Sys2Proof.Machine

/-! ### Field values -/

theorem eq_zero_of_toNat_lt_two {b : Byte} (h : b.toNat < 2) (one : b ≠ 1) : b = 0 := by
  have : b.toNat ≠ 1 := fun e => one (BitVec.eq_of_toNat_eq e)
  exact BitVec.eq_of_toNat_eq (show b.toNat = 0 by omega)

/-- A byte that is 0 or 1 is accepted as a yes/no byte (Table 11-7). -/
theorem yesNo_of_lt {b : Byte} (h : b.toNat < 2) : yesNo b = some (b == 1) := by
  by_cases one : b = 1
  · subst one; rfl
  · rw [eq_zero_of_toNat_lt_two h one]; rfl

/-- Any other byte is not (R192). -/
theorem yesNo_of_not_lt {b : Byte} (h : ¬b.toNat < 2) : yesNo b = none := by
  have zero : b ≠ 0 := fun e => h (by rw [e]; decide)
  have one : b ≠ 1 := fun e => h (by rw [e]; decide)
  rw [yesNo, if_neg zero, if_neg one]

theorem clamp_zero (hi n : Nat) : clamp 0 hi n = min hi n := Nat.max_eq_right (Nat.zero_le _)

/-! ### SET_PORT -/

namespace State

/-- `s` with delivery port `p` enabled or disabled (R62). -/
def portStored (s : State) (p : Fin 32) (enabled : Bool) : State :=
  { s with dir := { s.dir with ports := upd s.dir.ports p ⟨enabled, (s.dir.ports.get p).handoff⟩ } }

theorem onPort_enabled (s : State) (p : Fin 32) (enabled : Bool) :
    { s with dir := s.dir.onPort p fun x => { x with enabled := enabled } } = s.portStored p enabled := rfl

theorem portDirView_portStored (s : State) (p : Fin 32) (enabled : Bool) :
    (s.portStored p enabled).portDirView p =
      ⟨enabled, (s.timeline p).length, (s.dir.ports.get p).handoff⟩ := by
  simp [portDirView, portStored, portRefs, timeline]

theorem portDirView_of_enabled {s : State} {p : Fin 32} {enabled : Bool} (h : (s.dir.ports.get p).enabled = enabled) :
    s.portDirView p = ⟨enabled, (s.timeline p).length, (s.dir.ports.get p).handoff⟩ := by
  rw [portDirView, h]; rfl

variable {s : State} {port setting : Byte} {p : Fin 32}

theorem serveSetPort_of_badPort (h : ¬port.toNat < 32) :
    s.serveSetPort port setting = (s, ⟨.badField, .empty⟩) := by
  simp only [serveSetPort, idOf_of_not_lt h, refusal]

theorem serveSetPort_of_badSetting (h : idOf 32 port = some p) (bad : ¬setting.toNat < 2) :
    s.serveSetPort port setting = (s, ⟨.badField, .port p (s.portDirView p)⟩) := by
  simp only [serveSetPort, h, yesNo_of_not_lt bad]

theorem serveSetPort_enable (h : idOf 32 port = some p) :
    s.serveSetPort port 1 = (s.portStored p true, ⟨.ok, .port p ((s.portStored p true).portDirView p)⟩) := by
  simp only [serveSetPort, h, show yesNo 1 = some true from rfl, okWith, onPort_enabled]

theorem serveSetPort_disable (h : idOf 32 port = some p) :
    s.serveSetPort port 0 =
      if (s.dir.ports.get p).enabled = false then (s, ⟨.ok, .port p (s.portDirView p)⟩)
      else if (s.timeline p).length ≠ 0 then (s, ⟨.inUse, .port p (s.portDirView p)⟩)
      else ((s.portStored p false).onXPort p XPort.disable,
        ⟨.ok, .port p (((s.portStored p false).onXPort p XPort.disable).portDirView p)⟩) := by
  simp only [serveSetPort, h, show yesNo 0 = some false from rfl, okWith, onPort_enabled, Bool.not_eq_true', portRefs]
  rfl

end State

/-- Settles O35: the port and the setting are checked, and then enabling and disabling, by the outcomes of the service. -/
theorem setPort : Obligations.SetPort := by
  intro tag port setting s hs c
  have answered {t : State} {a : Answer}
      (h : (s.enqueue tag (.setPort port setting)).serveSetPort port setting =
        (t.enqueue tag (.setPort port setting), a)) : Answered c s a t :=
    Answered.of_update (r := .setPort port setting) rfl hs (fun _ => nofun) h
  split
  case isFalse outOfRange => exact answered (State.serveSetPort_of_badPort outOfRange)
  case isTrue inRange =>
    have port_in := idOf_of_lt inRange
    dsimp only
    split_ifs with bad one disabled inUse
    · refine answered ((State.serveSetPort_of_badSetting port_in (by omega)).trans ?_)
      rfl
    · subst one
      refine answered ((State.serveSetPort_enable port_in).trans ?_)
      rw [State.portDirView_portStored]
      rfl
    all_goals
      have zero : setting = 0 := eq_zero_of_toNat_lt_two (by omega) one
      subst zero
      have serve := State.serveSetPort_disable (s := s.enqueue tag (.setPort port 0)) port_in
    · refine answered (serve.trans ((if_pos disabled).trans ?_))
      have view := State.portDirView_of_enabled (s := s.enqueue tag (.setPort port 0)) disabled
      rw [view]
      rfl
    · refine answered (serve.trans ((if_neg disabled).trans ((if_pos inUse).trans ?_)))
      have view := State.portDirView_of_enabled (s := s.enqueue tag (.setPort port 0)) (enabled := true)
        (Bool.of_not_eq_false disabled)
      rw [view]
      rfl
    · refine answered (serve.trans ((if_neg disabled).trans ((if_neg inUse).trans ?_)))
      exact congrArg (fun v => (_, (⟨.ok, .port _ v⟩ : Answer)))
        (State.portDirView_portStored (s.enqueue tag (.setPort port 0)) _ false)

/-! ### SET_HANDOFF -/

/-- A list of identifiers in range, read off as the named bytes. -/
theorem mapM_idOf_some {top : Nat} {bytes : List Byte} {l : List (Fin top)} (h : bytes.mapM (idOf top) = some l) :
    l.map (·.val) = bytes.map (·.toNat) := by
  induction bytes generalizing l with
  | nil => simp only [List.mapM_nil, Option.pure_def, Option.some.injEq] at h; subst h; rfl
  | cons b bs ih =>
    simp only [List.mapM_cons, Option.bind_eq_bind, Option.bind_eq_some_iff, Option.pure_def, Option.some.injEq] at h
    obtain ⟨x, hx, xs, hxs, rfl⟩ := h
    have lt : b.toNat < top := by
      by_contra outOfRange
      rw [idOf_of_not_lt outOfRange] at hx
      cases hx
    rw [idOf_of_lt lt, Option.some.injEq] at hx
    subst hx
    simp [ih hxs]

/-- Some bytes name identifiers exactly when each is in range (R192). -/
theorem mapM_idOf_isSome_iff {top : Nat} {bytes : List Byte} :
    (bytes.mapM (idOf top)).isSome = true ↔ ∀ b ∈ bytes, b.toNat < top := by
  induction bytes with
  | nil => simp
  | cons b bs ih =>
    by_cases lt : b.toNat < top
    · rw [List.forall_mem_cons, ← ih]
      cases hs : bs.mapM (idOf top) <;> simp [idOf_of_lt lt, hs, lt]
    · simp [idOf_of_not_lt lt, lt]

/-- Identifiers are distinct where their bytes are. -/
theorem nodup_iff_of_map_val {top : Nat} {bytes : List Byte} {l : List (Fin top)}
    (h : l.map (·.val) = bytes.map (·.toNat)) : l.Nodup ↔ bytes.Nodup := by
  rw [← List.nodup_map_iff (f := fun i : Fin top => i.val) Fin.val_injective, h,
    List.nodup_map_iff (f := fun b : Byte => b.toNat) fun _ _ e => BitVec.eq_of_toNat_eq e]

/-- Which identifiers a count and some bytes name (Table 11-7). -/
theorem idsOf_cases (n top : Nat) (bytes : List Byte) :
    (idsOf n top bytes = none ∧ ¬∀ b ∈ bytes.take n, b.toNat < top) ∨
      ∃ l : List (Fin top), idsOf n top bytes = some l ∧ (∀ b ∈ bytes.take n, b.toNat < top) ∧
        l.map (·.val) = (bytes.take n).map (·.toNat) ∧ (l.Nodup ↔ (bytes.take n).Nodup) := by
  have range := mapM_idOf_isSome_iff (top := top) (bytes := bytes.take n)
  unfold idsOf
  cases named : (bytes.take n).mapM (idOf top) with
  | none => exact .inl ⟨rfl, fun all => by simpa [named] using range.mpr all⟩
  | some l =>
    have vals := mapM_idOf_some named
    exact .inr ⟨l, rfl, range.mp (by rw [named]; rfl), vals, nodup_iff_of_map_val vals⟩

theorem idOf_cases {w n : Nat} (b : BitVec w) :
    (idOf n b = none ∧ ¬b.toNat < n) ∨ ∃ i : Fin n, idOf n b = some i ∧ i.val = b.toNat := by
  by_cases h : b.toNat < n
  · exact .inr ⟨_, idOf_of_lt h, rfl⟩
  · exact .inl ⟨idOf_of_not_lt h, h⟩

theorem yesNo_cases (b : Byte) : (yesNo b = none ∧ ¬b.toNat < 2) ∨ yesNo b = some (b == 1) ∧ b.toNat < 2 := by
  by_cases h : b.toNat < 2
  · exact .inr ⟨yesNo_of_lt h, h⟩
  · exact .inl ⟨yesNo_of_not_lt h, h⟩

namespace State

section
variable {handoff account count port0 port1 port2 port3 maskPresent : Byte} {mask : Half}

/-- The fields of SET_HANDOFF that pass the first check, and what they give (R65). -/
theorem handoffFields_cases :
    (handoffFields handoff account count port0 port1 port2 port3 maskPresent mask = none ∧
      ¬(handoff.toNat < 16 ∧ account.toNat < 16 ∧ 1 ≤ count.toNat ∧ count.toNat ≤ 4 ∧
        (∀ b ∈ [port0, port1, port2, port3].take count.toNat, b.toNat < 32) ∧
        ([port0, port1, port2, port3].take count.toNat).Nodup ∧ maskPresent.toNat < 2)) ∨
    ∃ h e, handoffFields handoff account count port0 port1 port2 port3 maskPresent mask = some (h, e) ∧
      (handoff.toNat < 16 ∧ account.toNat < 16 ∧ 1 ≤ count.toNat ∧ count.toNat ≤ 4 ∧
        (∀ b ∈ [port0, port1, port2, port3].take count.toNat, b.toNat < 32) ∧
        ([port0, port1, port2, port3].take count.toNat).Nodup ∧ maskPresent.toNat < 2) ∧
      h.val = handoff.toNat ∧ e.account.val = account.toNat ∧
      e.members.map (·.val) = ([port0, port1, port2, port3].take count.toNat).map (·.toNat) ∧
      e.mask = if maskPresent = 1 then mask else 0xFFFF := by
  unfold handoffFields
  rcases idOf_cases (n := 16) handoff with ⟨none_h, bad⟩ | ⟨h, some_h, val_h⟩
  · exact .inl ⟨by rw [none_h], fun ok => bad ok.1⟩
  rcases idOf_cases (n := 16) account with ⟨none_a, bad⟩ | ⟨a, some_a, val_a⟩
  · exact .inl ⟨by rw [some_h, none_a], fun ok => bad ok.2.1⟩
  rcases idsOf_cases count.toNat 32 [port0, port1, port2, port3] with ⟨none_l, bad⟩ | ⟨l, some_l, range, vals, nodup⟩
  · exact .inl ⟨by rw [some_h, some_a, none_l], fun ⟨_, _, _, _, ok, _⟩ => bad ok⟩
  rcases yesNo_cases maskPresent with ⟨none_m, bad⟩ | ⟨some_m, range_m⟩
  · exact .inl ⟨by rw [some_h, some_a, some_l, none_m], fun ⟨_, _, _, _, _, _, ok⟩ => bad ok⟩
  rw [some_h, some_a, some_l, some_m]
  dsimp only
  by_cases ok : 1 ≤ count.toNat ∧ count.toNat ≤ 4 ∧ l.Nodup
  · rw [if_pos ok]
    refine .inr ⟨_, _, rfl, ⟨val_h ▸ h.isLt, val_a ▸ a.isLt, ok.1, ok.2.1, range, nodup.mp ok.2.2, range_m⟩, val_h, val_a,
      vals, ?_⟩
    by_cases present : maskPresent = 1 <;> simp [present]
  · rw [if_neg ok]
    exact .inl ⟨rfl, fun ⟨_, _, low, high, _, distinct, _⟩ => ok ⟨low, high, nodup.mpr distinct⟩⟩

end

/-- Some member of the new entry records another handoff (R65). -/
theorem any_otherHandoff_iff (s : State) (h : Fin 16) (members : List (Fin 32)) :
    (members.any fun p => (s.dir.ports.get p).handoff.any (· != h)) = true ↔
      ∃ p ∈ members, ∃ g, (s.dir.ports.get p).handoff = some g ∧ g ≠ h := by
  simp [Option.any_eq_true]

theorem assignPorts_get (d : DIR) (h : Fin 16) (members : List (Fin 32)) (p : Fin 32) :
    ((d.assignPorts h members).ports.get p).enabled = (d.ports.get p).enabled ∧
      ((d.assignPorts h members).ports.get p).handoff =
        if p ∈ members then some h
        else if (d.ports.get p).handoff = some h then none else (d.ports.get p).handoff := by
  simp only [DIR.assignPorts, tab_get]
  split_ifs <;> simp

end State

/-- Settles O36: the first check by the fields, and then the checks in order by the branches of the service. -/
theorem setHandoff : Obligations.SetHandoff := by
  intro tag handoff account count port0 port1 port2 port3 maskPresent mask c given named
  have fields := State.handoffFields_cases (handoff := handoff) (account := account) (count := count) (port0 := port0)
    (port1 := port1) (port2 := port2) (port3 := port3) (maskPresent := maskPresent) (mask := mask)
  refine ⟨?refused, ?stored, fun s hs => ?served⟩
  case refused =>
    rcases fields with ⟨refused, bad⟩ | ⟨h, e, accepted, ok, -⟩
    · exact ⟨fun _ => bad, fun _ => refused⟩
    · exact ⟨fun refused => absurd (accepted.symm.trans refused) nofun, fun bad => absurd ok bad⟩
  case stored =>
    intro h e accepted
    rcases fields with ⟨refused, -⟩ | ⟨h', e', accepted', -, stores⟩
    · exact absurd (accepted.symm.trans refused) nofun
    · obtain ⟨rfl, rfl⟩ := Prod.mk.inj (Option.some.inj (accepted.symm.trans accepted'))
      exact stores
  case served =>
    let r : Request := .setHandoff handoff account count port0 port1 port2 port3 maskPresent mask
    have answered {t : State} {a : Answer} (h : (s.enqueue tag r).serveBody r = (t.enqueue tag r, a)) :
        Answered c s a t := Answered.of_update (r := r) rfl hs (fun _ => nofun) h
    have serve : (s.enqueue tag r).serveBody r = match given with
        | none => (s.enqueue tag r, refusal .badField)
        | some (h, e) =>
          if (s.dir.handoffs.get h).refs ≠ 0 then (s.enqueue tag r, refusal .inUse)
          else if (s.dir.accounts.get e.account).permitted = none then (s.enqueue tag r, refusal .noSuch)
          else if e.members.any fun p => (s.dir.ports.get p).handoff.any (· != h) then (s.enqueue tag r, refusal .conflict)
          else (State.enqueue { s with dir := (s.dir.setEntry h (some e)).assignPorts h e.members } tag r,
            okWith (.handoff e 0)) := rfl
    generalize given = fields at serve
    obtain _ | ⟨h, e⟩ := fields
    case none => exact answered serve
    case some =>
      dsimp only at serve ⊢
      split_ifs with inUse undefined conflict
      · exact answered (serve.trans (if_pos inUse))
      · exact answered (serve.trans (by rw [if_neg inUse, if_pos undefined]; rfl))
      · refine answered (serve.trans ?_)
        rw [if_neg inUse, if_neg undefined, if_pos ((State.any_otherHandoff_iff s h e.members).mpr conflict)]
        rfl
      · refine ⟨(s.dir.setEntry h (some e)).assignPorts h e.members, answered (serve.trans ?_), ?_, rfl, rfl,
          State.assignPorts_get (s.dir.setEntry h (some e)) h e.members⟩
        · rw [if_neg inUse, if_neg undefined,
            if_neg fun any => conflict ((State.any_otherHandoff_iff s h e.members).mp any)]
          rfl
        · exact congrArg (fun n => upd s.dir.handoffs h ⟨some e, n⟩) (not_not.mp inUse)

/-! ### SET_ACCOUNT, SET_MARGIN, SET_CONFIRM and SET_TARIFF -/

theorem DIR.setPermitted_some {d : DIR} {a : Fin 16} (h : (d.accounts.get a).refs = 0) (permitted : Byte) :
    d.setPermitted a (some permitted) = { d with accounts := upd d.accounts a ⟨some permitted, 0⟩ } := by
  simp only [DIR.setPermitted, h]

theorem STL.onTariff_terms {q : STL} {k : Fin 8} (h : (q.tariffs.get k).refs = 0) (terms : TariffTerms) :
    (q.onTariff k fun x => { x with terms := terms, valid := true }) =
      { q with tariffs := upd q.tariffs k ⟨terms, true, 0⟩ } := by
  rw [STL.onTariff, h]

/-- The gate basis of a code (Table 11-7). -/
theorem basisOf_eq (b : Byte) :
    basisOf b = if 2 < b.toNat then none else some (if b = 0 then .all else if b = 1 then .any else .flat) := by
  have zero : b = 0 ↔ b.toNat = 0 := BitVec.toNat_inj.symm
  have one : b = 1 ↔ b.toNat = 1 := BitVec.toNat_inj.symm
  have two : b = 2 ↔ b.toNat = 2 := BitVec.toNat_inj.symm
  simp only [basisOf, zero, one, two]
  split_ifs <;> first | rfl | omega

namespace State

theorem recordCount_ne_zero_iff (s : State) : s.recordCount ≠ 0 ↔ ∃ i, s.place i ≠ none := by
  simp [recordCount, recordsWhere, Option.ne_none_iff_isSome]

variable {s : State}

theorem serveSetAccount_of_lt {account : Byte} (h : account.toNat < 16) (permitted : Byte) :
    s.serveSetAccount account permitted =
      if (s.dir.accounts.get ⟨account.toNat, h⟩).refs ≠ 0 then (s, ⟨.inUse, .empty⟩)
      else ({ s with dir := s.dir.setPermitted ⟨account.toNat, h⟩ (some permitted) },
        ⟨.ok, .account ⟨account.toNat, h⟩ permitted 0⟩) := by
  simp only [serveSetAccount, idOf_of_lt h, okWith, refusal]

theorem serveSetMargin_of_tooLong {margin : Half} (h : 600 < margin.toNat) :
    s.serveSetMargin margin = (s, ⟨.badField, .empty⟩) := if_pos h

theorem serveSetMargin_of_inUse {margin : Half} (h : ¬600 < margin.toNat) (used : ∃ i, s.place i ≠ none) :
    s.serveSetMargin margin = (s, ⟨.inUse, .empty⟩) :=
  (if_neg h).trans (if_pos (s.recordCount_ne_zero_iff.mpr used))

theorem serveSetMargin_of_free {margin : Half} (h : ¬600 < margin.toNat) (free : ¬∃ i, s.place i ≠ none) :
    s.serveSetMargin margin =
      ({ s with dir := { s.dir with margin := margin.toNat } }, ⟨.ok, .margin margin.toNat⟩) :=
  (if_neg h).trans (if_neg fun any => free (s.recordCount_ne_zero_iff.mp any))

theorem serveSetTariff_of_lt {f : TariffFields} (h : f.tariff.toNat < 8) :
    s.serveSetTariff f = match tariffTerms f with
      | .inl field => (s, ⟨.badField, .fieldAtFault field⟩)
      | .inr terms =>
        if (s.stl.tariffs.get ⟨f.tariff.toNat, h⟩).refs ≠ 0 then (s, ⟨.inUse, .empty⟩)
        else ({ s with stl := s.stl.onTariff ⟨f.tariff.toNat, h⟩ fun x => { x with terms := terms, valid := true } },
          ⟨.ok, .tariff ⟨f.tariff.toNat, h⟩ terms true 0⟩) := by
  simp only [serveSetTariff, idOf_of_lt h, okWith, refusal] <;> rfl

/-- The fields of Table 9-2 in their order, the first at fault being reported (R159). -/
theorem tariffTerms_eq (f : TariffFields) :
    tariffTerms f =
      if ¬(1 ≤ f.granule.toNat ∧ f.granule.toNat ≤ 3600) then .inl 0
      else if 16777215 < f.reservation.toNat then .inl 1
      else if 16777215 < f.swapFee.toNat then .inl 4
      else if 3600 < f.grace.toNat then .inl 6
      else if 2 < f.basis.toNat then .inl 7
      else .inr ⟨f.granule.toNat, f.reservation.toNat, f.base.toNat, f.overtime.toNat, f.swapFee.toNat, f.credit.toNat,
        f.grace.toNat, if f.basis = 0 then .all else if f.basis = 1 then .any else .flat⟩ := by
  have granule : (f.granule.toNat = 0 ∨ 3600 < f.granule.toNat) ↔ ¬(1 ≤ f.granule.toNat ∧ f.granule.toNat ≤ 3600) := by
    omega
  simp only [tariffTerms, granule, basisOf_eq]
  by_cases h : 2 < f.basis.toNat <;> simp [h]

end State

/-- Settles O38: each request by the outcomes of its service, SET_TARIFF after its fields. -/
theorem settingsStored : Obligations.SettingsStored := by
  intro tag account permitted timeout margin f s hs
  refine ⟨?account, ?margin, ?confirm, ?tariff⟩
  case account =>
    have answered {t : State} {a : Answer} := Answered.of_update (c := .setAccount tag account permitted)
      (r := .setAccount account permitted) (t := t) (a := a) rfl hs (fun _ => nofun)
    split
    case isTrue inRange =>
      have serve := State.serveSetAccount_of_lt (s := s.enqueue tag (.setAccount account permitted)) inRange permitted
      dsimp only
      split_ifs with inUse
      · exact answered (serve.trans (if_pos inUse))
      · refine answered (serve.trans ((if_neg inUse).trans ?_))
        exact congrArg (fun d => (State.enqueue { s with dir := d } tag (.setAccount account permitted), _))
          (DIR.setPermitted_some (not_not.mp inUse) permitted)
    case isFalse outOfRange =>
      exact answered (by simp only [State.serveBody, State.serveSetAccount, idOf_of_not_lt outOfRange, refusal])
  case margin =>
    have answered {t : State} {a : Answer} := Answered.of_update (c := .setMargin tag margin)
      (r := .setMargin margin) (t := t) (a := a) rfl hs (fun _ => nofun)
    split
    next tooLong => exact answered (State.serveSetMargin_of_tooLong tooLong)
    next inRange =>
      rw [ite_prop_iff_and]
      exact ⟨fun inUse => answered (State.serveSetMargin_of_inUse inRange inUse),
        fun free => answered (State.serveSetMargin_of_free inRange free)⟩
  case confirm =>
    exact Answered.of_update (r := .setConfirm timeout) rfl hs (fun _ => nofun) rfl
  case tariff =>
    have answered {t : State} {a : Answer} := Answered.of_update (c := .setTariff tag f)
      (r := .setTariff f) (t := t) (a := a) rfl hs (fun _ => nofun)
    split
    case isTrue inRange =>
      have serve := State.serveSetTariff_of_lt (s := s.enqueue tag (.setTariff f)) inRange
      rw [State.tariffTerms_eq] at serve
      dsimp only
      by_cases granule : ¬(1 ≤ f.granule.toNat ∧ f.granule.toNat ≤ 3600)
      · rw [if_pos granule] at serve ⊢
        exact answered serve
      rw [if_neg granule] at serve ⊢
      by_cases reservation : 16777215 < f.reservation.toNat
      · rw [if_pos reservation] at serve ⊢
        exact answered serve
      rw [if_neg reservation] at serve ⊢
      by_cases swapFee : 16777215 < f.swapFee.toNat
      · rw [if_pos swapFee] at serve ⊢
        exact answered serve
      rw [if_neg swapFee] at serve ⊢
      by_cases grace : 3600 < f.grace.toNat
      · rw [if_pos grace] at serve ⊢
        exact answered serve
      rw [if_neg grace] at serve ⊢
      by_cases basis : 2 < f.basis.toNat
      · rw [if_pos basis] at serve ⊢
        exact answered serve
      rw [if_neg basis] at serve ⊢
      split
      next inUse => exact answered (serve.trans (if_pos inUse))
      next free =>
        refine answered (serve.trans ((if_neg free).trans (Prod.ext ?_ rfl)))
        exact congrArg (fun q => State.enqueue { s with stl := q } tag (.setTariff f))
          (STL.onTariff_terms (not_not.mp free) _)
    case isFalse outOfRange =>
      exact answered (by simp only [State.serveBody, State.serveSetTariff, idOf_of_not_lt outOfRange, refusal])

/-! ### PATCH and UNPATCH -/

namespace State

/-- A port is claimed by a booking: its holder, or the desired holder of its entry, is a slot (R133). -/
theorem bookingClaims_iff (x : XPort) :
    bookingClaims x = true ↔ x.holder.isSlot = true ∨ x.entry.any (·.desired.isSlot) = true := by
  unfold bookingClaims
  rw [Bool.or_eq_true]
  rfl

theorem servePatch_of_lt {s : State} {port route : Byte} (hp : port.toNat < 32) (hr : route.toNat < 48) :
    s.servePatch port route =
      if !(s.dir.ports.get ⟨port.toNat, hp⟩).enabled then (s, ⟨.state, .empty⟩)
      else if bookingClaims (s.xport ⟨port.toNat, hp⟩) then (s, ⟨.inUse, .empty⟩)
      else (s.onXPort ⟨port.toNat, hp⟩ (·.setPatch ⟨route.toNat, hr⟩),
        ⟨.ok, .patched ⟨port.toNat, hp⟩ (some ⟨route.toNat, hr⟩) (s.xport ⟨port.toNat, hp⟩).holder⟩) := by
  simp only [servePatch, idOf_of_lt hp, idOf_of_lt hr, okWith, refusal]

theorem serveUnpatch_of_lt {s : State} {port : Byte} (hp : port.toNat < 32) :
    s.serveUnpatch port = match (s.xport ⟨port.toNat, hp⟩).patch with
      | none => (s, ⟨.state, .empty⟩)
      | some r => (s.onXPort ⟨port.toNat, hp⟩ XPort.endPatch, ⟨.ok, .unpatched ⟨port.toNat, hp⟩ r⟩) := by
  simp only [serveUnpatch, idOf_of_lt hp, okWith, refusal] <;> rfl

end State

/-- Settles O39: the port and the route are checked first, then the branches of the two services. -/
theorem patches : Obligations.Patches := by
  intro tag port route s hs
  have patched {t : State} {a : Answer} := Answered.of_update (c := .patch tag port route)
    (r := .patch port route) (t := t) (a := a) rfl hs (fun _ => nofun)
  have unpatched {t : State} {a : Answer} := Answered.of_update (c := .unpatch tag port)
    (r := .unpatch port) (t := t) (a := a) rfl hs (fun _ => nofun)
  split
  case isFalse outOfRange =>
    exact ⟨patched (by simp only [State.serveBody, State.servePatch, idOf_of_not_lt outOfRange, refusal]),
      unpatched (by simp only [State.serveBody, State.serveUnpatch, idOf_of_not_lt outOfRange, refusal])⟩
  case isTrue inRange =>
    refine ⟨?patch, ?unpatch⟩
    case patch =>
      split
      case isFalse outOfRange =>
        refine patched ?_
        simp only [State.serveBody, State.servePatch, idOf_of_lt inRange, idOf_of_not_lt outOfRange, refusal]
      case isTrue routeInRange =>
        have serve := State.servePatch_of_lt (s := s.enqueue tag (.patch port route)) inRange routeInRange
        have claims := State.bookingClaims_iff (s.xport ⟨port.toNat, inRange⟩)
        dsimp only
        split_ifs with disabled claimed
        · exact patched (serve.trans (if_pos (by simpa using disabled)))
        · exact patched (serve.trans ((if_neg (by simpa using disabled)).trans (if_pos (claims.mpr claimed))))
        · exact patched (serve.trans ((if_neg (by simpa using disabled)).trans
            (if_neg fun any => claimed (claims.mp any))))
    case unpatch =>
      have serve := State.serveUnpatch_of_lt (s := s.enqueue tag (.unpatch port)) inRange
      rw [State.enqueue_xport] at serve
      dsimp only
      split
      next free =>
        rw [free] at serve
        exact unpatched serve
      next r held =>
        rw [held] at serve
        exact unpatched serve

end Sys2Proof.Machine
end

