-- ==== Sys2Proof/Proofs/PanelRequests.lean ====
section
/-! PROOFS. SET_REFERENCE (O24), SET_NOTICES, SET_TALLY and SET_CUE (O55), and the reads (O56). -/

namespace Sys2Proof.Machine

/-! ### SET_REFERENCE -/

/-- The reference source of a code (Table 11-7). -/
theorem sourceOf_of_lt {b : Byte} (h : b.toNat < 2) :
    sourceOf b = some (if b = 0 then .internal else .external) := by
  by_cases one : b = 1
  · subst one; rfl
  · rw [eq_zero_of_toNat_lt_two h one]; rfl

theorem sourceOf_of_not_lt {b : Byte} (h : ¬b.toNat < 2) : sourceOf b = none := by
  have zero : b ≠ 0 := fun e => h (by rw [e]; decide)
  have one : b ≠ 1 := fun e => h (by rw [e]; decide)
  rw [sourceOf, if_neg zero, if_neg one]

namespace State

/-- The reference state after SET_REFERENCE, as R9's table gives it. -/
theorem refAfter_eq (t : TB) (src : Source) (rt : Fin 4) :
    refAfter t src rt =
      if src = .internal then .free
      else if t.refState = .free ∨ rt ≠ t.rate then .seeking else t.refState := by
  cases src with
  | internal => rfl
  | external => cases h : t.refState <;> by_cases same : rt = t.rate <;> simp [refAfter, h, same]

theorem entersSeeking_eq (t : TB) (src : Source) (rt : Fin 4) :
    entersSeeking t src rt = decide (src = .external ∧ (t.refState = .free ∨ rt ≠ t.rate)) := by
  rw [Bool.eq_iff_iff]
  simp [entersSeeking]

/-- A SET_REFERENCE whose codes are in range (R8, R9). -/
theorem serveSetReference_of_some {s : State} {source rate : Byte} {frameMax : Half} {src : Source} {rt : Fin 4}
    (hs : sourceOf source = some src) (hr : idOf 4 rate = some rt) :
    s.serveSetReference source rate frameMax =
      let st := refAfter s.tb src rt
      let enters := entersSeeking s.tb src rt
      ({ s with
          tb := { s.tb with
            source := src, rate := rt, frameMax := frameMax.toNat, refState := st
            qual := if enters then 0 else s.tb.qual
            prevPulse := if enters then none else s.tb.prevPulse
            genRestart :=
              if rt = s.tb.rate then s.tb.genRestart
              else if s.tb.refState = .locked then s.tb.lastPulse
              else s.tb.lastMarker }
          ntc := if st = s.tb.refState then s.ntc else s.ntc.raise referenceObject },
        ⟨.ok, .reference src rt frameMax.toNat st⟩) := by
  simp only [serveSetReference, hs, hr, okWith]
  split_ifs <;> rfl

theorem serveSetReference_of_none {s : State} {source rate : Byte} {frameMax : Half}
    (h : ¬(source.toNat < 2 ∧ rate.toNat < 4)) : s.serveSetReference source rate frameMax = (s, ⟨.badField, .empty⟩) := by
  unfold serveSetReference
  split
  next src rt hs hr =>
    refine absurd ⟨?_, ?_⟩ h
    · by_contra bad
      rw [sourceOf_of_not_lt bad] at hs
      cases hs
    · by_contra bad
      rw [idOf_of_not_lt bad] at hr
      cases hr
  next => rfl

end State

/-- Settles O24: the codes, then the values that the service stores, by R9's table. -/
theorem setReference : Obligations.SetReference := by
  intro tag source rate frameMax s hs
  have answered {t : State} {a : Answer} := Answered.of_update (c := .setReference tag source rate frameMax)
    (r := .setReference source rate frameMax) (t := t) (a := a) rfl hs (fun _ => nofun)
  split
  case isTrue codes =>
    have serve := State.serveSetReference_of_some (s := s.enqueue tag (.setReference source rate frameMax))
      (frameMax := frameMax) (sourceOf_of_lt (b := source) (by omega)) (idOf_of_lt (n := 4) (b := rate) (by omega))
    simp only [State.refAfter_eq, State.entersSeeking_eq] at serve
    exact answered serve
  case isFalse bad => exact answered (State.serveSetReference_of_none (by omega))

/-! ### SET_NOTICES, SET_TALLY and SET_CUE -/

theorem mapM_yesNo_of_lt {l : List Byte} (h : ∀ y ∈ l, y.toNat < 2) : l.mapM yesNo = some (l.map (· == 1)) := by
  induction l with
  | nil => rfl
  | cons y ys ih =>
    rw [List.forall_mem_cons] at h
    simp [yesNo_of_lt h.1, ih h.2]

theorem mapM_yesNo_of_not_lt {l : List Byte} (h : ¬∀ y ∈ l, y.toNat < 2) : l.mapM yesNo = none := by
  induction l with
  | nil => exact absurd (fun _ => nofun) h
  | cons y ys ih =>
    by_cases lt : y.toNat < 2
    · have rest : ¬∀ y ∈ ys, y.toNat < 2 := fun all => h (List.forall_mem_cons.mpr ⟨lt, all⟩)
      simp [ih rest]
    · simp [yesNo_of_not_lt lt]

/-- The class mask of six flags (R177). -/
theorem noticeMask_eq (l : List Byte) :
    (tab fun i : Fin 6 => (l.map (· == 1)).getD i.val false) = tab fun k : Fin 6 => l[k.val]? == some 1 := by
  refine table_ext fun i => ?_
  simp only [tab_get, List.getD_eq_getElem?_getD, List.getElem?_map]
  cases l[i.val]? <;> rfl

namespace TallySource

/-- A source of Table 10-3 with the parameter that it takes in its range. -/
theorem ofCode_cases (source : Byte) (param : Six) :
    (¬source.toNat < 10 ∧ tallySourceOf source = none) ∨
    ∃ src, source.toNat < 10 ∧ tallySourceOf source = some src ∧
      (src.paramOk param = true ↔ (source = 1 ∨ source = 2 → param.toNat < 48) ∧ (source = 3 → param.toNat < 32) ∧
        (source = 4 → param.toNat < 24)) := by
  by_cases lt : source.toNat < 10
  · right
    obtain ⟨n, rfl⟩ : ∃ n : Fin 10, source = BitVec.ofNat 8 n.val :=
      ⟨⟨source.toNat, lt⟩, by simp⟩
    fin_cases n <;> refine ⟨_, lt, rfl, ?_⟩ <;> simp [paramOk]
  · left
    refine ⟨lt, ?_⟩
    unfold tallySourceOf
    split <;> first | rfl | omega

end TallySource

namespace State

variable {s : State}

theorem serveSetNotices_of_lt {h c b r t x : Byte} (range : ∀ y ∈ [h, c, b, r, t, x], y.toNat < 2) :
    s.serveSetNotices h c b r t x =
      let mask : Table Bool 6 := tab fun k => [h, c, b, r, t, x][k.val]? == some 1
      ({ s with ntc := s.ntc.setMask mask }, ⟨.ok, .notices mask (s.ntc.setMask mask).list.length⟩) := by
  simp only [serveSetNotices, mapM_yesNo_of_lt range, noticeMask_eq, okWith]

theorem serveSetNotices_of_not_lt {h c b r t x : Byte} (bad : ¬∀ y ∈ [h, c, b, r, t, x], y.toNat < 2) :
    s.serveSetNotices h c b r t x = (s, ⟨.badField, .empty⟩) := by
  simp only [serveSetNotices, mapM_yesNo_of_not_lt bad, refusal]

/-- `s` with tally line `l` set (R182). -/
def tallyStored (s : State) (l : Fin 8) (line : TallyLine) : State :=
  { s with tcu := { s.tcu with lines := upd s.tcu.lines l line } }

theorem tallyLevel_tallyStored (l : Fin 8) (line : TallyLine) :
    (s.tallyStored l line).tallyLevel l = (s.tallyValue line != line.invert) := by
  have value : (s.tallyStored l line).tallyValue line = s.tallyValue line := rfl
  unfold tallyLevel
  rw [show (s.tallyStored l line).tcu.lines.get l = line from upd_get _ _ _]
  dsimp only
  rw [value]
  exact bne_comm

theorem serveSetTally_of_ok {line source inv : Byte} {param : Six} {src : TallySource} (hl : line.toNat < 8)
    (hi : inv.toNat < 2) (hs : tallySourceOf source = some src) (ok : src.paramOk param = true) :
    s.serveSetTally line source param inv =
      (s.tallyStored ⟨line.toNat, hl⟩ ⟨src, some param, inv == 1⟩,
        ⟨.ok, .tally src (some param) (inv == 1)
          ((s.tallyStored ⟨line.toNat, hl⟩ ⟨src, some param, inv == 1⟩).tallyLevel ⟨line.toNat, hl⟩)⟩) := by
  simp [serveSetTally, idOf_of_lt hl, yesNo_of_lt hi, hs, ok, okWith, tallyStored]

theorem serveSetTally_of_bad {line source inv : Byte} {param : Six}
    (bad : ¬(line.toNat < 8 ∧ inv.toNat < 2 ∧ ∃ src, tallySourceOf source = some src ∧ src.paramOk param = true)) :
    s.serveSetTally line source param inv = (s, ⟨.badField, .empty⟩) := by
  unfold serveSetTally
  split
  next l src iv hl hsrc hi =>
    have notOk : src.paramOk param = false := by
      by_contra ok
      refine bad ⟨?_, ?_, src, hsrc, Bool.of_not_eq_false ok⟩ <;> by_contra outOfRange
      · rw [idOf_of_not_lt outOfRange] at hl; cases hl
      · rw [yesNo_of_not_lt outOfRange] at hi; cases hi
    rw [notOk]
    rfl
  next => rfl

/-- A change of the invert flag inverts the accepted level (R184). -/
theorem invertedLevel_eq (accepted inv was : Bool) :
    (if inv = was then accepted else !accepted) = (accepted != (inv != was)) := by
  cases accepted <;> cases inv <;> cases was <;> rfl

theorem serveSetCue_of_lt {line enable inv : Byte} (hl : line.toNat < 4) (he : enable.toNat < 2) (hi : inv.toNat < 2) :
    s.serveSetCue line enable inv =
      let l : Fin 4 := ⟨line.toNat, hl⟩
      let q := s.tcu.cues.get l
      let accepted := q.accepted != ((inv == 1) != q.invert)
      (s.setCueLine l { q with enabled := enable == 1, invert := inv == 1, accepted := accepted },
        ⟨.ok, .cue (enable == 1) (inv == 1) accepted q.timer.isSome⟩) := by
  simp only [serveSetCue, idOf_of_lt hl, yesNo_of_lt he, yesNo_of_lt hi, okWith, invertedLevel_eq]

theorem serveSetCue_of_not_lt {line enable inv : Byte} (bad : ¬(line.toNat < 4 ∧ enable.toNat < 2 ∧ inv.toNat < 2)) :
    s.serveSetCue line enable inv = (s, ⟨.badField, .empty⟩) := by
  unfold serveSetCue
  split
  next l en iv hl he hi =>
    refine absurd ⟨?_, ?_, ?_⟩ bad <;> by_contra outOfRange
    · rw [idOf_of_not_lt outOfRange] at hl; cases hl
    · rw [yesNo_of_not_lt outOfRange] at he; cases he
    · rw [yesNo_of_not_lt outOfRange] at hi; cases hi
  next => rfl

end State

/-- Settles O55: for each request, the fields and what its service stores and answers. -/
theorem panelSettings : Obligations.PanelSettings := by
  intro tag line source inv enable param h c b r t x s hs
  refine ⟨?notices, ?tally, ?cue⟩
  case notices =>
    have answered {u : State} {a : Answer} := Answered.of_update (c := .setNotices tag h c b r t x)
      (r := .setNotices h c b r t x) (t := u) (a := a) rfl hs (fun _ => nofun)
    split
    next range => exact answered (State.serveSetNotices_of_lt range)
    next bad => exact answered (State.serveSetNotices_of_not_lt bad)
  case tally =>
    have answered {u : State} {a : Answer} := Answered.of_update (c := .setTally tag line source param inv)
      (r := .setTally line source param inv) (t := u) (a := a) rfl hs (fun _ => nofun)
    have code := TallySource.ofCode_cases source param
    split
    next range =>
      obtain ⟨hl, hsource, hinv, hparam⟩ := range
      obtain ⟨outOfRange, -⟩ | ⟨src, -, some_src, ok⟩ := code
      · exact absurd hsource outOfRange
      have level := State.tallyLevel_tallyStored (s := s) ⟨line.toNat, hl⟩ ⟨src, some param, inv == 1⟩
      refine ⟨src, some_src, answered ?_, level⟩
      refine (State.serveSetTally_of_ok hl hinv some_src (ok.mpr hparam)).trans ?_
      rw [State.tallyLevel_tallyStored]
      rfl
    next bad =>
      refine answered (State.serveSetTally_of_bad fun ⟨hl, hinv, src', hsrc, hok⟩ => bad ?_)
      obtain ⟨-, none_src⟩ | ⟨src, hsource, some_src, ok⟩ := code
      · exact absurd (none_src.symm.trans hsrc) nofun
      · obtain rfl := Option.some.inj (some_src.symm.trans hsrc)
        exact ⟨hl, hsource, hinv, ok.mp hok⟩
  case cue =>
    have answered {u : State} {a : Answer} := Answered.of_update (c := .setCue tag line enable inv)
      (r := .setCue line enable inv) (t := u) (a := a) rfl hs (fun _ => nofun)
    split
    next range => exact answered (State.serveSetCue_of_lt range.1 range.2.1 range.2.2)
    next bad => exact answered (State.serveSetCue_of_not_lt bad)

/-! ### The reads -/

namespace State

/-- The record that holds a booking id, where there is one (R78). -/
theorem findRecord_cases (s : State) (id : Half) :
    (s.findRecord id = none ∧ ∀ i p, s.place i = some p → p.booking.id ≠ id) ∨
      ∃ i p, s.findRecord id = some i ∧ s.place i = some p ∧ p.booking.id = id := by
  cases found : s.findRecord id with
  | none =>
    refine .inl ⟨rfl, fun i p held same => ?_⟩
    have absent := List.find?_eq_none.mp found i (List.mem_finRange i)
    simp [held, same] at absent
  | some i =>
    have holds := List.find?_some found
    cases held : s.place i with
    | none => simp [held] at holds
    | some p => exact .inr ⟨i, p, rfl, held, by simpa [held] using holds⟩

theorem toList_eq_map_get {α : Type} {n : Nat} (t : Table α n) : t.toList = (List.finRange n).map t.get := by
  apply List.ext_getElem
  · simp
  · intro k h₁ h₂
    simp [get_eq]

theorem recordCount_eq (s : State) : s.recordCount = ((List.finRange 192).filter fun i => (s.place i).isSome).length := by
  refine congrArg List.length (List.filter_congr fun i _ => ?_)
  cases s.place i <;> rfl

end State

/-- Settles O56: READ_HEALTH by what it stores, the others by what they hand back. -/
theorem reads : Obligations.Reads := by
  intro tag n start id s hs
  refine ⟨?health, ?circuit, ?record, ?port, ?status⟩
  case health =>
    have answered {u : State} {a : Answer} := Answered.of_update (c := .readHealth tag n)
      (r := .readHealth n) (t := u) (a := a) rfl hs (fun _ => nofun)
    split
    next range =>
      refine answered ?_
      simp only [State.serveBody, State.serveReadHealth, idOf_of_lt range, okWith]
      rfl
    next bad =>
      refine answered ?_
      simp only [State.serveBody, State.serveReadHealth, idOf_of_not_lt bad, refusal]
  case circuit =>
    have answered {u : State} {a : Answer} := Answered.of_update (c := .readCircuit tag n)
      (r := .readCircuit n) (t := u) (a := a) rfl hs (fun _ => nofun)
    split
    next range =>
      refine answered ?_
      simp only [State.serveBody, State.serveReadCircuit, idOf_of_lt range, okWith, timeLeft, Option.map_map]
      rfl
    next bad =>
      refine answered ?_
      simp only [State.serveBody, State.serveReadCircuit, idOf_of_not_lt bad, refusal]
  case record =>
    have booking {u : State} {a : Answer} := Answered.of_update (c := .readBooking tag id)
      (r := .readBooking id) (t := u) (a := a) rfl hs (fun _ => nofun)
    have meter {u : State} {a : Answer} := Answered.of_update (c := .readMeter tag id)
      (r := .readMeter id) (t := u) (a := a) rfl hs (fun _ => nofun)
    obtain ⟨none_found, absent⟩ | ⟨i, p, found, held, same⟩ := s.findRecord_cases id
    · rw [none_found]
      refine ⟨absent, booking ?_, meter ?_⟩
      · simp only [State.serveBody, State.serveReadBooking, State.enqueue_findRecord, none_found, refusal]
      · simp only [State.serveBody, State.serveReadMeter, State.enqueue_findRecord, none_found, refusal]
    · rw [found]
      subst same
      refine ⟨p, held, rfl, booking ?_, meter ?_⟩
      · simp only [State.serveBody, State.serveReadBooking, State.enqueue_findRecord, found, State.enqueue_place, held,
          okWith]
        rfl
      · simp only [State.serveBody, State.serveReadMeter, State.enqueue_findRecord, found, State.enqueue_place, held,
          okWith]
        rfl
  case port =>
    have list {u : State} {a : Answer} := Answered.of_update (c := .listPort tag n start)
      (r := .listPort n start) (t := u) (a := a) rfl hs (fun _ => nofun)
    have port {u : State} {a : Answer} := Answered.of_update (c := .readPort tag n)
      (r := .readPort n) (t := u) (a := a) rfl hs (fun _ => nofun)
    split
    next range =>
      refine ⟨?_, port ?_⟩
      · split
        next startRange =>
          refine list ?_
          simp only [State.serveBody, State.serveListPort, idOf_of_lt range, idOf_of_lt startRange, okWith]
          rfl
        next bad =>
          refine list ?_
          simp only [State.serveBody, State.serveListPort, idOf_of_lt range, idOf_of_not_lt bad, refusal]
      · simp only [State.serveBody, State.serveReadPort, idOf_of_lt range, okWith]
        rfl
    next bad =>
      refine ⟨list ?_, port ?_⟩
      · simp only [State.serveBody, State.serveListPort, idOf_of_not_lt bad, refusal]
      · simp only [State.serveBody, State.serveReadPort, idOf_of_not_lt bad, refusal]
  case status =>
    refine Answered.of_read (r := .status) rfl hs (fun _ => nofun) ?_
    simp only [State.serveBody, State.serveStatus, okWith, State.recordCount_eq, State.toList_eq_map_get, List.map_map,
      State.suspectPorts, ← beq_eq_decide]
    simp only [State.enqueue, List.length_append, List.length_singleton]
    rfl

end Sys2Proof.Machine
end

