-- ==== Sys2Proof/Proofs/LinkService.lean ====
section
/-! PROOFS. Arrival and service (O57), and the transmitter (O60). -/

namespace Sys2Proof.Machine

namespace State

/-! ### What service does with LNK -/

/-- The service of a request changes of LNK the reset hold alone, and leaves the queue of commands (R190, R196). -/
theorem serveBody_hold (s : State) (r : Request) :
    (s.serveBody r).1.lnk = { s.lnk with hold := (s.serveBody r).1.lnk.hold } ∧
      (s.serveBody r).1.pending = s.pending := by
  by_cases reset : ∃ scope, r = .reset scope
  · obtain ⟨scope, rfl⟩ := reset
    unfold serveBody serveReset
    dsimp only
    split <;> exact ⟨rfl, rfl⟩
  · obtain ⟨link, pending⟩ := serveBody_link s r fun scope e => reset ⟨scope, e⟩
    exact ⟨by rw [link], pending⟩

/-- One request served (R190): the block has done its part, and LNK has marked the request, made its reply, and holds what
the service set. -/
theorem serveOne_eq (s : State) (q : Queued) :
    s.serveOne q =
      let x := s.serveBody q.request
      { x.1 with lnk := { s.lnk with
          queue := markServed s.lnk.queue
          hold := x.1.lnk.hold
          replies := s.lnk.replies ++ [⟨replyTo q.tag q.request x.2,
            match x.1.lnk.hold with
            | some scope => .reset scope
            | none => .place⟩] } } := by
  obtain ⟨link, -⟩ := serveBody_hold s q.request
  unfold serveOne
  dsimp only
  simp only [reply, endsOf, replyTo]
  rw [link] <;> rfl

/-! ### The queue is served out -/

/-- The number of requests that are not served. -/
def unserved (l : List Queued) : Nat := l.countP fun q => !q.served

theorem unserved_le_length (l : List Queued) : unserved l ≤ l.length := List.countP_le_length

theorem unserved_markServed (l : List Queued) : unserved (markServed l) = unserved l - 1 := by
  induction l with
  | nil => rfl
  | cons q qs ih =>
    unfold markServed
    cases h : q.served with
    | true =>
      simp only [if_true]
      simp only [unserved, List.countP_cons, h] at ih ⊢
      simpa using ih
    | false => simp [unserved, h]

theorem unserved_pos_of_find {l : List Queued} {q : Queued} (h : l.find? (fun q => !q.served) = some q) :
    0 < unserved l := by
  refine List.countP_pos_iff.mpr ⟨q, List.mem_of_find?_eq_some h, ?_⟩
  simpa using List.find?_some h

/-- More fuel than there are requests to serve changes nothing. -/
theorem serveUpTo_of_unserved_le (n : Nat) (s : State) (h : unserved s.lnk.queue ≤ n) :
    serveUpTo n s = serveUpTo (unserved s.lnk.queue) s := by
  induction n generalizing s with
  | zero => rw [Nat.le_zero.mp h]
  | succ n ih =>
    cases found : s.lnk.queue.find? fun q => !q.served with
    | none =>
      have all : ∀ q ∈ s.lnk.queue, q.served = true := by simpa using found
      rw [serveUpTo_done _ _ all, serveUpTo_done _ _ all]
    | some q =>
      obtain ⟨k, hk⟩ : ∃ k, unserved s.lnk.queue = k + 1 :=
        ⟨unserved s.lnk.queue - 1, by have := unserved_pos_of_find found; omega⟩
      rw [hk]
      unfold serveUpTo
      split
      · rfl
      · rw [found]
        dsimp only
        have left : unserved (s.serveOne q).lnk.queue = k := by
          rw [serveOne_eq]
          show unserved (markServed s.lnk.queue) = k
          rw [unserved_markServed, hk]
          rfl
        rw [ih (s.serveOne q) (by omega), left]

/-- Nothing is served while a reset hold stands, or where every request is served (R190, R196). -/
theorem serveQueue_of_idle {s : State} (h : s.lnk.hold ≠ none ∨ ∀ q ∈ s.lnk.queue, q.served = true) :
    s.serveQueue = s := by
  rcases h with held | done
  · unfold serveQueue
    cases s.lnk.queue.length with
    | zero => rfl
    | succ n => simp [serveUpTo, Option.isSome_iff_ne_none.mpr held]
  · exact serveUpTo_done _ s done

theorem markServed_of_split {done : List Queued} (h : ∀ d ∈ done, d.served = true) {q : Queued} (hq : q.served = false)
    (rest : List Queued) : markServed (done ++ q :: rest) = done ++ { q with served := true } :: rest := by
  induction done with
  | nil => simp [markServed, hq]
  | cons d ds ih =>
    rw [List.forall_mem_cons] at h
    simp [markServed, h.1, ih h.2]

theorem find_unserved_of_split {done : List Queued} (h : ∀ d ∈ done, d.served = true) {q : Queued} (hq : q.served = false)
    (rest : List Queued) : (done ++ q :: rest).find? (fun q => !q.served) = some q := by
  rw [List.find?_append, find_unserved h]
  simp [hq]

/-- The oldest unserved request is served, and then the others (R190). -/
theorem serveQueue_of_unserved {s : State} {done rest : List Queued} {q : Queued} (split : s.lnk.queue = done ++ q :: rest)
    (h : ∀ d ∈ done, d.served = true) (hq : q.served = false) (hold : s.lnk.hold = none) :
    s.serveQueue = (s.serveOne q).serveQueue := by
  have found := find_unserved_of_split h hq rest
  rw [← split] at found
  have one : serveUpTo s.lnk.queue.length s = serveUpTo (s.lnk.queue.length - 1) (s.serveOne q) := by
    obtain ⟨n, hn⟩ : ∃ n, s.lnk.queue.length = n + 1 := ⟨done.length + rest.length, by rw [split]; simp; omega⟩
    rw [hn]
    conv_lhs => unfold serveUpTo
    rw [hold, found]
    rfl
  have fewer : unserved (s.serveOne q).lnk.queue ≤ s.lnk.queue.length - 1 := by
    have pos := unserved_pos_of_find found
    have le := unserved_le_length s.lnk.queue
    rw [serveOne_eq]
    show unserved (markServed s.lnk.queue) ≤ _
    rw [unserved_markServed]
    omega
  unfold serveQueue
  rw [one, serveUpTo_of_unserved_le _ _ fewer, serveUpTo_of_unserved_le _ _ (unserved_le_length _)]

end State

/-! ### Arrivals -/

theorem scopeOf_of_lt {b : Byte} (h : b.toNat < 2) : scopeOf b = some (if b = 0 then .all else .traffic) := by
  by_cases one : b = 1
  · subst one; rfl
  · rw [eq_zero_of_toNat_lt_two h one]; rfl

theorem scopeOf_of_not_lt {b : Byte} (h : ¬b.toNat < 2) : scopeOf b = none := by
  have zero : b ≠ 0 := fun e => h (by rw [e]; decide)
  have one : b ≠ 1 := fun e => h (by rw [e]; decide)
  rw [scopeOf, if_neg zero, if_neg one]

/-- RESET of a scope that is none is refused, and sets no hold (R196). -/
theorem reset_refused {tag scope : Byte} {s : State} (hs : s.Ready) (bad : ¬scope.toNat < 2) :
    Answered (.reset tag scope) s ⟨.badField, .empty⟩ s := by
  obtain ⟨room, hold, served⟩ := hs
  refine ⟨tag, .reset scope, rfl, ?_⟩
  rw [Leads, exec_request rfl, State.arrive, if_pos room,
    State.serveQueue_of_unserved (s := s.enqueue tag (.reset scope)) (done := s.lnk.queue) (rest := []) rfl served rfl
      hold,
    State.serveQueue_of_idle (.inr ?_)]
  · rw [State.serveOne_eq]
    simp only [State.serveBody, State.serveReset, scopeOf_of_not_lt bad]
    simp only [State.enqueue, State.markServed_append served, LNK.answered, hold]
    rfl
  · rw [State.serveOne_eq]
    show ∀ q ∈ markServed (s.lnk.queue ++ [_]), q.served = true
    rw [State.markServed_append served _ rfl]
    simp only [List.mem_append, List.mem_singleton]
    rintro q (old | rfl)
    · exact served q old
    · rfl

/-- RESET of a scope is accepted, and its hold stands (R196). -/
theorem reset_accepted {tag scope : Byte} {s : State} (hs : s.Ready) (ok : scope.toNat < 2) :
    let sc : Scope := if scope = 0 then .all else .traffic
    Leads (.reset tag scope) s { s with lnk := { s.lnk with
      queue := s.lnk.queue ++ [⟨tag, .reset scope, true⟩]
      replies := s.lnk.replies ++ [⟨replyTo tag (.reset scope) ⟨.ok, .empty⟩, .reset sc⟩]
      hold := some sc } } := by
  intro sc
  obtain ⟨room, hold, served⟩ := hs
  rw [Leads, exec_request (tag := tag) (r := .reset scope) rfl, State.arrive, if_pos room,
    State.serveQueue_of_unserved (s := s.enqueue tag (.reset scope)) (done := s.lnk.queue) (rest := []) rfl served rfl
      hold,
    State.serveQueue_of_idle (.inl ?_)]
  all_goals
    rw [State.serveOne_eq]
    simp only [State.serveBody, State.serveReset, scopeOf_of_lt ok]
  · simp only [State.enqueue, State.markServed_append served]
    rfl
  · exact nofun

/-- Settles O57: arrival by the room in the queue, service by the queue's first unserved request, and the three requests
that LNK answers itself. -/
theorem arrivals : Obligations.Arrivals := by
  refine ⟨fun c tag r s request => ?arrival, fun s idle => State.serveQueue_of_idle idle,
    fun s done q rest split served unserved hold => ?service, fun tag kind scope body s hs => ⟨?unknown, ?reset⟩⟩
  case arrival =>
    have row := exec_request request s
    unfold State.arrive at row
    split
    next room => rwa [if_pos room] at row
    next full =>
      rw [if_neg full] at row
      split
      next free => rwa [if_pos (by simp [free])] at row
      next busy => rwa [if_neg (by simp [busy])] at row
  case service =>
    rw [State.serveQueue_of_unserved split served unserved hold, State.serveOne_eq, split,
      State.markServed_of_split served unserved] <;> rfl
  case unknown =>
    split
    next unknown =>
      have request : parseRequest kind body = .unknownKind kind := by simp only [parseRequest, unknown]
      exact ⟨Answered.of_read (r := .unknownKind kind) (by rw [requestOf, request]) hs (fun _ => nofun) rfl, rfl⟩
    next n r known =>
      intro length
      have request : parseRequest kind body = .badLength kind := by
        simp only [parseRequest, known]
        exact if_neg (Ne.symm length)
      exact Answered.of_read (r := .badLength kind) (by rw [requestOf, request]) hs (fun _ => nofun) rfl
  case reset =>
    split
    next ok => exact reset_accepted hs ok
    next bad => exact reset_refused hs bad

/-! ### The transmitter -/

namespace State

theorem resetOnLine_of_line {s : State} {m : Message} {e : Ends} (h : s.lnk.line = some ⟨m, e⟩) (scope : Scope) :
    s.resetOnLine scope = decide (e = .reset scope) := by
  rw [resetOnLine, h]
  rfl

/-- The oldest reply has been put on the line (R179). -/
def Replied (s t : State) : Prop := ∃ u rest, s.lnk.replies = u :: rest ∧
  t = { s with lnk := { s.lnk with replies := rest, line := some ⟨.reply u.reply, u.ends⟩ } }

/-- The head of the notice list has been put on the line, and its flag and its owner are cleared (R178). -/
def Noticed (s t : State) : Prop := ∃ o rest, s.ntc.list = o :: rest ∧
  t.ntc = { s.ntc with flags := upd s.ntc.flags o false, list := rest } ∧
  t.lnk = { s.lnk with line := (s.noticeOf o).map fun n => ⟨.notice n, .nothing⟩ } ∧
  (∀ r, t.route r = if o = healthObject r then { s.route r with reported := s.health r } else s.route r) ∧
  t.rmon = { s.rmon with routes := t.rmon.routes } ∧
  t.xpc = (if o = takeObject then { s.xpc with newlySuspect := 0 } else s.xpc) ∧
  t = { s with ntc := t.ntc, lnk := t.lnk, rmon := t.rmon, xpc := t.xpc }

theorem sendReply_replied {s : State} (h : s.lnk.replies ≠ []) : s.Replied s.sendReply := by
  unfold sendReply
  split
  next empty => exact absurd empty h
  next u rest waiting => exact ⟨u, rest, waiting, rfl⟩

theorem sendNotice_of_nil {s : State} (h : s.ntc.list = []) : s.sendNotice = s := by
  rw [sendNotice, h]

/-- What sending a notice clears in its owner (R36, R140). -/
theorem noticeSent_owner (s : State) (o : Fin 267) :
    (∀ r, (s.noticeSent o).route r =
      if o = healthObject r then { s.route r with reported := s.health r } else s.route r) ∧
    (s.noticeSent o).rmon = { s.rmon with routes := (s.noticeSent o).rmon.routes } ∧
    (s.noticeSent o).xpc = (if o = takeObject then { s.xpc with newlySuspect := 0 } else s.xpc) ∧
    s.noticeSent o = { s with rmon := (s.noticeSent o).rmon, xpc := (s.noticeSent o).xpc } := by
  unfold noticeSent
  split
  next isHealth =>
    have notTake : o ≠ takeObject := by rintro rfl; exact absurd isHealth (by decide)
    refine ⟨fun r => ?_, rfl, (if_neg notTake).symm, rfl⟩
    by_cases same : (⟨o.val, isHealth⟩ : Fin 48) = r
    · subst same
      rw [if_pos (by rfl)]
      exact setRoute_route _ _ _
    · rw [if_neg fun e => same (by subst e; rfl)]
      exact setRoute_route_ne _ _ same
  next notHealth =>
    have other (r : Fin 48) : o ≠ healthObject r := by rintro rfl; exact notHealth r.isLt
    split
    next isTake =>
      exact ⟨fun r => (if_neg (other r)).symm, rfl, (if_pos (Fin.ext isTake)).symm, rfl⟩
    next notTake =>
      exact ⟨fun r => (if_neg (other r)).symm, rfl, (if_neg fun e => notTake (by rw [e]; rfl)).symm, rfl⟩

theorem sendNotice_noticed {s : State} (h : s.ntc.list ≠ []) : s.Noticed s.sendNotice := by
  unfold sendNotice
  split
  next empty => exact absurd empty h
  next o rest waiting =>
    obtain ⟨routes, rmon, xpc, frame⟩ := noticeSent_owner
      { s with ntc := { s.ntc with flags := upd s.ntc.flags o false, list := rest } } o
    rw [frame]
    exact ⟨o, rest, waiting, rfl, rfl, routes, rmon, xpc, rfl⟩

/-- A free transmitter with no READY to send (R179). -/
theorem choose_of_noReady {s : State} (h : s.lnk.ready = none) :
    s.choose = if s.lnk.replies = [] then s.sendNotice else s.sendReply := by
  rw [choose, h]
  simp only [List.isEmpty_iff]

end State

/-- Settles O60: the end of a message by what it frees, and the choice by what waits. -/
theorem transmitter : Obligations.Transmitter := by
  intro s
  refine ⟨?ends, ?chooses⟩
  case ends =>
    have row : exec .transmitterFree s = .next s.endLine := rfl
    split
    next free => rw [row, State.endLine, State.endMessage, State.resetOnLine, State.resetOnLine, free]; rfl
    next m line => rw [row, State.endLine, State.endMessage, State.resetOnLine, State.resetOnLine, line]; rfl
    next m line => rw [row, State.endLine, State.endMessage, State.resetOnLine, State.resetOnLine, line]; rfl
    next m line => rw [row, State.endLine, State.endMessage, State.resetOnLine, State.resetOnLine, line]; rfl
    next m line =>
      have onLine : s.resetOnLine .all = true := State.resetOnLine_of_line line .all
      show Host.Outcome.next s.endLine = s.endReset .all
      rw [State.endLine, State.endReset, onLine]
      rfl
    next m line =>
      have onLine : s.resetOnLine .traffic = true := State.resetOnLine_of_line line .traffic
      show Host.Outcome.next s.endLine = s.endReset .traffic
      rw [State.endLine, State.endReset, onLine, Bool.or_true]
      rfl
  case chooses =>
    intro replied noticed
    split
    next sending =>
      have busy : s.lnk.line.isSome = true := Option.isSome_iff_ne_none.mpr sending
      exact ⟨if_pos busy, if_pos busy⟩
    next free =>
      have idle : ¬s.lnk.line.isSome = true := by simpa using free
      have becomes : s.becomesFree = s.choose := if_neg idle
      have transmits : s.transmit =
          if s.bothWait then (if s.raceFirst then s.raced.sendReply else s.raced.sendNotice) else s.choose := if_neg idle
      split
      next k ready =>
        have alone : ¬s.bothWait = true := by simp [State.bothWait, ready]
        rw [becomes, transmits, if_neg alone, State.choose, ready]
        exact ⟨rfl, rfl⟩
      next ready =>
        have chosen := State.choose_of_noReady ready
        have both : s.bothWait = true ↔ s.lnk.replies ≠ [] ∧ s.ntc.list ≠ [] := by simp [State.bothWait, ready]
        split
        next noReply =>
          have alone : ¬s.bothWait = true := fun w => (both.mp w).1 noReply
          rw [becomes, transmits, if_neg alone, chosen, if_pos noReply]
          split
          next noNotice => exact ⟨State.sendNotice_of_nil noNotice, State.sendNotice_of_nil noNotice⟩
          next notice => exact ⟨State.sendNotice_noticed notice, State.sendNotice_noticed notice⟩
        next reply =>
          rw [becomes, chosen, if_neg reply]
          refine ⟨State.sendReply_replied reply, ?_⟩
          split
          next noNotice =>
            have alone : ¬s.bothWait = true := fun w => (both.mp w).2 noNotice
            rw [transmits, if_neg alone, chosen, if_neg reply]
            exact State.sendReply_replied reply
          next notice =>
            rw [transmits, if_pos (both.mpr ⟨reply, notice⟩)]
            split
            · exact .inl (State.sendReply_replied (s := s.raced) reply)
            · exact .inr (State.sendNotice_noticed (s := s.raced) notice)

end Sys2Proof.Machine
end

