-- ==== Sys2Proof/Proofs/Receiving.lean ====
section
/-! PROOFS. The receive hunt (O58), and frames sent byte by byte (O59). -/

namespace Sys2Proof.Machine

/-! ### Frames -/

/-- The body length that the second and third bytes spell (Table 11-3). -/
theorem bodyLength_cons (m hi lo : Byte) (rest : List Byte) :
    bodyLength (m :: hi :: lo :: rest) = 256 * hi.toNat + lo.toNat := by
  have := hi.isLt
  have := lo.isLt
  simp [bodyLength, halfAt, field, bytesToNat]
  omega

theorem bodyLength_eq {frame : List Byte} (h : 3 ≤ frame.length) :
    bodyLength frame = 256 * (frame.getD 1 0).toNat + (frame.getD 2 0).toNat := by
  match frame, h with
  | m :: hi :: lo :: rest, _ => exact bodyLength_cons m hi lo rest

theorem oversize_eq_true_iff (frame : List Byte) : oversize frame = true ↔ 3 ≤ frame.length ∧ 512 < bodyLength frame :=
  decide_eq_true_iff

theorem complete_eq_true_iff (frame : List Byte) :
    complete frame = true ↔ 3 ≤ frame.length ∧ 7 + bodyLength frame ≤ frame.length := decide_eq_true_iff

/-- The bytes from the first marker on. -/
theorem dropWhile_marker {before rest : List Byte} (h : markerByte ∉ before) :
    (before ++ markerByte :: rest).dropWhile (· != markerByte) = markerByte :: rest := by
  induction before with
  | nil => simp
  | cons b bs ih =>
    rw [List.mem_cons, not_or] at h
    have other : (b != markerByte) = true := by simpa using fun e => h.1 (Eq.symm e)
    exact (List.dropWhile_cons_of_pos (p := (· != markerByte)) other).trans (ih h.2)

theorem dropWhile_of_noMarker {bytes : List Byte} (h : markerByte ∉ bytes) :
    bytes.dropWhile (· != markerByte) = [] := by
  rw [List.dropWhile_eq_nil_iff]
  intro b hb
  have other : b ≠ markerByte := by rintro rfl; exact h hb
  simpa using other

namespace State

/-! ### Service leaves the receive state -/

/-- The frame in progress and its gap timer are the same in two states. -/
def SameReceive (s t : State) : Prop := t.lnk.rx = s.lnk.rx ∧ t.lnk.gap = s.lnk.gap

theorem serveUpTo_receive (n : Nat) (s : State) : SameReceive s (serveUpTo n s) := by
  induction n generalizing s with
  | zero => exact ⟨rfl, rfl⟩
  | succ n ih =>
    unfold serveUpTo
    split
    · exact ⟨rfl, rfl⟩
    · split
      next q found =>
        obtain ⟨rx, gap⟩ := ih (s.serveOne q)
        have one : SameReceive s (s.serveOne q) := by rw [serveOne_eq]; exact ⟨rfl, rfl⟩
        exact ⟨rx.trans one.1, gap.trans one.2⟩
      next => exact ⟨rfl, rfl⟩

theorem arrive_receive (s : State) (tag : Byte) (r : Request) : SameReceive s (s.arrive tag r) := by
  unfold arrive
  split
  · exact serveUpTo_receive _ (s.enqueue tag r)
  · split <;> exact ⟨rfl, rfl⟩

theorem hunt_of_idle {s : State} (rx : s.lnk.rx = []) (gap : s.lnk.gap = none) : s.hunt = s := by
  unfold hunt
  rw [← rx, ← gap]

theorem hunt_arrive (s : State) (tag : Byte) (r : Request) : (s.hunt.arrive tag r).hunt = s.hunt.arrive tag r := by
  obtain ⟨rx, gap⟩ := arrive_receive s.hunt tag r
  exact hunt_of_idle rx gap

/-! ### The bytes received, gone through in HUNT -/

/-- More fuel than there are bytes changes nothing. -/
theorem rescan_of_length_lt (n m : Nat) (bytes : List Byte) (s : State) (hn : bytes.length < n) (hm : bytes.length < m) :
    rescan n bytes s = rescan m bytes s := by
  induction n generalizing m bytes s with
  | zero => omega
  | succ n ih =>
    obtain ⟨m, rfl⟩ : ∃ k, m = k + 1 := ⟨m - 1, by omega⟩
    have shorter : (bytes.dropWhile (· != markerByte)).length ≤ bytes.length := (List.dropWhile_sublist _).length_le
    unfold rescan
    dsimp only
    split
    · rfl
    next some =>
      have pos : 0 < (bytes.dropWhile (· != markerByte)).length := by
        rw [List.isEmpty_iff] at some
        exact List.length_pos_iff.mpr some
      split
      · rfl
      · split
        · have drop : ((bytes.dropWhile (· != markerByte)).drop
              (frameLength (bytes.dropWhile (· != markerByte)))).length < bytes.length := by
            rw [List.length_drop, frameLength]; omega
          exact ih _ _ _ (by omega) (by omega)
        · have tail : (bytes.dropWhile (· != markerByte)).tail.length < bytes.length := by
            rw [List.length_tail]; omega
          exact ih _ _ _ (by omega) (by omega)

theorem rescanAll_of_noMarker (s : State) {bytes : List Byte} (h : markerByte ∉ bytes) : s.rescanAll bytes = s.hunt := by
  unfold rescanAll rescan
  simp only [dropWhile_of_noMarker h]
  rfl

/-- The frame that the first marker begins (R187, R188). -/
theorem rescanAll_of_marker (s : State) {before rest : List Byte} (h : markerByte ∉ before) :
    s.rescanAll (before ++ markerByte :: rest) =
      if inFrame (markerByte :: rest) then s.hunt.startFrame (markerByte :: rest)
      else if !oversize (markerByte :: rest) && checkOk (markerByte :: rest) then
        (s.hunt.takeFrame (markerByte :: rest)).rescanAll
          ((markerByte :: rest).drop (frameLength (markerByte :: rest)))
      else s.hunt.countError.rescanAll rest := by
  conv_lhs => unfold rescanAll rescan
  simp only [dropWhile_marker h, List.isEmpty_cons, Bool.false_eq_true, if_false]
  split
  · rfl
  · split
    · unfold takeFrame
      rw [rescanAll, hunt_arrive]
      refine rescan_of_length_lt _ _ _ _ ?_ (Nat.lt_succ_self _)
      simp only [List.length_drop, List.length_cons, List.length_append, frameLength]
      omega
    · refine rescan_of_length_lt _ _ _ _ ?_ (Nat.lt_succ_self _)
      simp only [List.tail_cons, List.length_append, List.length_cons]
      omega

theorem not_frameWaits_of_nil {s : State} (h : s.lnk.rx = []) : s.frameWaits = false := by
  rw [frameWaits, h]; rfl

/-- What is left in progress awaits no check. -/
theorem rescan_not_frameWaits (n : Nat) (bytes : List Byte) (s : State) (h : s.lnk.rx = []) :
    (rescan n bytes s).frameWaits = false := by
  induction n generalizing bytes s with
  | zero => exact not_frameWaits_of_nil h
  | succ n ih =>
    unfold rescan
    dsimp only
    split
    · exact not_frameWaits_of_nil h
    · split
      next unfinished =>
        have open_ : complete (bytes.dropWhile (· != markerByte)) = false := by
          simp only [inFrame, Bool.and_eq_true, Bool.not_eq_true'] at unfinished
          exact unfinished.2
        show (complete (bytes.dropWhile (· != markerByte)) && _) = false
        rw [open_, Bool.false_and]
      · split
        · exact ih _ _ ((arrive_receive _ _ _).1.trans h)
        · exact ih _ _ h

theorem checkFrame_of_not_frameWaits {s : State} (h : s.frameWaits = false) : s.checkFrame = s := by
  rw [checkFrame, h]; rfl

theorem checkFrame_rescanAll (s : State) (bytes : List Byte) : (s.rescanAll bytes).checkFrame = s.rescanAll bytes :=
  checkFrame_of_not_frameWaits (rescan_not_frameWaits _ _ _ rfl)

theorem not_frameWaits_of_not_complete {s : State} (h : complete s.lnk.rx = false) : s.frameWaits = false := by
  rw [frameWaits, h, Bool.false_and]

/-- A byte of the frame in progress, or in HUNT the marker (R187). -/
theorem takeByte_of_taken {s : State} {b : Byte} (h : ¬(s.lnk.rx = [] ∧ b ≠ markerByte)) :
    s.takeByte b =
      if oversize (s.lnk.rx ++ [b]) then s.rescanAll (s.lnk.rx ++ [b])
      else if complete (s.lnk.rx ++ [b]) then { s with lnk := { s.lnk with rx := s.lnk.rx ++ [b], gap := none } }
      else s.startFrame (s.lnk.rx ++ [b]) := by
  unfold takeByte
  rw [if_neg (by simpa using h)]

end State

/-- Settles O58: each row by the receive state, and the bytes gone through by the frame that their first marker begins. -/
theorem receiving : Obligations.Receiving := by
  intro b s rx length hunt counted
  refine ⟨fun open_ => ?byte, fun full inRange => ⟨?check, ?checkFirst⟩, fun open_ => ?noFrame, ?gap, fun bytes =>
    ⟨fun none => State.rescanAll_of_noMarker s none, fun before rest split first => ?frames⟩⟩
  case byte =>
    have row : exec (.byteReceived b) s = .next (s.takeByte b).transmit := by
      show Host.Outcome.next (s.checkFrame.takeByte b).transmit = _
      rw [State.checkFrame_of_not_frameWaits (State.not_frameWaits_of_not_complete open_)]
    unfold Leads
    rw [row]
    by_cases skipped : s.lnk.rx = [] ∧ b ≠ 0xC5
    · rw [if_pos skipped, State.takeByte, if_pos (by simpa using skipped)]
    rw [if_neg skipped, State.takeByte_of_taken skipped]
    have overs : oversize rx = true ↔ 3 ≤ rx.length ∧ 512 < length :=
      (oversize_eq_true_iff rx).trans (and_congr_right fun long => by rw [bodyLength_eq long])
    have done : complete rx = true ↔ 3 ≤ rx.length ∧ 7 + length ≤ rx.length :=
      (complete_eq_true_iff rx).trans (and_congr_right fun long => by rw [bodyLength_eq long])
    by_cases tooLong : 3 ≤ rx.length ∧ 512 < length
    · rw [if_pos tooLong, if_pos (overs.mpr tooLong)]
    rw [if_neg tooLong, if_neg fun o => tooLong (overs.mp o)]
    by_cases last : 3 ≤ rx.length ∧ 7 + length ≤ rx.length
    · rw [if_pos last, if_pos (done.mpr last)]
    · rw [if_neg last, if_neg fun d => last (done.mp d)]
      rfl
  case check =>
    have waits : s.frameWaits = true := by rw [State.frameWaits, full, inRange]; rfl
    show Host.Outcome.next s.checkFrame.transmit = _
    rw [State.checkFrame, if_pos waits]
  case checkFirst =>
    have waits : s.frameWaits = true := by rw [State.frameWaits, full, inRange]; rfl
    show Host.Outcome.next (s.checkFrame.takeByte b).transmit =
      .next ((s.rescanAll s.lnk.rx).checkFrame.takeByte b).transmit
    rw [State.checkFrame_rescanAll, State.checkFrame, if_pos waits]
  case noFrame =>
    show Host.Outcome.next s.checkFrame.transmit = _
    rw [State.checkFrame_of_not_frameWaits (State.not_frameWaits_of_not_complete open_)]
  case gap =>
    have row : exec .gapTimerExpiry s = .next s.gapExpiry.transmit := rfl
    unfold Leads
    rw [row, State.gapExpiry]
    split <;> rfl
  case frames =>
    intro frame
    rw [split, State.rescanAll_of_marker s first]
    have overs := oversize_eq_true_iff frame
    have done := complete_eq_true_iff frame
    by_cases tooLong : 3 ≤ frame.length ∧ 512 < bodyLength frame
    · have oversized : oversize (markerByte :: rest) = true := overs.mpr tooLong
      rw [if_pos tooLong, inFrame, oversized]
      rfl
    have fits : oversize (markerByte :: rest) = false := Bool.eq_false_iff.mpr fun o => tooLong (overs.mp o)
    rw [if_neg tooLong, inFrame, fits]
    by_cases last : 3 ≤ frame.length ∧ 7 + bodyLength frame ≤ frame.length
    · have full : complete (markerByte :: rest) = true := done.mpr last
      rw [if_pos last, full]
      by_cases good : checkOk frame = true
      · rw [if_pos good, show checkOk (markerByte :: rest) = true from good]
        rfl
      · rw [if_neg good, show checkOk (markerByte :: rest) = false from Bool.eq_false_iff.mpr good]
        rfl
    · have open_ : complete (markerByte :: rest) = false := Bool.eq_false_iff.mpr fun d => last (done.mp d)
      rw [if_neg last, open_]
      rfl

/-! ### Frames built as Table 11-3 gives -/

theorem natBytes_two (v : Nat) : natBytes 2 v = [BitVec.ofNat 8 (v / 256), BitVec.ofNat 8 v] := rfl

/-- A frame, byte by byte. -/
theorem frameOf_eq (kind tag : Byte) (body : List Byte) : ∃ hi lo c0 c1 : Byte,
    frameOf kind tag body = markerByte :: hi :: lo :: kind :: tag :: (body ++ [c0, c1]) ∧
      natBytes 2 body.length = [hi, lo] ∧ natBytes 2 (crc (hi :: lo :: kind :: tag :: body)).toNat = [c0, c1] :=
  ⟨_, _, _, _, rfl, rfl, rfl⟩

/-- A two-byte field reads the number that two bytes were built from. -/
theorem halfAt_natBytes (before : List Byte) (v : Half) (hi lo : Byte) (h : natBytes 2 v.toNat = [hi, lo]) :
    halfAt (before ++ [hi, lo]) before.length = v := by
  rw [natBytes_two] at h
  obtain ⟨rfl, rfl⟩ : _ ∧ _ := by simpa using h
  apply BitVec.eq_of_toNat_eq
  have := v.isLt
  simp [halfAt, field, bytesToNat]
  omega

section
variable {kind tag : Byte} {body : List Byte}

/-- Any part of a frame that holds the length bytes spells the body length. -/
theorem bodyLength_prefix {p q : List Byte} (fits : body.length ≤ 512) (split : frameOf kind tag body = p ++ q)
    (long : 3 ≤ p.length) : bodyLength p = body.length := by
  obtain ⟨hi, lo, c0, c1, frame, length, -⟩ := frameOf_eq kind tag body
  rw [natBytes_two] at length
  obtain ⟨rfl, rfl⟩ : _ ∧ _ := by simpa using length
  match p, long with
  | a :: b :: c :: rest, _ =>
    rw [frame] at split
    simp only [List.cons_append, List.cons.injEq] at split
    obtain ⟨-, rfl, rfl, -⟩ := split
    rw [bodyLength_cons]
    simp
    omega

theorem length_frameOf : (frameOf kind tag body).length = 7 + body.length := by
  obtain ⟨hi, lo, c0, c1, frame, -⟩ := frameOf_eq kind tag body
  rw [frame]
  simp
  omega

/-- A part of a frame is not over length, and complete only when it is the whole. -/
theorem prefix_receive {p q : List Byte} (fits : body.length ≤ 512) (split : frameOf kind tag body = p ++ q) :
    oversize p = false ∧ (complete p = true ↔ q = []) := by
  have total := congrArg List.length split
  rw [length_frameOf, List.length_append] at total
  constructor
  · rw [Bool.eq_false_iff]
    intro overs
    obtain ⟨long, tooLong⟩ := (oversize_eq_true_iff p).mp overs
    rw [bodyLength_prefix fits split long] at tooLong
    omega
  · rw [complete_eq_true_iff, ← List.length_eq_zero_iff]
    constructor
    · rintro ⟨long, full⟩
      rw [bodyLength_prefix fits split long] at full
      omega
    · intro empty
      have long : 3 ≤ p.length := by omega
      exact ⟨long, by rw [bodyLength_prefix fits split long]; omega⟩

/-- The check of a built frame holds, and its fields are those it was built from (R188). -/
theorem frameOf_fields (fits : body.length ≤ 512) :
    checkOk (frameOf kind tag body) = true ∧ byteAt (frameOf kind tag body) 3 = kind ∧
      byteAt (frameOf kind tag body) 4 = tag ∧
      ((frameOf kind tag body).drop 5).take (bodyLength (frameOf kind tag body)) = body := by
  have length : bodyLength (frameOf kind tag body) = body.length :=
    bodyLength_prefix fits (List.append_nil _).symm (by rw [length_frameOf]; omega)
  obtain ⟨hi, lo, c0, c1, frame, -, check⟩ := frameOf_eq kind tag body
  refine ⟨?_, ?_, ?_, ?_⟩
  · have read := halfAt_natBytes (markerByte :: hi :: lo :: kind :: tag :: body) _ c0 c1 check
    have covered : ((frameOf kind tag body).drop 1).take (4 + body.length) = hi :: lo :: kind :: tag :: body := by
      rw [frame]
      simp [Nat.add_comm 4]
    have position : (markerByte :: hi :: lo :: kind :: tag :: body).length = 5 + body.length := by simp; omega
    rw [position] at read
    unfold checkOk
    dsimp only
    rw [length, covered, frame]
    simpa using read.symm
  · rw [frame]; simp [byteAt, field, bytesToNat]
  · rw [frame]; simp [byteAt, field, bytesToNat]
  · rw [length, frame]; simp

/-- A busy line: the transmitter makes no choice (R179). -/
theorem State.transmit_of_busy {s : State} (h : s.lnk.line ≠ none) : s.transmit = s :=
  if_pos (Option.isSome_iff_ne_none.mpr h)

/-- LNK with `p` received and the gap timer at `gap`. -/
def State.received (s : State) (p : List Byte) (gap : Option Nat) : State :=
  { s with lnk := { s.lnk with rx := p, gap := gap } }

/-- The next byte of a frame joins the frame in progress; the last one stops the gap timer (R187). -/
theorem exec_byteReceived_of_prefix {s : State} {p q : List Byte} {b : Byte} (gap : Option Nat) (busy : s.lnk.line ≠ none)
    (fits : body.length ≤ 512) (split : frameOf kind tag body = p ++ b :: q) :
    exec (.byteReceived b) (s.received p gap) =
      .next (s.received (p ++ [b]) (if q = [] then none else some (s.tb.elapsed + 6))) := by
  have now := prefix_receive (p := p) (q := b :: q) fits split
  have next := prefix_receive (p := p ++ [b]) (q := q) fits (by rw [split]; simp)
  have open_ : complete p = false := Bool.eq_false_iff.mpr fun full => absurd (now.2.mp full) nofun
  have taken : ¬(p = [] ∧ b ≠ markerByte) := by
    rintro ⟨rfl, other⟩
    obtain ⟨hi, lo, c0, c1, frame, -⟩ := frameOf_eq kind tag body
    rw [frame] at split
    exact other (List.cons.inj split).1.symm
  show Host.Outcome.next ((s.received p gap).checkFrame.takeByte b).transmit = _
  rw [State.checkFrame_of_not_frameWaits (State.not_frameWaits_of_not_complete open_), State.takeByte_of_taken taken]
  show Host.Outcome.next (if oversize (p ++ [b]) = true then _ else
    if complete (p ++ [b]) = true then s.received (p ++ [b]) none
    else s.received (p ++ [b]) (some (s.tb.elapsed + 6))).transmit = _
  rw [next.1, if_neg Bool.false_ne_true]
  simp only [next.2]
  split
  · exact congrArg _ (State.transmit_of_busy (s := s.received (p ++ [b]) none) busy)
  · exact congrArg _ (State.transmit_of_busy (s := s.received (p ++ [b]) (some (s.tb.elapsed + 6))) busy)

/-- The rest of a frame is received byte by byte. -/
theorem runs_of_prefix {s : State} {p q : List Byte} (gap : Option Nat) (busy : s.lnk.line ≠ none)
    (fits : body.length ≤ 512) (split : frameOf kind tag body = p ++ q) (more : q ≠ []) :
    Runs (q.map Instr.byteReceived) (s.received p gap) (s.received (p ++ q) none) := by
  induction q generalizing p gap with
  | nil => exact absurd rfl more
  | cons b q ih =>
    refine ⟨_, exec_byteReceived_of_prefix gap busy fits split, ?_⟩
    by_cases last : q = []
    · subst last
      rfl
    · have rest := ih (p := p ++ [b]) (some (s.tb.elapsed + 6)) (by rw [split]; simp) last
      rw [if_neg last]
      rwa [List.append_assoc] at rest

end

/-- Settles O59: the bytes join the frame in progress one by one, and its check makes the request's arrival of it. -/
theorem framesAreTaken : Obligations.FramesAreTaken := by
  intro kind tag body c s fits rx gap busy request
  have start : s.received [] none = s := by
    unfold State.received
    rw [← rx, ← gap]
  have some_bytes : frameOf kind tag body ≠ [] := List.cons_ne_nil _ _
  have runs := runs_of_prefix (s := s) (kind := kind) (tag := tag) (p := []) none busy fits rfl some_bytes
  rw [start, List.nil_append] at runs
  refine ⟨_, runs, ?_, ?_⟩
  · unfold State.received
    rw [← gap]
  · obtain ⟨inLength, full⟩ := prefix_receive (p := frameOf kind tag body) (q := []) fits (List.append_nil _).symm
    obtain ⟨good, kind_read, tag_read, body_read⟩ := frameOf_fields (kind := kind) (tag := tag) fits
    have complete_frame : complete (frameOf kind tag body) = true := full.mpr rfl
    have waits : (s.received (frameOf kind tag body) none).frameWaits = true := by
      show (complete (frameOf kind tag body) && !oversize (frameOf kind tag body)) = true
      rw [complete_frame, inLength]
      rfl
    have hunts : (s.received (frameOf kind tag body) none).hunt = s := by
      show { s with lnk := { s.lnk with rx := [], gap := none } } = s
      rw [← rx, ← gap]
    have length : bodyLength (frameOf kind tag body) = body.length :=
      bodyLength_prefix fits (List.append_nil _).symm (by rw [length_frameOf]; omega)
    have arrival : (s.received (frameOf kind tag body) none).rescanAll (frameOf kind tag body) =
        s.arrive tag (parseRequest kind body) := by
      have rescanned := State.rescanAll_of_marker (s.received (frameOf kind tag body) none) (before := [])
        (rest := (frameOf kind tag body).tail) List.not_mem_nil
      have frame : markerByte :: (frameOf kind tag body).tail = frameOf kind tag body := rfl
      rw [List.nil_append, frame] at rescanned
      rw [rescanned, inFrame, inLength, complete_frame, good, hunts]
      simp only [Bool.not_true, Bool.and_false, Bool.false_eq_true, if_false, Bool.not_false, Bool.and_self, if_true]
      rw [State.takeFrame, tag_read, kind_read, body_read, frameLength, length,
        List.drop_eq_nil_of_le (by rw [length_frameOf])]
      rw [State.rescanAll_of_noMarker _ List.not_mem_nil]
      have idle := State.arrive_receive s tag (parseRequest kind body)
      exact State.hunt_of_idle (idle.1.trans rx) (idle.2.trans gap)
    show Host.Outcome.next (s.received (frameOf kind tag body) none).checkFrame.transmit = _
    rw [State.checkFrame, if_pos waits]
    show Host.Outcome.next ((s.received (frameOf kind tag body) none).rescanAll (frameOf kind tag body)).transmit = _
    rw [arrival, exec_request request]

end Sys2Proof.Machine
end

