-- ==== Sys2Proof/Proofs/Hearing.lean ====
section
/-! PROOFS. What PSEL makes of a change of health: the record that one circuit takes (R46, R53), and the changes of selected
routes as XPC and MTR take them, one after another (R57, R126, R137, R152). -/

namespace Sys2Proof.Machine

/-! ### Routes and their circuits -/

@[simp] theorem circuitOf_routeOf (c : Fin 24) (side : Side) : circuitOf (routeOf c side) = c := by
  cases side <;> simp only [circuitOf, routeOf, Fin.ext_iff] <;> omega

@[simp] theorem sideOf_routeOf (c : Fin 24) (side : Side) : sideOf (routeOf c side) = side := by
  cases side
  case a => simp [sideOf, routeOf]
  case b => simp [sideOf, routeOf]

@[simp] theorem routeOf_circuitOf (r : Fin 48) : routeOf (circuitOf r) (sideOf r) = r := by
  unfold sideOf
  split
  next even => simp only [routeOf, circuitOf, Fin.ext_iff]; omega
  next odd => simp only [routeOf, circuitOf, Fin.ext_iff]; omega

theorem routeOf_eq_iff {c d : Fin 24} {x y : Side} : routeOf c x = routeOf d y ↔ c = d ∧ x = y := by
  refine ⟨fun h => ⟨?_, ?_⟩, fun ⟨hc, hs⟩ => by rw [hc, hs]⟩
  · simpa using congrArg circuitOf h
  · simpa using congrArg sideOf h

/-! ### The record that an evaluation makes -/

namespace Circuit

variable {k : Circuit} {rank : Side → Nat} {bUsable : Bool} {why : CircuitReason} {now frame : Nat}

theorem evaluated_of_selA (h : k.selector = some .selA) :
    k.evaluated rank bUsable why now frame =
      if k.guard = none ∧ rank .a < rank .b then k.switched .selB why now frame else k := by
  simp only [evaluated, h]

theorem evaluated_of_selB (h : k.selector = some .selB) :
    k.evaluated rank bUsable why now frame =
      if k.guard = none ∧ rank .b < rank .a then k.switched .selA why now frame
      else if k.revertive = true ∧ rank .a = 2 ∧ bUsable = true then
        if k.wtrSecs = 0 then (k.restoring now frame).switched .selA .wtrExpiry now frame else k.restoring now frame
      else k := by
  simp only [evaluated, h]

theorem evaluated_of_wtr (h : k.selector = some .wtr) :
    k.evaluated rank bUsable why now frame =
      if k.guard = none ∧ rank .b < rank .a then k.switched .selA why now frame
      else if rank .a ≠ 2 then k.fallenBack frame
      else k := by
  simp only [evaluated, h]

theorem evaluated_of_held (h : ∀ st, k.selector = some st → st.automatic = false) :
    k.evaluated rank bUsable why now frame = k := by
  unfold evaluated
  split
  next auto => exact absurd (h _ auto) (by decide)
  next auto => exact absurd (h _ auto) (by decide)
  next auto => exact absurd (h _ auto) (by decide)
  all_goals rfl

/-- An evaluation leaves an automatic circuit in an automatic state. -/
theorem evaluated_automatic {st : SelState} (h : k.selector = some st) (auto : st.automatic = true) :
    ∃ st', (k.evaluated rank bUsable why now frame).selector = some st' ∧ st'.automatic = true := by
  cases st with
  | forcedA | forcedB | lockout => exact absurd auto (by decide)
  | selA =>
    rw [evaluated_of_selA h]
    split
    · exact ⟨.selB, rfl, rfl⟩
    · exact ⟨_, h, auto⟩
  | selB =>
    rw [evaluated_of_selB h]
    split
    · exact ⟨.selA, rfl, rfl⟩
    · split
      · split
        · exact ⟨.selA, rfl, rfl⟩
        · exact ⟨.wtr, rfl, rfl⟩
      · exact ⟨_, h, auto⟩
  | wtr =>
    rw [evaluated_of_wtr h]
    split
    · exact ⟨.selA, rfl, rfl⟩
    · split
      · exact ⟨.selB, rfl, rfl⟩
      · exact ⟨_, h, auto⟩

end Circuit

namespace State

section
variable {s t : State} {c : Fin 24} {why : CircuitReason}

theorem evaluated_iff_of_selA (h : (s.circuit c).selector = some .selA) :
    s.Evaluated t c why ↔
      if (s.circuit c).guard = none ∧ s.rankOf c .a < s.rankOf c .b then
        s.SelectorMoved t c ((s.circuit c).switched .selB why s.tb.elapsed s.tb.frame)
      else t = s := by
  simp only [Evaluated, h]

theorem evaluated_iff_of_selB (h : (s.circuit c).selector = some .selB) :
    s.Evaluated t c why ↔
      if (s.circuit c).guard = none ∧ s.rankOf c .b < s.rankOf c .a then
        s.SelectorMoved t c ((s.circuit c).switched .selA why s.tb.elapsed s.tb.frame)
      else if (s.circuit c).revertive = true ∧ s.rankOf c .a = 2 ∧ (s.health (routeOf c .b)).usable = true then
        s.Restoring t c
      else t = s := by
  simp only [Evaluated, h]

theorem evaluated_iff_of_wtr (h : (s.circuit c).selector = some .wtr) :
    s.Evaluated t c why ↔
      if (s.circuit c).guard = none ∧ s.rankOf c .b < s.rankOf c .a then
        s.SelectorMoved t c ((s.circuit c).switched .selA why s.tb.elapsed s.tb.frame)
      else if s.rankOf c .a ≠ 2 then s.SelectorMoved t c ((s.circuit c).fallenBack s.tb.frame)
      else t = s := by
  simp only [Evaluated, h]

theorem evaluated_iff_of_held (h : ∀ st, (s.circuit c).selector = some st → st.automatic = false) :
    s.Evaluated t c why ↔ t = s := by
  unfold Evaluated
  dsimp only
  split
  next auto => exact absurd (h _ auto) (by decide)
  next auto => exact absurd (h _ auto) (by decide)
  next auto => exact absurd (h _ auto) (by decide)
  all_goals rfl

/-! ### The record that a circuit takes -/

/-- Circuit `c` stands as it is, or takes the record `k`, in another selector state (R46, R53, R57). -/
def CircuitHears (s t : State) (c : Fin 24) (k : Circuit) : Prop :=
  (t = s ∧ k = s.circuit c) ∨
    (s.SelectorMoved t c k ∧ k.selector ≠ (s.circuit c).selector ∧ (s.circuit c).selector ≠ none ∧ k.selector ≠ none)

/-- An evaluation, as one change of the circuit's record. -/
theorem evaluated_hears (h : s.Evaluated t c why) :
    s.CircuitHears t c ((s.circuit c).evaluated (s.rankOf c) (s.health (routeOf c .b)).usable why s.tb.elapsed
      s.tb.frame) := by
  cases selector : (s.circuit c).selector with
  | none =>
    have held : ∀ st, (s.circuit c).selector = some st → st.automatic = false := by simp [selector]
    rw [Circuit.evaluated_of_held held]
    exact .inl ⟨(evaluated_iff_of_held held).mp h, rfl⟩
  | some st =>
    cases st with
    | selA =>
      rw [evaluated_iff_of_selA selector] at h
      rw [Circuit.evaluated_of_selA selector]
      split at h
      next switch => rw [if_pos switch]; exact .inr ⟨h, by simp [Circuit.switched, selector]⟩
      next stay => rw [if_neg stay]; exact .inl ⟨h, rfl⟩
    | selB =>
      rw [evaluated_iff_of_selB selector] at h
      rw [Circuit.evaluated_of_selB selector]
      split at h
      next switch => rw [if_pos switch]; exact .inr ⟨h, by simp [Circuit.switched, selector]⟩
      next stay =>
        rw [if_neg stay]
        split at h
        next restore =>
          rw [if_pos restore]
          unfold Restoring at h
          dsimp only at h
          split at h
          next through =>
            obtain ⟨u, first, second⟩ := h
            rw [if_pos (show (s.circuit c).wtrSecs = 0 from through)]
            refine .inr ⟨first.after_stay ?_ second, by simp [Circuit.switched, selector]⟩
            rw [selectedSide_of_selector selector]
            rfl
          next period =>
            rw [if_neg (show ¬(s.circuit c).wtrSecs = 0 from period)]
            exact .inr ⟨h, by simp [Circuit.restoring, selector]⟩
        next stands => rw [if_neg stands]; exact .inl ⟨h, rfl⟩
    | wtr =>
      rw [evaluated_iff_of_wtr selector] at h
      rw [Circuit.evaluated_of_wtr selector]
      split at h
      next switch => rw [if_pos switch]; exact .inr ⟨h, by simp [Circuit.switched, selector]⟩
      next stay =>
        rw [if_neg stay]
        split at h
        next left => rw [if_pos left]; exact .inr ⟨h, by simp [Circuit.fallenBack, selector]⟩
        next stands => rw [if_neg stands]; exact .inl ⟨h, rfl⟩
    | forcedA | forcedB | lockout =>
      have held : ∀ st, (s.circuit c).selector = some st → st.automatic = false := by
        rw [selector]; rintro _ ⟨⟩; rfl
      rw [Circuit.evaluated_of_held held]
      exact .inl ⟨(evaluated_iff_of_held held).mp h, rfl⟩

end

/-- The selected route of circuit `c` is among those whose health changed, and is not usable (R53). -/
def unfitSelected (s : State) (changed : List (Fin 48)) (c : Fin 24) : Bool :=
  match s.selectedRoute c with
  | some r => changed.contains r && !(s.health r).usable
  | none => false

/-- The record of circuit `c` once PSEL has been handed the routes whose health changed. -/
def hearing (s : State) (changed : List (Fin 48)) (c : Fin 24) : Circuit :=
  (s.circuit c).heard (s.rankOf c) (s.health (routeOf c .b)).usable (s.unfitSelected changed c) s.tb.elapsed s.tb.frame

theorem unfitSelected_of_selector {s : State} {c : Fin 24} {st : SelState} (h : (s.circuit c).selector = some st)
    (changed : List (Fin 48)) :
    s.unfitSelected changed c =
      (changed.contains (routeOf c st.side) && !(s.health (routeOf c st.side)).usable) := by
  simp [unfitSelected, selectedRoute, selectedSide_of_selector h]

/-- The force on circuit `c` is dropped, and the circuit is evaluated with that reason (R53). -/
theorem dropForce_hears {s : State} {c : Fin 24} {st auto : SelState} {x : Side}
    (held : (s.circuit c).selector = some st) (forced : st.automatic = false) (on : st.side = x) (free : autoState x = auto) :
    s.CircuitHears
      (((s.stopTimers c).changeSelector c (autoState x) .forceDropped).evaluate c .forceDropped) c
      (((s.circuit c).ordered auto .forceDropped s.tb.frame).evaluated (s.rankOf c)
        (s.health (routeOf c .b)).usable .forceDropped s.tb.elapsed s.tb.frame) := by
  subst on free
  have side := selectedSide_of_selector held
  have dropped := stopped_moved side (autoState st.side) .forceDropped
  generalize (s.stopTimers c).changeSelector c (autoState st.side) .forceDropped = u at dropped
  have same : (autoState st.side).side = st.side := by cases st.side <;> rfl
  have auto : (autoState st.side).automatic = true := by cases st.side <;> rfl
  obtain ⟨tb, rmon, -⟩ := dropped.kept
  have rank : u.rankOf c = s.rankOf c := by
    funext x
    unfold rankOf
    rw [dropped.circuit_same, health_of_rmon rmon]
    rfl
  have evaluated := evaluated_hears (evaluate_evaluated u c .forceDropped)
  rw [dropped.circuit_same, rank, health_of_rmon rmon, tb] at evaluated
  have unforced {a : Option SelState} (h : ∃ x, a = some x ∧ x.automatic = true) : a ≠ (s.circuit c).selector := by
    obtain ⟨x, rfl, ha⟩ := h
    rw [held]
    exact fun e => by simp [Option.some.inj e, forced] at ha
  have now := Circuit.evaluated_automatic (rank := s.rankOf c) (bUsable := (s.health (routeOf c .b)).usable)
    (why := .forceDropped) (now := s.tb.elapsed) (frame := s.tb.frame)
    (k := (s.circuit c).ordered (autoState st.side) .forceDropped s.tb.frame) rfl auto
  rcases evaluated with ⟨stands, record⟩ | ⟨moved, -, -, some_selector⟩
  · rw [stands, record, dropped.circuit_same]
    exact .inr ⟨dropped, unforced ⟨_, rfl, auto⟩, by simp [held], by simp [Circuit.ordered]⟩
  · refine .inr ⟨dropped.after_stay ?_ moved, unforced now, by simp [held], some_selector⟩
    rw [side]
    exact congrArg some same

/-- What PSEL makes of one circuit when it is handed changes of health (R46, R53). -/
theorem pselCircuit_hears (changed : List (Fin 48)) (s : State) (c : Fin 24) :
    s.CircuitHears (pselCircuit changed s c) c (s.hearing changed c) := by
  unfold hearing Circuit.heard pselCircuit
  cases selector : (s.circuit c).selector with
  | none => exact .inl ⟨rfl, rfl⟩
  | some st =>
    cases st with
    | lockout => exact .inl ⟨rfl, rfl⟩
    | selA | selB | wtr => exact evaluated_hears (evaluate_evaluated s c .auto)
    | forcedA =>
      have side : s.selectedSide c = some .a := selectedSide_of_selector selector
      have unfit : s.unfitSelected changed c =
          (changed.contains (routeOf c .a) && !(s.health (routeOf c .a)).usable) :=
        unfitSelected_of_selector selector changed
      rw [side, unfit]
      dsimp only
      by_cases drop : (changed.contains (routeOf c .a) && !(s.health (routeOf c .a)).usable) = true
      · rw [if_pos drop, if_pos drop]
        exact dropForce_hears selector rfl rfl rfl
      · rw [if_neg drop, if_neg drop]
        exact .inl ⟨rfl, rfl⟩
    | forcedB =>
      have side : s.selectedSide c = some .b := selectedSide_of_selector selector
      have unfit : s.unfitSelected changed c =
          (changed.contains (routeOf c .b) && !(s.health (routeOf c .b)).usable) :=
        unfitSelected_of_selector selector changed
      rw [side, unfit]
      dsimp only
      by_cases drop : (changed.contains (routeOf c .b) && !(s.health (routeOf c .b)).usable) = true
      · rw [if_pos drop, if_pos drop]
        exact dropForce_hears selector rfl rfl rfl
      · rw [if_neg drop, if_neg drop]
        exact .inl ⟨rfl, rfl⟩

end State
end Sys2Proof.Machine
end

