-- ==== Sys2Proof/Proofs/SelectionChanges.lean ====
section
/-! PROOFS. Changes of selected routes as XPC and MTR take them (R57, R126, R137, R152): what one change makes of the ports and
the counts, that changes of different circuits add up, and so what PSEL makes of the health that RMON hands it. -/

namespace Sys2Proof.Machine

/-- Two disjoint tests are counted apart. -/
theorem countP_of_disjoint {α : Type} {p q r : α → Bool} (either : ∀ a, r a = (p a || q a))
    (disjoint : ∀ a, p a = true → q a = false) (l : List α) : l.countP r = l.countP p + l.countP q := by
  induction l with
  | nil => rfl
  | cons a l ih =>
    simp only [List.countP_cons, ih, either a]
    cases hp : p a with
    | true => simp [disjoint a hp]; omega
    | false => cases hq : q a <;> simp; omega

namespace State

/-! ### The carrying route and the selected side -/

theorem carrying_eq (s : State) (f : Fin 48) :
    s.carrying f = match s.selectedSide (circuitOf f) with
      | none => some f
      | some side => match sideOf f with
        | .a => some (routeOf (circuitOf f) side)
        | .b => none := by
  unfold carrying selectedSide
  cases (s.circuit (circuitOf f)).selector <;> rfl

theorem carrying_of_selectedSide {s t : State} {f : Fin 48}
    (h : t.selectedSide (circuitOf f) = s.selectedSide (circuitOf f)) : t.carrying f = s.carrying f := by
  rw [carrying_eq, carrying_eq, h]

theorem heldBy_eq_true_iff {s : State} {p : Fin 32} {feed : Fin 48} :
    s.heldBy p feed = true ↔ ∃ ref, (s.xport p).holder = .slot ref ∧ s.slotFeed ref = some feed := by
  unfold heldBy
  cases (s.xport p).holder <;> simp

/-- The circuit's selected side changes between two states. -/
def sideMoved (s t : State) (c : Fin 24) : Prop := s.selectedSide c ≠ t.selectedSide c

/-- A slot's carrying route changes exactly where its feed is the feed of a circuit whose selected side changes. -/
theorem slotRoute_moved_iff {s t : State} (records : s.SameRecords t)
    (mode : ∀ c, (t.selectedSide c).isSome = (s.selectedSide c).isSome) (ref : SlotRef) :
    t.slotRoute ref ≠ s.slotRoute ref ↔ ∃ c, s.sideMoved t c ∧ s.slotFeed ref = some (routeOf c .a) := by
  unfold slotRoute
  rw [slotFeed_of_sameRecords records]
  constructor
  · intro moved
    cases feed : s.slotFeed ref with
    | none => simp [feed] at moved
    | some f =>
      rw [feed, Option.bind_some, Option.bind_some] at moved
      have side : s.sideMoved t (circuitOf f) := fun e => moved (carrying_of_selectedSide e.symm)
      refine ⟨circuitOf f, side, ?_⟩
      rw [carrying_eq, carrying_eq] at moved
      have both := mode (circuitOf f)
      cases hs : s.selectedSide (circuitOf f) with
      | none => simp [hs] at both; simp [hs, both] at moved
      | some x =>
        obtain ⟨y, ht⟩ : ∃ y, t.selectedSide (circuitOf f) = some y := by
          rw [hs] at both
          exact Option.isSome_iff_exists.mp both
        cases hf : sideOf f with
        | a => rw [← hf, routeOf_circuitOf]
        | b => simp [hs, ht, hf] at moved
  · rintro ⟨c, side, feed⟩
    rw [feed, Option.bind_some, Option.bind_some, carrying_eq, carrying_eq, circuitOf_routeOf]
    have both := mode c
    unfold sideMoved at side
    cases hs : s.selectedSide c <;> cases ht : t.selectedSide c <;> simp_all [routeOf_eq_iff, eq_comm]

/-! ### Changes of selected routes, taken -/

/-- XPC and MTR have taken the changes of selected sides from `s` to `t` (R57, R126, R137, R152). -/
structure SelectionsTaken (s t : State) : Prop where
  rmon : t.rmon = s.rmon
  mode : ∀ c, (t.selectedSide c).isSome = (s.selectedSide c).isSome
  flight : s.FlightKept t
  bookings : s.BookingsKept t
  patch : ∀ p, (t.xport p).patch = (s.xport p).patch.bind fun r =>
    if s.selectedRoute (circuitOf r) = some r then t.selectedRoute (circuitOf r) else some r
  entryMade : ∀ p, ((∃ c, s.sideMoved t c ∧ s.claimedBy (s.xport p) (routeOf c .a) = true) ∨
    (t.xport p).patch ≠ (s.xport p).patch) → (t.xport p).entry = some (s.xport p).entryOrNew
  entryKept : ∀ p, ¬((∃ c, s.sideMoved t c ∧ s.claimedBy (s.xport p) (routeOf c .a) = true) ∨
    (t.xport p).patch ≠ (s.xport p).patch) → (t.xport p).entry = (s.xport p).entry
  flagMade : ∀ p, (∃ c, s.sideMoved t c ∧ s.heldBy p (routeOf c .a) = true) →
    (t.xport p).delivered = t.deliveredNow p
  flagKept : ∀ p, ¬(∃ c, s.sideMoved t c ∧ s.heldBy p (routeOf c .a) = true) →
    (t.xport p).delivered = (s.xport p).delivered
  count : ∀ i p q, s.place i = some p → t.place i = some q →
    q.meter.np = if p.meter.phase = .running ∧ s.switchesOf t p.booking ≠ 0 then
        min max16 (p.meter.np + s.switchesOf t p.booking)
      else p.meter.np

theorem selectedRoute_of_selectedSide {s t : State} {c : Fin 24} (h : s.selectedSide c = t.selectedSide c) :
    s.selectedRoute c = t.selectedRoute c := by rw [selectedRoute, selectedRoute, h]

/-- A selected route belongs to its circuit. -/
theorem circuitOf_selectedRoute {s : State} {c : Fin 24} {r : Fin 48} (h : s.selectedRoute c = some r) :
    circuitOf r = c := by
  obtain ⟨side, -, rfl⟩ := Option.map_eq_some_iff.mp h
  exact circuitOf_routeOf c side

theorem switchesOf_eq_countP (s t : State) (b : Booking) :
    s.switchesOf t b =
      (List.finRange 24).countP fun c => s.selectedSide c != t.selectedSide c && b.feeds.contains (routeOf c .a) :=
  List.countP_eq_length_filter.symm

theorem switchesOf_of_unmoved {s t : State} (h : ∀ c, s.selectedSide c = t.selectedSide c) (b : Booking) :
    s.switchesOf t b = 0 := by
  rw [switchesOf_eq_countP, List.countP_eq_zero]
  intro c _
  simp [h c]

/-- One circuit's change counts once for a booking that holds its feed. -/
theorem switchesOf_of_one {s t : State} {c : Fin 24} (moved : s.sideMoved t c)
    (others : ∀ d, d ≠ c → s.selectedSide d = t.selectedSide d) (b : Booking) :
    s.switchesOf t b = if routeOf c .a ∈ b.feeds then 1 else 0 := by
  rw [switchesOf_eq_countP]
  split
  next holds =>
    have test : (fun d => s.selectedSide d != t.selectedSide d && b.feeds.contains (routeOf d .a)) = (· == c) := by
      funext d
      by_cases same : d = c
      · subst same
        unfold sideMoved at moved
        simpa [holds] using moved
      · simp [others d same, same]
    rw [test]
    exact List.count_eq_one_of_mem (List.nodup_finRange 24) (List.mem_finRange c)
  next absent =>
    rw [List.countP_eq_zero]
    intro d _
    by_cases same : d = c
    · subst same
      simp [absent]
    · simp [others d same]

namespace SelectionsTaken

/-- No change at all. -/
theorem of_same {s t : State} (circuits : t.circuits = s.circuits) (rmon : t.rmon = s.rmon) (xpc : t.xpc = s.xpc)
    (bku : t.bku = s.bku) : s.SelectionsTaken t := by
  have side (c : Fin 24) : s.selectedSide c = t.selectedSide c := by
    rw [selectedSide, selectedSide, circuit, circuit, circuits]
  have port (p : Fin 32) : t.xport p = s.xport p := by rw [xport, xport, xpc]
  have none_moved : ¬∃ c, s.sideMoved t c := fun ⟨c, moved⟩ => moved (side c)
  refine ⟨rmon, fun c => by rw [side], ⟨by rw [xpc], fun p => by rw [port]; exact ⟨rfl, rfl⟩⟩, ?_, fun p => ?_,
    fun p made => ?_, fun p _ => by rw [port], fun p ⟨c, moved, _⟩ => absurd (side c) moved, fun p _ => by rw [port], ?_⟩
  · have kept := BookingsKept.refl s
    unfold BookingsKept place at kept ⊢
    rwa [bku]
  · rw [port]
    cases (s.xport p).patch with
    | none => rfl
    | some r =>
      rw [Option.bind_some, ← selectedRoute_of_selectedSide (side (circuitOf r))]
      split
      next selected => exact selected.symm
      next => rfl
  · rcases made with ⟨c, moved, -⟩ | patch
    · exact absurd (side c) moved
    · exact absurd (by rw [port]) patch
  · intro i p q hp hq
    have hq : s.place i = some q := by rwa [place, bku] at hq
    rw [hp] at hq
    cases hq
    rw [if_neg fun h => h.2 (switchesOf_of_unmoved side p.booking)]

/-- One circuit has taken a record (R57). -/
theorem of_moved {s t : State} {c : Fin 24} {k : Circuit} (h : s.SelectorMoved t c k)
    (some_before : (s.circuit c).selector ≠ none) (some_after : k.selector ≠ none) : s.SelectionsTaken t := by
  obtain ⟨stBefore, before⟩ := Option.ne_none_iff_exists'.mp some_before
  obtain ⟨stAfter, after⟩ := Option.ne_none_iff_exists'.mp some_after
  have old : s.selectedSide c = some stBefore.side := selectedSide_of_selector before
  have new : k.selector.map (·.side) = some stAfter.side := by rw [after]; rfl
  have now : t.selectedSide c = some stAfter.side := h.selectedSide.trans new
  have others (d : Fin 24) (ne : d ≠ c) : s.selectedSide d = t.selectedSide d := by
    rw [selectedSide, selectedSide, h.circuit_ne (Ne.symm ne)]
  have mode (d : Fin 24) : (t.selectedSide d).isSome = (s.selectedSide d).isSome := by
    by_cases same : d = c
    · subst same; rw [old, now]; rfl
    · rw [others d same]
  obtain ⟨-, rmon, -⟩ := h.kept
  by_cases stay : stBefore.side = stAfter.side
  · have sides (d : Fin 24) : s.selectedSide d = t.selectedSide d := by
      by_cases same : d = c
      · subst same; rw [old, now, stay]
      · exact others d same
    obtain ⟨xpc, bku⟩ := h.stays (by rw [new, old, stay])
    have whole := of_same (s := s) (t := { t with circuits := s.circuits }) rfl rmon xpc bku
    refine ⟨rmon, mode, h.flight, h.bookings, fun p => ?_, fun p made => ?_, fun p kept => ?_,
      fun p ⟨d, moved, _⟩ => absurd (sides d) moved, fun p _ => by rw [xport, xpc]; rfl, fun i p q hp hq => ?_⟩
    · rw [show t.xport p = s.xport p by rw [xport, xpc]; rfl]
      cases (s.xport p).patch with
      | none => rfl
      | some r =>
        rw [Option.bind_some, ← selectedRoute_of_selectedSide (sides (circuitOf r))]
        split
        next selected => exact selected.symm
        next => rfl
    · rcases made with ⟨d, moved, -⟩ | patch
      · exact absurd (sides d) moved
      · exact absurd (by rw [xport, xpc]; rfl) patch
    · rw [xport, xpc]; rfl
    · have hq : s.place i = some q := by rwa [place, bku] at hq
      rw [hp] at hq
      cases hq
      rw [if_neg fun h => h.2 (switchesOf_of_unmoved sides p.booking)]
  · have moved : s.sideMoved t c := by
      unfold sideMoved
      rw [old, now]
      exact fun e => stay (Option.some.inj e)
    have moved_iff (d : Fin 24) : s.sideMoved t d ↔ d = c :=
      ⟨fun m => by by_contra ne; exact m (others d ne), fun e => e ▸ moved⟩
    have patch (p : Fin 32) := h.patch _ _ p old new stay
    have patch_moved (p : Fin 32) :
        (t.xport p).patch ≠ (s.xport p).patch ↔ (s.xport p).patch = some (routeOf c stBefore.side) := by
      rw [patch p]
      split
      next on =>
        rw [on]
        simp [routeOf_eq_iff, Ne.symm stay]
      next off => simp [off]
    refine ⟨rmon, mode, h.flight, h.bookings, fun p => ?_, fun p made => ?_, fun p kept => ?_, fun p ⟨d, m, held⟩ => ?_,
      fun p unheld => ?_, fun i p q hp hq => ?_⟩
    · rw [patch p]
      cases on : (s.xport p).patch with
      | none => rfl
      | some r =>
        rw [Option.bind_some]
        by_cases same : r = routeOf c stBefore.side
        · subst same
          rw [if_pos rfl, circuitOf_routeOf, selectedRoute, selectedRoute, old, now]
          simp
        · rw [if_neg fun e => same (Option.some.inj e)]
          split
          next selected =>
            have ne : circuitOf r ≠ c := by
              intro e
              rw [e, selectedRoute, old] at selected
              exact same (Option.some.inj selected).symm
            rw [← selectedRoute_of_selectedSide (others _ ne), selected]
          next => rfl
    · rw [h.entry _ _ p old new stay, if_pos]
      rcases made with ⟨d, m, claimed⟩ | m
      · obtain rfl := (moved_iff d).mp m
        exact .inl claimed
      · exact .inr ((patch_moved p).mp m)
    · rw [h.entry _ _ p old new stay, if_neg]
      rintro (claimed | on)
      · exact kept (.inl ⟨c, moved, claimed⟩)
      · exact kept (.inr ((patch_moved p).mpr on))
    · obtain rfl := (moved_iff d).mp m
      rw [h.delivered _ _ p old new stay, if_pos held]
    · rw [h.delivered _ _ p old new stay, if_neg fun held => unheld ⟨c, moved, held⟩]
    · rw [h.count _ _ i p q old new stay hp hq, switchesOf_of_one moved others]
      by_cases holds : routeOf c .a ∈ p.booking.feeds <;> simp [holds]

section
variable {s t u : State} (h : s.SelectionsTaken t) (k : t.SelectionsTaken u)
include h

theorem entryOrNew (p : Fin 32) : (t.xport p).entryOrNew = (s.xport p).entryOrNew := by
  have holder := (h.flight.2 p).2
  by_cases made : (∃ c, s.sideMoved t c ∧ s.claimedBy (s.xport p) (routeOf c .a) = true) ∨
      (t.xport p).patch ≠ (s.xport p).patch
  · rw [XPort.entryOrNew, h.entryMade p made]
    rfl
  · rw [XPort.entryOrNew, h.entryKept p made, holder]
    rfl

theorem claimedBy (p : Fin 32) (feed : Fin 48) :
    t.claimedBy (t.xport p) feed = s.claimedBy (s.xport p) feed := by
  have claim : (t.xport p).claim = (s.xport p).claim := claim_of_entryOrNew (h.entryOrNew p)
  unfold State.claimedBy
  rw [claim]
  cases (s.xport p).claim with
  | slot ref => simp only [slotFeed_of_sameRecords h.bookings.sameRecords]
  | patch | nobody => rfl

theorem heldBy (p : Fin 32) (feed : Fin 48) : t.heldBy p feed = s.heldBy p feed :=
  heldBy_of_same h.bookings.sameRecords (h.flight.2 p).2 feed

end

/-- Changes of different circuits are counted apart. -/
theorem switchesOf_add {s t u : State}
    (disjoint : ∀ c, s.selectedSide c = t.selectedSide c ∨ t.selectedSide c = u.selectedSide c) (b : Booking) :
    s.switchesOf u b = s.switchesOf t b + t.switchesOf u b := by
  rw [switchesOf_eq_countP, switchesOf_eq_countP, switchesOf_eq_countP]
  refine countP_of_disjoint (fun c => ?_) (fun c => ?_) _
  · rcases disjoint c with e | e <;> simp [e]
  · rcases disjoint c with e | e <;> simp [e]

section
variable {s t u : State} (h : s.SelectionsTaken t) (k : t.SelectionsTaken u)
  (disjoint : ∀ c, s.selectedSide c = t.selectedSide c ∨ t.selectedSide c = u.selectedSide c)
include h k disjoint

/-- A patch that the earlier changes moved is not moved by the later ones. -/
theorem patch_once {p : Fin 32} (first : (t.xport p).patch ≠ (s.xport p).patch) :
    (u.xport p).patch = (t.xport p).patch := by
  have before := h.patch p
  have after := k.patch p
  cases on : (s.xport p).patch with
  | none => rw [on] at before first; exact absurd before first
  | some r =>
    rw [on, Option.bind_some] at before
    split at before
    next selected =>
      have moves : s.selectedSide (circuitOf r) ≠ t.selectedSide (circuitOf r) := by
        intro e
        rw [selectedRoute_of_selectedSide e] at selected
        exact first (by rw [before, selected, on])
      have stays := (disjoint (circuitOf r)).resolve_left moves
      rw [after, before]
      cases there : t.selectedRoute (circuitOf r) with
      | none => rfl
      | some r' =>
        rw [Option.bind_some, circuitOf_selectedRoute there, if_pos there, ← selectedRoute_of_selectedSide stays, there]
    next => rw [on] at first; exact absurd before first

theorem patch_trans (p : Fin 32) : (u.xport p).patch = (s.xport p).patch.bind fun r =>
    if s.selectedRoute (circuitOf r) = some r then u.selectedRoute (circuitOf r) else some r := by
  rw [k.patch, h.patch]
  cases (s.xport p).patch with
  | none => rfl
  | some r =>
    rw [Option.bind_some, Option.bind_some]
    split
    next selected =>
      cases there : t.selectedRoute (circuitOf r) with
      | none =>
        have none_side : t.selectedSide (circuitOf r) = none := Option.map_eq_none_iff.mp there
        have still := k.mode (circuitOf r)
        rw [none_side, Option.isSome_none, Option.isSome_eq_false_iff, Option.isNone_iff_eq_none] at still
        rw [selectedRoute, still]
        rfl
      | some r' => rw [Option.bind_some, circuitOf_selectedRoute there, if_pos there]
    next unselected =>
      rw [Option.bind_some]
      split
      next selected =>
        have moves : s.selectedSide (circuitOf r) ≠ t.selectedSide (circuitOf r) := fun e =>
          unselected ((selectedRoute_of_selectedSide e).trans selected)
        rw [← selectedRoute_of_selectedSide ((disjoint (circuitOf r)).resolve_left moves), selected]
      next => rfl

/-- A flag that the earlier changes worked out anew stands as it would be worked out after the later ones. -/
theorem deliveredNow_of_moved {p : Fin 32} {c : Fin 24} (moved : s.sideMoved t c)
    (held : s.heldBy p (routeOf c .a) = true) : u.deliveredNow p = t.deliveredNow p := by
  obtain ⟨ref, holder, feed⟩ := heldBy_eq_true_iff.mp held
  have stays := (disjoint c).resolve_left moved
  have holder_t : (t.xport p).holder = .slot ref := (h.flight.2 p).2.trans holder
  have holder_u : (u.xport p).holder = .slot ref := (k.flight.2 p).2.trans holder_t
  have feed_t : t.slotFeed ref = some (routeOf c .a) := (slotFeed_of_sameRecords h.bookings.sameRecords ref).trans feed
  have feed_u : u.slotFeed ref = some (routeOf c .a) := (slotFeed_of_sameRecords k.bookings.sameRecords ref).trans feed_t
  have carrying : u.carrying (routeOf c .a) = t.carrying (routeOf c .a) :=
    carrying_of_selectedSide (by rw [circuitOf_routeOf, stays])
  simp only [deliveredNow, slotRoute, holder_t, holder_u, feed_t, feed_u, (k.flight.2 p).1, Option.bind_some, carrying,
    health_of_rmon k.rmon]

/-- Changes of different circuits add up. -/
theorem trans : s.SelectionsTaken u := by
  have moved_iff (c : Fin 24) : s.sideMoved u c ↔ s.sideMoved t c ∨ t.sideMoved u c := by
    unfold sideMoved
    rcases disjoint c with e | e <;> simp [e]
  have patch_moved (p : Fin 32) : (u.xport p).patch ≠ (s.xport p).patch ↔
      (t.xport p).patch ≠ (s.xport p).patch ∨ (u.xport p).patch ≠ (t.xport p).patch := by
    by_cases first : (t.xport p).patch = (s.xport p).patch
    · simp [first]
    · rw [patch_once h k disjoint first]
      simp [first]
  have claimed_moved (p : Fin 32) : ((∃ c, s.sideMoved u c ∧ s.claimedBy (s.xport p) (routeOf c .a) = true) ∨
      (u.xport p).patch ≠ (s.xport p).patch) ↔
      ((∃ c, s.sideMoved t c ∧ s.claimedBy (s.xport p) (routeOf c .a) = true) ∨
        (t.xport p).patch ≠ (s.xport p).patch) ∨
      ((∃ c, t.sideMoved u c ∧ t.claimedBy (t.xport p) (routeOf c .a) = true) ∨
        (u.xport p).patch ≠ (t.xport p).patch) := by
    simp only [moved_iff, patch_moved, h.claimedBy, or_and_right, exists_or]
    exact or_or_or_comm ..
  refine ⟨k.rmon.trans h.rmon, fun c => (k.mode c).trans (h.mode c), h.flight.trans k.flight,
    h.bookings.trans k.bookings, patch_trans h k disjoint, fun p made => ?_, fun p kept => ?_,
    fun p ⟨c, moved, held⟩ => ?_, fun p unheld => ?_, fun i p q hp hq => ?_⟩
  · rw [claimed_moved] at made
    by_cases later : (∃ c, t.sideMoved u c ∧ t.claimedBy (t.xport p) (routeOf c .a) = true) ∨
        (u.xport p).patch ≠ (t.xport p).patch
    · rw [k.entryMade p later, h.entryOrNew]
    · rw [k.entryKept p later, h.entryMade p (made.resolve_right later)]
  · rw [claimed_moved, not_or] at kept
    rw [k.entryKept p kept.2, h.entryKept p kept.1]
  · rcases (moved_iff c).mp moved with first | second
    · rw [deliveredNow_of_moved h k disjoint first held, ← h.flagMade p ⟨c, first, held⟩]
      by_cases later : ∃ d, t.sideMoved u d ∧ t.heldBy p (routeOf d .a) = true
      · rw [k.flagMade p later, deliveredNow_of_moved h k disjoint first held, h.flagMade p ⟨c, first, held⟩]
      · exact k.flagKept p later
    · exact k.flagMade p ⟨c, second, by rwa [h.heldBy]⟩
  · rw [k.flagKept p fun ⟨c, moved, held⟩ => unheld ⟨c, (moved_iff c).mpr (.inr moved), by rwa [h.heldBy] at held⟩,
      h.flagKept p fun ⟨c, moved, held⟩ => unheld ⟨c, (moved_iff c).mpr (.inl moved), held⟩]
  · obtain ⟨m, hm, booking, -, phase, -⟩ := h.bookings.some_of_some hp
    rw [k.count i m q hm hq, h.count i p m hp hm, booking, phase, switchesOf_add disjoint]
    by_cases running : p.meter.phase = .running
    · simp only [running, true_and]
      split_ifs <;> omega
    · simp only [running, false_and, if_false]

end
end SelectionsTaken
end State
end Sys2Proof.Machine
end

