-- ==== Sys2Proof/Proofs/HealthEvent.lean ====
section
/-! PROOFS. The RMON event (O25): the drills that partners abort (R32), effective health with its frames, flaps and objects
(R34, R35), and what PSEL, XPC and MTR make of the changes that RMON hands on together, in either order (R46, R57, R137). -/

namespace Sys2Proof.Machine
namespace State

/-! ### Several circuits take a change of health -/

theorem hearing_congr {s t : State} {c : Fin 24} (changed : List (Fin 48)) (circuit : t.circuit c = s.circuit c)
    (rmon : t.rmon = s.rmon) (tb : t.tb = s.tb) : t.hearing changed c = s.hearing changed c := by
  have rank : t.rankOf c = s.rankOf c := by
    funext side
    rw [rankOf, rankOf, circuit, health_of_rmon rmon]
  have route : t.selectedRoute c = s.selectedRoute c := by rw [selectedRoute, selectedRoute, selectedSide, selectedSide, circuit]
  have unfit : t.unfitSelected changed c = s.unfitSelected changed c := by
    unfold unfitSelected
    rw [route]
    cases s.selectedRoute c with
    | none => rfl
    | some r => simp only [health_of_rmon rmon]
  rw [hearing, hearing, circuit, rank, unfit, health_of_rmon rmon, tb]

/-- The circuits of `l` have taken the changes of health (R46, R53, R57, R58). -/
structure PselTaken (s t : State) (changed : List (Fin 48)) (l : List (Fin 24)) : Prop where
  selections : s.SelectionsTaken t
  heard : ∀ c ∈ l, t.circuit c = s.hearing changed c
  stood : ∀ c, c ∉ l → t.circuit c = s.circuit c
  object : ∀ c, t.ntc.pending (circuitObject c) =
    (s.ntc.pending (circuitObject c) || decide (t.circuit c ≠ s.circuit c))
  objects : ∀ o, (∀ c, o ≠ circuitObject c) → t.ntc.pending o = s.ntc.pending o
  mask : t.ntc.mask = s.ntc.mask
  kept : t.tb = s.tb ∧ t.dir = s.dir ∧ t.stl = s.stl ∧ t.tcu = s.tcu ∧ t.lnk = s.lnk ∧ t.pending = s.pending

theorem PselTaken.refl (s : State) (changed : List (Fin 48)) : s.PselTaken s changed [] where
  selections := .of_same rfl rfl rfl rfl
  heard _ h := absurd h List.not_mem_nil
  stood _ _ := rfl
  object _ := by simp
  objects _ _ := rfl
  mask := rfl
  kept := ⟨rfl, rfl, rfl, rfl, rfl, rfl⟩

/-- One circuit hears the changes, and then the rest of them. -/
theorem PselTaken.cons {s u t : State} {changed : List (Fin 48)} {c : Fin 24} {l : List (Fin 24)} (new : c ∉ l)
    (h : s.CircuitHears u c (s.hearing changed c)) (k : u.PselTaken t changed l) : s.PselTaken t changed (c :: l) := by
  have ne {d : Fin 24} (hd : d ∈ l) : c ≠ d := fun e => new (e ▸ hd)
  rcases h with ⟨rfl, record⟩ | ⟨moved, changes, some_before, some_after⟩
  · refine ⟨k.selections, fun d hd => ?_, fun d hd => k.stood d fun m => hd (.tail _ m), k.object, k.objects, k.mask,
      k.kept⟩
    rcases List.mem_cons.mp hd with rfl | hd
    · rw [k.stood d new, record]
    · exact k.heard d hd
  · obtain ⟨tb, rmon, dir, stl, tcu, lnk, -, pending⟩ := moved.kept
    obtain ⟨tb', dir', stl', tcu', lnk', pending'⟩ := k.kept
    have now : t.circuit c = s.hearing changed c := (k.stood c new).trans moved.circuit_same
    refine ⟨(SelectionsTaken.of_moved moved some_before some_after).trans k.selections fun d => ?_, fun d hd => ?_,
      fun d hd => ?_, fun d => ?_, fun o ho => ?_, ?_, ?_⟩
    · by_cases same : d = c
      · subst same
        exact .inr (by rw [selectedSide, selectedSide, k.stood d new])
      · exact .inl (by rw [selectedSide, selectedSide, moved.circuit_ne (Ne.symm same)])
    · rcases List.mem_cons.mp hd with rfl | hd
      · exact now
      · rw [k.heard d hd, hearing_congr changed (moved.circuit_ne (ne hd)) rmon tb]
    · rw [k.stood d fun m => hd (.tail _ m), moved.circuit_ne fun e => hd (e ▸ .head _)]
    · rw [k.object, moved.object, NTC.raise_pending]
      by_cases same : d = c
      · subst same
        have differs : s.hearing changed d ≠ s.circuit d := fun e => changes (congrArg Circuit.selector e)
        simp [now, differs]
      · have apart : circuitObject d ≠ circuitObject c := fun e => same (circuitObject_injective e)
        simp [apart, moved.circuit_ne (Ne.symm same)]
    · rw [k.objects o ho, moved.object, NTC.raise_pending]
      simp [ho c]
    · rw [k.mask, moved.object, NTC.raise_mask]
    · exact ⟨tb'.trans tb, dir'.trans dir, stl'.trans stl, tcu'.trans tcu, lnk'.trans lnk, pending'.trans pending⟩

theorem foldl_pselCircuit_taken (changed : List (Fin 48)) {l : List (Fin 24)} (nodup : l.Nodup) (s : State) :
    s.PselTaken (l.foldl (pselCircuit changed) s) changed l := by
  induction l generalizing s with
  | nil => exact .refl s changed
  | cons c l ih =>
    obtain ⟨new, nodup⟩ := List.nodup_cons.mp nodup
    exact .cons new (pselCircuit_hears changed s c) (ih nodup _)

/-- The circuits of the routes that changed. -/
def changedCircuits (changed : List (Fin 48)) : List (Fin 24) :=
  (List.finRange 24).filter fun c => changed.any fun r => circuitOf r == c

theorem mem_changedCircuits {changed : List (Fin 48)} {c : Fin 24} :
    c ∈ changedCircuits changed ↔ ∃ r ∈ changed, circuitOf r = c := by
  simp [changedCircuits]

theorem pselHealth_taken (s : State) (changed : List (Fin 48)) :
    s.PselTaken (s.pselHealth changed) changed (changedCircuits changed) :=
  foldl_pselCircuit_taken changed ((List.nodup_finRange 24).filter _) s

/-! ### Health handed to PSEL and XPC, in either order -/

/-- PSEL, XPC and MTR have taken the changes of health of the routes `changed`. -/
structure HealthHanded (s t : State) (changed : List (Fin 48)) : Prop where
  rmon : t.rmon = s.rmon
  heard : ∀ c ∈ changedCircuits changed, t.circuit c = s.hearing changed c
  stood : ∀ c, c ∉ changedCircuits changed → t.circuit c = s.circuit c
  object : ∀ c, t.ntc.pending (circuitObject c) =
    (s.ntc.pending (circuitObject c) || decide (t.circuit c ≠ s.circuit c))
  objects : ∀ o, (∀ c, o ≠ circuitObject c) → t.ntc.pending o = s.ntc.pending o
  mask : t.ntc.mask = s.ntc.mask
  patch : ∀ p, (t.xport p).patch = (s.xport p).patch.bind fun r =>
    if s.selectedRoute (circuitOf r) = some r then t.selectedRoute (circuitOf r) else some r
  entryMade : ∀ p, ((∃ c, s.sideMoved t c ∧ s.claimedBy (s.xport p) (routeOf c .a) = true) ∨
    (t.xport p).patch ≠ (s.xport p).patch) → (t.xport p).entry = some (s.xport p).entryOrNew
  entryKept : ∀ p, ¬((∃ c, s.sideMoved t c ∧ s.claimedBy (s.xport p) (routeOf c .a) = true) ∨
    (t.xport p).patch ≠ (s.xport p).patch) → (t.xport p).entry = (s.xport p).entry
  flagMade : ∀ p ref, (s.xport p).holder = .slot ref →
    (t.slotRoute ref ≠ s.slotRoute ref ∨ ∃ r ∈ changed, t.slotRoute ref = some r) →
    (t.xport p).delivered = t.deliveredNow p
  flagKept : ∀ p, (∀ ref, (s.xport p).holder = .slot ref →
      ¬(t.slotRoute ref ≠ s.slotRoute ref ∨ ∃ r ∈ changed, t.slotRoute ref = some r)) →
    (t.xport p).delivered = (s.xport p).delivered
  count : ∀ i p q, s.place i = some p → t.place i = some q →
    q.meter.np = if p.meter.phase = .running ∧ s.switchesOf t p.booking ≠ 0 then
        min max16 (p.meter.np + s.switchesOf t p.booking)
      else p.meter.np
  outside : s.OutsideHealth t

theorem recomputeFlags_bookingsKept (s : State) (ports : List (Fin 32)) : s.BookingsKept (s.recomputeFlags ports) := by
  have only := recomputeFlags_only s ports
  unfold OnlyPlacesAndPorts at only
  refine ⟨by rw [only], by rw [only], fun i => ?_⟩
  rcases recomputeFlags_place_kept s ports i with free | ⟨p, q, hs, ht, same, -⟩
  · exact .inl free
  · exact .inr ⟨p, q, hs, ht, same⟩

theorem recomputeFlags_np {s : State} {ports : List (Fin 32)} {i : Fin 192} {p q : Place} (hs : s.place i = some p)
    (ht : (s.recomputeFlags ports).place i = some q) : p.SameBooking q ∧ q.meter.np = p.meter.np := by
  rcases recomputeFlags_place_kept s ports i with ⟨free, -⟩ | ⟨p', q', hs', ht', same⟩
  · cases free.symm.trans hs
  · cases hs'.symm.trans hs
    cases ht'.symm.trans ht
    exact same

/-- The ports whose slot is carried on one of the routes `changed` (R137). -/
def portsOn (s : State) (changed : List (Fin 48)) : List (Fin 32) :=
  (List.finRange 32).filter fun p =>
    match (s.xport p).holder with
    | .slot ref => (s.slotRoute ref).any (changed.contains ·)
    | .patch | .nobody => false

theorem mem_portsOn {s : State} {changed : List (Fin 48)} {p : Fin 32} :
    p ∈ s.portsOn changed ↔ ∃ ref r, (s.xport p).holder = .slot ref ∧ s.slotRoute ref = some r ∧ r ∈ changed := by
  rw [portsOn, List.mem_filter]
  cases holder : (s.xport p).holder with
  | slot ref => cases route : s.slotRoute ref <;> simp [route]
  | patch | nobody => simp

theorem xpcHealth_eq (s : State) (changed : List (Fin 48)) :
    s.xpcHealth changed = s.recomputeFlags (s.portsOn changed) := rfl

theorem flight_bookings_of_flags (s : State) (ports : List (Fin 32)) :
    s.FlightKept (s.recomputeFlags ports) ∧ s.BookingsKept (s.recomputeFlags ports) :=
  ⟨(recomputeFlags_only s ports).flightKept (recomputeFlags_sameCarriage s ports), recomputeFlags_bookingsKept s ports⟩

/-- A port's flag under a change of selections comes from the slot that holds it. -/
theorem PselTaken.flag_moved_iff {s t : State} {changed : List (Fin 48)} {l : List (Fin 24)} (h : s.PselTaken t changed l)
    {p : Fin 32} {ref : SlotRef} (holder : (s.xport p).holder = .slot ref) :
    (∃ c, s.sideMoved t c ∧ s.heldBy p (routeOf c .a) = true) ↔ t.slotRoute ref ≠ s.slotRoute ref := by
  rw [slotRoute_moved_iff h.selections.bookings.sameRecords h.selections.mode]
  simp only [heldBy, holder, decide_eq_true_eq]

/-- Where the slot's carrying route stands, so does what the delivered test gives (R137). -/
theorem deliveredNow_of_slotRoute {s t : State} {p : Fin 32} {ref : SlotRef} (holder : (s.xport p).holder = .slot ref)
    (flight : s.FlightKept t) (rmon : t.rmon = s.rmon) (route : t.slotRoute ref = s.slotRoute ref) :
    t.deliveredNow p = s.deliveredNow p := by
  have holder_t : (t.xport p).holder = .slot ref := (flight.2 p).2.trans holder
  simp only [deliveredNow, holder, holder_t, route, (flight.2 p).1, health_of_rmon rmon]

section
variable {s t : State} {changed : List (Fin 48)}

/-- XPC takes the health first, and then PSEL. -/
theorem HealthHanded.of_flags_first (h : (s.xpcHealth changed).PselTaken t changed (changedCircuits changed)) :
    s.HealthHanded t changed := by
  rw [xpcHealth_eq] at h
  set u := s.recomputeFlags (s.portsOn changed) with hu
  have carriage : s.SameCarriage u := recomputeFlags_sameCarriage s _
  have only : s.OnlyPlacesAndPorts u := recomputeFlags_only s _
  obtain ⟨flight, bookings⟩ := flight_bookings_of_flags s (s.portsOn changed)
  have port (p : Fin 32) := recomputeFlags_xport s (s.portsOn changed) p
  rw [← hu] at flight bookings port
  have parts : u.tb = s.tb ∧ u.dir = s.dir ∧ u.stl = s.stl ∧ u.tcu = s.tcu ∧ u.lnk = s.lnk ∧ u.pending = s.pending ∧
      u.ntc = s.ntc := by
    unfold OnlyPlacesAndPorts at only
    rw [only]
    exact ⟨rfl, rfl, rfl, rfl, rfl, rfl, rfl⟩
  obtain ⟨tb, dir, stl, tcu, lnk, pending, ntc⟩ := parts
  obtain ⟨tb', dir', stl', tcu', lnk', pending'⟩ := h.kept
  have side (c : Fin 24) : u.selectedSide c = s.selectedSide c := by
    rw [selectedSide, selectedSide, circuit, circuit, carriage.circuits]
  have moved_iff (c : Fin 24) : s.sideMoved t c ↔ u.sideMoved t c := by rw [sideMoved, sideMoved, side]
  have route (c : Fin 24) : u.selectedRoute c = s.selectedRoute c := selectedRoute_of_selectedSide (side c)
  have patch (p : Fin 32) : (u.xport p).patch = (s.xport p).patch := by rw [port]
  have claimed (p : Fin 32) (f : Fin 48) : u.claimedBy (u.xport p) f = s.claimedBy (s.xport p) f := by
    rw [port]
    exact claimedBy_of_sameRecords carriage.records _ f
  have switches (b : Booking) : u.switchesOf t b = s.switchesOf t b := by simp only [switchesOf, side]
  have kept := h.selections
  have flight_all : s.FlightKept t := flight.trans kept.flight
  have flag (p : Fin 32) : (u.xport p).delivered =
      if p ∈ s.portsOn changed then s.deliveredNow p else (s.xport p).delivered := by rw [port]
  refine ⟨kept.rmon.trans carriage.rmon, fun c hc => ?_, fun c hc => ?_, fun c => ?_, fun o ho => ?_, ?_, fun p => ?_,
    fun p made => ?_, fun p unmade => ?_, fun p ref holder made => ?_, fun p unmade => ?_, fun i p q hp hq => ?_, ?_⟩
  · rw [h.heard c hc]
    exact hearing_congr changed (by rw [circuit, circuit, carriage.circuits]) carriage.rmon tb
  · rw [h.stood c hc, circuit, circuit, carriage.circuits]
  · rw [h.object, ntc, circuit, circuit, circuit, carriage.circuits]
  · rw [h.objects o ho, ntc]
  · rw [h.mask, ntc]
  · rw [kept.patch, patch]
    simp only [route]
  · rw [kept.entryMade p (by simpa only [← moved_iff, claimed, patch] using made), port]
    rfl
  · rw [kept.entryKept p (by simpa only [← moved_iff, claimed, patch] using unmade), port]
  · have holder_u : (u.xport p).holder = .slot ref := (flight.2 p).2.trans holder
    by_cases moved : t.slotRoute ref = u.slotRoute ref
    · rw [kept.flagKept p (fun m => (h.flag_moved_iff holder_u).mp m moved), flag]
      rw [carriage.slotRoute] at moved
      obtain ⟨r, hr, on⟩ := made.resolve_left fun ne => ne moved
      rw [if_pos (mem_portsOn.mpr ⟨ref, r, holder, by rw [← moved, on], hr⟩)]
      exact (deliveredNow_of_slotRoute holder flight_all (kept.rmon.trans carriage.rmon) moved).symm
    · exact kept.flagMade p ((h.flag_moved_iff holder_u).mpr moved)
  · rw [kept.flagKept p, flag, if_neg]
    · intro on
      obtain ⟨ref, r, holder, route, hr⟩ := mem_portsOn.mp on
      have none := unmade ref holder
      rw [not_or, not_not] at none
      exact none.2 ⟨r, hr, none.1.trans route⟩
    · rintro ⟨c, moved, held⟩
      obtain ⟨ref, holder_u, -⟩ := heldBy_eq_true_iff.mp held
      have holder : (s.xport p).holder = .slot ref := by rw [← (flight.2 p).2, holder_u]
      have differs := (h.flag_moved_iff holder_u).mp ⟨c, moved, held⟩
      rw [carriage.slotRoute] at differs
      exact unmade ref holder (.inl differs)
  · obtain ⟨m, hm, -⟩ := bookings.some_of_some hp
    obtain ⟨same, np⟩ := recomputeFlags_np hp hm
    obtain ⟨booking, -, phase, -⟩ := same
    rw [kept.count i m q hm hq, booking, phase, switches, np]
  · exact ⟨tb'.trans tb, dir'.trans dir, stl'.trans stl, tcu'.trans tcu, lnk'.trans lnk, pending'.trans pending,
      flight_all, bookings.trans kept.bookings⟩

/-- PSEL takes the health first, and then XPC. -/
theorem HealthHanded.of_psel_first {v : State} (h : s.PselTaken v changed (changedCircuits changed)) :
    s.HealthHanded (v.xpcHealth changed) changed := by
  rw [xpcHealth_eq]
  set t := v.recomputeFlags (v.portsOn changed) with ht
  have carriage : v.SameCarriage t := recomputeFlags_sameCarriage v _
  have only : v.OnlyPlacesAndPorts t := recomputeFlags_only v _
  obtain ⟨flight, bookings⟩ := flight_bookings_of_flags v (v.portsOn changed)
  have port (p : Fin 32) := recomputeFlags_xport v (v.portsOn changed) p
  rw [← ht] at flight bookings port
  have parts : t.tb = v.tb ∧ t.dir = v.dir ∧ t.stl = v.stl ∧ t.tcu = v.tcu ∧ t.lnk = v.lnk ∧ t.pending = v.pending ∧
      t.ntc = v.ntc := by
    unfold OnlyPlacesAndPorts at only
    rw [only]
    exact ⟨rfl, rfl, rfl, rfl, rfl, rfl, rfl⟩
  obtain ⟨tb', dir', stl', tcu', lnk', pending', ntc⟩ := parts
  obtain ⟨tb, dir, stl, tcu, lnk, pending⟩ := h.kept
  have circuit_t (c : Fin 24) : t.circuit c = v.circuit c := by rw [circuit, circuit, carriage.circuits]
  have side (c : Fin 24) : t.selectedSide c = v.selectedSide c := by rw [selectedSide, selectedSide, circuit_t]
  have moved_iff (c : Fin 24) : s.sideMoved t c ↔ s.sideMoved v c := by rw [sideMoved, sideMoved, side]
  have route (c : Fin 24) : t.selectedRoute c = v.selectedRoute c := selectedRoute_of_selectedSide (side c)
  have patch (p : Fin 32) : (t.xport p).patch = (v.xport p).patch := by rw [port]
  have entry (p : Fin 32) : (t.xport p).entry = (v.xport p).entry := by rw [port]
  have switches (b : Booking) : s.switchesOf t b = s.switchesOf v b := by simp only [switchesOf, side]
  have kept := h.selections
  have flag (p : Fin 32) : (t.xport p).delivered =
      if p ∈ v.portsOn changed then v.deliveredNow p else (v.xport p).delivered := by rw [port]
  refine ⟨carriage.rmon.trans kept.rmon, fun c hc => ?_, fun c hc => ?_, fun c => ?_, fun o ho => ?_, ?_, fun p => ?_,
    fun p made => ?_, fun p unmade => ?_, fun p ref holder made => ?_, fun p unmade => ?_, fun i p q hp hq => ?_, ?_⟩
  · rw [circuit_t, h.heard c hc]
  · rw [circuit_t, h.stood c hc]
  · rw [ntc, h.object, circuit_t]
  · rw [ntc, h.objects o ho]
  · rw [ntc, h.mask]
  · rw [patch, kept.patch]
    simp only [route]
  · rw [entry, kept.entryMade p (by simpa only [moved_iff, patch] using made)]
  · rw [entry, kept.entryKept p (by simpa only [moved_iff, patch] using unmade)]
  · have holder_v : (v.xport p).holder = .slot ref := (kept.flight.2 p).2.trans holder
    rw [flag, carriage.deliveredNow]
    rw [carriage.slotRoute] at made
    split
    next => rfl
    next off =>
      refine kept.flagMade p ((h.flag_moved_iff holder).mpr (made.resolve_right fun ⟨r, hr, on⟩ => ?_))
      exact off (mem_portsOn.mpr ⟨ref, r, holder_v, on, hr⟩)
  · rw [flag, if_neg, kept.flagKept p]
    · rintro ⟨c, moved, held⟩
      obtain ⟨ref, holder, -⟩ := heldBy_eq_true_iff.mp held
      refine unmade ref holder (.inl ?_)
      rw [carriage.slotRoute]
      exact (h.flag_moved_iff holder).mp ⟨c, moved, held⟩
    · intro on
      obtain ⟨ref, r, holder_v, route, hr⟩ := mem_portsOn.mp on
      have holder : (s.xport p).holder = .slot ref := by rw [← (kept.flight.2 p).2, holder_v]
      exact unmade ref holder (.inr ⟨r, hr, by rw [carriage.slotRoute, route]⟩)
  · obtain ⟨m, hm, -⟩ := kept.bookings.some_of_some hp
    rw [(recomputeFlags_np hm hq).2, kept.count i p m hp hm, switches]
  · exact ⟨tb'.trans tb, dir'.trans dir, stl'.trans stl, tcu'.trans tcu, lnk'.trans lnk, pending'.trans pending,
      kept.flight.trans flight, kept.bookings.trans bookings⟩

end

theorem handHealth_handed (s : State) (changed : List (Fin 48)) : s.raced.HealthHanded (s.handHealth changed) changed := by
  unfold handHealth
  split
  · exact .of_flags_first (pselHealth_taken _ changed)
  · exact .of_psel_first (pselHealth_taken _ changed)

/-! ### Effective health worked out (R34, R35) -/

theorem healthNow_congr {s t : State} {r : Fin 48} (drill : t.drill (circuitOf r) = s.drill (circuitOf r))
    (works : (t.route r).worksActive = (s.route r).worksActive) (measured : (t.route r).measured = (s.route r).measured) :
    t.healthNow r = s.healthNow r := by
  unfold healthNow drilled
  rw [drill, works, measured]

/-- The record of a route whose effective health has changed (R34, R35). -/
def settled (s : State) (r : Fin 48) : Route :=
  { s.route r with
    effective := s.healthNow r
    changeFrame := s.tb.frame
    flaps := if s.healthNow r = (s.route r).reported then min max16 ((s.route r).flaps + 1) else (s.route r).flaps }

theorem applyHealth_eq (s : State) (r : Fin 48) : s.applyHealth r =
    { s.setRoute r (s.settled r) with
      ntc := if s.healthNow r = (s.route r).reported then s.ntc.withdraw (healthObject r)
        else s.ntc.raise (healthObject r) } := by
  unfold applyHealth settled
  dsimp only
  by_cases returned : s.healthNow r = (s.route r).reported
  · rw [if_pos returned, if_pos returned, if_pos returned]
    simp only [setRoute, upd_upd, withdraw]
    rfl
  · rw [if_neg returned, if_neg returned, if_neg returned]
    rfl

/-- The routes of `l` have taken the effective health that their inputs give. -/
structure HealthApplied (s t : State) (l : List (Fin 48)) : Prop where
  route : ∀ r, t.route r = if r ∈ l then s.settled r else s.route r
  object : ∀ r ∈ l, t.ntc.pending (healthObject r) = decide (s.healthNow r ≠ (s.route r).reported)
  objects : ∀ o, (∀ r ∈ l, o ≠ healthObject r) → t.ntc.pending o = s.ntc.pending o
  mask : t.ntc.mask = s.ntc.mask
  only : t = { s with rmon := { s.rmon with routes := t.rmon.routes }, ntc := t.ntc }

theorem HealthApplied.drill {s t : State} {l : List (Fin 48)} (h : s.HealthApplied t l) (c : Fin 24) :
    t.drill c = s.drill c := by
  rw [State.drill, State.drill, h.only]

theorem HealthApplied.healthNow {s t : State} {l : List (Fin 48)} (h : s.HealthApplied t l) (r : Fin 48) :
    t.healthNow r = s.healthNow r := by
  refine healthNow_congr (h.drill _) ?_ ?_
  · rw [h.route]; split <;> rfl
  · rw [h.route]; split <;> rfl

theorem applyHealth_route (s : State) (r q : Fin 48) :
    (s.applyHealth r).route q = if r = q then s.settled r else s.route q := by
  rw [applyHealth_eq]
  exact upd_get_eq ..

theorem applyHealth_healthNow (s : State) (r q : Fin 48) : (s.applyHealth r).healthNow q = s.healthNow q := by
  have drill (c : Fin 24) : (s.applyHealth r).drill c = s.drill c := by rw [applyHealth_eq]; rfl
  refine healthNow_congr (drill _) ?_ ?_ <;>
  · rw [applyHealth_route]
    split
    next same => subst same; rfl
    next => rfl

theorem foldl_applyHealth_applied {l : List (Fin 48)} (nodup : l.Nodup) (s : State) :
    s.HealthApplied (l.foldl applyHealth s) l := by
  induction l generalizing s with
  | nil => exact ⟨fun _ => by simp, fun _ h => absurd h List.not_mem_nil, fun _ _ => rfl, rfl, rfl⟩
  | cons r l ih =>
    obtain ⟨new, nodup⟩ := List.nodup_cons.mp nodup
    rw [List.foldl_cons]
    have h := ih nodup (s.applyHealth r)
    set u := s.applyHealth r with hu
    have route (q : Fin 48) : u.route q = if r = q then s.settled r else s.route q := applyHealth_route s r q
    have now (q : Fin 48) : u.healthNow q = s.healthNow q := applyHealth_healthNow s r q
    have ntc : u.ntc = if s.healthNow r = (s.route r).reported then s.ntc.withdraw (healthObject r)
        else s.ntc.raise (healthObject r) := by rw [hu, applyHealth_eq]
    have only : u = { s with rmon := { s.rmon with routes := u.rmon.routes }, ntc := u.ntc } := by
      rw [hu, applyHealth_eq]
      rfl
    have settled_ne {q : Fin 48} (ne : r ≠ q) : u.settled q = s.settled q := by
      unfold settled
      rw [now, route, if_neg ne, only]
    have object (o : Fin 267) (ne : o ≠ healthObject r) : u.ntc.pending o = s.ntc.pending o := by
      rw [ntc]
      split
      · simp [NTC.withdraw_pending, ne]
      · simp [NTC.raise_pending, ne]
    have differs {q : Fin 48} (hq : q ∈ l) : r ≠ q := fun e => new (e ▸ hq)
    refine ⟨fun q => ?_, fun q hq => ?_, fun o ho => ?_, ?_, ?_⟩
    · rw [h.route]
      by_cases same : r = q
      · subst same
        rw [if_neg new, route, if_pos rfl, if_pos (.head _)]
      · by_cases mem : q ∈ l
        · rw [if_pos mem, if_pos (.tail _ mem), settled_ne same]
        · rw [if_neg mem, route, if_neg same, if_neg]
          rintro (_ | ⟨_, mem'⟩)
          · exact same rfl
          · exact mem mem'
    · rcases List.mem_cons.mp hq with rfl | hq
      · rw [h.objects _ fun p hp e => differs hp (healthObject_injective e), ntc]
        by_cases returned : s.healthNow q = (s.route q).reported
        · simp [returned, NTC.withdraw_pending]
        · simp [returned, NTC.raise_pending]
      · rw [h.object q hq, now, route, if_neg (differs hq)]
    · rw [h.objects o fun p hp => ho p (.tail _ hp), object o (ho r (.head _))]
    · rw [h.mask, ntc]
      split <;> simp
    · rw [h.only, only]

/-! ### Drills aborted by their partners (R32) -/

/-- The drill of circuit `c`, unless its partner route is not OK (R32). -/
def fitDrill (s : State) (c : Fin 24) : Option Drill :=
  (s.drill c).filter fun d => s.healthNow (routeOf c d.side.other) == .ok

theorem fitDrill_of_unfit {s : State} {c : Fin 24} (h : s.partnerUnfit c) : s.fitDrill c = none := by
  obtain ⟨d, drill, unfit⟩ := h
  simp [fitDrill, drill, unfit]

theorem fitDrill_of_fit {s : State} {c : Fin 24} (h : ¬s.partnerUnfit c) : s.fitDrill c = s.drill c := by
  unfold fitDrill
  cases drill : s.drill c with
  | none => rfl
  | some d =>
    have fit : s.healthNow (routeOf c d.side.other) = .ok := by
      by_contra unfit
      exact h ⟨d, drill, unfit⟩
    simp [fit]

theorem partnerAbort_eq (s : State) (c : Fin 24) : s.partnerAbort c = s.setDrill c (s.fitDrill c) := by
  have stands : s.setDrill c (s.drill c) = s := by rw [setDrill, drill, upd_self]
  unfold partnerAbort fitDrill
  cases drill : s.drill c with
  | none => exact (drill ▸ stands).symm
  | some d =>
    rw [drill] at stands
    by_cases fit : s.healthNow (routeOf c d.side.other) = .ok
    · simp only [fit, if_true, Option.filter_some, beq_self_eq_true]
      exact stands.symm
    · simp [Option.filter_some, fit]

theorem fitDrill_congr {s t : State} {c : Fin 24} (drill : t.drill c = s.drill c) (routes : t.rmon.routes = s.rmon.routes) :
    t.fitDrill c = s.fitDrill c := by
  have route (r : Fin 48) : t.route r = s.route r := by rw [State.route, State.route, routes]
  have now (side : Side) : t.healthNow (routeOf c side) = s.healthNow (routeOf c side) :=
    healthNow_congr (by rw [circuitOf_routeOf, drill]) (by rw [route]) (by rw [route])
  simp only [fitDrill, drill, now]

/-- The drills of the circuits `l` have been aborted where their partners are not OK. -/
structure DrillsAborted (s t : State) (l : List (Fin 24)) : Prop where
  drill : ∀ c, t.drill c = if c ∈ l then s.fitDrill c else s.drill c
  only : t = { s with rmon := { s.rmon with drills := t.rmon.drills } }

theorem foldl_partnerAbort_aborted {l : List (Fin 24)} (nodup : l.Nodup) (s : State) :
    s.DrillsAborted (l.foldl partnerAbort s) l := by
  induction l generalizing s with
  | nil => exact ⟨fun _ => by simp, rfl⟩
  | cons c l ih =>
    obtain ⟨new, nodup⟩ := List.nodup_cons.mp nodup
    rw [List.foldl_cons, partnerAbort_eq]
    have h := ih nodup (s.setDrill c (s.fitDrill c))
    refine ⟨fun d => ?_, h.only⟩
    rw [h.drill]
    by_cases same : c = d
    · subst same
      rw [if_neg new, if_pos (.head _), setDrill_drill]
    · have drill := setDrill_drill_ne s (s.fitDrill c) same
      by_cases mem : d ∈ l
      · rw [if_pos mem, if_pos (.tail _ mem)]
        exact fitDrill_congr drill rfl
      · rw [if_neg mem, drill, if_neg]
        rintro (_ | ⟨_, mem'⟩)
        · exact same rfl
        · exact mem mem'

/-! ### The event (R32, R34, R35) -/

theorem mem_routesOf {cs : List (Fin 24)} {r : Fin 48} : r ∈ routesOf cs ↔ circuitOf r ∈ cs := by
  simp only [routesOf, List.mem_flatMap, List.mem_cons, List.not_mem_nil, or_false]
  constructor
  · rintro ⟨c, hc, rfl | rfl⟩ <;> rwa [circuitOf_routeOf]
  · intro h
    refine ⟨circuitOf r, h, ?_⟩
    cases side : sideOf r with
    | a => exact .inl (by rw [← side, routeOf_circuitOf])
    | b => exact .inr (by rw [← side, routeOf_circuitOf])

theorem nodup_routesOf {cs : List (Fin 24)} (h : cs.Nodup) : (routesOf cs).Nodup := by
  refine List.nodup_flatMap.mpr ⟨fun c _ => by simp [routeOf_eq_iff], ?_⟩
  refine h.imp fun {c d} ne r hc hd => ne ?_
  have belongs {c : Fin 24} (h : r ∈ [routeOf c .a, routeOf c .b]) : circuitOf r = c := by
    rcases List.mem_pair.mp h with rfl | rfl <;> exact circuitOf_routeOf ..
  rw [← belongs hc, belongs hd]

/-- The routes whose effective health an event over the circuits `cs` moves, the drills having been aborted. -/
def movedRoutes (s : State) (cs : List (Fin 24)) : List (Fin 48) :=
  (routesOf cs).filter fun r => s.healthNow r != s.health r

theorem mem_movedRoutes {s : State} {cs : List (Fin 24)} {r : Fin 48} :
    r ∈ s.movedRoutes cs ↔ circuitOf r ∈ cs ∧ s.healthNow r ≠ s.health r := by
  simp [movedRoutes, mem_routesOf]

theorem HealthHanded.refl (s : State) : s.HealthHanded s [] := by
  have same := SelectionsTaken.of_same (s := s) (t := s) rfl rfl rfl rfl
  exact ⟨rfl, fun c h => by simp [mem_changedCircuits] at h, fun _ _ => rfl, fun _ => by simp, fun _ _ => rfl, rfl,
    same.patch, same.entryMade, same.entryKept, fun p ref _ h => by simp at h, fun _ _ => rfl, same.count,
    rfl, rfl, rfl, rfl, rfl, rfl, .refl s, .refl s⟩

/-- A health event as its three stages: the drills aborted, effective health worked out, and the changes handed on, the
order of PSEL and XPC being a choice of its own where there are any. -/
theorem healthEvent_stages {cs : List (Fin 24)} (nodup : cs.Nodup) (s : State) : ∃ a b b', s.DrillsAborted a cs ∧
    a.HealthApplied b (a.movedRoutes cs) ∧ (∃ n, b' = { b with raceCount := n }) ∧
    b'.HealthHanded (s.healthEvent cs) (a.movedRoutes cs) := by
  obtain ⟨a, ha⟩ : ∃ a, cs.foldl partnerAbort s = a := ⟨_, rfl⟩
  obtain ⟨b, hb⟩ : ∃ b, (a.movedRoutes cs).foldl applyHealth a = b := ⟨_, rfl⟩
  have aborted : s.DrillsAborted a cs := ha ▸ foldl_partnerAbort_aborted nodup s
  have applied : a.HealthApplied b (a.movedRoutes cs) :=
    hb ▸ foldl_applyHealth_applied ((nodup_routesOf nodup).filter _) a
  have event : s.healthEvent cs =
      if (a.movedRoutes cs).isEmpty then b else b.handHealth (a.movedRoutes cs) := by
    rw [← hb, ← ha]
    rfl
  by_cases none : a.movedRoutes cs = []
  · refine ⟨a, b, b, aborted, applied, ⟨b.raceCount, rfl⟩, ?_⟩
    rw [event, none]
    exact .refl b
  · refine ⟨a, b, b.raced, aborted, applied, ⟨b.raceCount + 1, rfl⟩, ?_⟩
    rw [event, if_neg fun h => none (List.isEmpty_iff.mp h)]
    exact handHealth_handed b _

theorem healthEvent_taken (s : State) {cs : List (Fin 24)} (nodup : cs.Nodup) : s.HealthTaken (s.healthEvent cs) cs := by
  obtain ⟨a, b, b', aborted, applied, ⟨n, raced⟩, handed⟩ := healthEvent_stages nodup s
  generalize s.healthEvent cs = t at handed
  set changed := a.movedRoutes cs with changed_eq
  have route_a (r : Fin 48) : a.route r = s.route r := by rw [route, route, aborted.only]
  have tb_a : a.tb = s.tb := by rw [aborted.only]
  have rmon_t : t.rmon = b.rmon := by rw [handed.rmon, raced]
  have drill_t (c : Fin 24) : t.drill c = if c ∈ cs then s.fitDrill c else s.drill c := by
    rw [drill, rmon_t, ← drill, applied.drill, aborted.drill]
  have route_t (r : Fin 48) : t.route r = if r ∈ changed then a.settled r else s.route r := by
    rw [route, rmon_t, ← route, applied.route, route_a]
  have health_t (r : Fin 48) : t.health r = if r ∈ changed then a.healthNow r else s.health r := by
    rw [health, route_t]
    split <;> rfl
  have health_a (r : Fin 48) : a.health r = s.health r := by rw [health, health, route_a]
  have now_t (r : Fin 48) : t.healthNow r = a.healthNow r := by
    rw [← applied.healthNow]
    exact healthNow_congr (by rw [drill, drill, rmon_t]) (by rw [route, route, rmon_t]) (by rw [route, route, rmon_t])
  have changed_iff (r : Fin 48) : r ∈ changed ↔ t.health r ≠ s.health r := by
    rw [health_t]
    constructor
    · intro mem
      rw [if_pos mem, ← health_a]
      exact (mem_movedRoutes.mp mem).2
    · intro ne
      by_contra out
      exact ne (if_neg out)
  have moved_iff (c : Fin 24) : c ∈ changedCircuits changed ↔ s.healthMoved t c := by
    simp only [mem_changedCircuits, changed_iff, healthMoved]
    constructor
    · rintro ⟨r, ne, rfl⟩
      exact ⟨sideOf r, by rwa [routeOf_circuitOf]⟩
    · rintro ⟨side, ne⟩
      exact ⟨_, ne, circuitOf_routeOf c side⟩
  -- What is handed on starts from the state in which health has been worked out.
  have circuits_b : b'.circuits = s.circuits := by rw [raced, applied.only, aborted.only]
  have circuit_b (c : Fin 24) : b'.circuit c = s.circuit c := by rw [circuit, circuit, circuits_b]
  have xpc_b : b'.xpc = s.xpc := by rw [raced, applied.only, aborted.only]
  have bku_b : b'.bku = s.bku := by rw [raced, applied.only, aborted.only]
  have tb_b : b'.tb = s.tb := by rw [raced, applied.only, aborted.only]
  have xport_b (p : Fin 32) : b'.xport p = s.xport p := by rw [xport, xport, xpc_b]
  have place_b (i : Fin 192) : b'.place i = s.place i := by rw [place, place, bku_b]
  have side_b (c : Fin 24) : b'.selectedSide c = s.selectedSide c := by rw [selectedSide, selectedSide, circuit_b]
  have route_b (c : Fin 24) : b'.selectedRoute c = s.selectedRoute c := selectedRoute_of_selectedSide (side_b c)
  have records : s.SameRecords b' := .of_places (by rw [bku_b])
  have slot_b (ref : SlotRef) : b'.slotRoute ref = s.slotRoute ref := by
    have carries : b'.carrying = s.carrying := funext fun f => carrying_of_circuits circuits_b f
    rw [slotRoute, slotRoute, slotFeed_of_sameRecords records, carries]
  have claimed_b (x : XPort) (f : Fin 48) : b'.claimedBy x f = s.claimedBy x f := claimedBy_of_sameRecords records x f
  have switches_b (k : Booking) : b'.switchesOf t k = s.switchesOf t k := by simp only [switchesOf, side_b]
  have ntc_b : b'.ntc = b.ntc := by rw [raced]
  have ntc_a : a.ntc = s.ntc := by rw [aborted.only]
  have health_b (r : Fin 48) : b'.health r = t.health r := (health_of_rmon handed.rmon r).symm
  have hearing_b (c : Fin 24) : b'.hearing changed c = s.heardCircuit t c := by
    have unfit : b'.unfitSelected changed c = s.selectedUnfit t c := by
      rw [unfitSelected, selectedUnfit, route_b]
      cases s.selectedRoute c with
      | none => rfl
      | some r =>
        have contains : changed.contains r = (t.health r != s.health r) := by
          rw [Bool.eq_iff_iff, List.contains_iff_mem, changed_iff, bne_iff_ne]
        simp only [contains, health_b]
    rw [hearing, heardCircuit, circuit_b, unfit, tb_b, health_b]
    congr 1
    funext side
    rw [rankOf, circuit_b, health_b]
  have entry_iff (p : Fin 32) : ((∃ c, b'.sideMoved t c ∧ b'.claimedBy (b'.xport p) (routeOf c .a) = true) ∨
      (t.xport p).patch ≠ (b'.xport p).patch) ↔
      (∃ c, s.selectedSide c ≠ t.selectedSide c ∧ s.claimedBy (s.xport p) (routeOf c .a) = true) ∨
        (t.xport p).patch ≠ (s.xport p).patch := by
    simp only [sideMoved, side_b, xport_b, claimed_b]
  have flag_iff (ref : SlotRef) : (t.slotRoute ref ≠ b'.slotRoute ref ∨ ∃ r ∈ changed, t.slotRoute ref = some r) ↔
      t.slotRoute ref ≠ s.slotRoute ref ∨ ∃ r, t.slotRoute ref = some r ∧ t.health r ≠ s.health r := by
    simp only [slot_b, changed_iff, and_comm]
  obtain ⟨tb, dir, stl, tcu, lnk, pending, flight, bookings⟩ := handed.outside
  constructor
  case aborted =>
    intro c hc unfit
    rw [drill_t, if_pos hc, fitDrill_of_unfit unfit]
  case drills =>
    intro c h
    rw [drill_t]
    split
    next hc => exact fitDrill_of_fit fun unfit => h ⟨hc, unfit⟩
    next => rfl
  case effective =>
    intro r hr
    rw [now_t, health_t]
    split
    next => rfl
    next out =>
      rw [mem_movedRoutes, not_and, not_not, health_a] at out
      exact (out hr).symm
  case changed =>
    intro r ne
    have mem := (changed_iff r).mpr ne
    have now : a.healthNow r = t.health r := by rw [health_t, if_pos mem]
    rw [route_t, if_pos mem, settled, route_a, tb_a, now]
  case unchanged =>
    intro r h
    rw [route_t, if_neg]
    intro mem
    rcases h with same | out
    · exact (changed_iff r).mp mem same
    · exact out (mem_movedRoutes.mp mem).1
  case rmon =>
    rw [rmon_t, applied.only, aborted.only]
    exact ⟨rfl, rfl, rfl⟩
  case object =>
    intro r ne
    have mem := (changed_iff r).mpr ne
    rw [handed.objects _ fun c => healthObject_ne_circuitObject r c, ntc_b, applied.object r mem, route_a, health_t,
      if_pos mem]
  case objects =>
    refine ⟨fun r same => ?_, fun o high => ?_, ?_⟩
    · rw [handed.objects _ fun c => healthObject_ne_circuitObject r c, ntc_b, applied.objects, ntc_a]
      intro q hq e
      exact (changed_iff q).mp hq (healthObject_injective e ▸ same)
    · rw [handed.objects, ntc_b, applied.objects, ntc_a]
      · rintro r - rfl
        rw [classOf_healthObject] at high
        exact absurd high (by decide)
      · rintro c rfl
        rw [classOf_circuitObject] at high
        exact absurd high (by decide)
    · rw [handed.mask, ntc_b, applied.mask, ntc_a]
  case circuits =>
    intro c
    exact ⟨fun moved => (handed.heard c ((moved_iff c).mpr moved)).trans (hearing_b c),
      fun still => (handed.stood c fun mem => still ((moved_iff c).mp mem)).trans (circuit_b c)⟩
  case circuitObjects =>
    intro c
    rw [handed.object, ntc_b, applied.objects, ntc_a, circuit_b]
    exact fun r _ e => healthObject_ne_circuitObject r c e.symm
  case patch =>
    intro p
    rw [handed.patch, xport_b]
    simp only [route_b]
  case entry =>
    intro p
    split
    next made => rw [handed.entryMade p ((entry_iff p).mpr made), xport_b]
    next unmade => rw [handed.entryKept p fun made => unmade ((entry_iff p).mp made), xport_b]
  case delivered =>
    intro p
    cases holder : (s.xport p).holder with
    | slot ref =>
      have holder_b : (b'.xport p).holder = .slot ref := by rw [xport_b, holder]
      dsimp only
      split
      next made => exact handed.flagMade p ref holder_b ((flag_iff ref).mpr made)
      next unmade =>
        rw [handed.flagKept p, xport_b]
        intro ref' holder'
        cases holder_b.symm.trans holder'
        exact fun made => unmade ((flag_iff ref).mp made)
    | patch | nobody =>
      rw [handed.flagKept p, xport_b]
      intro ref holder'
      rw [xport_b, holder] at holder'
      cases holder'
  case count =>
    intro i p q hp hq
    rw [handed.count i p q (by rw [place_b, hp]) hq, switches_b]
  case outside =>
    refine ⟨tb.trans tb_b, ?_, ?_, ?_, ?_, ?_, ?_, ?_⟩
    · rw [dir, raced, applied.only, aborted.only]
    · rw [stl, raced, applied.only, aborted.only]
    · rw [tcu, raced, applied.only, aborted.only]
    · rw [lnk, raced, applied.only, aborted.only]
    · rw [pending, raced, applied.only, aborted.only]
    · unfold FlightKept xport at flight ⊢
      rwa [xpc_b] at flight
    · unfold BookingsKept place at bookings ⊢
      rwa [bku_b] at bookings

end State

/-- Settles O25: the three stages of the event, put together field by field. -/
theorem healthEventTaken : Obligations.HealthEventTaken := fun s _ nodup => s.healthEvent_taken nodup

end Sys2Proof.Machine
end

