-- ==== Sys2Proof/Proofs/MonitorCommands.lean ====
section
/-! PROOFS. The commands of RMON: the status link (O26), the hold-offs (O27), second boundaries, block closes and works edges
(O28), SET_ROUTE (O29), SET_WORKS (O30) and drills (O31). Each is an update of RMON's records and one health event. -/

namespace Sys2Proof.Machine

/-! ### A health event as a command makes it -/

theorem State.healthEvent_one (s : State) (c : Fin 24) : s.HealthTaken (s.healthEvent [c]) [c] :=
  s.healthEvent_taken (List.nodup_singleton c)

theorem State.healthEventAll_taken (s : State) : s.HealthTaken s.healthEventAll (List.finRange 24) :=
  s.healthEvent_taken (List.nodup_finRange 24)

/-- LNK has no part in a health event. -/
theorem State.HealthTaken.withLink {s t : State} {cs : List (Fin 24)} (h : s.HealthTaken t cs) (l : LNK) :
    State.HealthTaken { s with lnk := l } { t with lnk := l } cs := by
  obtain ⟨tb, dir, stl, tcu, -, pending, flight, bookings⟩ := h.outside
  exact ⟨h.aborted, h.drills, h.effective, h.changed, h.unchanged, h.rmon, h.object, h.objects, h.circuits,
    h.circuitObjects, h.patch, h.entry, h.delivered, h.count, tb, dir, stl, tcu, rfl, pending, flight, bookings⟩

/-- A request whose service updates RMON, so that it is `u` but for LNK, and ends in a health event of one circuit. -/
theorem Answered.of_healthEvent {c : Instr} {tag : Byte} {r : Request} (h : requestOf c = some (tag, r)) {s : State}
    (hs : s.Ready) (hr : ∀ scope, r ≠ .reset scope) {a : Answer} {u v : State} {k : Fin 24}
    (serve : (s.enqueue tag r).serveBody r = (v.healthEvent [k], a)) (same : { v with lnk := s.lnk } = u) :
    ∃ t, Answered c s a t ∧ u.HealthTaken t [k] :=
  ⟨{ v.healthEvent [k] with lnk := s.lnk }, .intro h hs hr (by rw [serve]) (by rw [serve]),
    same ▸ (State.healthEvent_one v k).withLink s.lnk⟩

/-! ### The status link (R17, R18) -/

/-- Byte 0 of a status word carries the card, the slot and the two flags (Table 11-11). -/
theorem statusFields_of_word : ∀ (k : Fin 6) (slot : Fin 8) (los lof : Bool),
    let b0 : Byte := BitVec.ofNat 8 (32 * k.val + 4 * slot.val + 2 * los.toNat + lof.toNat)
    idOf 6 (b0 >>> 5) = some k ∧ (statusFields b0).2 = (slot, los || lof) := by decide

theorem parseStatus_of_word (k : Fin 6) (slot : Fin 8) (los lof : Bool) (increment : Byte) :
    let b0 : Byte := BitVec.ofNat 8 (32 * k.val + 4 * slot.val + 2 * los.toNat + lof.toNat)
    parseStatus [b0, increment, 255 - (b0 + increment)] = some (k, slot, los || lof, increment.toNat) := by
  obtain ⟨card, fields⟩ := statusFields_of_word k slot los lof
  dsimp only at card fields ⊢
  rw [parseStatus, if_pos (by rfl), card, fields]
  rfl

theorem parseStatus_of_bad {group : List Byte}
    (bad : ∀ b0 b1 check, group = [b0, b1, check] → check ≠ 255 - (b0 + b1) ∨ 5 < (b0 >>> 5).toNat) :
    parseStatus group = none := by
  match group with
  | [b0, b1, check] =>
    rw [parseStatus]
    split
    next good =>
      have high : ¬(b0 >>> 5).toNat < 6 := by
        have := (bad b0 b1 check rfl).resolve_left fun ne => ne good
        omega
      rw [idOf_of_not_lt high]
      rfl
    next => rfl
  | [] | [_] | [_, _] | _ :: _ :: _ :: _ :: _ => rfl

theorem goodWord_taken (k : Fin 6) (slot : Fin 8) (bad : Bool) (increment : Byte) (s : State) :
    let r := cardRoute k slot
    let x := if bad then (s.route r).toBad s.tb.elapsed else (s.route r).toGood s.tb.elapsed
    ((s.setCard k (some (s.tb.elapsed + 150))).setRoute r
      { x with blockSum := min 65535 (x.blockSum + increment.toNat) }).HealthTaken
      (s.goodWord k slot bad increment.toNat) [circuitOf r] := by
  cases bad <;> exact State.healthEvent_one _ _

/-- Routes changed one after another, each once. -/
theorem foldl_onRoute {l : List (Fin 48)} (nodup : l.Nodup) (f : Route → Route) (s : State) :
    l.foldl (fun acc r => acc.onRoute r f) s =
      { s with rmon := { s.rmon with routes := tab fun r => if r ∈ l then f (s.route r) else s.route r } } := by
  induction l generalizing s with
  | nil =>
    have same : (tab fun r => if r ∈ ([] : List (Fin 48)) then f (s.route r) else s.route r) = s.rmon.routes :=
      table_ext fun r => by simp [State.route]
    rw [same]
    rfl
  | cons r l ih =>
    obtain ⟨new, nodup⟩ := List.nodup_cons.mp nodup
    rw [List.foldl_cons, ih nodup]
    have routes : (tab fun q => if q ∈ l then f ((s.onRoute r f).route q) else (s.onRoute r f).route q) =
        tab fun q => if q ∈ r :: l then f (s.route q) else s.route q := by
      refine table_ext fun q => ?_
      rw [tab_get, tab_get]
      by_cases same : r = q
      · subst same
        simp [new, State.onRoute]
      · simp only [State.onRoute, State.setRoute_route_ne s _ same, List.mem_cons, Ne.symm same, false_or]
    rw [routes]
    rfl

theorem mem_routesOfCard {k : Fin 6} {r : Fin 48} : r ∈ State.routesOfCard k ↔ cardOf r = k := by
  simp only [State.routesOfCard, List.mem_map, List.mem_finRange, true_and]
  constructor
  · rintro ⟨slot, rfl⟩
    simp only [cardOf, cardRoute, Fin.ext_iff]
    omega
  · rintro rfl
    refine ⟨⟨r.val % 8, by omega⟩, ?_⟩
    simp only [cardOf, cardRoute, Fin.ext_iff]
    omega

theorem nodup_routesOfCard (k : Fin 6) : (State.routesOfCard k).Nodup :=
  (List.nodup_finRange 8).map fun a b h => by simpa [cardRoute, Fin.ext_iff] using h

theorem circuitsOfCard_eq (k : Fin 6) :
    State.circuitsOfCard k = (List.finRange 24).filter fun c => c.val / 4 == k.val := by
  unfold State.circuitsOfCard
  refine List.filter_congr fun c _ => ?_
  rw [Bool.eq_iff_iff, beq_iff_eq, beq_iff_eq, Fin.ext_iff]
  have card : (cardOf (routeOf c .a)).val = 2 * c.val / 8 := rfl
  rw [card]
  omega

theorem loseCard_taken (k : Fin 6) (s : State) :
    State.HealthTaken { s with rmon := { s.rmon with
      cards := upd s.rmon.cards k none
      routes := tab fun r => if cardOf r = k then (s.route r).toBad s.tb.elapsed else s.route r } } (s.loseCard k)
      ((List.finRange 24).filter fun c => c.val / 4 == k.val) := by
  rw [← circuitsOfCard_eq]
  have lost : (State.routesOfCard k).foldl (fun acc r => acc.onRoute r (Route.toBad s.tb.elapsed)) (s.setCard k none) =
      { s with rmon := { s.rmon with
        cards := upd s.rmon.cards k none
        routes := tab fun r => if cardOf r = k then (s.route r).toBad s.tb.elapsed else s.route r } } := by
    rw [foldl_onRoute (nodup_routesOfCard k)]
    simp only [mem_routesOfCard]
    rfl
  rw [← lost]
  exact State.healthEvent_taken _ ((List.nodup_finRange 24).filter _)

theorem cardLoss_leads (k : Fin 6) (s : State) : Leads (.cardLoss k) s (s.cardExpiry k) := rfl

/-- Settles O26: a good word and a lost card are one health event each; anything else is discarded. -/
theorem statusLink : Obligations.StatusLink := by
  refine ⟨fun k slot los lof increment s => ?_, fun group s bad => ?_, fun k s => ?_⟩
  · have leads (group : List Byte) : Leads (.statusWord group) s (s.statusWord group) := rfl
    refine ⟨_, leads _, ?_⟩
    rw [State.statusWord, parseStatus_of_word]
    exact goodWord_taken k slot (los || lof) increment s
  · have leads : Leads (.statusWord group) s (s.statusWord group) := rfl
    rwa [State.statusWord, parseStatus_of_bad bad] at leads
  · have leads := cardLoss_leads k s
    unfold State.cardExpiry at leads
    split
    next due => rw [if_pos due] at leads; exact ⟨_, leads, loseCard_taken k s⟩
    next later => rwa [if_neg later] at leads

/-! ### The hold-offs (R20 to R22) -/

theorem failTimerExpiry_leads (r : Fin 48) (s : State) : Leads (.failTimerExpiry r) s (s.failExpiry r) := rfl

theorem clearTimerExpiry_leads (r : Fin 48) (s : State) : Leads (.clearTimerExpiry r) s (s.clearExpiry r) := rfl

/-- Settles O27: the tables of R20 and R21 by the raw and the fail state, and each expiry by whether it is due. -/
theorem holdOffs : Obligations.HoldOffs := by
  refine ⟨fun x now => ⟨rfl, ?_⟩, fun r s => ⟨?_, ?_⟩⟩
  · simp only [Route.toGood, Bool.not_eq_true']
  · have leads := failTimerExpiry_leads r s
    unfold State.failExpiry at leads
    split
    next due => rw [if_pos due] at leads; exact ⟨_, leads, State.healthEvent_one _ _⟩
    next later => rwa [if_neg later] at leads
  · have leads := clearTimerExpiry_leads r s
    unfold State.clearExpiry at leads
    split
    next due => rw [if_pos due] at leads; exact ⟨_, leads, State.healthEvent_one _ _⟩
    next later => rwa [if_neg later] at leads

/-! ### Second boundaries, block closes and works edges (R2, R24, R27) -/

theorem worksEdges_taken (n : Nat) (s : State) : State.WorksTaken n s (s.worksEdges n) :=
  State.healthEventAll_taken (s.mapRoutes (Route.worksEdge n))

theorem takeWorksEdge_of_due {s : State} {n : Nat} (due : s.rmon.worksDue = some n) :
    State.WorksTaken n { s with rmon := { s.rmon with worksDue := none } } s.takeWorksEdge := by
  rw [State.takeWorksEdge, due]
  exact worksEdges_taken n _

theorem takeWorksEdge_of_none {s : State} (none : s.rmon.worksDue = none) : s.takeWorksEdge = s := by
  rw [State.takeWorksEdge, none]

/-- Settles O28: what is handed on where something is outstanding, and nothing where it is not. -/
theorem blockAndSecondBoundaries : Obligations.BlockAndSecondBoundaries := by
  intro s
  refine ⟨rfl, ?_, ?_⟩
  · have leads : Leads .blockClose s s.closeDueBlock := rfl
    unfold State.closeDueBlock at leads
    split
    next due => rw [if_pos due] at leads; exact ⟨_, leads, State.healthEventAll_taken _⟩
    next none => rwa [if_neg none] at leads
  · have leads : Leads .worksEdge s s.takeWorksEdge := rfl
    split
    next n due => exact ⟨_, leads, takeWorksEdge_of_due due⟩
    next none => rwa [takeWorksEdge_of_none none] at leads

/-! ### SET_ROUTE (R26) -/

section
variable {tag route : Byte} {s : State} {r : Fin 48}

theorem setRoute_answered_of_badField {failHold clearHold degThr clrThr : Half} (hs : s.Ready)
    (bad : idOf 48 route = none ∨ degThr.toNat < clrThr.toNat) :
    Answered (.setRoute tag route failHold clearHold degThr clrThr) s ⟨.badField, .empty⟩ s := by
  refine .of_read (r := .setRoute route failHold clearHold degThr clrThr) rfl hs (fun _ => nofun) ?_
  simp only [State.serveBody, State.serveSetRoute]
  rcases bad with none | above
  · rw [none]; rfl
  · rcases idOf_cases (n := 48) route with ⟨none, -⟩ | ⟨r, some, -⟩
    · rw [none]; rfl
    · rw [some]
      exact if_pos above

theorem serveSetRoute_of_valid (s : State) (id : idOf 48 route = some r) {failHold clearHold degThr clrThr : Half}
    (valid : ¬degThr.toNat < clrThr.toNat) :
    let set : RouteSettings := ⟨min 1000 failHold.toNat, min 60000 clearHold.toNat, degThr.toNat, clrThr.toNat⟩
    s.serveSetRoute route failHold clearHold degThr clrThr =
      if degThr.toNat = 0 then
        ((s.setRoute r { s.route r with settings := set, degraded := false }).healthEvent [circuitOf r],
          ⟨.ok, .route set⟩)
      else (s.setRoute r { s.route r with settings := set }, ⟨.ok, .route set⟩) := by
  simp only [State.serveSetRoute, id, if_neg valid, clamp_zero, State.onRoute, okWith]
  split <;> rfl

/-- Settles O29: a refusal, or the settings stored, with a health event where the degraded flag is cleared. -/
theorem setRoute : Obligations.SetRoute := by
  intro tag route failHold clearHold degThr clrThr s hs
  dsimp only
  split
  next h =>
    split
    next above => exact setRoute_answered_of_badField hs (.inr above)
    next valid =>
      have serve := serveSetRoute_of_valid (s.enqueue tag (.setRoute route failHold clearHold degThr clrThr))
        (idOf_of_lt h) (failHold := failHold) (clearHold := clearHold) valid
      split
      next off =>
        exact Answered.of_healthEvent (r := .setRoute route failHold clearHold degThr clrThr) rfl hs (fun _ => nofun)
          (serve.trans (if_pos off)) rfl
      next on =>
        exact .of_update (r := .setRoute route failHold clearHold degThr clrThr) rfl hs (fun _ => nofun)
          (serve.trans (if_neg on))
  next h => exact setRoute_answered_of_badField hs (.inl (idOf_of_not_lt h))

/-! ### SET_WORKS (R28) -/

theorem overlaps_iff {a b c d : Nat} : overlaps a b c d = true ↔ ∃ n, a ≤ n ∧ n < b ∧ c ≤ n ∧ n < d := by
  rw [overlaps, decide_eq_true_eq]
  exact ⟨fun h => ⟨max a c, by omega⟩, fun ⟨n, h⟩ => by omega⟩

theorem overlaps3_iff {a b c d e f : Nat} :
    overlaps3 a b c d e f = true ↔ ∃ n, a ≤ n ∧ n < b ∧ c ≤ n ∧ n < d ∧ e ≤ n ∧ n < f := by
  rw [overlaps3, decide_eq_true_eq]
  exact ⟨fun h => ⟨max (max a c) e, by omega⟩, fun ⟨n, h⟩ => by omega⟩

/-- A feed meets the new window as R28 says. -/
theorem feedMeetsWorks_iff (s : State) (r feed : Fin 48) (start stop s0 e0 : Nat) :
    let partner := s.route (routeOf (circuitOf r) (sideOf r).other)
    s.feedMeetsWorks r start stop feed s0 e0 = true ↔
      match (s.circuit (circuitOf r)).mode with
      | .split => feed = r ∧ ∃ n, start ≤ n ∧ n < stop ∧ s0 ≤ n ∧ n < e0
      | .pair => feed.val = 2 * (r.val / 2) ∧
          ∃ n, start ≤ n ∧ n < stop ∧ partner.worksStart ≤ n ∧ n < partner.worksEnd ∧ s0 ≤ n ∧ n < e0 := by
  dsimp only
  rw [State.feedMeetsWorks]
  cases (s.circuit (circuitOf r)).mode with
  | split => simp only [Bool.and_eq_true, beq_iff_eq, overlaps_iff]
  | pair =>
    simp only [Bool.and_eq_true, beq_iff_eq, overlaps3_iff, Fin.ext_iff]
    rfl

theorem worksChecked_eq (st : BookingState) : State.worksChecked st = (st != .ending && st != .closing) := by
  cases st <;> rfl

theorem worksConflicts_eq (s : State) (r : Fin 48) (start stop : Nat) :
    s.worksConflicts r start stop = ((List.finRange 192).filter fun i => (s.place i).any fun p =>
      p.booking.state != .ending && p.booking.state != .closing &&
        p.booking.feeds.any fun f => s.feedMeetsWorks r start stop f p.booking.s0 p.booking.e0).length := by
  simp only [State.worksConflicts, State.recordsWhere, worksChecked_eq]

theorem setWorks_answered_of_badField {start stop : Word} {force : Byte} (hs : s.Ready)
    (bad : ¬(route.toNat < 48 ∧ force.toNat < 2)) :
    Answered (.setWorks tag route start stop force) s ⟨.badField, .empty⟩ s := by
  refine .of_read (r := .setWorks route start stop force) rfl hs (fun _ => nofun) ?_
  simp only [State.serveBody, State.serveSetWorks]
  by_cases range : route.toNat < 48
  · rw [idOf_of_lt range, yesNo_of_not_lt fun ok => bad ⟨range, ok⟩]
    rfl
  · rw [idOf_of_not_lt range]; rfl

theorem serveSetWorks_of_valid (s : State) {start stop : Word} {force : Byte} (range : route.toNat < 48)
    (ok : force.toNat < 2) {n : Nat} (count : s.worksConflicts ⟨route.toNat, range⟩ start.toNat stop.toNat = n) :
    let r : Fin 48 := ⟨route.toNat, range⟩
    s.serveSetWorks route start stop force =
      if 0 < n ∧ force = 0 then (s, ⟨.bookingConflict, .conflicts n⟩)
      else ((s.setRoute r { s.route r with
        worksStart := start.toNat, worksEnd := stop.toNat
        worksActive := decide (start.toNat ≤ s.tb.seconds ∧ s.tb.seconds < stop.toNat) }).healthEvent [circuitOf r],
        ⟨.ok, .works start.toNat stop.toNat n⟩) := by
  subst count
  simp only [State.serveSetWorks, idOf_of_lt range, yesNo_of_lt ok]
  have unforced : (!(force == 1)) = true ↔ force = 0 := by
    rw [Bool.not_eq_true', beq_eq_false_iff_ne]
    exact ⟨eq_zero_of_toNat_lt_two ok, fun zero one => absurd (zero.symm.trans one) (by decide)⟩
  simp only [unforced]
  rfl

/-- Settles O30: the test of one feed, and then the count of conflicts decides. -/
theorem setWorks : Obligations.SetWorks := by
  refine ⟨feedMeetsWorks_iff, fun tag route start stop force s hs => ?_⟩
  dsimp only
  split
  next h =>
    rw [← worksConflicts_eq]
    have count : (s.enqueue tag (.setWorks route start stop force)).worksConflicts ⟨route.toNat, h.1⟩ start.toNat
        stop.toNat = s.worksConflicts ⟨route.toNat, h.1⟩ start.toNat stop.toNat := rfl
    generalize s.worksConflicts ⟨route.toNat, h.1⟩ start.toNat stop.toNat = n at count ⊢
    have serve := serveSetWorks_of_valid _ h.1 h.2 count
    split
    next refused =>
      exact .of_read (r := .setWorks route start stop force) rfl hs (fun _ => nofun) (serve.trans (if_pos refused))
    next stored =>
      exact Answered.of_healthEvent (r := .setWorks route start stop force) rfl hs (fun _ => nofun)
        (serve.trans (if_neg stored)) rfl
  next h => exact setWorks_answered_of_badField hs h

end

/-! ### Drills (R30, R31, R33) -/

theorem drillActivation_leads (c : Fin 24) (s : State) :
    match s.drill c with
    | some ⟨side, .countdown 0, duration⟩ => ∃ t, Leads (.drillActivation c) s t ∧
        (s.setDrill c (some ⟨side, .active (s.tb.elapsed + duration), duration⟩)).HealthTaken t [c]
    | _ => Leads (.drillActivation c) s s := by
  have leads : Leads (.drillActivation c) s (s.activateDrill c) := rfl
  unfold State.activateDrill at leads
  cases drill : s.drill c with
  | none => rwa [drill] at leads
  | some d =>
    rw [drill] at leads
    obtain ⟨side, phase, duration⟩ := d
    cases phase with
    | active t => exact leads
    | countdown n =>
      cases n with
      | zero => exact ⟨_, leads, State.healthEvent_one _ _⟩
      | succ n => exact leads

theorem drillEnd_leads (c : Fin 24) (s : State) :
    match s.drill c with
    | some ⟨_, .active expiry, _⟩ =>
      if expiry ≤ s.tb.elapsed then ∃ t, Leads (.drillEnd c) s t ∧ (s.setDrill c none).HealthTaken t [c]
      else Leads (.drillEnd c) s s
    | _ => Leads (.drillEnd c) s s := by
  have leads : Leads (.drillEnd c) s (s.endDrill c) := rfl
  unfold State.endDrill State.drillPhase at leads
  cases drill : s.drill c with
  | none => rwa [drill] at leads
  | some d =>
    rw [drill] at leads
    obtain ⟨side, phase, duration⟩ := d
    cases phase with
    | countdown n => exact leads
    | active t =>
      dsimp only [Option.map_some] at leads ⊢
      split
      next due => rw [if_pos due] at leads; exact ⟨_, leads, State.healthEvent_one _ _⟩
      next later => rwa [if_neg later] at leads

section
variable {tag route : Byte} {s : State} {r : Fin 48}

theorem drill_answered_of_badField {delay duration : Half} (hs : s.Ready) (bad : idOf 48 route = none ∨ delay = 0) :
    Answered (.drill tag route delay duration) s ⟨.badField, .empty⟩ s := by
  refine .of_read (r := .drill route delay duration) rfl hs (fun _ => nofun) ?_
  simp only [State.serveBody, State.serveDrill]
  rcases bad with none | rfl
  · rw [none]; rfl
  · rcases idOf_cases (n := 48) route with ⟨none, -⟩ | ⟨r, some, -⟩
    · rw [none]; rfl
    · rw [some]; rfl

theorem feedBooked_iff (s : State) (r : Fin 48) :
    s.feedBooked [r] = true ↔ ∃ i p, s.place i = some p ∧ r ∈ p.booking.feeds := by
  simp only [State.feedBooked, Bool.not_eq_true', List.isEmpty_eq_false_iff, State.recordsWhere, ne_eq,
    List.filter_eq_nil_iff, not_forall, not_not, List.mem_finRange, Option.any_eq_true, List.any_eq_true,
    List.contains_iff_mem, List.mem_singleton, exists_eq_right]
  exact ⟨fun ⟨i, _, p, place, held⟩ => ⟨i, p, place, held⟩, fun ⟨i, p, place, held⟩ => ⟨i, trivial, p, place, held⟩⟩

theorem drillRefused_iff (s : State) (r : Fin 48) :
    s.drillRefused r = true ↔
      (s.circuit (circuitOf r)).mode = .split ∧ (∃ i p, s.place i = some p ∧ r ∈ p.booking.feeds) ∨
        s.health (routeOf (circuitOf r) (sideOf r).other) ≠ .ok ∨ s.drill (circuitOf r) ≠ none := by
  simp only [State.drillRefused, Bool.or_eq_true, Bool.and_eq_true, beq_iff_eq, bne_iff_ne, feedBooked_iff,
    Option.isSome_iff_ne_none, or_assoc]

theorem drill_answered {delay duration : Half} (hs : s.Ready) (id : idOf 48 route = some r) (some_delay : delay ≠ 0) :
    if s.drillRefused r = true then Answered (.drill tag route delay duration) s ⟨.state, .empty⟩ s
    else Answered (.drill tag route delay duration) s ⟨.ok, .drill r delay.toNat (max 10 (min 60000 duration.toNat))⟩
      (s.setDrill (circuitOf r)
        (some ⟨sideOf r, .countdown delay.toNat, max 10 (min 60000 duration.toNat)⟩)) := by
  have counts : ¬delay.toNat = 0 := fun zero => some_delay (BitVec.eq_of_toNat_eq zero)
  have serve (s : State) : s.serveDrill route delay duration = if s.drillRefused r = true then (s, ⟨.state, .empty⟩)
      else (s.setDrill (circuitOf r)
        (some ⟨sideOf r, .countdown delay.toNat, max 10 (min 60000 duration.toNat)⟩),
        ⟨.ok, .drill r delay.toNat (max 10 (min 60000 duration.toNat))⟩) := by
    simp only [State.serveDrill, id, if_neg counts]
    rfl
  have serve := serve (s.enqueue tag (.drill route delay duration))
  split
  next refused =>
    exact .of_read (r := .drill route delay duration) rfl hs (fun _ => nofun) (serve.trans (if_pos refused))
  next accepted =>
    exact .of_update (r := .drill route delay duration) rfl hs (fun _ => nofun) (serve.trans (if_neg accepted))

theorem drillAbort_answered_of_read {status : Status} (hs : s.Ready)
    (serve : ∀ u : State, u.drill = s.drill → u.serveDrillAbort route = (u, ⟨status, .empty⟩)) :
    Answered (.drillAbort tag route) s ⟨status, .empty⟩ s :=
  .of_read (r := .drillAbort route) rfl hs (fun _ => nofun) (serve _ rfl)

theorem drillAbort_answered (hs : s.Ready) (id : idOf 48 route = some r) :
    match s.drill (circuitOf r) with
    | some d =>
      if d.side = sideOf r then
        match d.phase with
        | .countdown _ =>
          Answered (.drillAbort tag route) s ⟨.ok, .drillPhase .countdown⟩ (s.setDrill (circuitOf r) none)
        | .active _ => ∃ t, Answered (.drillAbort tag route) s ⟨.ok, .drillPhase .active⟩ t ∧
            (s.setDrill (circuitOf r) none).HealthTaken t [circuitOf r]
      else Answered (.drillAbort tag route) s ⟨.state, .empty⟩ s
    | none => Answered (.drillAbort tag route) s ⟨.state, .empty⟩ s := by
  cases drill : s.drill (circuitOf r) with
  | none =>
    refine drillAbort_answered_of_read hs fun u same => ?_
    simp only [State.serveDrillAbort, id, same, drill, refusal]
  | some d =>
    dsimp only
    split
    next own =>
      obtain ⟨side, phase, duration⟩ := d
      cases phase with
      | countdown n =>
        refine .of_update (r := .drillAbort route) rfl hs (fun _ => nofun) ?_
        simp only [State.serveBody, State.serveDrillAbort, id, State.enqueue_drill, drill, if_pos own]
        rfl
      | active t =>
        refine Answered.of_healthEvent (c := .drillAbort tag route) (r := .drillAbort route)
          (v := (s.enqueue tag (.drillAbort route)).setDrill (circuitOf r) none) rfl hs (fun _ => nofun) ?_ rfl
        simp only [State.serveBody, State.serveDrillAbort, id, State.enqueue_drill, drill, if_pos own]
        rfl
    next other =>
      refine drillAbort_answered_of_read hs fun u same => ?_
      simp only [State.serveDrillAbort, id, same, drill, refusal, if_neg other]

end

/-- Settles O31: the two expiries by the drill's phase, and the two requests by their checks in order. -/
theorem drills : Obligations.Drills := by
  refine ⟨fun c s => ⟨drillActivation_leads c s, drillEnd_leads c s⟩, fun tag route delay duration s hs => ?_⟩
  dsimp only
  split
  next h =>
    have id := idOf_of_lt h
    refine ⟨?_, drillAbort_answered hs id⟩
    split
    next zero => exact drill_answered_of_badField hs (.inr zero)
    next counts =>
      have answered := drill_answered (tag := tag) (duration := duration) hs id counts
      simp only [drillRefused_iff] at answered
      exact answered
  next h =>
    have id := idOf_of_not_lt h
    refine ⟨drill_answered_of_badField hs (.inl id), drillAbort_answered_of_read hs fun u _ => ?_⟩
    simp only [State.serveDrillAbort, id, refusal]

end Sys2Proof.Machine
end

