-- ==== Sys2Proof/Proofs/ProtectionRequests.lean ====
section
/-! PROOFS. The requests of PSEL: FORCE, LOCKOUT and CLEAR (O33), and SET_CIRCUIT with the change of mode and the effect of the
options (O34). -/

namespace Sys2Proof.Machine

/-! ### What PSEL does has no part in LNK -/

/-- The answer to a request, from what its service makes of the state with the request queued. -/
theorem Answered.of_service {c : Instr} {tag : Byte} {r : Request} (h : requestOf c = some (tag, r)) {s : State}
    (hs : s.Ready) (hr : ∀ scope, r ≠ .reset scope) {a : Answer} {v : State}
    (serve : (s.enqueue tag r).serveBody r = (v, a)) : Answered c s a { v with lnk := s.lnk } :=
  .intro h hs hr (by rw [serve]) (by rw [serve])

namespace State

theorem SelectorMoved.withLink {s t : State} {c : Fin 24} {k : Circuit} (h : s.SelectorMoved t c k) (l : LNK) :
    SelectorMoved { s with lnk := l } { t with lnk := l } c k := by
  obtain ⟨tb, rmon, dir, stl, tcu, -, race, pending⟩ := h.kept
  exact ⟨h.circuit, h.object, ⟨tb, rmon, dir, stl, tcu, rfl, race, pending⟩, h.flight, h.bookings, h.stays, h.patch,
    h.entry, h.delivered, h.count⟩

theorem Evaluated.withLink {s t : State} {c : Fin 24} {why : CircuitReason} (h : s.Evaluated t c why) (l : LNK) :
    Evaluated { s with lnk := l } { t with lnk := l } c why := by
  have stands (h : t = s) : ({ t with lnk := l } : State) = { s with lnk := l } := by rw [h]
  have of_held (held : ∀ st, (s.circuit c).selector = some st → st.automatic = false) :
      Evaluated { s with lnk := l } { t with lnk := l } c why :=
    (evaluated_iff_of_held (s := { s with lnk := l }) held).mpr (stands ((evaluated_iff_of_held held).mp h))
  cases selector : (s.circuit c).selector with
  | none => exact of_held (by simp [selector])
  | some st =>
    cases st with
    | selA =>
      refine (evaluated_iff_of_selA (s := { s with lnk := l }) selector).mpr ?_
      have h := (evaluated_iff_of_selA selector).mp h
      split at h
      next switch => exact (if_pos switch).mpr (h.withLink l)
      next stay => exact (if_neg stay).mpr (stands h)
    | selB =>
      refine (evaluated_iff_of_selB (s := { s with lnk := l }) selector).mpr ?_
      have h := (evaluated_iff_of_selB selector).mp h
      split at h
      next switch => exact (if_pos switch).mpr (h.withLink l)
      next stay =>
        refine (if_neg stay).mpr ?_
        split at h
        next restore =>
          refine (if_pos restore).mpr ?_
          unfold Restoring at h ⊢
          dsimp only at h ⊢
          split at h
          next through =>
            obtain ⟨u, first, second⟩ := h
            exact (if_pos through).mpr ⟨_, first.withLink l, second.withLink l⟩
          next period => exact (if_neg period).mpr (h.withLink l)
        next rest => exact (if_neg rest).mpr (stands h)
    | wtr =>
      refine (evaluated_iff_of_wtr (s := { s with lnk := l }) selector).mpr ?_
      have h := (evaluated_iff_of_wtr selector).mp h
      split at h
      next switch => exact (if_pos switch).mpr (h.withLink l)
      next stay =>
        refine (if_neg stay).mpr ?_
        split at h
        next left => exact (if_pos left).mpr (h.withLink l)
        next rest => exact (if_neg rest).mpr (stands h)
    | forcedA | forcedB | lockout => exact of_held (by rw [selector]; rintro _ ⟨⟩; rfl)

end State

/-! ### FORCE, LOCKOUT and CLEAR (R52, R54, R55) -/

theorem targetOf_of_lt {b : Byte} (h : b.toNat < 2) : targetOf b = some (if b = 0 then .a else .b) := by
  by_cases zero : b = 0
  · subst zero; rfl
  · have one : b = 1 := by
      by_contra one
      exact zero (eq_zero_of_toNat_lt_two h one)
    subst one
    rfl

theorem targetOf_of_not_lt {b : Byte} (h : ¬b.toNat < 2) : targetOf b = none := by
  have zero : b ≠ 0 := fun e => h (by rw [e]; decide)
  have one : b ≠ 1 := fun e => h (by rw [e]; decide)
  rw [targetOf, if_neg zero, if_neg one]

section
variable {tag circuit target : Byte} {s : State} {c : Fin 24}

theorem force_answered_of_badField (hs : s.Ready) (bad : ¬(circuit.toNat < 24 ∧ target.toNat < 2)) :
    Answered (.force tag circuit target) s ⟨.badField, .empty⟩ s := by
  refine .of_read (r := .force circuit target) rfl hs (fun _ => nofun) ?_
  simp only [State.serveBody, State.serveForce]
  by_cases range : circuit.toNat < 24
  · rw [idOf_of_lt range, targetOf_of_not_lt fun ok => bad ⟨range, ok⟩]
    rfl
  · rw [idOf_of_not_lt range]
    rfl

theorem lockout_answered_of_badField (hs : s.Ready) (bad : ¬circuit.toNat < 24) :
    Answered (.lockout tag circuit) s ⟨.badField, .empty⟩ s := by
  refine .of_read (r := .lockout circuit) rfl hs (fun _ => nofun) ?_
  simp only [State.serveBody, State.serveLockout, idOf_of_not_lt bad, refusal]

theorem clear_answered_of_badField (hs : s.Ready) (bad : ¬circuit.toNat < 24) :
    Answered (.clear tag circuit) s ⟨.badField, .empty⟩ s := by
  refine .of_read (r := .clear circuit) rfl hs (fun _ => nofun) ?_
  simp only [State.serveBody, State.serveClear, idOf_of_not_lt bad, refusal]

/-- What the protection orders report (R52). -/
theorem protectionResult_of_selector {s : State} {c : Fin 24} {st : SelState} (h : (s.circuit c).selector = some st) :
    s.protectionResult c = .protection (some st) (some (routeOf c st.side)) (s.circuit c).switchCount := by
  rw [State.protectionResult, State.selectedRoute, State.selectedSide_of_selector h, h]
  rfl

theorem protectionResult_of_moved {s t : State} {c : Fin 24} {k : Circuit} {st : SelState} (h : s.SelectorMoved t c k)
    (selector : k.selector = some st) :
    t.protectionResult c = .protection (some st) (some (routeOf c st.side)) k.switchCount := by
  rw [protectionResult_of_selector (by rw [h.circuit_same, selector]), h.circuit_same]

theorem forcedState_side (x : Side) : (State.forcedState x).side = x := by cases x <;> rfl

theorem serveForce_of_refused (s : State) {x : Side} (id : idOf 24 circuit = some c) (side : targetOf target = some x)
    (refused : (s.circuit c).selector = none ∨ (s.circuit c).selector = some .lockout ∨
      (s.health (routeOf c x)).usable = false) :
    s.serveForce circuit target = (s, ⟨.state, .empty⟩) := by
  simp only [State.serveForce, id, side]
  split
  next => rfl
  next => rfl
  next st none_lockout selector =>
    have unfit : (s.health (routeOf c x)).usable = false := by
      rcases refused with none | lockout | unfit
      · exact absurd (selector.symm.trans none) nofun
      · exact absurd (Option.some.inj (selector.symm.trans lockout)) none_lockout
      · exact unfit
    rw [unfit]
    rfl

theorem serveForce_of_accepted (s : State) {x : Side} (id : idOf 24 circuit = some c) (side : targetOf target = some x)
    {st : SelState} (selector : (s.circuit c).selector = some st) (lockout : st ≠ .lockout)
    (usable : (s.health (routeOf c x)).usable = true) :
    s.serveForce circuit target =
      if st = State.forcedState x then (s, ⟨.ok, s.protectionResult c⟩)
      else ((s.stopTimers c).changeSelector c (State.forcedState x) .force,
        ⟨.ok, ((s.stopTimers c).changeSelector c (State.forcedState x) .force).protectionResult c⟩) := by
  simp only [State.serveForce, id, side, selector]
  cases st with
  | lockout => exact absurd rfl lockout
  | selA | selB | wtr | forcedA | forcedB =>
    simp only [usable, Bool.not_true, Bool.false_eq_true, if_false, okWith]
    split <;> rfl

theorem force_answered (hs : s.Ready) (id : idOf 24 circuit = some c) (ok : target.toNat < 2) :
    let k := s.circuit c
    let side : Side := if target = 0 then .a else .b
    let forced : SelState := if target = 0 then .forcedA else .forcedB
    if k.selector = none ∨ k.selector = some .lockout ∨ (s.health (routeOf c side)).usable = false then
      Answered (.force tag circuit target) s ⟨.state, .empty⟩ s
    else if k.selector = some forced then
      Answered (.force tag circuit target) s ⟨.ok, .protection k.selector (some (routeOf c side)) k.switchCount⟩ s
    else
      let x := k.ordered forced .force s.tb.frame
      ∃ t, Answered (.force tag circuit target) s
        ⟨.ok, .protection (some forced) (some (routeOf c side)) x.switchCount⟩ t ∧ s.SelectorMoved t c x := by
  have target_side := targetOf_of_lt ok
  have forced_eq : (if target = 0 then .forcedA else .forcedB : SelState) =
      State.forcedState (if target = 0 then .a else .b) := by split <;> rfl
  rw [forced_eq]
  dsimp only
  generalize (if target = 0 then Side.a else .b : Side) = x at target_side ⊢
  split
  next refused =>
    exact .of_read (r := .force circuit target) rfl hs (fun _ => nofun)
      (serveForce_of_refused (s.enqueue tag (.force circuit target)) id target_side refused)
  next accepted =>
    rw [not_or, not_or, Bool.not_eq_false] at accepted
    obtain ⟨some_selector, lockout, usable⟩ := accepted
    obtain ⟨st, selector⟩ := Option.ne_none_iff_exists'.mp some_selector
    have serve := serveForce_of_accepted (s.enqueue tag (.force circuit target)) id target_side selector
      (fun e => lockout (e ▸ selector)) usable
    rw [selector]
    split
    next stands =>
      rw [Option.some.injEq] at stands
      have answered := Answered.of_read (c := .force tag circuit target) (r := .force circuit target) rfl hs
        (fun _ => nofun) (serve.trans (if_pos stands))
      have result := protectionResult_of_selector selector
      rw [stands, forcedState_side] at result
      rw [stands, ← result]
      exact answered
    next moves =>
      rw [Option.some.injEq] at moves
      have answered := Answered.of_service (c := .force tag circuit target) (r := .force circuit target) rfl hs
        (fun _ => nofun) (serve.trans (if_neg moves))
      have moved := State.stopped_moved (s := s.enqueue tag (.force circuit target))
        (State.selectedSide_of_selector selector) (State.forcedState x) .force
      rw [protectionResult_of_moved moved rfl, forcedState_side] at answered
      exact ⟨_, answered, moved.withLink s.lnk⟩

theorem serveLockout_of_pair (s : State) (id : idOf 24 circuit = some c) {st : SelState}
    (selector : (s.circuit c).selector = some st) :
    s.serveLockout circuit =
      if st = .lockout then (s, ⟨.ok, s.protectionResult c⟩)
      else ((s.stopTimers c).changeSelector c .lockout .lockout,
        ⟨.ok, ((s.stopTimers c).changeSelector c .lockout .lockout).protectionResult c⟩) := by
  simp only [State.serveLockout, id, selector, okWith]
  split <;> rfl

theorem lockout_answered (hs : s.Ready) (id : idOf 24 circuit = some c) :
    let k := s.circuit c
    match k.selector with
    | none => Answered (.lockout tag circuit) s ⟨.state, .empty⟩ s
    | some .lockout =>
      Answered (.lockout tag circuit) s ⟨.ok, .protection k.selector (some (routeOf c .a)) k.switchCount⟩ s
    | some _ =>
      let x := k.ordered .lockout .lockout s.tb.frame
      ∃ t, Answered (.lockout tag circuit) s
        ⟨.ok, .protection (some .lockout) (some (routeOf c .a)) x.switchCount⟩ t ∧ s.SelectorMoved t c x := by
  dsimp only
  cases selector : (s.circuit c).selector with
  | none =>
    refine .of_read (r := .lockout circuit) rfl hs (fun _ => nofun) ?_
    simp only [State.serveBody, State.serveLockout, id, State.enqueue_circuit, selector, refusal]
  | some st =>
    have serve := serveLockout_of_pair (s.enqueue tag (.lockout circuit)) id selector
    by_cases stands : st = .lockout
    · subst stands
      have answered := Answered.of_read (c := .lockout tag circuit) (r := .lockout circuit) rfl hs (fun _ => nofun)
        (serve.trans (if_pos rfl))
      have result := protectionResult_of_selector selector
      dsimp only
      exact result ▸ answered
    · have answered := Answered.of_service (c := .lockout tag circuit) (r := .lockout circuit) rfl hs (fun _ => nofun)
        (serve.trans (if_neg stands))
      have moved := State.stopped_moved (s := s.enqueue tag (.lockout circuit))
        (State.selectedSide_of_selector selector) .lockout .lockout
      rw [protectionResult_of_moved moved rfl] at answered
      split
      next none => exact absurd none nofun
      next lockout => exact absurd (Option.some.inj lockout) stands
      next => exact ⟨_, answered, moved.withLink s.lnk⟩

theorem serveClear_of_pair (s : State) (id : idOf 24 circuit = some c) {st : SelState}
    (selector : (s.circuit c).selector = some st) :
    s.serveClear circuit =
      if st.automatic = true then (s, ⟨.state, .empty⟩)
      else (((s.stopTimers c).changeSelector c (State.autoState st.side) .clear).evaluate c .clear, ⟨.ok,
        (((s.stopTimers c).changeSelector c (State.autoState st.side) .clear).evaluate c .clear).protectionResult c⟩) := by
  simp only [State.serveClear, id, selector]
  split <;> rfl

/-- An accepted CLEAR. -/
theorem clear_answered_of_held (hs : s.Ready) (id : idOf 24 circuit = some c) {st : SelState}
    (selector : (s.circuit c).selector = some st) (held : st.automatic = false) :
    ∃ u t : State, s.SelectorMoved u c ((s.circuit c).ordered (State.autoState st.side) .clear s.tb.frame) ∧
      u.Evaluated t c .clear ∧ Answered (.clear tag circuit) s
        ⟨.ok, .protection (t.circuit c).selector (t.selectedRoute c) (t.circuit c).switchCount⟩ t := by
  have serve := serveClear_of_pair (s.enqueue tag (.clear circuit)) id selector
  have answered := Answered.of_service (c := .clear tag circuit) (r := .clear circuit) rfl hs (fun _ => nofun)
    (serve.trans (if_neg (by simp [held])))
  have moved := State.stopped_moved (s := s.enqueue tag (.clear circuit)) (State.selectedSide_of_selector selector)
    (State.autoState st.side) .clear
  have evaluated := State.evaluate_evaluated
    (((s.enqueue tag (.clear circuit)).stopTimers c).changeSelector c (State.autoState st.side) .clear) c .clear
  exact ⟨_, _, moved.withLink s.lnk, evaluated.withLink s.lnk, answered⟩

theorem clear_answered (hs : s.Ready) (id : idOf 24 circuit = some c) :
    let k := s.circuit c
    match k.selector with
    | none | some .selA | some .selB | some .wtr => Answered (.clear tag circuit) s ⟨.state, .empty⟩ s
    | some .forcedA | some .forcedB | some .lockout =>
      let auto : SelState := if k.selector = some .forcedB then .selB else .selA
      ∃ u t : State, s.SelectorMoved u c (k.ordered auto .clear s.tb.frame) ∧ u.Evaluated t c .clear ∧
        Answered (.clear tag circuit) s
          ⟨.ok, .protection (t.circuit c).selector (t.selectedRoute c) (t.circuit c).switchCount⟩ t := by
  dsimp only
  cases selector : (s.circuit c).selector with
  | none =>
    refine .of_read (r := .clear circuit) rfl hs (fun _ => nofun) ?_
    simp only [State.serveBody, State.serveClear, id, State.enqueue_circuit, selector, refusal]
  | some st =>
    have refused (auto : st.automatic = true) : Answered (.clear tag circuit) s ⟨.state, .empty⟩ s :=
      .of_read (r := .clear circuit) rfl hs (fun _ => nofun)
        ((serveClear_of_pair (s.enqueue tag (.clear circuit)) id selector).trans (if_pos auto))
    cases st with
    | selA | selB | wtr => exact refused rfl
    | forcedA | forcedB | lockout => exact clear_answered_of_held hs id selector rfl

end

/-- Settles O33: each order by the circuit's selector state. -/
theorem protectionOrders : Obligations.ProtectionOrders := by
  intro tag circuit target s hs
  split
  next h =>
    have id := idOf_of_lt h
    refine ⟨?_, lockout_answered hs id, clear_answered hs id⟩
    split
    next bad => exact force_answered_of_badField hs fun ok => absurd ok.2 (by omega)
    next ok => exact force_answered hs id (by omega)
  next bad =>
    exact ⟨force_answered_of_badField hs fun ok => bad ok.1, lockout_answered_of_badField hs bad,
      clear_answered_of_badField hs bad⟩

/-! ### SET_CIRCUIT (R41 to R44) -/

theorem modeOf_of_lt {b : Byte} (h : b.toNat < 2) : modeOf b = some (if b = 0 then .pair else .split) := by
  by_cases zero : b = 0
  · subst zero; rfl
  · have one : b = 1 := by
      by_contra one
      exact zero (eq_zero_of_toNat_lt_two h one)
    subst one
    rfl

theorem modeOf_of_not_lt {b : Byte} (h : ¬b.toNat < 2) : modeOf b = none := by
  have zero : b ≠ 0 := fun e => h (by rw [e]; decide)
  have one : b ≠ 1 := fun e => h (by rw [e]; decide)
  rw [modeOf, if_neg zero, if_neg one]

/-- What a change of mode finds in use (R41). -/
theorem circuitInUse_iff (s : State) (c : Fin 24) :
    s.circuitInUse c = true ↔
      (∃ i p, s.place i = some p ∧ (routeOf c .a ∈ p.booking.feeds ∨ routeOf c .b ∈ p.booking.feeds)) ∨
        ∃ q, (s.xport q).patch = some (routeOf c .a) ∨ (s.xport q).patch = some (routeOf c .b) := by
  have feeds (b : Booking) : (b.feeds.any [routeOf c .a, routeOf c .b].contains) = true ↔
      routeOf c .a ∈ b.feeds ∨ routeOf c .b ∈ b.feeds := by
    simp only [List.any_eq_true, List.contains_iff_mem, List.mem_pair]
    constructor
    · rintro ⟨f, mem, rfl | rfl⟩
      · exact .inl mem
      · exact .inr mem
    · rintro (mem | mem)
      · exact ⟨_, mem, .inl rfl⟩
      · exact ⟨_, mem, .inr rfl⟩
  have patch (o : Option (Fin 48)) : (o.any fun r => circuitOf r == c) = true ↔
      o = some (routeOf c .a) ∨ o = some (routeOf c .b) := by
    cases o with
    | none => simp
    | some r =>
      simp only [Option.any_some, beq_iff_eq, Option.some.injEq]
      constructor
      · rintro rfl
        cases side : sideOf r with
        | a => exact .inl (by rw [← side, routeOf_circuitOf])
        | b => exact .inr (by rw [← side, routeOf_circuitOf])
      · rintro (rfl | rfl) <;> exact circuitOf_routeOf ..
  simp only [State.circuitInUse, Bool.or_eq_true, State.feedBooked, Bool.not_eq_true', List.isEmpty_eq_false_iff,
    State.recordsWhere, ne_eq, List.filter_eq_nil_iff, not_forall, not_not, List.mem_finRange, Option.any_eq_true, feeds,
    List.any_eq_true, patch, true_and, exists_prop]

/-- The record of a circuit with the options of a SET_CIRCUIT (R41). -/
def Circuit.withOptions (k : Circuit) (revertive degSwitch : Byte) (guardTime wtrSecs : Half) : Circuit :=
  { k with
    revertive := revertive == 1, degSwitch := degSwitch == 1, guardTime := min 10000 guardTime.toNat
    wtrSecs := min 3600 wtrSecs.toNat }

/-- What an accepted SET_CIRCUIT makes (R42 to R44), the circuit `k` having taken the record `x`. -/
def State.circuitSet (s : State) (c : Fin 24) (x : Circuit) (m : Mode) : State :=
  match (s.circuit c).mode, m with
  | .pair, .split => (s.setCircuit c x).toSplit c
  | .split, .pair => (s.setCircuit c x).toPair c
  | .pair, .pair => (s.setCircuit c x).applyOptions c (s.circuit c)
  | .split, .split => s.setCircuit c x

section
variable {circuit mode revertive degSwitch : Byte} {guardTime wtrSecs : Half}

theorem serveSetCircuit_of_badField (s : State)
    (bad : ¬(circuit.toNat < 24 ∧ mode.toNat < 2 ∧ revertive.toNat < 2 ∧ degSwitch.toNat < 2)) :
    s.serveSetCircuit circuit mode revertive degSwitch guardTime wtrSecs = (s, ⟨.badField, .empty⟩) := by
  unfold State.serveSetCircuit
  by_cases range : circuit.toNat < 24
  · by_cases m : mode.toNat < 2
    · by_cases rev : revertive.toNat < 2
      · have deg : ¬degSwitch.toNat < 2 := fun deg => bad ⟨range, m, rev, deg⟩
        rw [idOf_of_lt range, modeOf_of_lt m, yesNo_of_lt rev, yesNo_of_not_lt deg]
        rfl
      · rw [idOf_of_lt range, modeOf_of_lt m, yesNo_of_not_lt rev]
        rfl
    · rw [idOf_of_lt range, modeOf_of_not_lt m]
      rfl
  · rw [idOf_of_not_lt range]
    rfl

theorem serveSetCircuit_of_valid (s : State) (range : circuit.toNat < 24) (ok : mode.toNat < 2)
    (rev : revertive.toNat < 2) (deg : degSwitch.toNat < 2) :
    let c : Fin 24 := ⟨circuit.toNat, range⟩
    let m : Mode := if mode = 0 then .pair else .split
    let t := s.circuitSet c ((s.circuit c).withOptions revertive degSwitch guardTime wtrSecs) m
    s.serveSetCircuit circuit mode revertive degSwitch guardTime wtrSecs =
      if m ≠ (s.circuit c).mode ∧ s.circuitInUse c = true then (s, ⟨.inUse, .empty⟩)
      else if m ≠ (s.circuit c).mode ∧ (s.drill c).isSome = true then (s, ⟨.state, .empty⟩)
      else (t, ⟨.ok, .circuit (t.circuitView c)⟩) := by
  simp only [State.serveSetCircuit, idOf_of_lt range, modeOf_of_lt ok, yesNo_of_lt rev, yesNo_of_lt deg, refusal, okWith,
    clamp_zero]
  rfl

end

/-- The effect of changed options on a circuit that stays in PAIR (R44). -/
theorem applyOptions_takes (s : State) (c : Fin 24) {x : Circuit} (same : x.selector = (s.circuit c).selector) :
    let k := s.circuit c
    let stored := s.setCircuit c x
    ∃ u : State,
      (if k.revertive = true ∧ x.revertive = false ∧ k.selector = some .wtr then
        stored.SelectorMoved u c (x.fallenBack s.tb.frame)
      else u = stored) ∧
      if (k.revertive ≠ x.revertive ∨ k.degSwitch ≠ x.degSwitch) ∧
          (k.selector = some .selA ∨ k.selector = some .selB ∨ k.selector = some .wtr) then
        u.Evaluated (stored.applyOptions c k) c .auto
      else stored.applyOptions c k = u := by
  have record : (s.setCircuit c x).circuit c = x := State.setCircuit_circuit s c x
  have automatic : x.selector.any (·.automatic) = true ↔
      (s.circuit c).selector = some .selA ∨ (s.circuit c).selector = some .selB ∨ (s.circuit c).selector = some .wtr := by
    rw [same]
    cases (s.circuit c).selector with
    | none => simp
    | some st => cases st <;> simp [SelState.automatic]
  have changed : ((s.circuit c).revertive != x.revertive || (s.circuit c).degSwitch != x.degSwitch) = true ↔
      (s.circuit c).revertive ≠ x.revertive ∨ (s.circuit c).degSwitch ≠ x.degSwitch := by
    rw [Bool.or_eq_true, bne_iff_ne, bne_iff_ne]
  obtain ⟨u, hu⟩ : ∃ u, (if (s.circuit c).revertive = true ∧ x.revertive = false ∧
      (s.circuit c).selector = some .wtr then
    ((s.setCircuit c x).setCircuit c { x with wtr := none }).changeSelector c .selB .auto else s.setCircuit c x) = u :=
    ⟨_, rfl⟩
  have eq : (s.setCircuit c x).applyOptions c (s.circuit c) =
      if ((s.circuit c).revertive != x.revertive || (s.circuit c).degSwitch != x.degSwitch) = true ∧
        x.selector.any (·.automatic) = true then u.evaluate c .auto else u := by
    rw [← hu]
    simp only [State.applyOptions, record, Bool.not_eq_true', same, Bool.and_eq_true]
  simp only [changed, automatic] at eq
  refine ⟨u, ?_, ?_⟩
  · rw [← hu]
    split
    next left =>
      have moved := State.fallBack_moved (s := s.setCircuit c x) (c := c) (by rw [record, same]; exact left.2.2)
      rwa [record] at moved
    next => rfl
  · rw [eq]
    split
    next => exact State.evaluate_evaluated u c .auto
    next => rfl

theorem setCircuit_setCircuit (s : State) (c : Fin 24) (x y : Circuit) :
    (s.setCircuit c x).setCircuit c y = s.setCircuit c y := by
  simp only [State.setCircuit, upd_upd]

/-- What an accepted SET_CIRCUIT makes, by the two modes. LNK has no part in it. -/
theorem circuitSet_takes (s : State) (c : Fin 24) {x : Circuit} (same : x.selector = (s.circuit c).selector) (m : Mode)
    (l : LNK) :
    let k := s.circuit c
    let v : State := { s with lnk := l }
    let t : State := { s.circuitSet c x m with lnk := l }
    let stored := v.setCircuit c x
    match k.mode, m with
    | .split, .split => t = stored
    | .pair, .split => t = v.setCircuit c { x with selector := none, guard := none, wtr := none }
    | .split, .pair => (v.setCircuit c { x with selector := some .selA, guard := none, wtr := none }).Evaluated t c .auto
    | .pair, .pair => ∃ u : State,
      (if k.revertive = true ∧ x.revertive = false ∧ k.selector = some .wtr then
        stored.SelectorMoved u c (x.fallenBack s.tb.frame)
      else u = stored) ∧
      if (k.revertive ≠ x.revertive ∨ k.degSwitch ≠ x.degSwitch) ∧
          (k.selector = some .selA ∨ k.selector = some .selB ∨ k.selector = some .wtr) then
        u.Evaluated t c .auto
      else t = u := by
  have record : (s.setCircuit c x).circuit c = x := State.setCircuit_circuit s c x
  dsimp only
  unfold State.circuitSet
  cases was : (s.circuit c).mode <;> cases m
  case split.split => rfl
  case pair.split =>
    simp only [State.toSplit, record, setCircuit_setCircuit]
    rfl
  case split.pair =>
    simp only [State.toPair, record, setCircuit_setCircuit]
    exact (State.evaluate_evaluated (s.setCircuit c { x with selector := some .selA, guard := none, wtr := none }) c
      .auto).withLink l
  case pair.pair =>
    obtain ⟨u, first, second⟩ := applyOptions_takes s c same
    refine ⟨{ u with lnk := l }, ?_, ?_⟩
    · split at first
      next left => exact (if_pos left).mpr (first.withLink l)
      next stays => exact (if_neg stays).mpr (by rw [first]; rfl)
    · split at second
      next both => exact (if_pos both).mpr (second.withLink l)
      next neither => exact (if_neg neither).mpr (by rw [second])

/-- Settles O34: the checks in order, and then what the two modes give. -/
theorem setCircuit : Obligations.SetCircuit := by
  intro tag circuit mode revertive degSwitch guardTime wtrSecs s hs
  dsimp only
  split
  next h =>
    obtain ⟨range, ok, rev, deg⟩ := h
    have serve := serveSetCircuit_of_valid (guardTime := guardTime) (wtrSecs := wtrSecs)
      (s.enqueue tag (.setCircuit circuit mode revertive degSwitch guardTime wtrSecs)) range ok rev deg
    dsimp only at serve
    generalize (⟨circuit.toNat, range⟩ : Fin 24) = c at serve ⊢
    generalize (if mode = 0 then Mode.pair else .split : Mode) = m at serve ⊢
    have in_use := circuitInUse_iff s c
    have drill : (s.drill c).isSome = true ↔ s.drill c ≠ none := Option.isSome_iff_ne_none
    split
    next used =>
      exact .of_read (r := .setCircuit circuit mode revertive degSwitch guardTime wtrSecs) rfl hs (fun _ => nofun)
        (serve.trans (if_pos ⟨used.1, in_use.mpr used.2⟩))
    next unused =>
      split
      next drilled =>
        exact .of_read (r := .setCircuit circuit mode revertive degSwitch guardTime wtrSecs) rfl hs (fun _ => nofun)
          (serve.trans ((if_neg fun h => unused ⟨h.1, in_use.mp h.2⟩).trans (if_pos ⟨drilled.1, drill.mpr drilled.2⟩)))
      next undrilled =>
        have answered := Answered.of_service
          (c := .setCircuit tag circuit mode revertive degSwitch guardTime wtrSecs)
          (r := .setCircuit circuit mode revertive degSwitch guardTime wtrSecs) rfl hs (fun _ => nofun)
          (serve.trans ((if_neg fun h => unused ⟨h.1, in_use.mp h.2⟩).trans (if_neg fun h => undrilled ⟨h.1, drill.mp h.2⟩)))
        exact ⟨_, answered, circuitSet_takes
          (s.enqueue tag (.setCircuit circuit mode revertive degSwitch guardTime wtrSecs)) c
          (x := (s.circuit c).withOptions revertive degSwitch guardTime wtrSecs) rfl m s.lnk⟩
  next bad =>
    exact .of_read (r := .setCircuit circuit mode revertive degSwitch guardTime wtrSecs) rfl hs (fun _ => nofun)
      (serveSetCircuit_of_badField _ bad)

end Sys2Proof.Machine
end

