-- ==== Sys2Proof/Proofs/BookingLife.lean ====
section
/-! PROOFS. What BKU does with one record: it starts (R104, R107), ends (R116), is extended (R111) or leaves service with a
settlement record (R95, R96, R164, R165); and so what the trigger, the marker, a cue edge and the end entry make of it. -/

namespace Sys2Proof.Machine
namespace State

/-! ### One record changed -/

theorem setPlace_setPlace (s : State) (i : Fin 192) (p q : Option Place) :
    (s.setPlace i p).setPlace i q = s.setPlace i q := by
  simp only [setPlace, upd_upd]

section
variable {s : State} {i : Fin 192} {p : Place} (here : s.place i = some p)
include here

theorem onPlace_of_some (f : Place → Place) : s.onPlace i f = s.setPlace i (some (f p)) := by
  rw [onPlace, here]

theorem onBooking_of_some (f : Booking → Booking) :
    s.onBooking i f = s.setPlace i (some { p with booking := f p.booking }) := onPlace_of_some here _

theorem onMeter_of_some (f : MeterSet → MeterSet) :
    s.onMeter i f = s.setPlace i (some { p with meter := f p.meter }) := onPlace_of_some here _

theorem enterState_of_some (st : BookingState) (why : Reason) :
    s.enterState i st why =
      (s.setPlace i (some { p with booking := { p.booking with state := st, reason := some why } })).raise
        (bookingObject i) := by
  rw [enterState, onBooking_of_some here]

end

/-! ### The ports of a record -/

theorem map_fst_slotsOf (i : Fin 192) (b : Booking) : (slotsOf i b).map Prod.fst = b.ports := by
  simp only [slotsOf, List.map_map]
  exact List.zipIdx_map_fst ..

theorem mem_slotsOf {i : Fin 192} {b : Booking} {n : Nat} {q : Fin 32} (h : b.ports[n]? = some q) :
    (q, (⟨i, n, b.id⟩ : SlotRef)) ∈ slotsOf i b := by
  refine List.mem_map.mpr ⟨(q, n), ?_, rfl⟩
  rwa [List.mem_zipIdx_iff_getElem?]

/-- A record joins a rider list with its mark alone (R125). -/
theorem mem_addRider_iff {l : List Rider} {r q : Rider} : q ∈ addRider l r ↔ q = r ∨ q ∈ l ∧ q.record ≠ r.record := by
  unfold addRider
  split
  next rides =>
    obtain ⟨x, mem, same⟩ := List.any_eq_true.mp rides
    rw [beq_iff_eq] at same
    rw [List.mem_map]
    constructor
    · rintro ⟨y, hy, rfl⟩
      split
      next => exact .inl rfl
      next ne => exact .inr ⟨hy, ne⟩
    · rintro (rfl | ⟨hq, ne⟩)
      · exact ⟨x, mem, if_pos same⟩
      · exact ⟨q, hq, if_neg ne⟩
  next absent =>
    have apart {q : Rider} (hq : q ∈ l) : q.record ≠ r.record := fun e =>
      absent (List.any_eq_true.mpr ⟨q, hq, beq_iff_eq.mpr e⟩)
    rw [List.mem_append, List.mem_singleton, or_comm]
    exact or_congr_right ⟨fun hq => ⟨hq, apart hq⟩, And.left⟩

/-- Ports changed one after another, each by the slot named with it. -/
structure SlotsTaken (s t : State) (f : XPort → SlotRef → XPort) (l : List (Fin 32 × SlotRef)) : Prop where
  taken : (l.map Prod.fst).Nodup → ∀ q ref, (q, ref) ∈ l → t.xport q = f (s.xport q) ref
  others : ∀ q, q ∉ l.map Prod.fst → t.xport q = s.xport q
  frame : (∀ x ref, (f x ref).committed = x.committed ∧ (f x ref).holder = x.holder) → s.FlightKept t
  only : t = { s with xpc := { s.xpc with ports := t.xpc.ports } }

theorem foldl_onXPort_taken (f : XPort → SlotRef → XPort) (l : List (Fin 32 × SlotRef)) (s : State) :
    s.SlotsTaken (l.foldl (fun acc x => acc.onXPort x.1 (f · x.2)) s) f l := by
  induction l generalizing s with
  | nil => exact ⟨fun _ _ _ h => absurd h List.not_mem_nil, fun _ _ => rfl, fun _ => .refl s, rfl⟩
  | cons x l ih =>
    obtain ⟨p, r⟩ := x
    rw [List.foldl_cons]
    have h := ih (s.onXPort p (f · r))
    have port (q : Fin 32) := onXPort_xport s p q (f · r)
    refine ⟨fun nodup q ref mem => ?_, fun q out => ?_, fun keeps => ?_, ?_⟩
    · rw [List.map_cons, List.nodup_cons] at nodup
      obtain ⟨new, nodup⟩ := nodup
      rcases List.mem_cons.mp mem with e | mem
      · obtain ⟨rfl, rfl⟩ := Prod.mk.inj e
        rw [h.others q new, port, if_pos rfl]
      · have ne : p ≠ q := fun e => new (by rw [e]; exact List.mem_map.mpr ⟨(q, ref), mem, rfl⟩)
        rw [h.taken nodup q ref mem, port, if_neg ne]
    · rw [List.map_cons, List.mem_cons, not_or] at out
      rw [h.others q out.2, port, if_neg (Ne.symm out.1)]
    · refine FlightKept.trans (t := s.onXPort p (f · r)) ⟨rfl, fun q => ?_⟩ (h.frame keeps)
      rw [port]
      split
      · exact keeps _ r
      · exact ⟨rfl, rfl⟩
    · rw [h.only]
      rfl

/-! ### STARTING (R107) -/

theorem enterStarting_started {s : State} {i : Fin 192} {p : Place} (here : s.place i = some p) (why : Reason) :
    s.Started (s.enterStarting i why) i p why := by
  set ended := p.booking.ports.any fun q => (s.xport q).patch.isSome with ended_eq
  set s1 := (s.setPlace i (some { p with booking := { p.booking with
    state := .starting, reason := some why, patchReleased := p.booking.patchReleased || ended } })).raise
    (bookingObject i) with s1_eq
  have eq : s.enterStarting i why =
      (slotsOf i p.booking).foldl (fun acc x => acc.onXPort x.1 (·.startConnect x.2)) s1 := by
    rw [enterStarting, here]
    dsimp only
    rw [onBooking_of_some here, enterState_of_some (setPlace_place ..), setPlace_setPlace]
  have taken := foldl_onXPort_taken (fun x ref => x.startConnect ref) (slotsOf i p.booking) s1
  rw [← eq] at taken
  have port (q : Fin 32) : s1.xport q = s.xport q := rfl
  have flight : s.FlightKept (s.enterStarting i why) := taken.frame fun _ _ => ⟨rfl, rfl⟩
  refine ⟨?_, ?_, fun nodup n q slot => ?_, fun q out => ?_, ?_⟩
  · rw [taken.only]
    rfl
  · rw [taken.only]
    rfl
  · rw [taken.taken (by rwa [map_fst_slotsOf]) q _ (mem_slotsOf slot), port]
    refine ⟨rfl, _, rfl, rfl, ?_⟩
    exact mem_addRider_iff.mpr (.inl rfl)
  · rw [taken.others q (by rwa [map_fst_slotsOf]), port]
  · rw [OutsideLife]
    refine ⟨?_, ?_, ?_, ?_, ?_, ?_, ?_, ?_, ?_, flight⟩ <;> (rw [taken.only]; rfl)

/-! ### ENDING (R116) -/

/-- The meters of a record that enters ENDING: an open episode closes, and the set is frozen (R149, R151). -/
theorem freeze_meters (grace : Nat) (m : MeterSet) :
    (m.freeze grace).phase = .frozen ∧ (m.freeze grace).episode = none ∧ (m.freeze grace).l = m.l ∧
      (m.freeze grace).s = m.s ∧ (m.freeze grace).o = m.o ∧ (m.freeze grace).t = m.t ∧ (m.freeze grace).nt = m.nt ∧
      (m.freeze grace).np = m.np ∧ (m.freeze grace).suspectSeen = m.suspectSeen ∧
      (m.freeze grace).copies = m.copies ∧
      ((m.freeze grace).episodes, (m.freeze grace).longest, (m.freeze grace).oc) =
        match m.episode with
        | none | some 0 => (m.episodes, m.longest, m.oc)
        | some (k + 1) => (min max16 (m.episodes + 1), max m.longest (k + 1),
            if grace * 1000 ≤ k + 1 then m.oc + (k + 1) else m.oc) := by
  unfold MeterSet.freeze MeterSet.closeEpisode
  cases episode : m.episode with
  | none => exact ⟨rfl, episode, rfl, rfl, rfl, rfl, rfl, rfl, rfl, rfl, rfl⟩
  | some n =>
    cases n with
    | zero => exact ⟨rfl, rfl, rfl, rfl, rfl, rfl, rfl, rfl, rfl, rfl, rfl⟩
    | succ k => exact ⟨rfl, rfl, rfl, rfl, rfl, rfl, rfl, rfl, rfl, rfl, rfl⟩

theorem enterEnding_ended {s : State} {i : Fin 192} {p : Place} (here : s.place i = some p) (why : Reason) :
    s.Ended (s.enterEnding i why) i p why := by
  set q : Place := { p with
    booking := { p.booking with state := .ending, reason := some why, endSecond := some s.tb.seconds } }
  set s1 := (s.setPlace i (some { q with meter := p.meter.freeze (s.terms p.booking).grace })).raise (bookingObject i)
  have eq : s.enterEnding i why =
      (slotsOf i p.booking).foldl (fun acc x => acc.onXPort x.1 (·.disconnect x.2)) s1 := by
    have entered : (s.onBooking i fun b => { b with endSecond := some s.tb.seconds }).enterState i .ending why =
        (s.setPlace i (some q)).raise (bookingObject i) := by
      rw [onBooking_of_some here, enterState_of_some (setPlace_place ..), setPlace_setPlace]
    rw [enterEnding, here]
    dsimp only
    rw [entered, onMeter_of_some (s := (s.setPlace i (some q)).raise (bookingObject i)) (setPlace_place s i (some q))]
    exact congrArg (fun u : State => (slotsOf i p.booking).foldl _ (u.raise (bookingObject i))) (setPlace_setPlace ..)
  have taken := foldl_onXPort_taken (fun x ref => x.disconnect ref) (slotsOf i p.booking) s1
  rw [← eq] at taken
  have port (q : Fin 32) : s1.xport q = s.xport q := rfl
  have flight : s.FlightKept (s.enterEnding i why) := taken.frame fun _ _ => ⟨rfl, rfl⟩
  refine ⟨⟨p.meter.freeze (s.terms p.booking).grace, ?_, freeze_meters _ _⟩, ?_, fun nodup n q slot => ?_,
    fun q out => ?_, ?_⟩
  · rw [taken.only]
    rfl
  · rw [taken.only]
    rfl
  · rw [taken.taken (by rwa [map_fst_slotsOf]) q _ (mem_slotsOf slot), port]
    refine ⟨rfl, _, rfl, mem_addRider_iff.mpr (.inl rfl), fun rides => ?_, rfl⟩
    rcases mem_addRider_iff.mp rides with e | ⟨-, ne⟩
    · cases e
    · exact ne rfl
  · rw [taken.others q (by rwa [map_fst_slotsOf]), port]
  · rw [OutsideLife]
    refine ⟨?_, ?_, ?_, ?_, ?_, ?_, ?_, ?_, ?_, flight⟩ <;> (rw [taken.only]; rfl)

/-! ### The trigger (R104, R106, R103) -/

theorem portsFree_iff (s : State) (i : Fin 192) (b : Booking) : s.portsFree i b = true ↔ ¬s.occupied i b := by
  simp only [portsFree, List.all_eq_true, Bool.or_eq_true, beq_iff_eq, Bool.not_eq_true', Bool.or_eq_false_iff,
    beq_eq_false_iff_ne, occupied, not_exists, not_and, not_or]
  constructor
  · intro h q hq j hj ne
    rcases h q hq j hj with same | ⟨⟨starting, live⟩, runOn⟩
    · exact absurd same ne
    · exact ⟨starting, live, runOn⟩
  · intro h q hq j hj
    by_cases same : j = i
    · exact .inl same
    · obtain ⟨starting, live, runOn⟩ := h q hq j hj same
      exact .inr ⟨⟨starting, live⟩, runOn⟩

theorem feedsAvailable_iff (s : State) (b : Booking) : s.feedsAvailable b = true ↔ ¬s.unavailable b := by
  have available (f : Fin 48) : s.feedAvailable f = true ↔ ¬∀ r, s.carrying f = some r → (s.health r).usable = false := by
    rw [feedAvailable, Option.any_eq_true]
    simp only [not_forall, Bool.not_eq_false, exists_prop]
  simp only [feedsAvailable, List.all_eq_true, available, unavailable, not_exists, not_and]

/-- The start test (R104). -/
theorem startTest_cases (s : State) (i : Fin 192) (b : Booking) :
    (s.occupied i b ∧ s.startTest i b = some .portOccupied) ∨
      (¬s.occupied i b ∧ b.startRule = .allOrWait ∧ s.unavailable b ∧ s.startTest i b = some .feedsUnavailable) ∨
      (¬s.occupied i b ∧ ¬(b.startRule = .allOrWait ∧ s.unavailable b) ∧ s.startTest i b = none) := by
  by_cases occupied : s.occupied i b
  · have busy : s.portsFree i b = false := Bool.eq_false_iff.mpr fun free => (portsFree_iff s i b).mp free occupied
    exact .inl ⟨occupied, by rw [startTest, busy]; rfl⟩
  · have free : s.portsFree i b = true := (portsFree_iff s i b).mpr occupied
    by_cases waits : b.startRule = .allOrWait ∧ s.unavailable b
    · have none : s.feedsAvailable b = false := Bool.eq_false_iff.mpr fun all => (feedsAvailable_iff s b).mp all waits.2
      exact .inr (.inl ⟨occupied, waits.1, waits.2, by simp [startTest, free, none, waits.1]⟩)
    · refine .inr (.inr ⟨occupied, waits, ?_⟩)
      have starts : ¬(b.startRule = .allOrWait ∧ (!s.feedsAvailable b) = true) := fun ⟨rule, lacks⟩ =>
        waits ⟨rule, by_contra fun all => by rw [(feedsAvailable_iff s b).mpr all] at lacks; cases lacks⟩
      simp only [startTest, free, Bool.not_true, Bool.false_eq_true, if_false, if_neg starts]

theorem enterState_waiting {s : State} {i : Fin 192} {p : Place} (here : s.place i = some p) (why : Reason) :
    s.enterState i .waiting why = s.waiting i p why := enterState_of_some here .waiting why

theorem trigger_triggered {s : State} {i : Fin 192} {p : Place} (here : s.place i = some p) (cause : Reason) :
    s.Triggered (s.trigger i cause) i p cause := by
  unfold trigger
  rw [here]
  dsimp only
  rcases startTest_cases s i p.booking with ⟨occupied, test⟩ | ⟨free, rule, none, test⟩ | ⟨free, starts, test⟩
  · rw [test]
    exact ⟨fun _ => enterState_waiting here _, fun free => absurd occupied free, fun free => absurd occupied free⟩
  · rw [test]
    exact ⟨fun occupied => absurd occupied free, fun _ _ _ => enterState_waiting here _,
      fun _ all => absurd none (all rule)⟩
  · rw [test]
    exact ⟨fun occupied => absurd occupied free, fun _ rule none => absurd ⟨rule, none⟩ starts,
      fun _ _ => enterStarting_started here cause⟩

theorem waitingTest_tested (s : State) (i : Fin 192) : State.Tested i s (s.waitingTest i) := by
  unfold Tested waitingTest
  cases here : s.place i with
  | none => rfl
  | some p =>
    dsimp only
    split
    next waits =>
      rcases startTest_cases s i p.booking with ⟨occupied, test⟩ | ⟨free, rule, none, test⟩ | ⟨free, starts, test⟩
      · rw [test]
        exact ⟨fun _ => by simp only [enterState_waiting here], fun free => absurd occupied free,
          fun free => absurd occupied free⟩
      · rw [test]
        exact ⟨fun occupied => absurd occupied free, fun _ _ _ => by simp only [enterState_waiting here],
          fun _ all => absurd none (all rule)⟩
      · rw [test]
        exact ⟨fun occupied => absurd occupied free, fun _ rule none => absurd ⟨rule, none⟩ starts,
          fun _ _ => enterStarting_started here _⟩
    next => rfl

/-- A fold whose every step is an event is the events in their order. -/
theorem foldl_inOrder {α : Type} {r : α → State → State → Prop} {f : State → α → State} (h : ∀ s a, r a s (f s a))
    (l : List α) (s : State) : InOrder r l s (l.foldl f s) := by
  induction l generalizing s with
  | nil => rfl
  | cons a l ih => exact ⟨_, h s a, ih _⟩

theorem waitingTests_taken (s : State) : s.WaitingTaken s.waitingTests := foldl_inOrder waitingTest_tested _ s

theorem edgeMatches_iff {setting : Option Edge} {dir : Edge} :
    edgeMatches setting dir = true ↔ setting = some dir ∨ setting = some .both := by
  rw [edgeMatches, Bool.or_eq_true, beq_iff_eq, beq_iff_eq]

theorem cueOffer_offered (l : Fin 4) (dir : Edge) (s : State) :
    InOrder (State.Offered l dir) (List.finRange 192) s (s.cueOffer l dir) := by
  refine foldl_inOrder (fun s i => ?_) _ s
  unfold Offered
  cases here : s.place i with
  | none => rfl
  | some p =>
    dsimp only
    by_cases takes : p.booking.state = .armed ∧ p.booking.cueLine = some l ∧ edgeMatches p.booking.cueEdge dir = true
    · rw [if_pos takes, if_pos ⟨takes.1, takes.2.1, edgeMatches_iff.mp takes.2.2⟩]
      exact trigger_triggered (s := { s with bku := s.bku.dropEntry i .start }) here .cueStart
    · rw [if_neg takes, if_neg fun h => takes ⟨h.1, h.2.1, edgeMatches_iff.mpr h.2.2⟩]

end State
end Sys2Proof.Machine
end

