-- ==== Sys2Proof/Proofs/LeavingService.lean ====
section
/-! PROOFS. A record leaves service with its settlement record (R95, R96, R164, R165), or is extended (R111); and so what
BKU makes of the entries of its time list (O49, O50), of a cue edge (O51) and of a take completion (O42). -/

namespace Sys2Proof.Machine
namespace State

/-! ### Settlement (R95, R164, R165) -/

theorem accountRefs_get (d : DIR) (a c : Fin 16) (f : Nat → Nat) :
    (d.accountRefs a f).accounts.get c =
      { d.accounts.get c with refs := if c = a then f (d.accounts.get c).refs else (d.accounts.get c).refs } := by
  simp only [DIR.accountRefs, upd_get_eq]
  by_cases same : a = c
  · subst same; simp
  · simp [same, Ne.symm same]

theorem handoffRefs_get (d : DIR) (a c : Fin 16) (f : Nat → Nat) :
    (d.handoffRefs a f).handoffs.get c =
      { d.handoffs.get c with refs := if c = a then f (d.handoffs.get c).refs else (d.handoffs.get c).refs } := by
  simp only [DIR.handoffRefs, upd_get_eq]
  by_cases same : a = c
  · subst same; simp
  · simp [same, Ne.symm same]

theorem tariffRefs_get (q : STL) (a c : Fin 8) (f : Nat → Nat) :
    (q.tariffRefs a f).tariffs.get c =
      { q.tariffs.get c with refs := if c = a then f (q.tariffs.get c).refs else (q.tariffs.get c).refs } := by
  simp only [STL.tariffRefs, upd_get_eq]
  by_cases same : a = c
  · subst same; simp
  · simp [same, Ne.symm same]

theorem pred_of_eq_iff (n : Nat) (c : Prop) [Decidable c] : (if c then n - 1 else n) = n - if c then 1 else 0 := by
  split <;> rfl

theorem leaveTimelines_get (k : BKU) (i : Fin 192) (ports : List (Fin 32)) (q : Fin 32) :
    (k.leaveTimelines i ports).timelines.get q =
      if q ∈ ports then (k.timelines.get q).filter (· != i) else k.timelines.get q := tab_get ..

/-- A record that is being released (R95): the record `p` of place `i`, the settlement record having been appended. -/
theorem release_of_some {s : State} {i : Fin 192} {p : Place} (here : s.place i = some p) :
    s.release i = (({ s with bku := (s.bku.leaveTimelines i p.booking.ports).dropEntries i }.countRefs p.booking
      (· - 1)).withdraw (bookingObject i)).setPlace i none := by
  rw [release, here]

/-- The record `q` of place `i` is offered to settlement in `u`, where `s` is the state before its event: a take completion
has already taken it from the timelines (R117), and a CANCEL from the time list (R94). -/
structure Offering (s u : State) (i : Fin 192) (q : Place) : Prop where
  here : u.place i = some q
  others : ∀ j, j ≠ i → u.place j = s.place j
  timelines : ∀ p, (u.bku.leaveTimelines i q.booking.ports).timelines.get p =
    if p ∈ q.booking.ports then (s.timeline p).filter (· != i) else s.timeline p
  entries : (u.bku.dropEntries i).timeList = s.bku.timeList.filter (·.record != i)
  only : u = { s with bku := u.bku }

theorem Offering.of_setPlace (s : State) (i : Fin 192) (q : Place) : s.Offering (s.setPlace i (some q)) i q :=
  ⟨setPlace_place .., fun _ ne => setPlace_place_ne s _ (Ne.symm ne), leaveTimelines_get _ i _, rfl, rfl⟩

theorem Offering.of_leaveTimelines {s : State} {i : Fin 192} {q : Place} (here : s.place i = some q) :
    s.Offering { s with bku := s.bku.leaveTimelines i q.booking.ports } i q := by
  refine ⟨here, fun _ _ => rfl, fun p => ?_, rfl, rfl⟩
  rw [leaveTimelines_get, leaveTimelines_get]
  by_cases mem : p ∈ q.booking.ports
  · rw [if_pos mem, if_pos mem, if_pos mem, List.filter_filter]
    simp only [Bool.and_self]
    rfl
  · rw [if_neg mem, if_neg mem, if_neg mem]
    rfl

theorem settle_left {s u : State} {i : Fin 192} {q : Place} (h : s.Offering u i q) :
    s.LeftService (u.settle i) i q (formSettlement (s.terms q.booking) q.booking q.meter) := by
  have stl : u.stl = s.stl := by rw [h.only]
  have dir : u.dir = s.dir := by rw [h.only]
  have terms : u.terms q.booking = s.terms q.booking := by rw [State.terms, State.terms, stl]
  have settled : u.settle i = if s.stl.hasRoom then
        { u with stl := s.stl.append (formSettlement (s.terms q.booking) q.booking q.meter) }.release i
      else
        ({ u with
            stl := { s.stl with closing := s.stl.closing ++ [i] }
            bku := (u.bku.leaveTimelines i q.booking.ports).dropEntries i }.setPlace i
          (some { q with
            booking := { q.booking with state := .closing }, meter := { q.meter with phase := .frozen }
            held := some (formSettlement (s.terms q.booking) q.booking q.meter) })).raise (bookingObject i) := by
    rw [settle, h.here]
    dsimp only
    rw [stl, terms]
  generalize formSettlement (s.terms q.booking) q.booking q.meter = x at settled ⊢
  have stays : u.tb = s.tb ∧ u.rmon = s.rmon ∧ u.circuits = s.circuits ∧ u.xpc = s.xpc ∧ u.ntc = s.ntc ∧ u.tcu = s.tcu ∧
      u.lnk = s.lnk ∧ u.raceCount = s.raceCount ∧ u.pending = s.pending := by
    rw [h.only]
    exact ⟨rfl, rfl, rfl, rfl, rfl, rfl, rfl, rfl, rfl⟩
  obtain ⟨tb, rmon, circuits, xpc, ntc, tcu, lnk, race, pending⟩ := stays
  by_cases room : s.stl.queue.length < 64
  · rw [STL.hasRoom, if_pos (decide_eq_true room), release_of_some (s := { u with stl := s.stl.append x }) h.here] at settled
    rw [settled]
    refine ⟨fun _ => ⟨setPlace_place .., rfl, rfl, ?_, rfl, fun a => ?_, fun g => ?_, fun k => ?_⟩,
      fun full => absurd room (by omega), fun j ne => ?_, fun p => h.timelines p, ?_, ⟨fun k => ?_, fun a => ?_, fun g => ?_,
        ?_, ?_⟩, tb, rmon, circuits, xpc, tcu, lnk, race, pending⟩
    · exact congrArg (NTC.withdraw · (bookingObject i)) ntc
    · rw [← pred_of_eq_iff, ← dir]
      exact congrArg Account.refs (accountRefs_get u.dir q.booking.account a (· - 1))
    · rw [← pred_of_eq_iff, ← dir]
      exact congrArg Handoff.refs (handoffRefs_get (u.dir.accountRefs q.booking.account (· - 1)) q.booking.handoff g (· - 1))
    · rw [← pred_of_eq_iff]
      exact congrArg Tariff.refs (tariffRefs_get (s.stl.append x) q.booking.tariff k (· - 1))
    · exact (setPlace_place_ne _ _ (Ne.symm ne)).trans (h.others j ne)
    · exact h.entries
    · have get := tariffRefs_get (s.stl.append x) q.booking.tariff k (· - 1)
      have terms := congrArg Tariff.terms get
      have valid := congrArg Tariff.valid get
      exact ⟨terms, valid⟩
    · rw [← dir]
      have permitted := congrArg Account.permitted (accountRefs_get u.dir q.booking.account a (· - 1))
      exact permitted
    · rw [← dir]
      have entry := congrArg Handoff.entry
        (handoffRefs_get (u.dir.accountRefs q.booking.account (· - 1)) q.booking.handoff g (· - 1))
      exact entry
    · rw [← dir]; rfl
    · rw [← dir]; rfl
  · rw [STL.hasRoom, if_neg (by simpa using room)] at settled
    rw [settled]
    refine ⟨fun some_room => absurd some_room room, fun _ => ⟨setPlace_place .., rfl, dir, ?_⟩, fun j ne => ?_,
      fun p => h.timelines p, ?_, ⟨fun k => ⟨rfl, rfl⟩, fun a => ?_, fun g => ?_, ?_, ?_⟩, tb, rmon, circuits, xpc, tcu,
      lnk, race, pending⟩
    · exact congrArg (NTC.raise · (bookingObject i)) ntc
    · exact (setPlace_place_ne _ _ (Ne.symm ne)).trans (h.others j ne)
    · exact h.entries
    · rw [← dir]; rfl
    · rw [← dir]; rfl
    · rw [← dir]; rfl
    · rw [← dir]; rfl

/-- The room of the queue tells whether the settlement record was appended. -/
theorem LeftService.grew_iff {s t : State} {i : Fin 192} {p : Place} {x : Settlement} (h : s.LeftService t i p x) :
    s.stl.queue.length < t.stl.queue.length ↔ s.stl.queue.length < 64 := by
  by_cases room : s.stl.queue.length < 64
  · obtain ⟨-, queue, -⟩ := h.appended room
    rw [queue, List.length_append]
    exact ⟨fun _ => room, fun _ => by simp⟩
  · obtain ⟨-, stl, -⟩ := h.waits (by omega)
    rw [stl]
    exact ⟨fun grew => absurd grew (lt_irrefl _), fun some_room => absurd some_room room⟩

/-- A record whose place has become `q` is settled in an event of its own (R165, R172). -/
theorem settleNow_settled (s : State) (i : Fin 192) (q : Place) :
    s.SettledAs ((s.setPlace i (some q)).settleNow i) i q (formSettlement (s.terms q.booking) q.booking q.meter) := by
  have left := settle_left (Offering.of_setPlace s i q)
  refine ⟨_, left, ?_⟩
  rw [settleNow, announce]
  simp only [← left.grew_iff]
  rfl

/-- The disconnect take of a record in ENDING has completed (R117). -/
theorem disconnected_left {s : State} {i : Fin 192} {p : Place} (here : s.place i = some p) :
    s.LeftService (s.disconnected i) i p (formSettlement (s.terms p.booking) p.booking p.meter) := by
  have left := settle_left (Offering.of_leaveTimelines here)
  rwa [disconnected, here]

/-! ### Run-on (R110, R111) -/

theorem insertEntry_perm (e : TimeEntry) (l : List TimeEntry) : (insertEntry e l).Perm (e :: l) := by
  induction l with
  | nil => exact .refl _
  | cons x l ih =>
    rw [insertEntry]
    split
    · exact .refl _
    · exact (ih.cons x).trans (.swap e x l)

theorem moveEnd_perm (k : BKU) (i : Fin 192) (second : Nat) : (k.moveEnd i second).timeList.Perm
    (⟨second, i, .stop, false⟩ :: k.timeList.filter fun e => !(e.record == i && e.kind == .stop)) :=
  insertEntry_perm _ _

theorem grantRunOn_extended {s : State} {i : Fin 192} {p : Place} (here : s.place i = some p) (x : Nat) :
    s.Extended (s.grantRunOn i p.booking x) i p x := by
  set q : Place := { p with booking := { p.booking with
    e := p.booking.e + x, extension := p.booking.extension + x, used := p.booking.used + 1
    shortened := decide (x < p.booking.quantum), state := .runOn, reason := some .extended } }
  set m : MeterSet := if p.booking.state = .live then { p.meter with overtime := true } else p.meter
  have entered : (s.onBooking i fun b => { b with
      e := b.e + x, extension := b.extension + x, used := b.used + 1, shortened := decide (x < b.quantum) }).enterState i
        .runOn .extended = (s.setPlace i (some q)).raise (bookingObject i) := by
    rw [onBooking_of_some here, enterState_of_some (setPlace_place ..), setPlace_setPlace]
  set k := ((s.setPlace i (some q)).raise (bookingObject i)).bku.moveEnd i (p.booking.e + x)
  have eq : s.grantRunOn i p.booking x =
      { s with
        bku := { (s.setPlace i (some { q with meter := m })).bku with timeList := k.timeList }
        ntc := s.ntc.raise (bookingObject i) } := by
    unfold grantRunOn
    dsimp only
    rw [entered]
    by_cases live : p.booking.state = .live
    · rw [if_pos live, onMeter_of_some (s := { (s.setPlace i (some q)).raise (bookingObject i) with bku := k })
        (setPlace_place s i (some q))]
      have meter : m = { p.meter with overtime := true } := if_pos live
      rw [meter]
      exact congrArg (fun places : Table (Option Place) 192 => ({ s with
        bku := { s.bku with places := places, timeList := k.timeList }, ntc := s.ntc.raise (bookingObject i) } : State))
        (upd_upd s.bku.places i _ _)
    · rw [if_neg live]
      have meter : m = p.meter := if_neg live
      rw [meter]
      rfl
  rw [eq]
  exact ⟨rfl, moveEnd_perm _ i _, rfl⟩

/-- The starts of the spans that a run-on of the record in place `i` could meet (R111). -/
theorem nextStart_eq (s : State) (i : Fin 192) (b : Booking) :
    s.nextStart i b = ((b.ports.flatMap s.timeline).filterMap fun j =>
      if j = i then none else (s.place j).bind fun r => if b.e ≤ r.booking.s0 then some r.booking.s0 else none).min? := by
  unfold nextStart
  congr 1
  refine List.filterMap_congr fun j _ => ?_
  split
  next => rfl
  next => cases s.place j <;> rfl

theorem extensionLength_eq (s : State) (i : Fin 192) (b : Booking) :
    s.extensionLength i b = min (max32 - b.e) (match s.nextStart i b with
      | none => b.quantum
      | some n => min b.quantum (n - s.dir.margin - b.e)) := Nat.min_comm ..

/-- The end entry of a record in LIVE or RUN_ON (R109 to R111). -/
theorem attemptRunOn_taken {s : State} {i : Fin 192} {p : Place} (here : s.place i = some p) :
    let b := p.booking
    let x := s.extensionLength i b
    let mayExtend := b.runOn = true ∧ b.used < b.limit
    if mayExtend ∧ 60 ≤ x then s.Extended (s.attemptRunOn i b) i p x
    else s.Ended (s.attemptRunOn i b) i p
      (if b.e = b.e0 then .completed else if mayExtend then .overrunCut else .runOnLimit) := by
  have first : (p.booking.runOn && decide (p.booking.used < p.booking.limit)) = true ↔
      p.booking.runOn = true ∧ p.booking.used < p.booking.limit := by
    rw [Bool.and_eq_true, decide_eq_true_eq]
  dsimp only
  unfold attemptRunOn
  simp only [first]
  split
  next => exact grantRunOn_extended here _
  next => exact enterEnding_ended here _

theorem takeEnd_taken {s : State} {i : Fin 192} {p : Place} (here : s.place i = some p) :
    s.EndTaken (s.takeEnd i) i p := by
  unfold EndTaken takeEnd
  rw [here]
  have run := attemptRunOn_taken here
  have show_up : s.SettledAs (s.noShow i) i
      { p with booking := { p.booking with reason := some .noShow, endSecond := some s.tb.seconds } }
      (formSettlement (s.terms p.booking)
        { p.booking with reason := some .noShow, endSecond := some s.tb.seconds } p.meter) := by
    rw [noShow, onBooking_of_some here]
    exact settleNow_settled s i _
  dsimp only at run show_up ⊢
  rw [extensionLength_eq, nextStart_eq] at run
  revert show_up
  cases p.booking.state with
  | live | runOn => exact fun _ => run
  | starting => exact fun _ => enterEnding_ended here _
  | armed | waiting => exact id
  | scheduled | ending | closing => exact fun _ => rfl

/-! ### Entries taken (R81) -/

theorem stateAt_of_some {s : State} {i : Fin 192} {p : Place} (here : s.place i = some p) :
    s.stateAt i = some p.booking.state := by rw [stateAt, here]; rfl

theorem takeEntry_taken (s : State) (e : TimeEntry) : State.EntryTaken e s (s.takeEntry e) := by
  unfold EntryTaken takeEntry
  set s1 : State := { s with bku := { s.bku with timeList := s.bku.timeList.filter (· != e) } }
  cases here : s.place e.record with
  | none =>
    have here1 : s1.place e.record = none := here
    cases kind : e.kind
    · exact if_neg (by rw [stateAt, here1]; nofun)
    · simp only [takeStart, here1]
    · simp only [takeEnd, here1]
  | some p =>
    have here1 : s1.place e.record = some p := here
    cases kind : e.kind
    · dsimp only
      rw [takeArm, stateAt_of_some here1, enterState_of_some here1]
      simp only [Option.some.injEq]
    · dsimp only
      rw [takeStart, here1]
      dsimp only
      split
      next => exact trigger_triggered here1 .timeStart
      next => rfl
    · exact takeEnd_taken here1

theorem nextEntry_eq (s : State) : s.nextEntry = s.bku.timeList.find? s.isDue := rfl

theorem takeNext_of_next {s : State} {e : TimeEntry} (next : s.nextEntry = some e) :
    s.takeNext e.record e.kind = s.takeEntry e := by
  rw [takeNext, next]
  exact if_pos ⟨rfl, rfl⟩

theorem takeNext_of_other {s : State} {i : Fin 192} {kind : EntryKind}
    (other : ∀ e, s.nextEntry = some e → ¬(e.record = i ∧ e.kind = kind)) : s.takeNext i kind = s := by
  unfold takeNext
  split
  next e next => exact if_neg (other e next)
  next => rfl

/-- The entry named is taken where it is the next one (R81, R90; log entry 2). -/
theorem takeNext_taken {s : State} {e : TimeEntry} (next : s.nextEntry = some e) {i : Fin 192} {kind : EntryKind}
    (record : e.record = i) (kind_eq : e.kind = kind) : State.EntryTaken e s (s.takeNext i kind) := by
  subst record kind_eq
  rw [takeNext_of_next next]
  exact takeEntry_taken s e

/-! ### Take completion (R108, R117) -/

theorem enterLive_of_some {s : State} {i : Fin 192} {p : Place} (here : s.place i = some p) :
    s.enterLive i = (s.setPlace i (some { p with
      booking := { p.booking with state := .live, reason := some .onAir, liveStart := some s.tb.seconds }
      meter := p.meter.start (s.terms p.booking).basis })).raise (bookingObject i) := by
  set q : Place := { p with
    booking := { p.booking with state := .live, reason := some .onAir, liveStart := some s.tb.seconds } }
  have entered : (s.onBooking i fun b => { b with liveStart := some s.tb.seconds }).enterState i .live .onAir =
      (s.setPlace i (some q)).raise (bookingObject i) := by
    rw [onBooking_of_some here, enterState_of_some (setPlace_place ..), setPlace_setPlace]
  rw [enterLive, here]
  dsimp only
  rw [entered, onMeter_of_some (s := (s.setPlace i (some q)).raise (bookingObject i)) (setPlace_place s i (some q))]
  exact congrArg (fun u : State => u.raise (bookingObject i)) (setPlace_setPlace s i (some q) _)

theorem completeRecord_completed (included : List Rider) (s : State) (i : Fin 192) :
    State.Completed included i s (completeRecord included s i) := by
  unfold Completed completeRecord
  cases here : s.place i with
  | none =>
    have nobody : s.stateAt i = none := by rw [stateAt, here]; rfl
    simp [nobody]
  | some p =>
    simp only [stateAt_of_some here, Bool.and_eq_true, List.contains_iff_mem, beq_iff_eq, Option.some.injEq]
    split
    next => exact disconnected_left here
    next =>
      split
      next => rw [enterLive_of_some here]; rfl
      next => rfl

end State

/-- Settles O42: each record by whether the take included its disconnects or its connects. -/
theorem takeCompletion : Obligations.TakeCompletion := fun s included =>
  ⟨_, State.foldl_inOrder (State.completeRecord_completed included) _ s, rfl⟩

/-- Settles O49: the next entry is taken as its kind and the record's state give; another one is not. -/
theorem armAndStartEntries : Obligations.ArmAndStartEntries := by
  intro i s
  have arm : Leads (.armEntry i) s (s.takeNext i .arm) := rfl
  have start : Leads (.startEntry i) s (s.takeNext i .start) := rfl
  refine ⟨s.nextEntry_eq, fun e next record kind => ⟨_, arm, State.takeNext_taken next record kind⟩,
    fun e next record kind => ⟨_, start, State.takeNext_taken next record kind⟩, fun other => ?_, fun other => ?_⟩
  · rwa [State.takeNext_of_other other] at arm
  · rwa [State.takeNext_of_other other] at start

/-- Settles O50: the end entry is taken where it is the next one. -/
theorem endEntry : Obligations.EndEntry := by
  intro i s
  have stop : Leads (.endEntry i) s (s.takeNext i .stop) := rfl
  refine ⟨fun e next record kind => ⟨_, stop, State.takeNext_taken next record kind⟩, fun other => ?_⟩
  rwa [State.takeNext_of_other other] at stop

/-! ### Cue lines (R183, R184) -/

theorem changeCue_eq (x : CueLine) (level : Bool) (elapsed : Nat) :
    x.change level elapsed =
      if level = x.input then x
      else { x with
        input := level
        timer := if (level != x.invert) = x.accepted then none else some (x.timer.getD (elapsed + 20)) } := by
  unfold CueLine.change
  cases x.timer <;> rfl

theorem cueEdge_leads (l : Fin 4) (s : State) :
    let x := s.tcu.cues.get l
    if isDue x.timer s.tb.elapsed = true then
      let filtered := x.input != x.invert
      let dir : Edge := if filtered then .rise else .fall
      let s1 := s.setCueLine l { x with timer := none, accepted := filtered }
      if filtered = x.accepted ∨ x.enabled = false then Leads (.cueEdge l) s s1
      else ∃ t, Leads (.cueEdge l) s t ∧ InOrder (State.Offered l dir) (List.finRange 192) s1 t
    else Leads (.cueEdge l) s s := by
  have leads : Leads (.cueEdge l) s (s.cueExpiry l) := rfl
  unfold State.cueExpiry at leads
  dsimp only
  split
  next due =>
    rw [if_pos due, State.acceptCue] at leads
    split
    next silent =>
      rcases silent with same | off
      · rwa [if_pos (show (s.tcu.cues.get l).filtered = _ from same)] at leads
      · by_cases same : (s.tcu.cues.get l).filtered = (s.tcu.cues.get l).accepted
        · rwa [if_pos same] at leads
        · rwa [if_neg same, if_neg (by rw [off]; nofun)] at leads
    next offers =>
      rw [not_or, Bool.not_eq_false] at offers
      rw [if_neg (show ¬(s.tcu.cues.get l).filtered = _ from offers.1), if_pos offers.2] at leads
      exact ⟨_, leads, State.cueOffer_offered l _ _⟩
  next later => rwa [if_neg later] at leads

/-- Settles O51: the change of a level, the filter's expiry with its offers, and the end of the pulse. -/
theorem cueAndPulseEvents : Obligations.CueAndPulseEvents := by
  intro l level s
  refine ⟨?_, cueEdge_leads l s, rfl⟩
  have leads : Leads (.cueInputChange l level) s (s.changeCue l level) := rfl
  rwa [State.changeCue, changeCue_eq] at leads

end Sys2Proof.Machine
end

