-- ==== Sys2Proof/Proofs/BookingRequests.lean ====
section
/-! PROOFS. Pricing (O52), and the requests that end a booking: CANCEL and END (O47). -/

namespace Sys2Proof.Machine

/-! ### Pricing (R161 to R163) -/

/-- Granules rounded up: enough, and no more than are started (R161). -/
theorem granulesUp_spec {n g : Nat} (pos : 0 < g) :
    n ≤ granulesUp n g * g ∧ (granulesUp n g = 0 ∨ (granulesUp n g - 1) * g < n) := by
  have split := Nat.div_add_mod (n + g - 1) g
  have small := Nat.mod_lt (n + g - 1) pos
  rw [granulesUp, Nat.sub_mul, Nat.mul_comm ((n + g - 1) / g) g]
  generalize (n + g - 1) % g = r at split small
  generalize (n + g - 1) / g = k at split ⊢
  refine ⟨by omega, ?_⟩
  rcases Nat.eq_zero_or_pos k with zero | started
  · exact .inl zero
  · have first : g ≤ g * k := Nat.le_mul_of_pos_right g started
    exact .inr (by omega)

/-- Granules rounded down (R161). -/
theorem granules_spec {n g : Nat} (pos : 0 < g) : n / g * g ≤ n ∧ n < (n / g + 1) * g :=
  ⟨Nat.div_mul_le_self n g, Nat.lt_mul_of_div_lt (Nat.lt_succ_self _) pos⟩

theorem granulesUp_zero (g : Nat) : granulesUp 0 g = 0 := by
  rcases Nat.eq_zero_or_pos g with rfl | pos
  · rfl
  · exact Nat.div_eq_of_lt (by omega)

theorem formSettlement_eq (t : TariffTerms) (b : Booking) (m : MeterSet) :
    let y := priceMeters t m
    formSettlement t b m =
      if b.reason = some .cancelled then b.unaired m 0
      else { b.unaired m 0 with
        gs := y.gs, gt := y.gt, gc := y.gc, gross := y.gross, credit := y.credit, net := y.net
        saturated := y.saturated } := by
  dsimp only
  unfold formSettlement price
  split <;> rfl

/-- The price of a set whose meters are 0 is the reservation fee alone (R163). -/
theorem priceMeters_of_allZero (t : TariffTerms) {m : MeterSet} (fee : t.reservation ≤ max32) (zero : m.AllZero) :
    priceMeters t m = ⟨0, 0, 0, t.reservation, 0, t.reservation, false⟩ := by
  obtain ⟨-, s, -, t0, oc, -, -, nt, -⟩ := zero
  have over_none : ¬(max32 < t.reservation ∨ max32 < 0 ∨ max32 < t.reservation) := by omega
  simp only [priceMeters, s, t0, oc, nt, Nat.sub_zero, granulesUp_zero, Nat.zero_div, Nat.zero_mul, Nat.add_zero,
    Nat.min_zero, Nat.zero_min, Nat.min_eq_left fee, decide_eq_false over_none]

theorem formSettlement_of_noShow {t : TariffTerms} {b : Booking} {m : MeterSet} (noShow : b.reason = some .noShow)
    (fee : t.reservation ≤ 4294967295) (zero : m.AllZero) : formSettlement t b m = b.unaired m t.reservation := by
  rw [formSettlement_eq, if_neg (by rw [noShow]; nofun), priceMeters_of_allZero t fee zero]
  rfl

/-- Settles O52: the settlement record by its outcome, and pricing by the two roundings and the clamps. -/
theorem pricing : Obligations.Pricing := by
  refine ⟨fun t b m => ⟨formSettlement_eq t b m, formSettlement_of_noShow⟩, fun t m pos le => ?_⟩
  have granule : 0 < 1000 * t.granule := by omega
  refine ⟨⟨granulesUp_spec granule, granulesUp_spec granule, granules_spec granule⟩, rfl, rfl, rfl, ?_, ?_⟩
  · refine (Nat.min_le_right _ _).trans ?_
    omega
  · exact decide_eq_true_iff

/-! ### CANCEL and END (R94, R113) -/

namespace State

theorem LeftService.withLink {s t : State} {i : Fin 192} {p : Place} {x : Settlement} (h : s.LeftService t i p x)
    (l : LNK) : LeftService { s with lnk := l } { t with lnk := l } i p x := by
  obtain ⟨tb, rmon, circuits, xpc, tcu, -, race, pending⟩ := h.kept
  exact ⟨h.appended, h.waits, h.others, h.timelines, h.entries, h.terms, tb, rmon, circuits, xpc, tcu, rfl, race, pending⟩

theorem SettledAs.withLink {s t : State} {i : Fin 192} {p : Place} {x : Settlement} (h : s.SettledAs t i p x) (l : LNK) :
    SettledAs { s with lnk := l } { t with lnk := l } i p x := by
  obtain ⟨u, left, rfl⟩ := h
  refine ⟨{ u with lnk := l }, left.withLink l, ?_⟩
  by_cases room : s.stl.queue.length < 64
  · rw [if_pos room, if_pos room]
    rfl
  · rw [if_neg room, if_neg room]

theorem Ended.withLink {s t : State} {i : Fin 192} {p : Place} {why : Reason} (h : s.Ended t i p why) (l : LNK) :
    Ended { s with lnk := l } { t with lnk := l } i p why := by
  obtain ⟨tb, rmon, circuits, dir, stl, tcu, -, race, pending, flight⟩ := h.outside
  exact ⟨h.place, h.object, h.disconnects, h.others, tb, rmon, circuits, dir, stl, tcu, rfl, race, pending, flight⟩

theorem cancellable_iff (st : BookingState) :
    cancellable st = true ↔ st = .scheduled ∨ st = .armed ∨ st = .waiting := by cases st <;> simp [cancellable]

theorem endable_iff (st : BookingState) : endable st = true ↔ st = .starting ∨ st = .live ∨ st = .runOn := by
  cases st <;> simp [endable]

/-- The record of a CANCEL is offered to settlement with its entries gone from the time list. -/
theorem Offering.of_cancel {s : State} {i : Fin 192} (q : Place) :
    s.Offering ({ s with bku := s.bku.dropEntries i }.setPlace i (some q)) i q := by
  refine ⟨setPlace_place .., fun _ ne => setPlace_place_ne _ _ (Ne.symm ne), leaveTimelines_get _ i _, ?_, rfl⟩
  change ((s.bku.timeList.filter (·.record != i)).filter (·.record != i)) = _
  simp only [List.filter_filter, Bool.and_self]

/-- What an accepted CANCEL makes of the record (R94, R163 to R165). -/
theorem cancelled_settled {s : State} {i : Fin 192} {p : Place} (here : s.place i = some p) :
    let q : Place := { p with booking := { p.booking with reason := some .cancelled, endSecond := some s.tb.seconds } }
    let t := State.settleNow ({ s with bku := s.bku.dropEntries i }.onBooking i fun b =>
      { b with reason := some .cancelled, endSecond := some s.tb.seconds }) i
    s.SettledAs t i q (q.booking.unaired p.meter 0) ∧ (t.place i).isSome = decide (64 ≤ s.stl.queue.length) := by
  set q : Place := { p with booking := { p.booking with reason := some .cancelled, endSecond := some s.tb.seconds } }
  have record : formSettlement (s.terms q.booking) q.booking q.meter = q.booking.unaired p.meter 0 :=
    (formSettlement_eq ..).trans (if_pos rfl)
  have left := settle_left (Offering.of_cancel (s := s) (i := i) q)
  rw [record] at left
  have cancelled : ({ s with bku := s.bku.dropEntries i }.onBooking i fun b =>
      { b with reason := some .cancelled, endSecond := some s.tb.seconds }) =
      { s with bku := s.bku.dropEntries i }.setPlace i (some q) :=
    onBooking_of_some (s := { s with bku := s.bku.dropEntries i }) here _
  dsimp only
  rw [cancelled]
  set u := { s with bku := s.bku.dropEntries i }.setPlace i (some q)
  have queue : u.stl = s.stl := rfl
  have announced : u.settleNow i = if s.stl.queue.length < 64 then (u.settle i).raise settlementObject else u.settle i := by
    rw [settleNow, announce, queue]
    simp only [← left.grew_iff]
  refine ⟨⟨_, left, announced⟩, ?_⟩
  rw [announced]
  by_cases room : s.stl.queue.length < 64
  · rw [if_pos room, decide_eq_false (by omega)]
    exact congrArg Option.isSome (left.appended room).1
  · rw [if_neg room, decide_eq_true (by omega), (left.waits (by omega)).1]
    rfl

end State

section
variable {tag : Byte} {id : Half} {s : State} {i : Fin 192} {p : Place}

theorem cancel_answered_of_none (hs : s.Ready) (none : s.findRecord id = none) :
    Answered (.cancel tag id) s ⟨.noSuch, .empty⟩ s := by
  refine .of_read (r := .cancel id) rfl hs (fun _ => nofun) ?_
  simp only [State.serveBody, State.serveCancel, State.enqueue_findRecord, none, refusal]

theorem endBooking_answered_of_none (hs : s.Ready) (none : s.findRecord id = none) :
    Answered (.endBooking tag id) s ⟨.noSuch, .empty⟩ s := by
  refine .of_read (r := .endBooking id) rfl hs (fun _ => nofun) ?_
  simp only [State.serveBody, State.serveEnd, State.enqueue_findRecord, none, refusal]

theorem serveCancel_of_some (s : State) (found : s.findRecord id = some i) (here : s.place i = some p) :
    s.serveCancel id =
      if State.cancellable p.booking.state = true then
        let t := State.settleNow ({ s with bku := s.bku.dropEntries i }.onBooking i fun b =>
          { b with reason := some .cancelled, endSecond := some s.tb.seconds }) i
        (t, ⟨.ok, .cancelled id (decide (64 ≤ s.stl.queue.length))⟩)
      else (s, ⟨.state, .empty⟩) := by
  simp only [State.serveCancel, found, State.stateAt_of_some here, refusal, okWith, (State.cancelled_settled here).2]
  cases State.cancellable p.booking.state <;> rfl

theorem cancel_answered (hs : s.Ready) (found : s.findRecord id = some i) (here : s.place i = some p) :
    let q : Place := { p with booking := { p.booking with reason := some .cancelled, endSecond := some s.tb.seconds } }
    if p.booking.state = .scheduled ∨ p.booking.state = .armed ∨ p.booking.state = .waiting then
      ∃ t, Answered (.cancel tag id) s ⟨.ok, .cancelled id (decide (64 ≤ s.stl.queue.length))⟩ t ∧
        s.SettledAs t i q (q.booking.unaired p.meter 0)
    else Answered (.cancel tag id) s ⟨.state, .empty⟩ s := by
  have serve := serveCancel_of_some (s.enqueue tag (.cancel id)) found here
  dsimp only
  split
  next accepted =>
    have accepted := (State.cancellable_iff _).mpr accepted
    have answered := Answered.of_service (c := .cancel tag id) (r := .cancel id) rfl hs (fun _ => nofun)
      (serve.trans (if_pos accepted))
    exact ⟨_, answered, ((State.cancelled_settled (s := s.enqueue tag (.cancel id)) here).1).withLink s.lnk⟩
  next refused =>
    exact .of_read (r := .cancel id) rfl hs (fun _ => nofun)
      (serve.trans (if_neg fun accepted => refused ((State.cancellable_iff _).mp accepted)))

theorem serveEnd_of_some (s : State) (found : s.findRecord id = some i) (here : s.place i = some p) :
    s.serveEnd id =
      if State.endable p.booking.state = true then
        ({ s with bku := s.bku.dropEntry i .stop }.enterEnding i .endedEarly, ⟨.ok, .ended id s.tb.seconds⟩)
      else (s, ⟨.state, .empty⟩) := by
  simp only [State.serveEnd, found, State.stateAt_of_some here, refusal, okWith]
  cases State.endable p.booking.state <;> rfl

theorem endBooking_answered (hs : s.Ready) (found : s.findRecord id = some i) (here : s.place i = some p) :
    if p.booking.state = .starting ∨ p.booking.state = .live ∨ p.booking.state = .runOn then
      ∃ t, Answered (.endBooking tag id) s ⟨.ok, .ended id s.tb.seconds⟩ t ∧
        State.Ended { s with bku := { s.bku with
          timeList := s.bku.timeList.filter fun e => !(e.record == i && e.kind == .stop) } } t i p .endedEarly
    else Answered (.endBooking tag id) s ⟨.state, .empty⟩ s := by
  have serve := serveEnd_of_some (s.enqueue tag (.endBooking id)) found here
  split
  next accepted =>
    have answered := Answered.of_service (c := .endBooking tag id) (r := .endBooking id) rfl hs (fun _ => nofun)
      (serve.trans (if_pos ((State.endable_iff _).mpr accepted)))
    have ended := State.enterEnding_ended (i := i) (p := p)
      (s := { s.enqueue tag (.endBooking id) with bku := s.bku.dropEntry i .stop }) here .endedEarly
    exact ⟨_, answered, ended.withLink s.lnk⟩
  next refused =>
    exact .of_read (r := .endBooking id) rfl hs (fun _ => nofun)
      (serve.trans (if_neg fun accepted => refused ((State.endable_iff _).mp accepted)))

end

/-- Settles O47: an id that is not found, and each order by the record's state. -/
theorem cancelAndEnd : Obligations.CancelAndEnd := by
  intro tag id s hs
  obtain ⟨none, absent⟩ | ⟨i, p, found, here, same⟩ := s.findRecord_cases id
  · rw [none]
    exact ⟨absent, cancel_answered_of_none hs none, endBooking_answered_of_none hs none⟩
  · rw [found]
    exact ⟨p, here, same, cancel_answered hs found here, endBooking_answered hs found here⟩

end Sys2Proof.Machine
end

