-- ==== Sys2Proof/Proofs/BookingChanges.lean ====
section
/-! PROOFS. The requests that change a booking, or release its settlement record: AMEND (O46), SWAP (O48) and SETTLE_RELEASE
(O53). -/

namespace Sys2Proof.Machine

/-! ### AMEND (R92, R93) -/

namespace State

theorem amendable_iff (st : BookingState) : amendable st = true ↔ ¬(st = .ending ∨ st = .closing) := by
  cases st <;> simp [amendable]

/-- A port where the span up to `n` of the record in place `i` is not clear of another (R71, R92). -/
theorem not_portClear_eq (s : State) (i : Fin 192) (q : Fin 32) (x n : Nat) :
    (!s.portClear (some i) q x n) = (s.timeline q).any fun j => decide (j ≠ i) && (s.place j).any fun r =>
      !decide (r.booking.e + s.dir.margin ≤ x ∨ n + s.dir.margin ≤ r.booking.s0) := by
  rw [portClear, List.not_all_eq_any_not]
  congr 1
  funext j
  rw [Bool.not_or]
  by_cases same : j = i
  · subst same; simp
  · cases s.place j <;> simp [same, clearOf]

end State

section
variable {tag : Byte} {id : Half} {newEnd : Word} {s : State} {i : Fin 192} {p : Place}

theorem serveAmend_of_some (s : State) (found : s.findRecord id = some i) (here : s.place i = some p) :
    let b := p.booking
    let n := newEnd.toNat
    s.serveAmend id newEnd =
      if b.state = .ending ∨ b.state = .closing then (s, ⟨.state, .empty⟩)
      else if n ≤ s.tb.seconds then (s, ⟨.badField, .empty⟩)
      else if n < b.s0 + b.extension + 60 ∨ b.s0 + b.extension + 86400 < n then (s, ⟨.badField, .empty⟩)
      else match b.ports.find? fun q => !s.portClear (some i) q b.s0 n with
        | some q => (s, ⟨.conflict, .portAtFault q⟩)
        | none =>
          ({ s with bku := (s.setPlace i (some { p with booking := { b with e := n } })).bku.moveEnd i n },
            ⟨.ok, .amended id n⟩) := by
  have ends : (!State.amendable p.booking.state) = true ↔ p.booking.state = .ending ∨ p.booking.state = .closing := by
    rw [Bool.not_eq_true', ← Bool.not_eq_true, State.amendable_iff, not_not]
  dsimp only
  simp only [State.serveAmend, found, here, ends, State.onBooking_of_some here]
  rfl

/-- Settles O46: the checks in order, and then the new end with its entry. -/
theorem amend : Obligations.Amend := by
  intro tag id newEnd s hs
  dsimp only
  obtain ⟨none, absent⟩ | ⟨i, p, found, here, same⟩ := s.findRecord_cases id
  · rw [none]
    refine ⟨absent, .of_read (r := .amend id newEnd) rfl hs (fun _ => nofun) ?_⟩
    simp only [State.serveBody, State.serveAmend, State.enqueue_findRecord, none, refusal]
  rw [found]
  refine ⟨p, here, same, ?_⟩
  have serve := serveAmend_of_some (newEnd := newEnd) (s.enqueue tag (.amend id newEnd)) found here
  have refused {a : Answer} (h : (s.enqueue tag (.amend id newEnd)).serveAmend id newEnd =
      (s.enqueue tag (.amend id newEnd), a)) : Answered (.amend tag id newEnd) s a s :=
    .of_read (r := .amend id newEnd) rfl hs (fun _ => nofun) h
  dsimp only at serve ⊢
  split
  next ends => exact refused (serve.trans (if_pos ends))
  next goes_on =>
    replace serve := serve.trans (if_neg goes_on)
    split
    next past => exact refused (serve.trans (if_pos past))
    next later =>
      replace serve := serve.trans (if_neg later)
      split
      next out => exact refused (serve.trans (if_pos out))
      next within =>
        replace serve := serve.trans (if_neg within)
        have clear : (fun q => !(s.enqueue tag (.amend id newEnd)).portClear (some i) q p.booking.s0 newEnd.toNat) =
            fun q => (s.timeline q).any fun j => decide (j ≠ i) && (s.place j).any fun r =>
              !decide (r.booking.e + s.dir.margin ≤ p.booking.s0 ∨ newEnd.toNat + s.dir.margin ≤ r.booking.s0) :=
          funext fun q => State.not_portClear_eq s i q p.booking.s0 newEnd.toNat
        rw [clear] at serve
        split
        next q fault =>
          rw [fault] at serve
          exact refused serve
        next fits =>
          rw [fits] at serve
          have answered := Answered.of_service (c := .amend tag id newEnd) (r := .amend id newEnd) rfl hs
            (fun _ => nofun) serve
          exact ⟨_, answered, rfl, State.moveEnd_perm _ i _, rfl⟩

end

/-! ### SWAP (R115, R125, R153) -/

namespace State

/-- The record in place `i` with another feed in a slot, counted (R153). -/
def Place.swapped (p : Place) (slot : Nat) (feed : Fin 48) : Place :=
  { p with
    booking := { p.booking with feeds := p.booking.feeds.set slot feed }
    meter := { p.meter with nt := satAdd max16 p.meter.nt 1 } }

/-- What an accepted SWAP makes (R115, R125, R137, R153). -/
structure Swapped (s t : State) (i : Fin 192) (p : Place) (slot : Nat) (feed : Fin 48) : Prop where
  place : ∃ q, t.place i = some q ∧ q.booking = { p.booking with feeds := p.booking.feeds.set slot feed } ∧
    q.held = p.held ∧ q.meter.nt = min max16 (p.meter.nt + 1) ∧ q.meter.phase = p.meter.phase ∧ q.meter.l = p.meter.l ∧
    q.meter.s = p.meter.s ∧ q.meter.o = p.meter.o ∧ q.meter.t = p.meter.t ∧ q.meter.np = p.meter.np
  others : ∀ j, j ≠ i → t.place j = s.place j
  port : ∀ q, p.booking.ports[slot]? = some q →
    (t.xport q).entry = some { (s.xport q).entryOrNew with desired := .slot ⟨i, slot, p.booking.id⟩ } ∧
    (t.xport q).committed = (s.xport q).committed ∧ (t.xport q).holder = (s.xport q).holder ∧
    (t.xport q).patch = (s.xport q).patch ∧
    ((s.xport q).holder = .slot ⟨i, slot, p.booking.id⟩ → (t.xport q).delivered = t.deliveredNow q)
  otherPorts : ∀ q, p.booking.ports[slot]? ≠ some q → t.xport q = s.xport q
  bku : t.bku = { s.bku with places := t.bku.places }
  only : t = { s with bku := t.bku, xpc := { s.xpc with ports := t.xpc.ports } }

theorem swapSlot_swapped {s : State} {i : Fin 192} {p : Place} (here : s.place i = some p) (slot : Nat)
    (feed : Fin 48) : s.Swapped (s.swapSlot i p.booking slot feed) i p slot feed := by
  set q : Place := Place.swapped p slot feed with q_eq
  set s1 := s.setPlace i (some q) with s1_eq
  have stored : (s.onBooking i fun b => { b with feeds := b.feeds.set slot feed }).onMeter i (fun m =>
      { m with nt := satAdd max16 m.nt 1 }) = s1 := by
    rw [onBooking_of_some here, onMeter_of_some (setPlace_place ..), setPlace_setPlace]
    rfl
  have here1 : s1.place i = some q := setPlace_place ..
  have others1 (j : Fin 192) (ne : j ≠ i) : s1.place j = s.place j := setPlace_place_ne s _ (Ne.symm ne)
  have eq : s.swapSlot i p.booking slot feed = match p.booking.ports[slot]? with
      | none => s1
      | some r => if (s.xport r).holder = .slot ⟨i, slot, p.booking.id⟩ then
          (s1.onXPort r (·.swapConnect ⟨i, slot, p.booking.id⟩)).recomputeFlags [r]
        else s1.onXPort r (·.swapConnect ⟨i, slot, p.booking.id⟩) := by
    unfold swapSlot
    dsimp only
    rw [stored]
    cases p.booking.ports[slot]? with
    | none => rfl
    | some r =>
      have holder : ((s1.onXPort r (·.swapConnect ⟨i, slot, p.booking.id⟩)).xport r).holder = (s.xport r).holder := by
        rw [onXPort_xport, if_pos rfl]
        rfl
      simp only [holder]
  rw [eq]
  cases at_slot : p.booking.ports[slot]? with
  | none =>
    exact ⟨⟨q, here1, rfl, rfl, rfl, rfl, rfl, rfl, rfl, rfl, rfl⟩, others1, fun r h => (nomatch at_slot.symm.trans h),
      fun _ _ => rfl, rfl, rfl⟩
  | some r =>
    set s2 := s1.onXPort r (·.swapConnect ⟨i, slot, p.booking.id⟩) with s2_eq
    have port2 (q : Fin 32) : s2.xport q = if r = q then (s.xport q).swapConnect ⟨i, slot, p.booking.id⟩ else s.xport q :=
      onXPort_xport s1 r q _
    have here2 : s2.place i = some q := here1
    have others2 (j : Fin 192) (ne : j ≠ i) : s2.place j = s.place j := others1 j ne
    dsimp only
    split
    next held =>
      have only := recomputeFlags_only s2 [r]
      unfold OnlyPlacesAndPorts at only
      have port (q : Fin 32) := recomputeFlags_xport s2 [r] q
      have now := (recomputeFlags_sameCarriage s2 [r]).deliveredNow r
      generalize kept : s2.recomputeFlags [r] = t at only port now
      refine ⟨?_, fun j ne => ?_, fun q' slot' => ?_, fun q' other => ?_, ?_, ?_⟩
      · rcases recomputeFlags_place_kept s2 [r] i with ⟨free, -⟩ | ⟨x, y, hx, hy, same, np⟩
        · cases free.symm.trans here2
        · cases hx.symm.trans here2
          obtain ⟨booking, held', phase, -, l, s', o, t', nt, -⟩ := same
          rw [kept] at hy
          exact ⟨y, hy, booking, held', nt, phase, l, s', o, t', np⟩
      · rw [← kept, recomputeFlags_place_of_unmoved, others2 j ne]
        refine .inr ?_
        rintro q' ⟨named, -, ref, holder, record⟩
        obtain rfl := List.mem_singleton.mp named
        rw [port2, if_pos rfl] at holder
        cases held.symm.trans holder
        exact ne record.symm
      · cases at_slot.symm.trans slot'
        rw [port, port2, if_pos rfl]
        refine ⟨rfl, rfl, rfl, rfl, fun _ => ?_⟩
        rw [now]
        exact if_pos (List.mem_singleton_self r)
      · have ne : r ≠ q' := fun e => other (e ▸ at_slot)
        rw [port, port2, if_neg ne, if_neg fun named => ne (List.mem_singleton.mp named).symm]
      · rw [only]
        rfl
      · rw [only]
        rfl
    next unheld =>
      refine ⟨⟨q, here2, rfl, rfl, rfl, rfl, rfl, rfl, rfl, rfl, rfl⟩, others2, fun q' slot' => ?_, fun q' other => ?_,
        rfl, rfl⟩
      · cases at_slot.symm.trans slot'
        rw [port2, if_pos rfl]
        exact ⟨rfl, rfl, rfl, rfl, fun held => absurd held unheld⟩
      · rw [port2, if_neg fun e : r = q' => other (e ▸ at_slot)]

theorem Swapped.withLink {s t : State} {i : Fin 192} {p : Place} {slot : Nat} {feed : Fin 48}
    (h : s.Swapped t i p slot feed) (l : LNK) : Swapped { s with lnk := l } { t with lnk := l } i p slot feed := by
  refine ⟨h.place, h.others, h.port, h.otherPorts, h.bku, ?_⟩
  rw [h.only]

theorem worksBlocked_iff (s : State) (f : Fin 48) : s.worksBlocked f = true ↔
    match (s.circuit (circuitOf f)).mode with
    | .split => (s.route f).worksActive = true
    | .pair => (s.route (routeOf (circuitOf f) .a)).worksActive = true ∧
        (s.route (routeOf (circuitOf f) .b)).worksActive = true := by
  rw [worksBlocked]
  cases (s.circuit (circuitOf f)).mode with
  | split => exact Iff.rfl
  | pair => exact Bool.and_eq_true_iff

end State

section
variable {tag : Byte} {id : Half} {slot feed : Byte} {s : State} {i : Fin 192} {p : Place}

theorem serveSwap_of_off_air (s : State) (found : s.findRecord id = some i) (here : s.place i = some p)
    (off : ¬(p.booking.state = .live ∨ p.booking.state = .runOn)) : s.serveSwap id slot feed = (s, ⟨.state, .empty⟩) := by
  have test : (!(p.booking.state == .live || p.booking.state == .runOn)) = true := by simpa using off
  simp only [State.serveSwap, found, here]
  rw [if_pos test]
  rfl

theorem serveSwap_of_badField (s : State) (found : s.findRecord id = some i) (here : s.place i = some p)
    (air : p.booking.state = .live ∨ p.booking.state = .runOn)
    (bad : ¬(feed.toNat < 48 ∧ slot.toNat < p.booking.feeds.length)) :
    s.serveSwap id slot feed = (s, ⟨.badField, .empty⟩) := by
  have test : ¬(!(p.booking.state == .live || p.booking.state == .runOn)) = true := by rcases air with air | air <;> simp [air]
  simp only [State.serveSwap, found, here]
  rw [if_neg test]
  rcases idOf_cases (n := 48) feed with ⟨none, -⟩ | ⟨f, some, value⟩
  · rw [none]
    rfl
  · rw [some]
    exact if_pos (Nat.le_of_not_lt fun lt => bad ⟨value ▸ f.isLt, lt⟩)

theorem serveSwap_of_fields (s : State) (found : s.findRecord id = some i) (here : s.place i = some p)
    (air : p.booking.state = .live ∨ p.booking.state = .runOn) (range : feed.toNat < 48)
    (slot_ok : slot.toNat < p.booking.feeds.length) :
    let f : Fin 48 := ⟨feed.toNat, range⟩
    s.serveSwap id slot feed =
      if s.carrying f = none then (s, ⟨.noSuch, .empty⟩)
      else if f ∈ p.booking.feeds then (s, ⟨.badField, .empty⟩)
      else if s.worksBlocked f = true then (s, ⟨.worksConflict, .empty⟩)
      else (s.swapSlot i p.booking slot.toNat f, ⟨.ok, .swapped slot.toNat f (s.carrying f)⟩) := by
  have test : ¬(!(p.booking.state == .live || p.booking.state == .runOn)) = true := by rcases air with air | air <;> simp [air]
  simp only [State.serveSwap, found, here, idOf_of_lt range, if_neg test, if_neg (Nat.not_le.mpr slot_ok), refusal, okWith]

/-- Settles O48: the checks in order, and then the new feed. -/
theorem swap : Obligations.Swap := by
  intro tag id slot feed s hs
  dsimp only
  obtain ⟨none, absent⟩ | ⟨i, p, found, here, same⟩ := s.findRecord_cases id
  · rw [none]
    refine ⟨absent, .of_read (r := .swap id slot feed) rfl hs (fun _ => nofun) ?_⟩
    simp only [State.serveBody, State.serveSwap, State.enqueue_findRecord, none, refusal]
  rw [found]
  refine ⟨p, here, same, ?_⟩
  have refused {a : Answer} (h : (s.enqueue tag (.swap id slot feed)).serveSwap id slot feed =
      (s.enqueue tag (.swap id slot feed), a)) : Answered (.swap tag id slot feed) s a s :=
    .of_read (r := .swap id slot feed) rfl hs (fun _ => nofun) h
  split
  next off => exact refused (serveSwap_of_off_air _ found here off)
  next air =>
    rw [not_not] at air
    split
    next h =>
      obtain ⟨range, slot_ok⟩ := h
      have serve := serveSwap_of_fields (s.enqueue tag (.swap id slot feed)) found here air range slot_ok
      dsimp only at serve
      split
      next missing => exact refused (serve.trans (if_pos missing))
      next exists_feed =>
        replace serve := serve.trans (if_neg exists_feed)
        split
        next held => exact refused (serve.trans (if_pos held))
        next new =>
          replace serve := serve.trans (if_neg new)
          refine ⟨fun blocked => ?_, fun clear => ?_⟩
          · exact refused (serve.trans (if_pos ((s.worksBlocked_iff _).mpr blocked)))
          · replace serve := serve.trans (if_neg fun blocked => clear ((s.worksBlocked_iff _).mp blocked))
            have answered := Answered.of_service (c := .swap tag id slot feed) (r := .swap id slot feed) rfl hs
              (fun _ => nofun) serve
            have swapped := (State.swapSlot_swapped (s := s.enqueue tag (.swap id slot feed)) here slot.toNat
              ⟨feed.toNat, range⟩).withLink s.lnk
            exact ⟨_, answered, swapped.place, swapped.others, swapped.port, swapped.otherPorts, swapped.bku,
              swapped.only⟩
    next bad => exact refused (serveSwap_of_badField _ found here air bad)

end

/-! ### SETTLE_RELEASE (R166, R168) -/

section
variable {tag : Byte} {id : Half} {s : State}

theorem serveSettleRelease_of_other (s : State) (other : s.oldestId ≠ some id) :
    s.serveSettleRelease id = (s, ⟨.noSuch, .notReleased s.oldestId s.stl.queue.length⟩) := if_neg other

theorem serveSettleRelease_of_oldest (s : State) (oldest : s.oldestId = some id) :
    let t := State.serveClosing { s with stl := { s.stl with queue := s.stl.queue.tail } }
    s.serveSettleRelease id =
      (t, ⟨.ok, .released id t.stl.queue.length (s.stl.closing.head?.bind s.idAt) t.oldestId⟩) := if_pos oldest

theorem oldestId_of_cons {s : State} {x : Settlement} {rest : List Settlement} (queue : s.stl.queue = x :: rest) :
    s.oldestId = some x.id := by rw [State.oldestId, queue]; rfl

end

namespace State

/-- The head of the closing list, with the settlement record it holds, is served (R166). -/
structure ClosingServed (s t : State) (i : Fin 192) (p : Place) (y : Settlement) (others : List (Fin 192)) : Prop where
  queue : t.stl.queue = s.stl.queue ++ [y]
  closing : t.stl.closing = others
  here : t.place i = none
  places : ∀ j, j ≠ i → t.place j = s.place j
  totals : t.stl.totals = upd s.stl.totals y.account
    { net := min max48 ((s.stl.totals.get y.account).net + y.net)
      credit := min max48 ((s.stl.totals.get y.account).credit + y.credit)
      closed := min max16 ((s.stl.totals.get y.account).closed + 1) }
  tariffs : ∀ k, t.stl.tariffs.get k = { s.stl.tariffs.get k with
    refs := (s.stl.tariffs.get k).refs - if k = p.booking.tariff then 1 else 0 }
  accounts : ∀ a, t.dir.accounts.get a = { s.dir.accounts.get a with
    refs := (s.dir.accounts.get a).refs - if a = p.booking.account then 1 else 0 }
  handoffs : ∀ g, t.dir.handoffs.get g = { s.dir.handoffs.get g with
    refs := (s.dir.handoffs.get g).refs - if g = p.booking.handoff then 1 else 0 }
  ntc : t.ntc = (s.ntc.raise settlementObject).withdraw (bookingObject i)
  entries : t.bku.timeList = s.bku.timeList.filter (·.record != i)
  kept : t.tb = s.tb ∧ t.rmon = s.rmon ∧ t.circuits = s.circuits ∧ t.xpc = s.xpc ∧ t.tcu = s.tcu ∧
    t.dir.ports = s.dir.ports ∧ t.dir.margin = s.dir.margin ∧ t.pending = s.pending

theorem serveClosing_served {s : State} {i : Fin 192} {p : Place} {y : Settlement} {others : List (Fin 192)}
    (closing : s.stl.closing = i :: others) (here : s.place i = some p) (held : p.held = some y) :
    s.ClosingServed s.serveClosing i p y others := by
  set v : State := State.raise
    { s with stl := STL.append { s.stl with closing := others } y } settlementObject with v_eq
  have eq : s.serveClosing = v.release i := by
    rw [serveClosing, closing]
    simp only [here, Option.bind_some, held]
    rfl
  have here_v : v.place i = some p := here
  rw [eq, release_of_some here_v]
  refine ⟨rfl, rfl, setPlace_place .., fun j ne => setPlace_place_ne _ _ (Ne.symm ne), rfl, fun k => ?_, fun a => ?_,
    fun g => ?_, rfl, rfl, rfl, rfl, rfl, rfl, rfl, rfl, rfl, rfl⟩
  · rw [← pred_of_eq_iff]
    exact tariffRefs_get (STL.append { s.stl with closing := others } y) p.booking.tariff k (· - 1)
  · rw [← pred_of_eq_iff]
    exact accountRefs_get s.dir p.booking.account a (· - 1)
  · rw [← pred_of_eq_iff]
    exact handoffRefs_get (s.dir.accountRefs p.booking.account (· - 1)) p.booking.handoff g (· - 1)

theorem serveClosing_of_nil {s : State} (closing : s.stl.closing = []) : s.serveClosing = s := by
  rw [serveClosing, closing]

end State

/-- Settles O53: the id against the oldest record, and then the closing list. -/
theorem settleRelease : Obligations.SettleRelease := by
  intro tag id s hs
  dsimp only
  have refused {a : Answer} (h : (s.enqueue tag (.settleRelease id)).serveSettleRelease id =
      (s.enqueue tag (.settleRelease id), a)) : Answered (.settleRelease tag id) s a s :=
    .of_read (r := .settleRelease id) rfl hs (fun _ => nofun) h
  have other (h : s.oldestId ≠ some id) :
      Answered (.settleRelease tag id) s ⟨.noSuch, .notReleased s.oldestId s.stl.queue.length⟩ s :=
    refused (serveSettleRelease_of_other (s.enqueue tag (.settleRelease id)) h)
  cases queue : s.stl.queue with
  | nil =>
    have none : s.oldestId = none := by rw [State.oldestId, queue]; rfl
    rw [none, queue] at other
    exact other nofun
  | cons x rest =>
    have oldest := oldestId_of_cons queue
    dsimp only
    split
    next ne =>
      rw [oldest, queue] at other
      exact other fun e => ne (Option.some.inj e)
    next named =>
      rw [ne_eq, not_not] at named
      subst named
      have serve := serveSettleRelease_of_oldest (s.enqueue tag (.settleRelease x.id)) oldest
      dsimp only at serve
      rw [show (s.enqueue tag (.settleRelease x.id)).stl = s.stl from rfl, queue, List.tail_cons] at serve
      set v : State := { s.enqueue tag (.settleRelease x.id) with stl := { s.stl with queue := rest } }
      cases closing : s.stl.closing with
      | nil =>
        rw [closing, State.serveClosing_of_nil (s := v) closing] at serve
        have answered := Answered.of_update (c := .settleRelease tag x.id) (r := .settleRelease x.id)
          (t := { s with stl := { s.stl with queue := rest } }) rfl hs (fun _ => nofun) serve
        dsimp only at answered
        rw [closing] at answered
        exact answered
      | cons i others =>
        intro p y here held
        have served := State.serveClosing_served (s := v) closing here held
        have id_at : (s.enqueue tag (.settleRelease x.id)).idAt i = some p.booking.id := by
          rw [State.idAt, State.enqueue_place, here]
          rfl
        have next : v.serveClosing.oldestId = (rest ++ [y]).head?.map (·.id) := by rw [State.oldestId, served.queue]
        rw [closing, next, served.queue, List.head?_cons, Option.bind_some, id_at, List.length_append] at serve
        have answered := Answered.of_service (c := .settleRelease tag x.id) (r := .settleRelease x.id) rfl hs
          (fun _ => nofun) serve
        exact ⟨_, answered, served.queue, served.closing, served.here, served.places, served.totals, served.tariffs,
          served.accounts, served.handoffs, served.ntc, served.entries, served.kept⟩

end Sys2Proof.Machine
end

