-- ==== Sys2Proof/Proofs/Admission.lean ====
section
/-! PROOFS. Admission: the allocation of ports to the slots of a booking (O45), and BOOK (O44). -/

namespace Sys2Proof.Machine

/-! ### The start member (R72) -/

/-- The two-bit number with these bits. -/
def twoBits (low high : Bool) : Nat := low.toNat + 2 * high.toNat

theorem xor_twoBits (p q p' q' : Bool) :
    Nat.xor (twoBits p q) (twoBits p' q') = twoBits (p ^^ p') (q ^^ q') := by
  cases p <;> cases q <;> cases p' <;> cases q' <;> rfl

theorem piece_eq_twoBits (x : Half) (i : Nat) :
    x.toNat / 4 ^ i % 4 = twoBits (x.getLsbD (2 * i)) (x.getLsbD (2 * i + 1)) := by
  have four : 4 ^ i = 2 ^ (2 * i) := by rw [pow_mul]; rfl
  have half : x.toNat / 2 ^ (2 * i + 1) = x.toNat / 2 ^ (2 * i) / 2 := by rw [pow_succ, Nat.div_div_eq_div_mul]
  have toNat (n : Nat) : (decide (n % 2 = 1)).toNat = n % 2 := by
    rcases Nat.mod_two_eq_zero_or_one n with h | h <;> simp [h]
  rw [twoBits, BitVec.getLsbD, BitVec.getLsbD, Nat.testBit_eq_decide_div_mod_eq, Nat.testBit_eq_decide_div_mod_eq, half,
    four, toNat, toNat]
  omega

/-- A count is odd. -/
def isOdd (n : Nat) : Bool := decide (n % 2 = 1)

theorem isOdd_add_toNat (n : Nat) (b : Bool) : isOdd (n + b.toNat) = (isOdd n ^^ b) := by
  cases b
  · simp
  · rcases Nat.mod_two_eq_zero_or_one n with h | h <;> simp [isOdd, Nat.add_mod, h]

/-- Two-bit numbers combined bit by bit: each bit of the result is set where it is set in an odd number of them. -/
theorem foldl_xor_twoBits (low high : Nat → Bool) (l : List Nat) (p q : Bool) :
    l.foldl (fun acc i => Nat.xor acc (twoBits (low i) (high i))) (twoBits p q) =
      twoBits (p ^^ isOdd (l.countP low)) (q ^^ isOdd (l.countP high)) := by
  have count (f : Nat → Bool) (i : Nat) (l : List Nat) : (i :: l).countP f = l.countP f + (f i).toNat := by
    rw [List.countP_cons]
    cases f i <;> rfl
  induction l generalizing p q with
  | nil => simp [isOdd]
  | cons i l ih =>
    rw [List.foldl_cons, xor_twoBits, ih, count low, count high, isOdd_add_toNat, isOdd_add_toNat]
    congr 1 <;> simp [Bool.xor_comm]

theorem startMember_eq (id mask : Half) (m : Nat) :
    let x := id &&& mask
    let low (n : Nat) : Bool := x.getLsbD (2 * n)
    let high (n : Nat) : Bool := x.getLsbD (2 * n + 1)
    let bit (f : Nat → Bool) : Nat := ((List.range 8).countP f) % 2
    startMember id mask m = (bit low + 2 * bit high) % m := by
  have toNat (n : Nat) : (isOdd n).toNat = n % 2 := by
    rcases Nat.mod_two_eq_zero_or_one n with h | h <;> simp [isOdd, h]
  have fold := foldl_xor_twoBits (fun n => (id &&& mask).getLsbD (2 * n)) (fun n => (id &&& mask).getLsbD (2 * n + 1))
    (List.range 8) false false
  dsimp only
  unfold startMember
  dsimp only
  simp only [piece_eq_twoBits]
  rw [show (0 : Nat) = twoBits false false from rfl, fold, Bool.false_xor, Bool.false_xor, twoBits, toNat, toNat]

/-! ### Allocation (R71, R73) -/

namespace State

/-- A member may take a slot for the window [x, y), the members `given` being taken (R71, R73). -/
def Fits (s : State) (x y : Nat) (given : List (Fin 32)) (p : Fin 32) : Prop :=
  (s.dir.ports.get p).enabled = true ∧ p ∉ given ∧
    ∀ j ∈ s.timeline p, ∀ q, s.place j = some q →
      q.booking.e + s.dir.margin ≤ x ∨ y + s.dir.margin ≤ q.booking.s0

/-- The first member in ring order that may take the slot. -/
def FirstFit (s : State) (ring : List (Fin 32)) (x y : Nat) (given : List (Fin 32)) (p : Fin 32) : Prop :=
  ∃ before after, ring = before ++ p :: after ∧ s.Fits x y given p ∧ ∀ q ∈ before, ¬s.Fits x y given q

theorem portClear_none_iff (s : State) (p : Fin 32) (x y : Nat) : s.portClear none p x y = true ↔
    ∀ j ∈ s.timeline p, ∀ q, s.place j = some q →
      q.booking.e + s.dir.margin ≤ x ∨ y + s.dir.margin ≤ q.booking.s0 := by
  rw [portClear, List.all_eq_true]
  refine forall₂_congr fun j _ => ?_
  cases s.place j <;> simp [clearOf]

theorem fits_iff (s : State) (x y : Nat) (given : List (Fin 32)) (p : Fin 32) :
    ((s.dir.ports.get p).enabled && !given.contains p && s.portClear none p x y) = true ↔ s.Fits x y given p := by
  rw [Bool.and_eq_true, Bool.and_eq_true, portClear_none_iff, Fits, and_assoc]
  simp

/-- The members that `allocate` gives to the slots behind the `given` ones, each the first fit of its turn. -/
def GivenInTurn (s : State) (ring : List (Fin 32)) (x y : Nat) (given more : List (Fin 32)) : Prop :=
  ∀ k p, more[k]? = some p → s.FirstFit ring x y (given ++ more.take k) p

theorem GivenInTurn.nil {s : State} {ring given : List (Fin 32)} {x y : Nat} : s.GivenInTurn ring x y given [] :=
  fun _ _ h => nomatch h

theorem GivenInTurn.cons {s : State} {ring given more : List (Fin 32)} {x y : Nat} {p : Fin 32}
    (first : s.FirstFit ring x y given p) (rest : s.GivenInTurn ring x y (given ++ [p]) more) :
    s.GivenInTurn ring x y given (p :: more) := by
  intro k q at_k
  cases k with
  | zero => cases at_k; rwa [List.take_zero, List.append_nil]
  | succ k =>
    have fit := rest k q at_k
    rwa [List.append_assoc, List.singleton_append] at fit

/-- Allocation gives every slot its first fit, or stops at the first slot that finds none (R73). -/
theorem allocate_spec (s : State) (ring : List (Fin 32)) (x y : Nat) (n : Nat) (given : List (Fin 32)) :
    match s.allocate ring x y n given with
    | .inr ports => ∃ more, ports = given ++ more ∧ more.length = n ∧ s.GivenInTurn ring x y given more
    | .inl slot => ∃ more, slot = (given ++ more).length ∧ more.length < n ∧ s.GivenInTurn ring x y given more ∧
        ∀ q ∈ ring, ¬s.Fits x y (given ++ more) q := by
  induction n generalizing given with
  | zero => exact ⟨[], (List.append_nil _).symm, rfl, .nil⟩
  | succ n ih =>
    rw [allocate]
    cases found : ring.find? fun p =>
        (s.dir.ports.get p).enabled && !given.contains p && s.portClear none p x y with
    | some p =>
      dsimp only
      obtain ⟨fit, before, after, at_p, unfit⟩ := List.find?_eq_some_iff_append.mp found
      have first : s.FirstFit ring x y given p := by
        refine ⟨before, after, at_p, (s.fits_iff x y given p).mp fit, fun q hq fits => ?_⟩
        have := unfit q hq
        rw [(s.fits_iff x y given q).mpr fits] at this
        cases this
      have spec := ih (given ++ [p])
      generalize s.allocate ring x y n (given ++ [p]) = allocated at spec
      cases allocated with
      | inr ports =>
        obtain ⟨more, rfl, length, turns⟩ := spec
        exact ⟨p :: more, by simp, by simp [length], .cons first turns⟩
      | inl slot =>
        obtain ⟨more, rfl, length, turns, stuck⟩ := spec
        exact ⟨p :: more, by simp, by simpa using length, .cons first turns, by simpa using stuck⟩
    | none =>
      refine ⟨[], by simp, Nat.succ_pos n, .nil, fun q hq fits => ?_⟩
      rw [List.append_nil, ← fits_iff] at fits
      exact List.find?_eq_none.mp found q hq fits

end State

/-- Settles O45: the fold bit by bit, and allocation by induction on the slots that are left. -/
theorem allocation : Obligations.Allocation := by
  refine ⟨startMember_eq, fun s b h entry => ?_⟩
  have spec := s.allocate_spec (ringFrom h.members (startMember b.id h.mask h.members.length)) b.s0 b.e0 b.feeds.length []
  have eq : s.allocatePorts b =
      s.allocate (ringFrom h.members (startMember b.id h.mask h.members.length)) b.s0 b.e0 b.feeds.length [] := by
    rw [State.allocatePorts, entry]
  rw [← eq] at spec
  dsimp only
  generalize s.allocatePorts b = allocated at spec
  cases allocated with
  | inr ports =>
    obtain ⟨more, rfl, length, turns⟩ := spec
    exact ⟨length, turns⟩
  | inl slot =>
    obtain ⟨more, rfl, length, turns, stuck⟩ := spec
    exact ⟨length, more, rfl, turns, stuck⟩

/-! ### The fields of BOOK (R82) -/

theorem triggerOf_cases (b : Byte) : (triggerOf b = none ∧ ¬b.toNat < 3) ∨
    (triggerOf b = some (if b = 0 then .time else if b = 1 then .cue else .timeOrCue) ∧ b.toNat < 3) := by
  unfold triggerOf
  by_cases zero : b = 0
  · simp [zero]
  by_cases one : b = 1
  · simp [one]
  by_cases two : b = 2
  · simp [two]
  · refine .inl ⟨by rw [if_neg zero, if_neg one, if_neg two], fun lt => ?_⟩
    bv_omega

theorem edgeOf_cases (b : Byte) : (edgeOf b = none ∧ ¬b.toNat < 3) ∨
    (edgeOf b = some (if b = 0 then .rise else if b = 1 then .fall else .both) ∧ b.toNat < 3) := by
  unfold edgeOf
  by_cases zero : b = 0
  · simp [zero]
  by_cases one : b = 1
  · simp [one]
  by_cases two : b = 2
  · simp [two]
  · refine .inl ⟨by rw [if_neg zero, if_neg one, if_neg two], fun lt => ?_⟩
    bv_omega

theorem startRuleOf_cases (b : Byte) : (startRuleOf b = none ∧ ¬b.toNat < 2) ∨
    (startRuleOf b = some (if b = 0 then .allOrWait else .asAvailable) ∧ b.toNat < 2) := by
  unfold startRuleOf
  by_cases zero : b = 0
  · simp [zero]
  by_cases one : b = 1
  · simp [one]
  · refine .inl ⟨by rw [if_neg zero, if_neg one], fun lt => ?_⟩
    bv_omega

/-- The cue fields of a booking with this trigger (Table 5-2). -/
def cueFieldsOf (f : BookFields) (trigger : Trigger) : Option (Option (Fin 4) × Option Edge × Option Nat) :=
  match trigger with
  | .time => some (none, none, none)
  | .cue | .timeOrCue => do
    let line ← idOf 4 f.cueLine
    let edge ← edgeOf f.cueEdge
    some (some line, some edge, some (clamp 0 3600 f.cueLead.toNat))

/-- The trigger of a booking. -/
def triggerNamed (f : BookFields) : Trigger :=
  if f.trigger = 0 then .time else if f.trigger = 1 then .cue else .timeOrCue

theorem cueFieldsOf_cases (f : BookFields) :
    (cueFieldsOf f (triggerNamed f) = none ∧ ¬(f.trigger ≠ 0 → f.cueLine.toNat < 4 ∧ f.cueEdge.toNat < 3)) ∨
      (cueFieldsOf f (triggerNamed f) = some
        (if f.trigger = 0 then none else some (Fin.ofNat 4 f.cueLine.toNat),
          if f.trigger = 0 then none
            else some (if f.cueEdge = 0 then .rise else if f.cueEdge = 1 then .fall else .both),
          if f.trigger = 0 then none else some (min 3600 f.cueLead.toNat)) ∧
        (f.trigger ≠ 0 → f.cueLine.toNat < 4 ∧ f.cueEdge.toNat < 3)) := by
  by_cases zero : f.trigger = 0
  · refine .inr ⟨?_, fun ne => absurd zero ne⟩
    rw [triggerNamed, if_pos zero, if_pos zero, if_pos zero, if_pos zero]
    rfl
  have cue : cueFieldsOf f (triggerNamed f) = (do
      let line ← idOf 4 f.cueLine
      let edge ← edgeOf f.cueEdge
      some (some line, some edge, some (clamp 0 3600 f.cueLead.toNat))) := by
    rw [triggerNamed, if_neg zero]
    split <;> rfl
  rw [cue, if_neg zero, if_neg zero, if_neg zero]
  rcases idOf_cases (n := 4) f.cueLine with ⟨absent, bad⟩ | ⟨line, some_line, value⟩
  · exact .inl ⟨by simp [absent], fun ok => bad (ok zero).1⟩
  rcases edgeOf_cases f.cueEdge with ⟨absent, bad⟩ | ⟨some_edge, range⟩
  · exact .inl ⟨by simp [some_line, absent], fun ok => bad (ok zero).2⟩
  have line_eq : line = Fin.ofNat 4 f.cueLine.toNat := by
    apply Fin.ext
    rw [Fin.val_ofNat, ← value, Nat.mod_eq_of_lt line.isLt]
  exact .inr ⟨by simp [some_line, some_edge, line_eq, clamp_zero], fun _ => ⟨value ▸ line.isLt, range⟩⟩

/-- The feed bytes that the count names. -/
def namedFeeds (f : BookFields) : List Byte := [f.feed0, f.feed1, f.feed2, f.feed3].take f.count.toNat

/-- The fields that Table 5-2 takes at network second `now` (R82). -/
def BookTaken (f : BookFields) (now : Nat) : Prop :=
  f.id ≠ 0 ∧ f.account.toNat < 16 ∧ f.handoff.toNat < 16 ∧ f.tariff.toNat < 8 ∧
    1 ≤ f.count.toNat ∧ f.count.toNat ≤ 4 ∧ (∀ b ∈ (namedFeeds f), b.toNat < 48) ∧ (namedFeeds f).Nodup ∧ now < f.s0.toNat ∧
    f.s0.toNat + 60 ≤ f.e0.toNat ∧ f.e0.toNat ≤ f.s0.toNat + 86400 ∧ f.trigger.toNat < 3 ∧
    (f.trigger ≠ 0 → f.cueLine.toNat < 4 ∧ f.cueEdge.toNat < 3) ∧ f.startRule.toNat < 2 ∧ f.runOn.toNat < 2 ∧
    f.limit.toNat ≤ 15

/-- What the taken fields store (Table 5-2). -/
def BookStores (f : BookFields) (b : Booking) : Prop :=
  b.id = f.id ∧ b.account.val = f.account.toNat ∧ b.handoff.val = f.handoff.toNat ∧ b.tariff.val = f.tariff.toNat ∧
  b.feeds.map (·.val) = (namedFeeds f).map (·.toNat) ∧
  b = { id := b.id, account := b.account, tariff := b.tariff, handoff := b.handoff, feeds := b.feeds
        ports := [], s0 := f.s0.toNat, e0 := f.e0.toNat, e := f.e0.toNat, extension := 0
        trigger := (triggerNamed f)
        cueLine := if f.trigger = 0 then none else some (Fin.ofNat 4 f.cueLine.toNat)
        cueEdge := if f.trigger = 0 then none
          else some (if f.cueEdge = 0 then .rise else if f.cueEdge = 1 then .fall else .both)
        cueLead := if f.trigger = 0 then none else some (min 3600 f.cueLead.toNat)
        startRule := if f.startRule = 0 then .allOrWait else .asAvailable
        runOn := f.runOn == 1
        quantum := max 60 (min 1800 f.quantum.toNat)
        limit := f.limit.toNat, used := 0, state := .scheduled, reason := none, shortened := false
        timeStepped := false, patchReleased := false, liveStart := none, endSecond := none }

theorem bookingOf_eq (f : BookFields) (now : Nat) : bookingOf f now = (do
    let account ← idOf 16 f.account
    let tariff ← idOf 8 f.tariff
    let handoff ← idOf 16 f.handoff
    let feeds ← idsOf f.count.toNat 48 [f.feed0, f.feed1, f.feed2, f.feed3]
    let trigger ← triggerOf f.trigger
    let rule ← startRuleOf f.startRule
    let runOn ← yesNo f.runOn
    let cue ← cueFieldsOf f trigger
    if f.id ≠ 0 ∧ 1 ≤ f.count.toNat ∧ f.count.toNat ≤ 4 ∧ feeds.Nodup ∧ now < f.s0.toNat ∧
        f.s0.toNat + 60 ≤ f.e0.toNat ∧ f.e0.toNat ≤ f.s0.toNat + 86400 ∧ f.limit.toNat ≤ 15 then
      some { id := f.id, account := account, tariff := tariff, handoff := handoff, feeds := feeds, ports := [],
             s0 := f.s0.toNat, e0 := f.e0.toNat, e := f.e0.toNat, extension := 0, trigger := trigger, cueLine := cue.1,
             cueEdge := cue.2.1, cueLead := cue.2.2, startRule := rule, runOn := runOn,
             quantum := clamp 60 1800 f.quantum.toNat, limit := f.limit.toNat, used := 0, state := .scheduled,
             reason := none, shortened := false, timeStepped := false, patchReleased := false, liveStart := none,
             endSecond := none }
    else none) := by
  refine bind_congr fun account => bind_congr fun tariff => bind_congr fun handoff => bind_congr fun feeds =>
    bind_congr fun trigger => bind_congr fun rule => bind_congr fun runOn => ?_
  cases trigger with
  | time => rfl
  | cue | timeOrCue => simp only [cueFieldsOf, Option.bind_assoc, Option.bind_eq_bind, Option.bind_some]

/-- Which fields are taken, and what they store (R82, R84). -/
theorem bookingOf_cases (f : BookFields) (now : Nat) :
    (bookingOf f now = none ∧ ¬BookTaken f now) ∨ ∃ b, bookingOf f now = some b ∧ BookTaken f now ∧ BookStores f b := by
  rw [bookingOf_eq]
  unfold BookTaken
  rcases idOf_cases (n := 16) f.account with ⟨absent, bad⟩ | ⟨account, some_account, account_val⟩
  · exact .inl ⟨by rw [absent]; rfl, fun ok => bad ok.2.1⟩
  rcases idOf_cases (n := 8) f.tariff with ⟨absent, bad⟩ | ⟨tariff, some_tariff, tariff_val⟩
  · exact .inl ⟨by rw [some_account, absent]; rfl, fun ⟨_, _, _, ok, _⟩ => bad ok⟩
  rcases idOf_cases (n := 16) f.handoff with ⟨absent, bad⟩ | ⟨handoff, some_handoff, handoff_val⟩
  · exact .inl ⟨by rw [some_account, some_tariff, absent]; rfl, fun ⟨_, _, ok, _⟩ => bad ok⟩
  rw [some_account, some_tariff, some_handoff]
  simp only [Option.bind_eq_bind, Option.bind_some]
  rcases idsOf_cases f.count.toNat 48 [f.feed0, f.feed1, f.feed2, f.feed3] with
    ⟨absent, bad⟩ | ⟨feeds, some_feeds, range, vals, nodup⟩
  · exact .inl ⟨by rw [absent]; rfl, fun ⟨_, _, _, _, _, _, ok, _⟩ => bad ok⟩
  rcases triggerOf_cases f.trigger with ⟨absent, bad⟩ | ⟨some_trigger, trigger_range⟩
  · exact .inl ⟨by rw [some_feeds, absent]; rfl, fun ⟨_, _, _, _, _, _, _, _, _, _, _, ok, _⟩ => bad ok⟩
  rcases startRuleOf_cases f.startRule with ⟨absent, bad⟩ | ⟨some_rule, rule_range⟩
  · exact .inl ⟨by rw [some_feeds, some_trigger, absent]; rfl,
      fun ⟨_, _, _, _, _, _, _, _, _, _, _, _, _, ok, _⟩ => bad ok⟩
  rcases yesNo_cases f.runOn with ⟨absent, bad⟩ | ⟨some_runOn, runOn_range⟩
  · exact .inl ⟨by rw [some_feeds, some_trigger, some_rule, absent]; rfl,
      fun ⟨_, _, _, _, _, _, _, _, _, _, _, _, _, _, ok, _⟩ => bad ok⟩
  rw [some_feeds, some_trigger, some_rule, some_runOn]
  simp only [Option.bind_some]
  rcases cueFieldsOf_cases f with ⟨absent, bad⟩ | ⟨some_cue, cue_range⟩
  · refine .inl ⟨?_, fun ⟨_, _, _, _, _, _, _, _, _, _, _, _, ok, _⟩ => bad ok⟩
    rw [triggerNamed] at absent
    rw [absent]
    rfl
  rw [triggerNamed] at some_cue
  rw [some_cue]
  simp only [Option.bind_some]
  by_cases ok : f.id ≠ 0 ∧ 1 ≤ f.count.toNat ∧ f.count.toNat ≤ 4 ∧ feeds.Nodup ∧ now < f.s0.toNat ∧
      f.s0.toNat + 60 ≤ f.e0.toNat ∧ f.e0.toNat ≤ f.s0.toNat + 86400 ∧ f.limit.toNat ≤ 15
  · rw [if_pos ok]
    obtain ⟨id, low, high, distinct, later, long, short, limit⟩ := ok
    exact .inr ⟨_, rfl, ⟨id, account_val ▸ account.isLt, handoff_val ▸ handoff.isLt, tariff_val ▸ tariff.isLt, low, high,
      range, nodup.mp distinct, later, long, short, trigger_range, cue_range, rule_range, runOn_range, limit⟩, rfl,
      account_val, handoff_val, tariff_val, vals, rfl⟩
  · rw [if_neg ok]
    exact .inl ⟨rfl, fun ⟨id, _, _, _, low, high, _, distinct, later, long, short, _, _, _, _, limit⟩ =>
      ok ⟨id, low, high, nodup.mpr distinct, later, long, short, limit⟩⟩

/-! ### The admission checks (R83 to R88) -/

namespace State

variable {s : State} {b : Booking}

theorem idInUse_iff (s : State) (id : Half) : s.idInUse id = true ↔
    (∃ i p, s.place i = some p ∧ p.booking.id = id) ∨ ∃ x ∈ s.stl.queue, x.id = id := by
  have record : (s.findRecord id).isSome = true ↔ ∃ i p, s.place i = some p ∧ p.booking.id = id := by
    obtain ⟨none, absent⟩ | ⟨i, p, found, here, same⟩ := s.findRecord_cases id
    · rw [none]
      exact ⟨nofun, fun ⟨i, p, here, same⟩ => absurd same (absent i p here)⟩
    · rw [found]
      exact ⟨fun _ => ⟨i, p, here, same⟩, fun _ => rfl⟩
  rw [idInUse, Bool.or_eq_true, record, List.any_eq_true]
  simp only [beq_iff_eq]

@[simp] theorem enqueue_allocate (s : State) (tag : Byte) (r : Request) (ring : List (Fin 32)) (x y n : Nat)
    (given : List (Fin 32)) : (s.enqueue tag r).allocate ring x y n given = s.allocate ring x y n given := by
  induction n generalizing given with
  | zero => rfl
  | succ n ih =>
    rw [allocate, allocate]
    simp only [ih]
    rfl

@[simp] theorem enqueue_admissionChecks (s : State) (tag : Byte) (r : Request) (b : Booking) :
    (s.enqueue tag r).admissionChecks b = s.admissionChecks b := by
  unfold admissionChecks allocatePorts
  simp only [enqueue_allocate]
  rfl

theorem admissionChecks_of_inUse (h : s.idInUse b.id = true) : s.admissionChecks b = .inl (.exists_, none) := if_pos h

theorem admissionChecks_of_references (h : ¬s.idInUse b.id = true) : s.admissionChecks b =
    match s.checkReferences b with
    | some st => .inl (st, none)
    | none => match s.missingFeed b with
      | some slot => .inl (.noSuch, some slot)
      | none => match s.worksSlot b with
        | some slot => .inl (.worksConflict, some slot)
        | none => match s.allocatePorts b with
          | .inl slot => .inl (.conflict, some slot)
          | .inr ports => match s.freePlace with
            | none => .inl (.noRoom, none)
            | some i => .inr (ports, i) := (if_neg h).trans rfl

/-! ### Admission (R89) -/

theorem insertByStart_eq (startOf : Fin 192 → Nat) (i : Fin 192) (s0 : Nat) (l : List (Fin 192)) :
    insertByStart startOf i s0 l =
      l.takeWhile (fun j => decide (startOf j ≤ s0)) ++ i :: l.dropWhile fun j => decide (startOf j ≤ s0) := by
  induction l with
  | nil => rfl
  | cons j js ih =>
    by_cases later : s0 < startOf j
    · simp [insertByStart, later, Nat.not_le.mpr later]
    · simp [insertByStart, later, Nat.le_of_not_lt later, ih]

theorem foldl_insertEntry_perm (new l : List TimeEntry) :
    (new.foldl (fun l e => insertEntry e l) l).Perm (l ++ new) := by
  induction new generalizing l with
  | nil => rw [List.append_nil]; exact .refl _
  | cons e new ih =>
    exact ((ih _).trans ((insertEntry_perm e l).append_right new)).trans List.perm_middle.symm

/-- What an admission into place `i` makes (R81, R89). -/
structure Admitted (s t : State) (i : Fin 192) (b : Booking) (ports : List (Fin 32)) : Prop where
  place : t.place i = some ⟨{ b with ports := ports }, MeterSet.fresh b.feeds.length, none⟩
  others : ∀ j, j ≠ i → t.place j = s.place j
  timeline : ∀ q, t.timeline q =
    if q ∈ ports then
      (s.timeline q).takeWhile (fun j => decide (s.startAt j ≤ b.s0)) ++
        i :: (s.timeline q).dropWhile fun j => decide (s.startAt j ≤ b.s0)
    else s.timeline q
  entries : t.bku.timeList.Perm (s.bku.timeList ++ entriesOf s.tb.seconds i b)
  accounts : ∀ a, t.dir.accounts.get a = { s.dir.accounts.get a with
    refs := (s.dir.accounts.get a).refs + if a = b.account then 1 else 0 }
  handoffs : ∀ g, t.dir.handoffs.get g = { s.dir.handoffs.get g with
    refs := (s.dir.handoffs.get g).refs + if g = b.handoff then 1 else 0 }
  tariffs : ∀ k, t.stl.tariffs.get k = { s.stl.tariffs.get k with
    refs := (s.stl.tariffs.get k).refs + if k = b.tariff then 1 else 0 }
  kept : t.dir.ports = s.dir.ports ∧ t.dir.margin = s.dir.margin ∧ t.stl = { s.stl with tariffs := t.stl.tariffs }
  only : t = { s with bku := t.bku, dir := t.dir, stl := t.stl }

theorem add_ite_one (n : Nat) (c : Prop) [Decidable c] : (if c then n + 1 else n) = n + if c then 1 else 0 := by
  split <;> rfl

theorem admitRecord_admitted (s : State) (i : Fin 192) (b : Booking) (ports : List (Fin 32)) :
    s.Admitted (s.admitRecord i { b with ports := ports }) i b ports := by
  refine ⟨setPlace_place .., fun j ne => setPlace_place_ne _ _ (Ne.symm ne), fun q => ?_, foldl_insertEntry_perm _ _,
    fun a => ?_, fun g => ?_, fun k => ?_, ⟨rfl, rfl, rfl⟩, rfl⟩
  · rw [← insertByStart_eq]
    exact tab_get ..
  · rw [← add_ite_one]
    exact accountRefs_get s.dir b.account a (· + 1)
  · rw [← add_ite_one]
    exact handoffRefs_get (s.dir.accountRefs b.account (· + 1)) b.handoff g (· + 1)
  · rw [← add_ite_one]
    exact tariffRefs_get s.stl b.tariff k (· + 1)

theorem Admitted.withLink {s t : State} {i : Fin 192} {b : Booking} {ports : List (Fin 32)}
    (h : s.Admitted t i b ports) (l : LNK) : Admitted { s with lnk := l } { t with lnk := l } i b ports := by
  refine ⟨h.place, h.others, h.timeline, h.entries, h.accounts, h.handoffs, h.tariffs, h.kept, ?_⟩
  rw [h.only]

variable {f : BookFields} {ports : List (Fin 32)} {i : Fin 192}

theorem serveBook_of_refused {st : Status} {slot : Option Nat} (booking : bookingOf f s.tb.seconds = some b)
    (h : s.admissionChecks b = .inl (st, slot)) : s.serveBook f = (s, ⟨st, .slotAtFault slot⟩) := by
  simp only [serveBook, booking, h]

theorem serveBook_of_admitted (booking : bookingOf f s.tb.seconds = some b)
    (h : s.admissionChecks b = .inr (ports, i)) : s.serveBook f =
      (s.admitRecord i { b with ports := ports }, ⟨.ok, .booked b.id i ports b.cueLead b.quantum⟩) := by
  simp only [serveBook, booking, h]
  rfl

end State

/-- Settles O44: the fields by `bookingOf_cases`, and then the checks in order and the admission. -/
theorem book : Obligations.Book := by
  refine ⟨fun f now => ?fields, fun tag f s hs => ?served⟩
  case fields =>
    obtain ⟨refused, bad⟩ | ⟨b, accepted, taken, stores⟩ := bookingOf_cases f now
    · exact ⟨⟨fun _ => bad, fun _ => refused⟩, fun b h => absurd (refused.symm.trans h) nofun⟩
    · refine ⟨⟨fun refused => absurd (accepted.symm.trans refused) nofun, fun bad => absurd taken bad⟩, fun b' h => ?_⟩
      obtain rfl := Option.some.inj (accepted.symm.trans h)
      exact stores
  case served =>
    have answered {a : Answer} (h : (s.enqueue tag (.book f)).serveBook f = (s.enqueue tag (.book f), a)) :
        Answered (.book tag f) s a s := .of_read (r := .book f) rfl hs (fun _ => nofun) h
    dsimp only
    cases booking : bookingOf f s.tb.seconds with
    | none =>
      refine answered ?_
      simp only [State.serveBook, State.enqueue_tb, booking]
    | some b =>
      have refused {st : Status} {slot : Option Nat} (h : s.admissionChecks b = .inl (st, slot)) :
          Answered (.book tag f) s ⟨st, .slotAtFault slot⟩ s :=
        answered (State.serveBook_of_refused booking ((State.enqueue_admissionChecks ..).trans h))
      dsimp only
      rw [ite_prop_iff_and]
      refine ⟨fun inUse => refused (State.admissionChecks_of_inUse ((s.idInUse_iff b.id).mpr inUse)), fun new => ?_⟩
      have checks := State.admissionChecks_of_references (fun h => new ((s.idInUse_iff b.id).mp h))
      cases permitted : (s.dir.accounts.get b.account).permitted with
      | none =>
        have references : s.checkReferences b = some .noSuch := by simp only [State.checkReferences, permitted]
        rw [references] at checks
        exact refused checks
      | some permitted_tariffs =>
      cases entry : (s.dir.handoffs.get b.handoff).entry with
      | none =>
        have references : s.checkReferences b = some .noSuch := by simp only [State.checkReferences, permitted, entry]
        rw [references] at checks
        exact refused checks
      | some h =>
      have references : s.checkReferences b =
          if (s.stl.tariffs.get b.tariff).valid = false then some .noSuch
          else if h.account ≠ b.account then some .badField
          else if permitted_tariffs.getLsbD b.tariff.val = false then some .badField
          else none := by
        simp only [State.checkReferences, permitted, entry, Bool.not_eq_true']
      rw [references] at checks
      dsimp only
      split
      next undefined =>
        rw [if_pos undefined] at checks
        exact refused checks
      next valid =>
      rw [if_neg valid] at checks
      split
      next other =>
        rw [if_pos other] at checks
        exact refused checks
      next same =>
      rw [if_neg same] at checks
      split
      next barred =>
        rw [if_pos barred] at checks
        exact refused checks
      next allowed =>
      rw [if_neg allowed] at checks
      dsimp only [State.missingFeed, State.worksSlot, State.feedHasWorks, State.freePlace] at checks
      split
      next slot missing =>
        rw [missing] at checks
        exact refused checks
      next found =>
      rw [found] at checks
      dsimp only at checks
      split
      next slot works =>
        rw [works] at checks
        exact refused checks
      next no_works =>
      rw [no_works] at checks
      dsimp only at checks
      split
      next slot conflict =>
        rw [conflict] at checks
        exact refused checks
      next ports allocated =>
      rw [allocated] at checks
      dsimp only at checks
      split
      next full =>
        rw [full] at checks
        exact refused checks
      next i free =>
      rw [free] at checks
      have serve := State.serveBook_of_admitted (s := s.enqueue tag (.book f)) booking
        ((State.enqueue_admissionChecks s tag (.book f) b).trans checks)
      have served := Answered.of_service (c := .book tag f) (r := .book f) rfl hs (fun _ => nofun) serve
      have admitted := (State.admitRecord_admitted (s.enqueue tag (.book f)) i b ports).withLink s.lnk
      obtain ⟨on_ports, margin, stl⟩ := admitted.kept
      exact ⟨_, served, admitted.place, admitted.others, admitted.timeline, admitted.entries, admitted.accounts,
        admitted.handoffs, admitted.tariffs, on_ports, margin, stl, admitted.only⟩

end Sys2Proof.Machine
end

