-- ==== Sys2Proof/Proofs/Takes.lean ====
section
/-! PROOFS. The blocks that take a reference marker (O40), the confirms and the confirm timer (O41). -/

namespace Sys2Proof.Machine

/-! ### Events in any order -/

/-- Functions that carry out some events, taken one after another behind some open orders (log entry 4). -/
theorem inOrder_raced {order : List (State → State)} {events : List (State → State → Prop)}
    (h : List.Forall₂ (fun f r => ∀ s, r s (f s)) order events) (some_event : order ≠ []) (s : State) (n : Nat) :
    InOrder Raced events s (order.foldl (fun s f => f s) { s with raceCount := n }) := by
  induction h generalizing s n with
  | nil => exact absurd rfl some_event
  | @cons f r order events does rest ih =>
    refine ⟨f { s with raceCount := n }, ⟨n, does _⟩, ?_⟩
    cases order with
    | nil => cases rest; rfl
    | cons g order => exact ih nofun (f { s with raceCount := n }) (f { s with raceCount := n }).raceCount

/-- Events taken in any order (log entry 4) are taken in some order. -/
theorem inAnyOrder_taken {fs : List (State → State)} {events : List (State → State → Prop)}
    (h : List.Forall₂ (fun f r => ∀ s, r s (f s)) fs events) (some_event : fs ≠ []) (s : State) :
    ∃ order, order.Perm events ∧ InOrder Raced order s (s.inAnyOrder fs) := by
  obtain ⟨order, n, perm, eq⟩ := State.inAnyOrder_spec fs s
  obtain ⟨named, does, named_perm⟩ := List.perm_comp_forall₂ perm h
  rw [eq]
  exact ⟨named, named_perm, inOrder_raced does (fun none => some_event (List.nil_perm.mp (none ▸ perm))) s n⟩

/-! ### RMON at a marker (R31) -/

theorem Drill.count_eq (now : Nat) (d : Drill) : d.count now =
    match d.phase with
    | .countdown n => { d with phase := if n ≤ 1 then .active (now + d.duration) else .countdown (n - 1) }
    | .active _ => d := by
  unfold Drill.count Drill.activate
  cases d.phase with
  | countdown n => dsimp only; split <;> rfl
  | active t => rfl

namespace State

theorem rmonMarker_taken (s : State) : s.DrillsTaken s.rmonMarker := by
  have taken := healthEvent_taken
    { s with rmon := { s.rmon with drills := tab fun c => (s.drill c).map (Drill.count s.tb.elapsed) } }
    (cs := s.drillsRunOut) ((List.nodup_finRange 24).filter _)
  rw [← rmonMarker, funext (Drill.count_eq s.tb.elapsed)] at taken
  exact taken

/-! ### XPC at a marker (R127, R128, R131) -/

/-- Ports changed one after another, where a second change of a port would be none. -/
theorem foldl_onXPort {f : XPort → XPort} (again : ∀ x, f (f x) = f x) (l : List (Fin 32)) (s : State) :
    l.foldl (fun acc p => acc.onXPort p f) s =
      { s with xpc := { s.xpc with ports := tab fun p => if p ∈ l then f (s.xport p) else s.xport p } } := by
  induction l generalizing s with
  | nil =>
    have same : (tab fun p => if p ∈ ([] : List (Fin 32)) then f (s.xport p) else s.xport p) = s.xpc.ports :=
      table_ext fun p => by simp [xport]
    rw [same]
    rfl
  | cons p l ih =>
    have ports : (tab fun q => if q ∈ l then f ((s.onXPort p f).xport q) else (s.onXPort p f).xport q) =
        tab fun q => if q ∈ p :: l then f (s.xport q) else s.xport q := by
      refine table_ext fun q => ?_
      rw [tab_get, tab_get, onXPort_xport]
      by_cases same : p = q
      · subst same
        simp [again]
      · simp only [if_neg same, List.mem_cons, Ne.symm same, false_or]
    rw [List.foldl_cons, ih, ports]
    rfl

theorem include_include (x : XPort) : x.include.include = x.include := by
  have claim : x.include.claim = x.claim := rfl
  rw [XPort.include, claim, XPort.include]
  simp

/-- What XPC works out is worked out from the ports, and not from the take under way. -/
theorem FlagsTaken.withTake {s t : State} {ports : List (Fin 32)} (h : s.FlagsTaken t ports) (x : XPC) :
    State.FlagsTaken { s with xpc := { x with ports := s.xpc.ports } } { t with xpc := { x with ports := t.xpc.ports } }
      ports := by
  refine ⟨h.delivered, h.concerned, h.others, ?_⟩
  rw [h.outside]

/-- Every port of a take is included in it (R127 steps 1 and 3). -/
def portsIncluded (s : State) (ports : List (Fin 32)) : State :=
  { s with xpc := { s.xpc with ports := tab fun p => if p ∈ ports then (s.xport p).include else s.xport p } }

/-- The orders of a take at some ports (R127 steps 2 and 4). -/
def takeOrders (s : State) (ports : List (Fin 32)) : List Order := ports.filterMap (s.portsIncluded ports).orderFor

/-- A take's ports are included and its orders made (R127, R128). -/
def ordersMade (s : State) (ports : List (Fin 32)) : State :=
  { s.portsIncluded ports with xpc := { (s.portsIncluded ports).xpc with
    orders := s.takeOrders ports
    included := ports.flatMap fun p => (s.xport p).entryOrNew.riders
    stamp := s.tb.frame
    sent := (s.takeOrders ports).length
    confirmed := 0
    matrixOut := (s.takeOrders ports).map Order.word } }

theorem startTake_eq (s : State) (ports : List (Fin 32)) : s.startTake ports =
    let w := (s.ordersMade ports).recomputeFlags ports
    if s.takeOrders ports = [] then w.completeTake 0
    else { w with xpc := { w.xpc with inFlight := true, timer := some (s.tb.elapsed + s.xpc.timeout) } } := by
  have included : ports.foldl (fun acc p => acc.onXPort p XPort.include) s = s.portsIncluded ports :=
    foldl_onXPort include_include ports s
  unfold startTake
  dsimp only
  rw [included]
  simp only [List.isEmpty_iff]
  rfl

theorem startTake_started (s : State) (ports : List (Fin 32)) : ∃ u, s.TakeStarted u ports ∧
    s.startTake ports = if u.xpc.orders = [] then u.completeTake 0 else u := by
  have taken := recomputeFlags_taken (s.ordersMade ports) ports
  have eq := s.startTake_eq ports
  generalize (s.ordersMade ports).recomputeFlags ports = w at taken eq
  have flags : (s.portsIncluded ports).FlagsTaken
      { w with xpc := { (s.portsIncluded ports).xpc with ports := w.xpc.ports } } ports :=
    taken.withTake (s.portsIncluded ports).xpc
  have outside : w = { s.ordersMade ports with
      bku := w.bku, xpc := { (s.ordersMade ports).xpc with ports := w.xpc.ports } } := by
    rw [taken.outside]
  have orders : w.xpc.orders = s.takeOrders ports := by rw [outside]; rfl
  have only : { w with xpc := { (s.portsIncluded ports).xpc with ports := w.xpc.ports } } =
      { s.portsIncluded ports with bku := w.bku, xpc := { (s.portsIncluded ports).xpc with ports := w.xpc.ports } } := by
    rw [outside]
    rfl
  rw [only] at flags
  dsimp only at eq
  refine ⟨{ w with xpc := { w.xpc with
      inFlight := s.xpc.inFlight || !(s.takeOrders ports).isEmpty
      timer := if s.takeOrders ports = [] then s.xpc.timer else some (s.tb.elapsed + s.xpc.timeout) } },
    ⟨flags, ?_⟩, ?_⟩
  · rw [outside]
    rfl
  · dsimp only
    rw [eq, orders]
    by_cases none : s.takeOrders ports = []
    · rw [if_pos none, if_pos none]
      rfl
    · have sends : (s.xpc.inFlight || !(s.takeOrders ports).isEmpty) = true := by simp [none]
      rw [if_neg none, if_neg none, if_neg none, sends]

theorem xpcMarker_took (s : State) : s.XpcTook s.xpcMarker := by
  unfold xpcMarker XpcTook
  dsimp only
  have idle : (s.xpc.inFlight || s.takePorts.isEmpty) = true ↔ s.xpc.inFlight = true ∨ s.takePorts = [] := by
    rw [Bool.or_eq_true, List.isEmpty_iff]
  by_cases stands : s.xpc.inFlight = true ∨ s.takePorts = []
  · rw [if_pos (idle.mpr stands)]
    exact (if_pos stands).mpr rfl
  · rw [if_neg (mt idle.mp stands)]
    obtain ⟨u, started, eq⟩ := s.startTake_started s.takePorts
    refine (if_neg stands).mpr ⟨u, started, ?_⟩
    rw [eq]
    split
    · rfl
    · rfl

/-! ### What a drill changed, handed apart (R126, R132, R137, R152) -/

theorem handSelection_resourced (s : State) (c : Fin 24) (old new : Side) :
    s.Resourced (routeOf c .a) (routeOf c old) (routeOf c new) (s.handSelection c old new) := by
  have ports := funext fun p => s.resourcePort_eq (routeOf c .a) (routeOf c old) (routeOf c new) (s.xport p)
  unfold Resourced handSelection resource
  rw [ports]
  exact ⟨_, recomputeFlags_taken _ _, rfl⟩

theorem xpcHealth_heard (before after s : State) : HealthHeard before after s (s.xpcHealth (before.healthChanges after)) := by
  have ports : s.portsOn (before.healthChanges after) = (List.finRange 32).filter fun p =>
      match (s.xport p).holder with
      | .slot ref => (s.slotRoute ref).any fun r => after.health r != before.health r
      | .patch | .nobody => false := by
    refine List.filter_congr fun p _ => ?_
    cases (s.xport p).holder with
    | slot ref =>
      dsimp only
      congr 1
      funext r
      rw [Bool.eq_iff_iff, List.contains_iff_mem, healthChanges, List.mem_filter, bne_comm]
      exact ⟨And.right, fun h => ⟨List.mem_finRange r, h⟩⟩
    | patch | nobody => rfl
  rw [xpcHealth_eq, ports]
  exact recomputeFlags_taken s _

theorem handSelections_heard (before after s : State) :
    SelectionsHeard before after s (State.handSelections before after s) := by
  refine foldl_inOrder (fun u c => ?_) _ s
  cases before.selectedSide c with
  | none => rfl
  | some old =>
    cases after.selectedSide c with
    | none => rfl
    | some new =>
      dsimp only
      by_cases same : old = new
      · rw [if_pos same, if_pos same]
      · rw [if_neg same, if_neg same]
        exact handSelection_resourced u c old new

theorem splitMarker_taken {others : List (State → State)} {events : List (State → State → Prop)}
    (h : List.Forall₂ (fun f r => ∀ s, r s (f s)) others events) (s : State) :
    DrillsTakenApart events s (s.splitMarker others) := by
  refine ⟨s.rmonMarker, s.rmonMarker_taken, ?_⟩
  exact inAnyOrder_taken (.cons (xpcHealth_heard s s.rmonMarker) (.cons (handSelections_heard s s.rmonMarker) h)) nofun _

end State

/-- Settles O40: each reader by what it does, and the drills' changes handed apart by the order in which they are taken. -/
theorem markerReaders : Obligations.MarkerReaders := fun s =>
  ⟨s.rmonMarker_taken, s.waitingTests_taken, s.xpcMarker_took, s.handSelection_resourced, fun before after =>
    ⟨State.xpcHealth_heard before after s, State.handSelections_heard before after s⟩,
    s.splitMarker_taken (.cons State.waitingTests_taken (.cons State.xpcMarker_took .nil)),
    s.splitMarker_taken (.cons State.xpcMarker_took .nil)⟩

/-! ### The words of the matrix link (Table 11-11) -/

theorem ofNat_toNat_byte (b : Byte) : BitVec.ofNat 8 b.toNat = b := by rw [BitVec.ofNat_toNat, BitVec.setWidth_eq]

theorem ofCode_code (i : Input) : Input.ofCode i.code = some i := by
  cases i with
  | route r =>
    have value : (BitVec.ofNat 8 r.val).toNat = r.val := by
      rw [BitVec.toNat_ofNat]
      have := r.isLt
      omega
    rw [Input.code, Input.ofCode, dif_pos (by rw [value]; exact r.isLt)]
    simp only [value]
  | park => rfl

theorem code_of_ofCode {b : Byte} {i : Input} (h : Input.ofCode b = some i) : b = i.code := by
  unfold Input.ofCode at h
  split at h
  · cases h
    exact (ofNat_toNat_byte b).symm
  · split at h
    next park => cases h; exact park
    next => cases h

/-- A group names an order exactly when it is its word (R129). -/
theorem parse_eq_some_iff {group : List Byte} {o : Order} : Order.parse group = some o ↔ group = o.word := by
  constructor
  · intro h
    unfold Order.parse at h
    split at h
    next b0 b1 check =>
      split at h
      next good =>
        obtain ⟨rfl, range⟩ := good
        obtain ⟨i, input, rfl⟩ := Option.map_eq_some_iff.mp h
        rw [Order.word, ← code_of_ofCode input]
        simp only [ofNat_toNat_byte]
      next => cases h
    next => cases h
  · rintro rfl
    have value : (BitVec.ofNat 8 o.port.val).toNat = o.port.val := by
      rw [BitVec.toNat_ofNat]
      have := o.port.isLt
      omega
    unfold Order.word Order.parse
    dsimp only
    rw [dif_pos ⟨rfl, by rw [value]; exact o.port.isLt⟩, ofCode_code]
    simp only [value, Option.map_some]

/-- A port is in the set of some ports where it is one of them (Table 11-10). -/
theorem getLsbD_portSet (l : List (Fin 32)) (p : Fin 32) : (portSet l).getLsbD p.val = decide (p ∈ l) := by
  have from_ (acc : BitVec 32) : (l.foldl (fun acc p => acc ||| BitVec.twoPow 32 p.val) acc).getLsbD p.val =
      (acc.getLsbD p.val || decide (p ∈ l)) := by
    induction l generalizing acc with
    | nil => simp
    | cons q l ih =>
      rw [List.foldl_cons, ih, BitVec.getLsbD_or, BitVec.getLsbD_twoPow, Bool.or_assoc]
      congr 1
      rw [decide_eq_true q.isLt, Bool.true_and, ← Bool.decide_or]
      exact decide_eq_decide.mpr (by rw [List.mem_cons, ← Fin.ext_iff, eq_comm])
  rw [portSet, from_]
  simp

namespace State

/-! ### Confirms (R129, R131) -/

theorem suspectPorts_eq_nil_iff (s : State) : s.suspectPorts = [] ↔ ∀ p, (s.xport p).committed ≠ .suspect := by
  simp [suspectPorts, List.filter_eq_nil_iff]

/-- The order `o` closed and its input committed (R129). -/
def confirmedOrder (s : State) (o : Order) : State :=
  { s with xpc := { s.xpc with
    ports := upd s.xpc.ports o.port { s.xport o.port with committed := o.input.committed }
    orders := s.xpc.orders.filter (· != o)
    confirmed := s.xpc.confirmed + 1 } }

theorem acceptConfirm_eq (s : State) (o : Order) : s.acceptConfirm o =
    let u := (s.confirmedOrder o).recomputeFlags [o.port]
    let w := if (s.xport o.port).committed = .suspect ∧ ∀ p, (u.xport p).committed ≠ .suspect then u.raise takeObject else u
    if s.xpc.orders.filter (· != o) = [] then w.completeTake 0 else w := by
  have cleared (u : State) : (if (s.xport o.port).committed = .suspect ∧ u.suspectPorts = [] then u.raise takeObject else u) =
      if (s.xport o.port).committed = .suspect ∧ ∀ p, (u.xport p).committed ≠ .suspect then u.raise takeObject else u :=
    if_congr (and_congr_right' u.suspectPorts_eq_nil_iff) rfl rfl
  dsimp only
  rw [← cleared]
  exact if_congr List.isEmpty_iff rfl rfl

/-! ### The confirm timer (R130, R154) -/

/-- The places where `seen` holds are marked SUSPECT_SEEN (R154). -/
def suspectMarked (s : State) (seen : Fin 192 → Place → Bool) : State :=
  { s with bku := { s.bku with places := tab fun i => (s.place i).map fun x =>
    if (seen i x) = true then { x with meter := { x.meter with suspectSeen := true } } else x } }

theorem suspectMarked_place (s : State) (seen : Fin 192 → Place → Bool) (i : Fin 192) :
    (s.suspectMarked seen).place i = (s.place i).map fun x =>
      if seen i x = true then { x with meter := { x.meter with suspectSeen := true } } else x := tab_get ..

theorem suspectMarked_of_not (s : State) {seen : Fin 192 → Place → Bool} (h : ∀ i x, seen i x = false) :
    s.suspectMarked seen = s := by
  have places : (s.suspectMarked seen).bku.places = s.bku.places := table_ext fun i => by
    refine (suspectMarked_place s seen i).trans ?_
    simp only [h]
    exact congrFun Option.map_id _
  unfold suspectMarked at places ⊢
  dsimp only at places
  rw [places]

theorem suspectMarked_suspectMarked (s : State) (seen also : Fin 192 → Place → Bool)
    (same : ∀ i x, also i { x with meter := { x.meter with suspectSeen := true } } = also i x) :
    (s.suspectMarked seen).suspectMarked also = s.suspectMarked fun i x => seen i x || also i x := by
  have places : ((s.suspectMarked seen).suspectMarked also).bku.places =
      (s.suspectMarked fun i x => seen i x || also i x).bku.places := table_ext fun i => by
    refine (suspectMarked_place _ also i).trans (Eq.trans ?_ (suspectMarked_place s _ i).symm)
    rw [suspectMarked_place, Option.map_map]
    congr 1
    funext x
    cases h : seen i x <;> cases k : also i x <;> simp [h, k, same]
  unfold suspectMarked at places ⊢
  dsimp only at places ⊢
  rw [places]

theorem onPlace_only (s : State) (i : Fin 192) (f : Place → Place) :
    s.onPlace i f = { s with bku := { s.bku with places := (s.onPlace i f).bku.places } } := by
  unfold onPlace
  split <;> rfl

theorem suspectEvent_eq (s : State) (p : Fin 32) :
    s.suspectEvent p = s.suspectMarked fun i x => (s.xport p).holder.isSlotOf i x.booking.id := by
  unfold suspectEvent
  cases holder : (s.xport p).holder with
  | slot ref =>
    dsimp only
    have places : (s.onPlace ref.record fun q =>
        if q.booking.id = ref.id then { q with meter := { q.meter with suspectSeen := true } } else q).bku.places =
        (s.suspectMarked fun i x => (Holder.slot ref).isSlotOf i x.booking.id).bku.places := table_ext fun i => by
      refine (onPlace_place ..).trans (Eq.trans ?_ (suspectMarked_place ..).symm)
      by_cases here : ref.record = i
      · rw [if_pos here]
        congr 1
        funext x
        refine if_congr ?_ rfl rfl
        rw [Holder.isSlotOf, here, beq_self_eq_true, Bool.true_and, beq_iff_eq, eq_comm]
      · rw [if_neg here]
        simp only [Holder.isSlotOf, beq_eq_false_iff_ne.mpr here, Bool.false_and]
        exact (congrFun Option.map_id _).symm
    refine (onPlace_only ..).trans ?_
    rw [places]
    rfl
  | patch | nobody => exact (suspectMarked_of_not s fun _ _ => rfl).symm

theorem foldl_suspectEvent (l : List (Fin 32)) (s : State) : l.foldl suspectEvent s =
    s.suspectMarked fun i x => l.any fun p => (s.xport p).holder.isSlotOf i x.booking.id := by
  induction l generalizing s with
  | nil => exact (suspectMarked_of_not s fun _ _ => rfl).symm
  | cons p l ih =>
    rw [List.foldl_cons, ih, suspectEvent_eq]
    exact suspectMarked_suspectMarked s _ _ fun _ _ => rfl

/-- The orders' ports are SUSPECT, and the take has no order left (R130). -/
def ordersLost (s : State) (ports : List (Fin 32)) : State :=
  { s with xpc := { s.xpc with
    ports := tab fun p => if p ∈ ports then { s.xport p with committed := .suspect } else s.xport p
    newlySuspect := s.xpc.newlySuspect ||| portSet (ports.filter fun p => (s.xport p).committed != .suspect)
    orders := [] } }

theorem confirmExpire_eq (s : State) :
    let ports := s.xpc.orders.map (·.port)
    s.confirmExpire = ((((s.ordersLost ports).suspectMarked fun i x =>
      ports.any fun p => (s.xport p).holder.isSlotOf i x.booking.id).recomputeFlags ports).raise takeObject).completeTake
        ports.length := by
  dsimp only
  have committed := foldl_onXPort (f := fun x => { x with committed := .suspect }) (fun _ => rfl)
    (s.xpc.orders.map (·.port)) s
  have holder (p : Fin 32) : ((s.ordersLost (s.xpc.orders.map (·.port))).xport p).holder = (s.xport p).holder := by
    rw [show (s.ordersLost (s.xpc.orders.map (·.port))).xport p = _ from tab_get ..]
    split <;> rfl
  have marked := foldl_suspectEvent (s.xpc.orders.map (·.port)) (s.ordersLost (s.xpc.orders.map (·.port)))
  simp only [holder] at marked
  rw [← marked]
  unfold confirmExpire
  dsimp only
  rw [committed]
  rfl

end State

/-- Settles O41: a group that names no open order, an order's confirm, and the confirm timer's expiry. -/
theorem confirms : Obligations.Confirms := by
  intro s
  refine ⟨fun group ignored => ?ignored, fun o open_order flight => ?confirmed, ?expiry⟩
  case ignored =>
    have leads : Leads (.confirm group) s (s.confirmWord group) := rfl
    rw [State.confirmWord] at leads
    cases parsed : Order.parse group with
    | none => rwa [parsed] at leads
    | some o =>
      rw [parsed] at leads
      have closed : ¬(s.xpc.inFlight && s.xpc.orders.contains o) = true := by
        rw [Bool.and_eq_true, List.contains_iff_mem]
        rintro ⟨flight, mem⟩
        rcases ignored o (parse_eq_some_iff.mp parsed) with idle | absent
        · rw [idle] at flight; cases flight
        · exact absent mem
      dsimp only [State.takeConfirm] at leads
      rwa [if_neg closed] at leads
  case confirmed =>
    have leads : Leads (.confirm o.word) s (s.confirmWord o.word) := rfl
    have opened : (s.xpc.inFlight && s.xpc.orders.contains o) = true := by
      rw [Bool.and_eq_true, List.contains_iff_mem]
      exact ⟨flight, open_order⟩
    rw [State.confirmWord, parse_eq_some_iff.mpr rfl] at leads
    dsimp only [State.takeConfirm] at leads
    rw [if_pos opened, State.acceptConfirm_eq] at leads
    have taken := State.recomputeFlags_taken (s.confirmedOrder o) [o.port]
    dsimp only at leads
    generalize (s.confirmedOrder o).recomputeFlags [o.port] = u at leads taken
    refine ⟨u, _, leads, taken, ?_⟩
    dsimp only
    split
    · rfl
    · rfl
  case expiry =>
    have leads : Leads .confirmTimerExpiry s s.confirmExpiry := rfl
    rw [State.confirmExpiry] at leads
    split
    next due =>
      rw [if_pos due, State.confirmExpire_eq] at leads
      dsimp only at leads ⊢
      generalize s.xpc.orders.map (·.port) = ports at leads
      refine ⟨s.xpc.newlySuspect ||| portSet (ports.filter fun p => (s.xport p).committed != .suspect), _, _, leads,
        fun p => ?_, State.recomputeFlags_taken _ ports, rfl⟩
      rw [BitVec.getLsbD_or, getLsbD_portSet]
      congr 1
      exact decide_eq_decide.mpr (by rw [List.mem_filter, bne_iff_ne])
    next later => rwa [if_neg later] at leads

end Sys2Proof.Machine
end

