-- ==== Sys2Proof/Proofs/BookEvents.lean ====
section
/-! PROOFS. The events that change the booking table, its timelines and time list, the directory's counts and the settlement
queue, and what each of them keeps: the closing list and the ids (R78, R165), and the directory's counts (R67). -/

namespace Sys2Proof.Machine

/-! ### A record seen by the laws -/

/-- What the laws of the ids, the counts and the queue read of a place. -/
structure Place.SameName (p q : Place) : Prop where
  id : q.booking.id = p.booking.id
  account : q.booking.account = p.booking.account
  handoff : q.booking.handoff = p.booking.handoff
  tariff : q.booking.tariff = p.booking.tariff
  limit : q.booking.limit = p.booking.limit
  closing : q.booking.state = .closing ↔ p.booking.state = .closing
  held : q.held = p.held

/-- What the laws of the timelines and of the time list read of a place beside it. -/
structure Place.SameSpan (p q : Place) : Prop where
  ports : q.booking.ports = p.booking.ports
  s0 : q.booking.s0 = p.booking.s0
  e : q.booking.e = p.booking.e
  cueLead : q.booking.cueLead = p.booking.cueLead

/-- Two places that the laws see alike. -/
structure Place.Alike (p q : Place) : Prop where
  name : p.SameName q
  span : p.SameSpan q

theorem Place.SameName.refl (p : Place) : p.SameName p := ⟨rfl, rfl, rfl, rfl, rfl, .rfl, rfl⟩

theorem Place.Alike.refl (p : Place) : p.Alike p := ⟨.refl p, ⟨rfl, rfl, rfl, rfl⟩⟩

theorem Place.SameSpan.entrySecond {p q : Place} (h : p.SameSpan q) (kind : EntryKind) :
    q.booking.entrySecond kind = p.booking.entrySecond kind := by
  cases kind <;> simp [Booking.entrySecond, h.s0, h.e, h.cueLead]

namespace State

/-- Every place is free in both states, or holds records that `r` relates. -/
def PlacesBy (r : Place → Place → Prop) (s t : State) : Prop :=
  ∀ i, (s.place i = none ∧ t.place i = none) ∨ ∃ p q, s.place i = some p ∧ t.place i = some q ∧ r p q

variable {r : Place → Place → Prop} {s t : State} {i : Fin 192}

theorem PlacesBy.of_same (refl : ∀ p, r p p) (same : ∀ i, t.place i = s.place i) : PlacesBy r s t := fun i => by
  rw [same]
  cases h : s.place i with
  | none => exact .inl ⟨rfl, rfl⟩
  | some p => exact .inr ⟨p, p, rfl, rfl, refl p⟩

theorem PlacesBy.mono {r' : Place → Place → Prop} (h : PlacesBy r s t) (weaker : ∀ p q, r p q → r' p q) :
    PlacesBy r' s t := fun i =>
  (h i).imp_right fun ⟨p, q, hs, ht, rel⟩ => ⟨p, q, hs, ht, weaker p q rel⟩

theorem PlacesBy.some_of {q : Place} (h : PlacesBy r s t) (there : t.place i = some q) : ∃ p, s.place i = some p ∧ r p q := by
  obtain ⟨-, none⟩ | ⟨p, q', hs, ht, rel⟩ := h i
  · cases none.symm.trans there
  · cases ht.symm.trans there
    exact ⟨p, hs, rel⟩

theorem PlacesBy.of_some {p : Place} (h : PlacesBy r s t) (here : s.place i = some p) : ∃ q, t.place i = some q ∧ r p q := by
  obtain ⟨none, -⟩ | ⟨p', q, hs, ht, rel⟩ := h i
  · cases none.symm.trans here
  · cases hs.symm.trans here
    exact ⟨q, ht, rel⟩

/-- One place changes, to one that `r` relates. -/
theorem PlacesBy.of_one {p q : Place} (refl : ∀ p, r p p) (here : s.place i = some p) (there : t.place i = some q)
    (others : ∀ j, j ≠ i → t.place j = s.place j) (rel : r p q) : PlacesBy r s t := by
  intro j
  by_cases e : j = i
  · exact .inr ⟨p, q, e ▸ here, e ▸ there, rel⟩
  · rw [others j e]
    exact PlacesBy.of_same (s := s) refl (fun _ => rfl) j

/-! ### The events -/

/-- Every count of the directory stands. -/
structure RefsKept (s t : State) : Prop where
  accounts : ∀ a, (t.dir.accounts.get a).refs = (s.dir.accounts.get a).refs
  handoffs : ∀ h, (t.dir.handoffs.get h).refs = (s.dir.handoffs.get h).refs
  tariffs : ∀ k, (t.stl.tariffs.get k).refs = (s.stl.tariffs.get k).refs

/-- The totals of every account are in their ranges (R169). -/
def TotalsBounded (s : State) : Prop :=
  ∀ a : Fin 16, (s.stl.totals.get a).net ≤ max48 ∧ (s.stl.totals.get a).credit ≤ max48 ∧
    (s.stl.totals.get a).closed ≤ max16

/-- No record comes or goes: time-list entries and queued settlement records may be taken, and a setting of the directory
may be stored, the margin with an empty table alone (R70). -/
structure RecordsKept (s t : State) : Prop where
  places : PlacesBy Place.Alike s t
  timelines : ∀ q, t.timeline q = s.timeline q
  entries : t.bku.timeList.Sublist s.bku.timeList
  refs : s.RefsKept t
  margin : t.dir.margin = s.dir.margin ∨ ∀ i, s.place i = none
  queue : t.stl.queue.Sublist s.stl.queue
  closing : s.ClosingLaw → t.stl.closing = s.stl.closing ∧
    (t.stl.queue.length = s.stl.queue.length ∨ s.stl.closing = [])
  totals : s.TotalsBounded → t.TotalsBounded

/-- The span of the record in place `i` gets the end `n` (R93, R111). -/
structure EndMoved (s t : State) (i : Fin 192) (p q : Place) (n : Nat) : Prop where
  here : s.place i = some p
  there : t.place i = some q
  alike : Place.Alike { p with booking := { p.booking with e := n } } q
  others : ∀ j, j ≠ i → t.place j = s.place j
  timelines : ∀ q, t.timeline q = s.timeline q
  entries : t.bku.timeList = (s.bku.moveEnd i n).timeList
  dir : t.dir = s.dir
  stl : t.stl = s.stl
  fits : s.TimelineLaw → p.booking.s0 + 60 ≤ n ∧ ∀ port j r, port ∈ p.booking.ports → j ∈ s.timeline port → j ≠ i →
    s.place j = some r → p.booking.clearOf s.dir.margin r.booking →
    Booking.clearOf s.dir.margin { p.booking with e := n } r.booking

/-- A new record is admitted into place `i` (R89). -/
structure Admits (s t : State) (i : Fin 192) (p : Place) : Prop where
  free : s.place i = none
  there : t.place i = some p
  others : ∀ j, j ≠ i → t.place j = s.place j
  timelines : ∀ q, t.timeline q =
    if q ∈ p.booking.ports then insertByStart s.startAt i p.booking.s0 (s.timeline q) else s.timeline q
  entries : ∃ now, now < p.booking.s0 ∧
    t.bku.timeList = (entriesOf now i p.booking).foldl (fun l e => insertEntry e l) s.bku.timeList
  accounts : ∀ a, (t.dir.accounts.get a).refs = (s.dir.accounts.get a).refs + if a = p.booking.account then 1 else 0
  handoffs : ∀ h, (t.dir.handoffs.get h).refs = (s.dir.handoffs.get h).refs + if h = p.booking.handoff then 1 else 0
  tariffs : ∀ k, (t.stl.tariffs.get k).refs = (s.stl.tariffs.get k).refs + if k = p.booking.tariff then 1 else 0
  margin : t.dir.margin = s.dir.margin
  stl : t.stl = { s.stl with tariffs := t.stl.tariffs }
  new_id : (∀ j q, s.place j = some q → q.booking.id ≠ p.booking.id) ∧ ∀ x ∈ s.stl.queue, x.id ≠ p.booking.id
  span : p.booking.s0 + 60 ≤ p.booking.e
  distinct : p.booking.ports.Nodup
  clear : ∀ q ∈ p.booking.ports, ∀ j ∈ s.timeline q, ∀ r, s.place j = some r →
    r.booking.clearOf s.dir.margin p.booking
  open_ : p.booking.state ≠ .closing
  unheld : p.held = none
  limit : p.booking.limit ≤ 15

/-- The record in place `i` leaves service, `p` as it then stands (R95, R96, R165). -/
structure Departs (s t : State) (i : Fin 192) (p0 p : Place) (x : Settlement) : Prop where
  here : s.place i = some p0
  alike : p0.Alike p
  open_ : p.booking.state ≠ .closing
  id : x.id = p.booking.id
  left : s.LeftService t i p x

/-- The oldest settlement record is released, and the head of the closing list is served (R166, R168). -/
structure Serves (s t : State) (i : Fin 192) (p : Place) (y : Settlement) (others : List (Fin 192)) : Prop where
  here : s.place i = some p
  held : p.held = some y
  closing : s.stl.closing = i :: others
  served : State.ClosingServed { s with stl := { s.stl with queue := s.stl.queue.tail } } t i p y others
  timelines : ∀ q, t.timeline q = if q ∈ p.booking.ports then (s.timeline q).filter (· != i) else s.timeline q

/-- The traffic is emptied (R76, R99, R174). -/
structure Emptied (t : State) : Prop where
  places : ∀ i, t.place i = none
  timelines : ∀ q, t.timeline q = []
  entries : t.bku.timeList = []
  queue : t.stl.queue = []
  closing : t.stl.closing = []
  accounts : ∀ a, (t.dir.accounts.get a).refs = 0
  handoffs : ∀ h, (t.dir.handoffs.get h).refs = 0
  tariffs : ∀ k, (t.stl.tariffs.get k).refs = 0

/-- An event of BKU, DIR and STL. -/
inductive BookEvent (s t : State) : Prop
  | kept : s.RecordsKept t → BookEvent s t
  | moved (i : Fin 192) (p q : Place) (n : Nat) : s.EndMoved t i p q n → BookEvent s t
  | admits (i : Fin 192) (p : Place) : s.Admits t i p → BookEvent s t
  | departs (i : Fin 192) (p0 p : Place) (x : Settlement) : s.Departs t i p0 p x → BookEvent s t
  | serves (i : Fin 192) (p : Place) (y : Settlement) (others : List (Fin 192)) : s.Serves t i p y others → BookEvent s t
  | emptied : t.Emptied → (s.TotalsBounded → t.TotalsBounded) → BookEvent s t

variable {p p0 q : Place} {x y : Settlement} {n : Nat} {others : List (Fin 192)}

theorem RecordsKept.names (h : s.RecordsKept t) : PlacesBy Place.SameName s t := h.places.mono fun _ _ => Place.Alike.name

theorem EndMoved.names (h : s.EndMoved t i p q n) : PlacesBy Place.SameName s t :=
  .of_one .refl h.here h.there h.others ⟨h.alike.name.id, h.alike.name.account, h.alike.name.handoff, h.alike.name.tariff,
    h.alike.name.limit, h.alike.name.closing, h.alike.name.held⟩

/-! ### The closing list (R165, R166) -/

theorem stateAt_eq_closing_iff : s.stateAt i = some .closing ↔ ∃ p, s.place i = some p ∧ p.booking.state = .closing := by
  rw [stateAt, Option.map_eq_some_iff]

theorem stateAt_congr (h : t.place i = s.place i) : t.stateAt i = s.stateAt i := by rw [stateAt, stateAt, h]

theorem PlacesBy.stateAt_closing (h : PlacesBy Place.SameName s t) (i : Fin 192) :
    t.stateAt i = some .closing ↔ s.stateAt i = some .closing := by
  rw [stateAt_eq_closing_iff, stateAt_eq_closing_iff]
  constructor
  · rintro ⟨q, there, closing⟩
    obtain ⟨p, here, same⟩ := h.some_of there
    exact ⟨p, here, same.closing.mp closing⟩
  · rintro ⟨p, here, closing⟩
    obtain ⟨q, there, same⟩ := h.of_some here
    exact ⟨q, there, same.closing.mpr closing⟩

/-- The law of the closing list where no record comes or goes. -/
theorem ClosingLaw.of_names (law : s.ClosingLaw) (names : PlacesBy Place.SameName s t)
    (queue : t.stl.queue.length ≤ s.stl.queue.length) (closing : t.stl.closing = s.stl.closing ∧
      (t.stl.queue.length = s.stl.queue.length ∨ s.stl.closing = [])) : t.ClosingLaw := by
  obtain ⟨room, idle, distinct, listed, held⟩ := law
  obtain ⟨same, length⟩ := closing
  refine ⟨queue.trans room, fun free => ?_, same ▸ distinct, fun i => ?_, fun i q there => ?_⟩
  · rw [same]
    rcases length with length | none
    · exact idle (length ▸ free)
    · exact none
  · rw [same, names.stateAt_closing]
    exact listed i
  · obtain ⟨p, here, named⟩ := names.some_of there
    rw [named.held, named.closing]
    exact held i p here

theorem Admits.closingLaw (h : s.Admits t i p) (law : s.ClosingLaw) : t.ClosingLaw := by
  obtain ⟨room, idle, distinct, listed, held⟩ := law
  have queue : t.stl.queue = s.stl.queue := by rw [h.stl]
  have closing : t.stl.closing = s.stl.closing := by rw [h.stl]
  refine ⟨queue ▸ room, queue ▸ closing ▸ idle, closing ▸ distinct, fun j => ?_, fun j q there => ?_⟩
  · rw [closing, listed]
    by_cases e : j = i
    · subst e
      rw [stateAt, stateAt, h.free, h.there]
      exact ⟨nofun, fun same => absurd (Option.some.inj same) h.open_⟩
    · rw [stateAt_congr (h.others j e)]
  · by_cases e : j = i
    · subst e
      cases h.there.symm.trans there
      exact ⟨fun some => absurd h.unheld some, fun closing => absurd closing h.open_⟩
    · exact held j q ((h.others j e).symm.trans there)

theorem Departs.closingLaw (h : s.Departs t i p0 p x) (law : s.ClosingLaw) : t.ClosingLaw := by
  obtain ⟨room, idle, distinct, listed, held⟩ := law
  have open0 : p0.booking.state ≠ .closing := fun e => h.open_ (h.alike.name.closing.mpr e)
  have unlisted : i ∉ s.stl.closing := fun mem => by
    obtain ⟨p', here, closing⟩ := stateAt_eq_closing_iff.mp ((listed i).mp mem)
    cases h.here.symm.trans here
    exact open0 closing
  by_cases free : s.stl.queue.length < 64
  · obtain ⟨gone, queue, closing, -⟩ := h.left.appended free
    refine ⟨?_, fun _ => closing.trans (idle free), closing ▸ distinct, fun j => ?_, fun j q there => ?_⟩
    · rw [queue, List.length_append]
      exact free
    · rw [closing]
      by_cases e : j = i
      · subst e
        rw [stateAt, gone]
        exact ⟨fun mem => absurd mem unlisted, nofun⟩
      · rw [stateAt_congr (h.left.others j e)]
        exact listed j
    · have e : j ≠ i := fun e => nomatch (e ▸ gone).symm.trans there
      exact held j q ((h.left.others j e).symm.trans there)
  · obtain ⟨there_i, stl, -⟩ := h.left.waits (Nat.le_of_not_lt free)
    rw [ClosingLaw, stl]
    refine ⟨room, fun less => absurd less free, ?_, fun j => ?_, fun j q there => ?_⟩
    · exact List.nodup_append.mpr ⟨distinct, List.nodup_singleton i, fun a ha b hb e =>
        unlisted (List.mem_singleton.mp hb ▸ e ▸ ha)⟩
    · rw [List.mem_append, List.mem_singleton]
      by_cases e : j = i
      · subst e
        rw [stateAt, there_i]
        exact ⟨fun _ => rfl, fun _ => .inr rfl⟩
      · rw [stateAt_congr (h.left.others j e), ← listed j]
        exact or_iff_left e
    · by_cases e : j = i
      · subst e
        cases there_i.symm.trans there
        exact ⟨fun _ => rfl, fun _ => nofun⟩
      · exact held j q ((h.left.others j e).symm.trans there)

theorem Serves.closingLaw (h : s.Serves t i p y others) (law : s.ClosingLaw) : t.ClosingLaw := by
  obtain ⟨room, idle, distinct, listed, held⟩ := law
  have full : s.stl.queue.length = 64 := by
    by_contra ne
    cases h.closing.symm.trans (idle (by omega))
  obtain ⟨new, distinct⟩ := List.nodup_cons.mp (h.closing ▸ distinct)
  have length : t.stl.queue.length = 64 := by
    rw [h.served.queue, List.length_append]
    simp [full]
  refine ⟨length.le, fun less => absurd length less.ne, h.served.closing ▸ distinct, fun j => ?_, fun j q there => ?_⟩
  · rw [h.served.closing]
    by_cases e : j = i
    · subst e
      rw [stateAt, h.served.here]
      exact ⟨fun mem => absurd mem new, nofun⟩
    · rw [stateAt_congr (h.served.places j e)]
      refine Iff.trans ?_ (listed j)
      rw [h.closing, List.mem_cons]
      exact (or_iff_right e).symm
  · have e : j ≠ i := fun e => nomatch (e ▸ h.served.here).symm.trans there
    exact held j q ((h.served.places j e).symm.trans there)

theorem Emptied.closingLaw (h : t.Emptied) : t.ClosingLaw := by
  refine ⟨by rw [h.queue]; decide, fun _ => h.closing, h.closing ▸ List.nodup_nil, fun i => ?_, fun i p here => ?_⟩
  · rw [h.closing, stateAt, h.places]
    exact ⟨nofun, nofun⟩
  · cases (h.places i).symm.trans here

theorem BookEvent.closingLaw (h : s.BookEvent t) (law : s.ClosingLaw) : t.ClosingLaw := by
  cases h with
  | kept h => exact law.of_names h.names h.queue.length_le (h.closing law)
  | moved i p q n h =>
    exact law.of_names h.names (by rw [h.stl]) ⟨by rw [h.stl], .inl (by rw [h.stl])⟩
  | admits i p h => exact h.closingLaw law
  | departs i p0 p x h => exact h.closingLaw law
  | serves i p y others h => exact h.closingLaw law
  | emptied h => exact h.closingLaw

/-! ### The ids (R78) -/

theorem IdLaw.of_names (law : s.IdLaw) (names : PlacesBy Place.SameName s t) (queue : t.stl.queue.Sublist s.stl.queue) :
    t.IdLaw := by
  obtain ⟨unique, distinct, apart, held⟩ := law
  have ids := queue.map (·.id)
  refine ⟨fun i j p q hp hq same => ?_, distinct.sublist ids, fun i p hp mem => ?_, fun i p x hp hx => ?_⟩
  · obtain ⟨p', hp', named_p⟩ := names.some_of hp
    obtain ⟨q', hq', named_q⟩ := names.some_of hq
    exact unique i j p' q' hp' hq' (named_p.id.symm.trans (same.trans named_q.id))
  · obtain ⟨p', hp', named⟩ := names.some_of hp
    exact apart i p' hp' (named.id ▸ ids.subset mem)
  · obtain ⟨p', hp', named⟩ := names.some_of hp
    exact (held i p' x hp' (named.held ▸ hx)).trans named.id.symm

theorem Admits.idLaw (h : s.Admits t i p) (law : s.IdLaw) : t.IdLaw := by
  obtain ⟨unique, distinct, apart, held⟩ := law
  have queue : t.stl.queue = s.stl.queue := by rw [h.stl]
  have stood {j : Fin 192} {q : Place} (e : j ≠ i) (there : t.place j = some q) : s.place j = some q :=
    (h.others j e).symm.trans there
  refine ⟨fun j k q r hq hr same => ?_, queue ▸ distinct, fun j q hq mem => ?_, fun j q x hq hx => ?_⟩
  · by_cases ej : j = i <;> by_cases ek : k = i
    · exact ej.trans ek.symm
    · subst ej
      cases h.there.symm.trans hq
      exact absurd same.symm (h.new_id.1 k r (stood ek hr))
    · subst ek
      cases h.there.symm.trans hr
      exact absurd same (h.new_id.1 j q (stood ej hq))
    · exact unique j k q r (stood ej hq) (stood ek hr) same
  · rw [queue] at mem
    by_cases e : j = i
    · subst e
      cases h.there.symm.trans hq
      obtain ⟨x, hx, same⟩ := List.mem_map.mp mem
      exact h.new_id.2 x hx same
    · exact apart j q (stood e hq) mem
  · by_cases e : j = i
    · subst e
      cases h.there.symm.trans hq
      cases h.unheld.symm.trans hx
    · exact held j q x (stood e hq) hx

/-- A record leaves place `i` for the queue, its settlement record having its id. -/
theorem IdLaw.of_queued (law : s.IdLaw) (here : s.place i = some p0) (gone : t.place i = none)
    (others : ∀ j, j ≠ i → t.place j = s.place j) {rest : List Settlement} (sub : rest.Sublist s.stl.queue)
    (queue : t.stl.queue = rest ++ [x]) (id : x.id = p0.booking.id) : t.IdLaw := by
  obtain ⟨unique, distinct, apart, held⟩ := law
  have stood {j : Fin 192} {q : Place} (there : t.place j = some q) : j ≠ i ∧ s.place j = some q := by
    have e : j ≠ i := fun e => nomatch (e ▸ gone).symm.trans there
    exact ⟨e, (others j e).symm.trans there⟩
  have ids : t.stl.queue.map (·.id) = rest.map (·.id) ++ [p0.booking.id] := by rw [queue, List.map_append, ← id]; rfl
  have old {a : Half} (mem : a ∈ rest.map (·.id)) : a ∈ s.stl.queue.map (·.id) := (sub.map (·.id)).subset mem
  refine ⟨fun j k q r hq hr same => unique j k q r (stood hq).2 (stood hr).2 same, ?_, fun j q hq mem => ?_,
    fun j q z hq hz => held j q z (stood hq).2 hz⟩
  · rw [ids]
    exact List.nodup_append.mpr ⟨distinct.sublist (sub.map _), List.nodup_singleton _, fun a ha b hb e =>
      apart i p0 here (old (List.mem_singleton.mp hb ▸ e ▸ ha))⟩
  · rw [ids, List.mem_append, List.mem_singleton] at mem
    obtain ⟨e, hq⟩ := stood hq
    rcases mem with mem | same
    · exact apart j q hq (old mem)
    · exact e (unique j i q p0 hq here same)

theorem Departs.idLaw (h : s.Departs t i p0 p x) (law : s.IdLaw) : t.IdLaw := by
  have id : x.id = p0.booking.id := h.id.trans h.alike.name.id
  by_cases free : s.stl.queue.length < 64
  · obtain ⟨gone, queue, -⟩ := h.left.appended free
    exact law.of_queued h.here gone h.left.others (List.Sublist.refl _) queue id
  · obtain ⟨there_i, stl, -⟩ := h.left.waits (Nat.le_of_not_lt free)
    obtain ⟨unique, distinct, apart, held⟩ := law
    have same_id {j : Fin 192} {q : Place} (there : t.place j = some q) :
        ∃ q0, s.place j = some q0 ∧ q.booking.id = q0.booking.id ∧ (j ≠ i → q = q0) := by
      by_cases e : j = i
      · subst e
        cases there_i.symm.trans there
        exact ⟨p0, h.here, h.alike.name.id, fun ne => absurd rfl ne⟩
      · exact ⟨q, (h.left.others j e).symm.trans there, rfl, fun _ => rfl⟩
    rw [IdLaw, stl]
    refine ⟨fun j k q r hq hr same => ?_, distinct, fun j q hq => ?_, fun j q z hq hz => ?_⟩
    · obtain ⟨q0, hq0, id_q, -⟩ := same_id hq
      obtain ⟨r0, hr0, id_r, -⟩ := same_id hr
      exact unique j k q0 r0 hq0 hr0 (id_q.symm.trans (same.trans id_r))
    · obtain ⟨q0, hq0, id_q, -⟩ := same_id hq
      exact id_q ▸ apart j q0 hq0
    · by_cases e : j = i
      · subst e
        cases there_i.symm.trans hq
        cases hz
        exact h.id
      · exact held j q z ((h.left.others j e).symm.trans hq) hz

theorem Serves.idLaw (h : s.Serves t i p y others) (law : s.IdLaw) : t.IdLaw :=
  law.of_queued h.here h.served.here h.served.places (List.tail_sublist _) h.served.queue (law.2.2.2 i p y h.here h.held)

theorem Emptied.idLaw (h : t.Emptied) : t.IdLaw := by
  refine ⟨fun i j p q hp => ?_, by rw [h.queue]; exact List.nodup_nil, fun i p hp => ?_, fun i p x hp => ?_⟩ <;>
    cases (h.places i).symm.trans hp

theorem BookEvent.idLaw (h : s.BookEvent t) (law : s.IdLaw) : t.IdLaw := by
  cases h with
  | kept h => exact law.of_names h.names h.queue
  | moved i p q n h => exact law.of_names h.names (by rw [h.stl])
  | admits i p h => exact h.idLaw law
  | departs i p0 p x h => exact h.idLaw law
  | serves i p y others h => exact h.idLaw law
  | emptied h => exact h.idLaw

/-! ### The counts of the directory (R67) -/

/-- Lists filtered by tests that differ at one member alone. -/
theorem length_filter_of_one {α : Type} [DecidableEq α] {l : List α} (nodup : l.Nodup) {a : α} (mem : a ∈ l)
    {f g : α → Bool} (off : g a = false) (others : ∀ b, b ≠ a → g b = f b) :
    (l.filter f).length = (l.filter g).length + if f a = true then 1 else 0 := by
  induction l with
  | nil => cases mem
  | cons b l ih =>
    obtain ⟨new, nodup⟩ := List.nodup_cons.mp nodup
    rcases List.mem_cons.mp mem with rfl | mem
    · have rest : l.filter g = l.filter f :=
        List.filter_congr fun c hc => others c fun e => new (e ▸ hc)
      cases on : f a <;> simp [off, on, rest]
    · have same : g b = f b := others b fun e => new (e ▸ mem)
      rw [List.filter_cons, List.filter_cons, same]
      split
      · simp only [List.length_cons, ih nodup mem]
        omega
      · exact ih nodup mem

/-- The count of the records that satisfy `f`, where one of them is gone. -/
theorem length_recordsWhere_of_gone (here : s.place i = some p) (gone : t.place i = none)
    (others : ∀ j, j ≠ i → t.place j = s.place j) (f : Booking → Bool) :
    (s.recordsWhere f).length = (t.recordsWhere f).length + if f p.booking = true then 1 else 0 := by
  have count := length_filter_of_one (List.nodup_finRange 192) (List.mem_finRange i)
    (f := fun j => (s.place j).any fun p => f p.booking) (g := fun j => (t.place j).any fun p => f p.booking)
    (by rw [gone]; rfl) (fun j e => by rw [others j e])
  rw [here] at count
  exact count

theorem recordsWhere_congr {f : Booking → Bool} (h : ∀ i, (t.place i).any (fun p => f p.booking) =
    (s.place i).any fun p => f p.booking) : t.recordsWhere f = s.recordsWhere f :=
  List.filter_congr fun i _ => h i

/-- A test that reads of a record only what the counts name. -/
def readsName (f : Booking → Bool) : Prop :=
  ∀ b c : Booking, b.account = c.account → b.handoff = c.handoff → b.tariff = c.tariff → f b = f c

theorem PlacesBy.recordsWhere (h : PlacesBy Place.SameName s t) {f : Booking → Bool} (reads : readsName f) :
    t.recordsWhere f = s.recordsWhere f := recordsWhere_congr fun i => by
  obtain ⟨hs, ht⟩ | ⟨p, q, hs, ht, same⟩ := h i
  · rw [hs, ht]
  · rw [hs, ht]
    exact reads _ _ same.account same.handoff same.tariff

theorem readsName_account (a : Fin 16) : readsName fun b => b.account == a := fun _ _ h _ _ => congrArg (· == a) h

theorem readsName_handoff (g : Fin 16) : readsName fun b => b.handoff == g := fun _ _ _ h _ => congrArg (· == g) h

theorem readsName_tariff (k : Fin 8) : readsName fun b => b.tariff == k := fun _ _ _ _ h => congrArg (· == k) h

theorem CountsLaw.of_same (law : s.CountsLaw) (count : ∀ f, readsName f → t.recordsWhere f = s.recordsWhere f)
    (refs : s.RefsKept t) : t.CountsLaw := by
  obtain ⟨accounts, handoffs, tariffs⟩ := law
  refine ⟨fun a => ?_, fun g => ?_, fun k => ?_⟩
  · rw [refs.accounts, accounts, count _ (readsName_account a)]
  · rw [refs.handoffs, handoffs, count _ (readsName_handoff g)]
  · rw [refs.tariffs, tariffs, count _ (readsName_tariff k)]

theorem ite_beq_one {n : Nat} (a b : Fin n) :
    (if (b == a) = true then 1 else 0 : Nat) = if a = b then 1 else 0 :=
  if_congr (by rw [beq_iff_eq, eq_comm]) rfl rfl

/-- A record of the fields `b` is gone, and its entries' counts are one less. -/
theorem CountsLaw.of_gone {b : Booking} (law : s.CountsLaw)
    (count : ∀ f, (s.recordsWhere f).length = (t.recordsWhere f).length + if f b = true then 1 else 0)
    (accounts : ∀ a, (t.dir.accounts.get a).refs = (s.dir.accounts.get a).refs - if a = b.account then 1 else 0)
    (handoffs : ∀ g, (t.dir.handoffs.get g).refs = (s.dir.handoffs.get g).refs - if g = b.handoff then 1 else 0)
    (tariffs : ∀ k, (t.stl.tariffs.get k).refs = (s.stl.tariffs.get k).refs - if k = b.tariff then 1 else 0) :
    t.CountsLaw := by
  refine ⟨fun a => ?_, fun g => ?_, fun k => ?_⟩
  · rw [accounts, law.1, count, ite_beq_one, Nat.add_sub_cancel]
  · rw [handoffs, law.2.1, count, ite_beq_one, Nat.add_sub_cancel]
  · rw [tariffs, law.2.2, count, ite_beq_one, Nat.add_sub_cancel]

/-- A record of the fields `b` is new, and its entries' counts are one more. -/
theorem CountsLaw.of_new {b : Booking} (law : s.CountsLaw)
    (count : ∀ f, (t.recordsWhere f).length = (s.recordsWhere f).length + if f b = true then 1 else 0)
    (accounts : ∀ a, (t.dir.accounts.get a).refs = (s.dir.accounts.get a).refs + if a = b.account then 1 else 0)
    (handoffs : ∀ g, (t.dir.handoffs.get g).refs = (s.dir.handoffs.get g).refs + if g = b.handoff then 1 else 0)
    (tariffs : ∀ k, (t.stl.tariffs.get k).refs = (s.stl.tariffs.get k).refs + if k = b.tariff then 1 else 0) :
    t.CountsLaw := by
  refine ⟨fun a => ?_, fun g => ?_, fun k => ?_⟩
  · rw [accounts, law.1, count, ite_beq_one]
  · rw [handoffs, law.2.1, count, ite_beq_one]
  · rw [tariffs, law.2.2, count, ite_beq_one]

theorem Departs.countsLaw (h : s.Departs t i p0 p x) (law : s.CountsLaw) : t.CountsLaw := by
  by_cases free : s.stl.queue.length < 64
  · obtain ⟨gone, -, -, -, -, accounts, handoffs, tariffs⟩ := h.left.appended free
    refine law.of_gone (length_recordsWhere_of_gone h.here gone h.left.others) ?_ ?_ ?_
    · exact h.alike.name.account ▸ accounts
    · exact h.alike.name.handoff ▸ handoffs
    · exact h.alike.name.tariff ▸ tariffs
  · obtain ⟨there, stl, dir, -⟩ := h.left.waits (Nat.le_of_not_lt free)
    refine law.of_same (fun f reads => recordsWhere_congr fun j => ?_) ⟨fun _ => by rw [dir], fun _ => by rw [dir],
      fun _ => by rw [stl]⟩
    by_cases e : j = i
    · subst e
      rw [there, h.here]
      exact reads _ _ h.alike.name.account h.alike.name.handoff h.alike.name.tariff
    · rw [h.left.others j e]

theorem Serves.countsLaw (h : s.Serves t i p y others) (law : s.CountsLaw) : t.CountsLaw :=
  law.of_gone (length_recordsWhere_of_gone h.here h.served.here h.served.places)
    (fun a => by rw [h.served.accounts]) (fun g => by rw [h.served.handoffs]) (fun k => by rw [h.served.tariffs])

theorem Emptied.countsLaw (h : t.Emptied) : t.CountsLaw := by
  have none (f : Booking → Bool) : t.recordsWhere f = [] :=
    List.filter_eq_nil_iff.mpr fun i _ => by rw [h.places]; nofun
  refine ⟨fun a => ?_, fun g => ?_, fun k => ?_⟩
  · rw [none, h.accounts]; rfl
  · rw [none, h.handoffs]; rfl
  · rw [none, h.tariffs]; rfl

theorem BookEvent.countsLaw (h : s.BookEvent t) (law : s.CountsLaw) : t.CountsLaw := by
  cases h with
  | kept h => exact law.of_same (fun _ => h.names.recordsWhere) h.refs
  | moved i p q n h =>
    exact law.of_same (fun _ => h.names.recordsWhere) ⟨fun _ => by rw [h.dir], fun _ => by rw [h.dir],
      fun _ => by rw [h.stl]⟩
  | admits i p h =>
    exact law.of_new (length_recordsWhere_of_gone h.there h.free fun j e => (h.others j e).symm) h.accounts h.handoffs
      h.tariffs
  | departs i p0 p x h => exact h.countsLaw law
  | serves i p y others h => exact h.countsLaw law
  | emptied h => exact h.countsLaw

/-! ### The ranges of the bookings (R82, R165, R169) -/

/-- The queue, the records' extension limits and the accounts' totals are in their ranges. -/
def BooksInRange (s : State) : Prop := s.stl.queue.length ≤ 64 ∧ s.LimitsLow ∧ s.TotalsBounded

theorem LimitsLow.of_names (low : s.LimitsLow) (names : PlacesBy Place.SameName s t) : t.LimitsLow := fun i q there => by
  obtain ⟨p, here, same⟩ := names.some_of there
  exact same.limit ▸ low i p here

/-- Totals after an append stay in their ranges. -/
theorem totalsBounded_of_append (bounded : s.TotalsBounded) {a : Fin 16} {net credit closed : Nat}
    (totals : t.stl.totals = upd s.stl.totals a ⟨min max48 net, min max48 credit, min max16 closed⟩) :
    t.TotalsBounded := fun b => by
  rw [totals, upd_get_eq]
  split
  · exact ⟨Nat.min_le_left .., Nat.min_le_left .., Nat.min_le_left ..⟩
  · exact bounded b

theorem BookEvent.limitsLow (h : s.BookEvent t) (low : s.LimitsLow) : t.LimitsLow := by
  cases h with
  | kept h => exact low.of_names h.names
  | moved i p q n h => exact low.of_names h.names
  | admits i p h =>
    intro j q there
    by_cases e : j = i
    · subst e
      cases h.there.symm.trans there
      exact h.limit
    · exact low j q ((h.others j e).symm.trans there)
  | departs i p0 p x h =>
    intro j q there
    by_cases e : j = i
    · subst e
      by_cases free : s.stl.queue.length < 64
      · exact nomatch (h.left.appended free).1.symm.trans there
      · cases (h.left.waits (Nat.le_of_not_lt free)).1.symm.trans there
        exact h.alike.name.limit ▸ low j p0 h.here
    · exact low j q ((h.left.others j e).symm.trans there)
  | serves i p y others h =>
    intro j q there
    have e : j ≠ i := fun e => nomatch (e ▸ h.served.here).symm.trans there
    exact low j q ((h.served.places j e).symm.trans there)
  | emptied h => exact fun j q there => nomatch (h.places j).symm.trans there

theorem BookEvent.booksInRange (h : s.BookEvent t) (range : s.BooksInRange) : t.BooksInRange := by
  obtain ⟨room, low, bounded⟩ := range
  have low := h.limitsLow low
  cases h with
  | kept h => exact ⟨h.queue.length_le.trans room, low, h.totals bounded⟩
  | moved i p q n h => exact ⟨h.stl ▸ room, low, fun a => by rw [h.stl]; exact bounded a⟩
  | admits i p h => exact ⟨by rw [h.stl]; exact room, low, fun a => by rw [h.stl]; exact bounded a⟩
  | departs i p0 p x h =>
    by_cases free : s.stl.queue.length < 64
    · obtain ⟨-, queue, -, -, totals, -⟩ := h.left.appended free
      exact ⟨by rw [queue, List.length_append]; exact free, low, totalsBounded_of_append bounded totals⟩
    · obtain ⟨-, stl, -⟩ := h.left.waits (Nat.le_of_not_lt free)
      exact ⟨by rw [stl]; exact room, low, fun a => by rw [stl]; exact bounded a⟩
  | serves i p y others h =>
    refine ⟨?_, low, totalsBounded_of_append bounded h.served.totals⟩
    rw [h.served.queue, List.length_append, List.length_tail, List.length_singleton]
    omega
  | emptied h totals =>
    exact ⟨by rw [h.queue]; decide, low, totals bounded⟩

end State
end Sys2Proof.Machine
end

