-- ==== Sys2Proof/Proofs/Timelines.lean ====
section
/-! PROOFS. What the events of BKU, DIR and STL make of the timelines (R79) and of the time list (R81, R90). -/

namespace Sys2Proof.Machine

/-! ### The order of the time list (R81) -/

/-- An entry comes before another in the time list. -/
def TimeEntry.Lt (a b : TimeEntry) : Prop :=
  a.second < b.second ∨ a.second = b.second ∧ (a.record < b.record ∨ a.record = b.record ∧ a.kind.order < b.kind.order)

theorem TimeEntry.before_iff {a b : TimeEntry} : a.before b = true ↔ a.Lt b := decide_eq_true_iff

theorem TimeEntry.Lt.trans {a b c : TimeEntry} (h : a.Lt b) (k : b.Lt c) : a.Lt c := by
  unfold TimeEntry.Lt at *
  simp only [Fin.lt_def, Fin.ext_iff] at *
  omega

theorem EntryKind.order_injective {a b : EntryKind} (h : a.order = b.order) : a = b := by
  cases a <;> cases b <;> first | rfl | cases h

/-- Of two entries that are not of the same record and kind, one comes before the other. -/
theorem TimeEntry.lt_of_not_lt {a b : TimeEntry} (apart : ¬(a.record = b.record ∧ a.kind = b.kind)) (h : ¬a.Lt b) :
    b.Lt a := by
  have kinds : a.record = b.record → a.kind.order ≠ b.kind.order := fun same order =>
    apart ⟨same, EntryKind.order_injective order⟩
  unfold TimeEntry.Lt at *
  simp only [Fin.lt_def, Fin.ext_iff] at *
  omega

/-- A list of entries in order, with one of a kind for each record, each as `right` says. -/
structure EntriesLaw (right : TimeEntry → Prop) (l : List TimeEntry) : Prop where
  ordered : l.Pairwise TimeEntry.Lt
  once : ∀ a ∈ l, ∀ b ∈ l, a.record = b.record → a.kind = b.kind → a = b
  each : ∀ a ∈ l, right a

theorem EntriesLaw.nil {right : TimeEntry → Prop} : EntriesLaw right [] :=
  ⟨.nil, fun _ h => absurd h List.not_mem_nil, fun _ h => absurd h List.not_mem_nil⟩

theorem EntriesLaw.sublist {right right' : TimeEntry → Prop} {l l' : List TimeEntry} (h : EntriesLaw right l)
    (sub : l'.Sublist l) (weaker : ∀ a ∈ l', right a → right' a) : EntriesLaw right' l' :=
  ⟨h.ordered.sublist sub, fun a ha b hb => h.once a (sub.subset ha) b (sub.subset hb),
    fun a ha => weaker a ha (h.each a (sub.subset ha))⟩

theorem insertEntry_ordered {e : TimeEntry} {l : List TimeEntry} (ordered : l.Pairwise TimeEntry.Lt)
    (new : ∀ a ∈ l, ¬(a.record = e.record ∧ a.kind = e.kind)) : (insertEntry e l).Pairwise TimeEntry.Lt := by
  induction l with
  | nil => exact List.pairwise_singleton _ _
  | cons x xs ih =>
    obtain ⟨first, rest⟩ := List.pairwise_cons.mp ordered
    rw [insertEntry]
    split
    next before =>
      have lt := TimeEntry.before_iff.mp before
      refine List.pairwise_cons.mpr ⟨fun a ha => ?_, ordered⟩
      rcases List.mem_cons.mp ha with rfl | ha
      · exact lt
      · exact lt.trans (first a ha)
    next behind =>
      have lt : x.Lt e := TimeEntry.lt_of_not_lt (fun same => new x (List.mem_cons_self ..) ⟨same.1.symm, same.2.symm⟩)
        (mt TimeEntry.before_iff.mpr behind)
      refine List.pairwise_cons.mpr ⟨fun a ha => ?_, ih rest fun a ha => new a (.tail _ ha)⟩
      rcases List.mem_cons.mp ((State.insertEntry_perm e xs).mem_iff.mp ha) with rfl | ha
      · exact lt
      · exact first a ha

theorem EntriesLaw.insert {right : TimeEntry → Prop} {l : List TimeEntry} {e : TimeEntry} (h : EntriesLaw right l)
    (new : ∀ a ∈ l, ¬(a.record = e.record ∧ a.kind = e.kind)) (right_e : right e) :
    EntriesLaw right (insertEntry e l) := by
  have mem (a : TimeEntry) : a ∈ insertEntry e l ↔ a = e ∨ a ∈ l :=
    (State.insertEntry_perm e l).mem_iff.trans List.mem_cons
  refine ⟨insertEntry_ordered h.ordered new, fun a ha b hb record kind => ?_, fun a ha => ?_⟩
  · rcases (mem a).mp ha with rfl | old_a <;> rcases (mem b).mp hb with rfl | old_b
    · rfl
    · exact absurd ⟨record.symm, kind.symm⟩ (new b old_b)
    · exact absurd ⟨record, kind⟩ (new a old_a)
    · exact h.once a old_a b old_b record kind
  · rcases (mem a).mp ha with rfl | ha
    · exact right_e
    · exact h.each a ha

/-- Entries of different kinds are put into the list one after another. -/
theorem EntriesLaw.insertAll {right : TimeEntry → Prop} {new l : List TimeEntry} (h : EntriesLaw right l)
    (kinds : new.Pairwise fun a b => a.kind ≠ b.kind)
    (apart : ∀ e ∈ new, ∀ a ∈ l, ¬(a.record = e.record ∧ a.kind = e.kind)) (each : ∀ e ∈ new, right e) :
    EntriesLaw right (new.foldl (fun l e => insertEntry e l) l) := by
  induction new generalizing l with
  | nil => exact h
  | cons e new ih =>
    obtain ⟨first, rest⟩ := List.pairwise_cons.mp kinds
    refine ih (h.insert (apart e (List.mem_cons_self ..)) (each e (List.mem_cons_self ..))) rest (fun e' he' a ha => ?_)
      fun e' he' => each e' (.tail _ he')
    rcases List.mem_cons.mp ((State.insertEntry_perm e l).mem_iff.mp ha) with rfl | ha
    · exact fun same => first e' he' same.2
    · exact apart e' (.tail _ he') a ha

namespace State

variable {s t : State} {i : Fin 192} {p p0 q : Place} {x y : Settlement} {n : Nat} {others : List (Fin 192)}

/-- An entry is one of a record of the table, at the second that R81 gives, and is due at once only as an arm entry
(R90). -/
def entryRight (s : State) (a : TimeEntry) : Prop :=
  ∃ p, s.place a.record = some p ∧ a.second = p.booking.entrySecond a.kind ∧ (a.atOnce = true → a.kind = .arm)

theorem timeListLaw_iff (s : State) : s.TimeListLaw ↔ EntriesLaw s.entryRight s.bku.timeList :=
  ⟨fun ⟨ordered, once, each⟩ => ⟨ordered, once, each⟩, fun ⟨ordered, once, each⟩ => ⟨ordered, once, each⟩⟩

theorem entryRight_of_same {a : TimeEntry} (h : s.entryRight a) (same : t.place a.record = s.place a.record) :
    t.entryRight a := by
  obtain ⟨p, here, second, once⟩ := h
  exact ⟨p, same.trans here, second, once⟩

theorem RecordsKept.timeListLaw (h : s.RecordsKept t) (law : s.TimeListLaw) : t.TimeListLaw := by
  rw [timeListLaw_iff] at *
  refine law.sublist h.entries fun a _ ⟨p, here, second, once⟩ => ?_
  obtain ⟨q, there, alike⟩ := h.places.of_some here
  exact ⟨q, there, second.trans (alike.span.entrySecond a.kind).symm, once⟩

theorem EndMoved.timeListLaw (h : s.EndMoved t i p q n) (law : s.TimeListLaw) : t.TimeListLaw := by
  rw [timeListLaw_iff] at *
  rw [h.entries]
  have span := h.alike.span
  refine (law.sublist List.filter_sublist fun a ha right => ?_).insert (fun a ha same => ?_) ?_
  · by_cases e : a.record = i
    · obtain ⟨p', here, second, once⟩ := right
      rw [e] at here
      cases h.here.symm.trans here
      refine ⟨q, e ▸ h.there, second.trans ?_, once⟩
      have kind : a.kind ≠ .stop := fun stop => by simp [e, stop] at ha
      rw [span.entrySecond]
      cases other : a.kind with
      | stop => exact absurd other kind
      | arm | start => rfl
    · exact entryRight_of_same right (h.others _ e)
  · obtain ⟨record, kind⟩ := same
    simp [record, kind] at ha
  · exact ⟨q, h.there, (span.entrySecond .stop).symm, nofun⟩

theorem mem_entriesOf {now : Nat} {b : Booking} {a : TimeEntry} (h : a ∈ entriesOf now i b) :
    a.record = i ∧ a.second = b.entrySecond a.kind ∧ a.atOnce = decide (a.second ≤ now) := by
  unfold entriesOf at h
  cases trigger : b.trigger with
  | time | cue =>
    rw [trigger] at h
    rcases List.mem_cons.mp h with rfl | h
    · exact ⟨rfl, rfl, rfl⟩
    · obtain rfl := List.mem_singleton.mp h
      exact ⟨rfl, rfl, rfl⟩
  | timeOrCue =>
    rw [trigger] at h
    rcases List.mem_cons.mp h with rfl | h
    · exact ⟨rfl, rfl, rfl⟩
    rcases List.mem_cons.mp h with rfl | h
    · exact ⟨rfl, rfl, rfl⟩
    · obtain rfl := List.mem_singleton.mp h
      exact ⟨rfl, rfl, rfl⟩

theorem entriesOf_kinds (now : Nat) (i : Fin 192) (b : Booking) :
    (entriesOf now i b).Pairwise fun a c => a.kind ≠ c.kind := by
  unfold entriesOf
  cases b.trigger <;> simp

theorem Admits.timeListLaw (h : s.Admits t i p) (law : s.TimeListLaw) : t.TimeListLaw := by
  rw [timeListLaw_iff] at *
  obtain ⟨now, later, entries⟩ := h.entries
  have other {a : TimeEntry} (right : s.entryRight a) : a.record ≠ i := fun e => by
    obtain ⟨p', here, -⟩ := right
    exact nomatch (e ▸ h.free).symm.trans here
  rw [entries]
  have old : EntriesLaw t.entryRight s.bku.timeList :=
    law.sublist (List.Sublist.refl _) fun a _ right => entryRight_of_same right (h.others _ (other right))
  refine old.insertAll (entriesOf_kinds now i p.booking) (fun e he a ha same => ?_) fun e he => ?_
  · exact other (law.each a ha) (same.1.trans (mem_entriesOf he).1)
  · obtain ⟨record, second, once⟩ := mem_entriesOf he
    refine ⟨p, record ▸ h.there, second, fun at_once => ?_⟩
    have due : e.second ≤ now := of_decide_eq_true (once ▸ at_once)
    cases kind : e.kind with
    | arm => rfl
    | start =>
      rw [second, kind] at due
      exact absurd due (Nat.not_le.mpr later)
    | stop =>
      rw [second, kind] at due
      have span := h.span
      exact absurd (show p.booking.e ≤ now from due) (by omega)

/-- The entries of the record in place `i` leave the list, and the other places stand. -/
theorem timeListLaw_of_left (law : s.TimeListLaw) (entries : t.bku.timeList = s.bku.timeList.filter (·.record != i))
    (others : ∀ j, j ≠ i → t.place j = s.place j) : t.TimeListLaw := by
  rw [timeListLaw_iff] at *
  rw [entries]
  refine law.sublist List.filter_sublist fun a ha right => entryRight_of_same right (others _ fun e => ?_)
  simp [e] at ha

theorem Emptied.timeListLaw (h : t.Emptied) : t.TimeListLaw := by
  rw [timeListLaw_iff, h.entries]
  exact .nil

theorem BookEvent.timeListLaw (h : s.BookEvent t) (law : s.TimeListLaw) : t.TimeListLaw := by
  cases h with
  | kept h => exact h.timeListLaw law
  | moved i p q n h => exact h.timeListLaw law
  | admits i p h => exact h.timeListLaw law
  | departs i p0 p x h => exact timeListLaw_of_left law h.left.entries h.left.others
  | serves i p y others h => exact timeListLaw_of_left law h.served.entries h.served.places
  | emptied h => exact h.timeListLaw

/-! ### The timelines (R79) -/

/-- No record is new, spans and ports stand, and each timeline keeps some of its records, none of them in CLOSING. -/
theorem TimelineLaw.of_sublists (law : s.TimelineLaw)
    (records : ∀ j q, t.place j = some q → ∃ p, s.place j = some p ∧ p.SameSpan q)
    (timelines : ∀ q, (t.timeline q).Sublist (s.timeline q))
    (there : ∀ q, ∀ j ∈ t.timeline q, ∃ p, t.place j = some p ∧ p.booking.state ≠ .closing)
    (margin : t.dir.margin = s.dir.margin) : t.TimelineLaw := by
  obtain ⟨spans, members, clear⟩ := law
  refine ⟨fun j q hq => ?_, fun q j hj => ?_, fun q => ?_⟩
  · obtain ⟨p, hp, same⟩ := records j q hq
    rw [same.s0, same.e, same.ports]
    exact spans j p hp
  · obtain ⟨r, hr, off⟩ := there q j hj
    obtain ⟨p, hp, same⟩ := records j r hr
    obtain ⟨p', hp', on, -⟩ := members q j ((timelines q).subset hj)
    cases hp.symm.trans hp'
    exact ⟨r, hr, same.ports ▸ on, off⟩
  · refine ((clear q).sublist (timelines q)).imp fun {j k} old p r hp hr => ?_
    obtain ⟨p', hp', same_p⟩ := records j p hp
    obtain ⟨r', hr', same_r⟩ := records k r hr
    have := old p' r' hp' hr'
    rw [Booking.clearOf, margin, same_p.s0, same_p.e, same_r.s0, same_r.e]
    exact this

theorem RecordsKept.timelineLaw (h : s.RecordsKept t) (law : s.TimelineLaw) : t.TimelineLaw := by
  rcases h.margin with margin | empty
  · refine law.of_sublists (fun j q hq => ?_) (fun q => h.timelines q ▸ List.Sublist.refl _) (fun q j hj => ?_) margin
    · obtain ⟨p, hp, alike⟩ := h.places.some_of hq
      exact ⟨p, hp, alike.span⟩
    · obtain ⟨p, hp, -, off⟩ := law.2.1 q j (h.timelines q ▸ hj)
      obtain ⟨r, hr, alike⟩ := h.places.of_some hp
      exact ⟨r, hr, fun closing => off (alike.name.closing.mp closing)⟩
  · have no_record {j : Fin 192} {q : Place} (there : t.place j = some q) : False := by
      obtain ⟨p, hp, -⟩ := h.places.some_of there
      cases (empty j).symm.trans hp
    refine ⟨fun j q hq => (no_record hq).elim, fun q j hj => ?_, fun q => ?_⟩
    · obtain ⟨p, hp, -⟩ := law.2.1 q j (h.timelines q ▸ hj)
      cases (empty j).symm.trans hp
    · exact List.pairwise_of_forall fun j k p r hp => (no_record hp).elim

/-- The record of place `i` leaves the timelines of its ports. -/
theorem TimelineLaw.of_left (law : s.TimelineLaw) (here : s.place i = some p)
    (timelines : ∀ q, t.timeline q = if q ∈ p.booking.ports then (s.timeline q).filter (· != i) else s.timeline q)
    (others : ∀ j, j ≠ i → t.place j = s.place j) (same : ∀ q, t.place i = some q → p.SameSpan q)
    (margin : t.dir.margin = s.dir.margin) : t.TimelineLaw := by
  refine law.of_sublists (fun j q hq => ?_) (fun q => ?_) (fun q j hj => ?_) margin
  · by_cases e : j = i
    · subst e
      exact ⟨p, here, same q hq⟩
    · exact ⟨q, (others j e).symm.trans hq, ⟨rfl, rfl, rfl, rfl⟩⟩
  · rw [timelines]
    split
    · exact List.filter_sublist
    · exact List.Sublist.refl _
  · rw [timelines] at hj
    have on_s : j ∈ s.timeline q := by
      split at hj
      · exact List.mem_of_mem_filter hj
      · exact hj
    obtain ⟨r, hr, on, off⟩ := law.2.1 q j on_s
    have e : j ≠ i := fun e => by
      subst e
      cases here.symm.trans hr
      rw [if_pos on] at hj
      simp at hj
    exact ⟨r, (others j e).trans hr, off⟩

theorem Departs.timelineLaw (h : s.Departs t i p0 p x) (law : s.TimelineLaw) : t.TimelineLaw := by
  obtain ⟨-, -, -, -, margin⟩ := h.left.terms
  refine law.of_left h.here (h.alike.span.ports ▸ h.left.timelines) h.left.others (fun q there => ?_) margin
  by_cases free : s.stl.queue.length < 64
  · exact nomatch (h.left.appended free).1.symm.trans there
  · cases (h.left.waits (Nat.le_of_not_lt free)).1.symm.trans there
    exact ⟨h.alike.span.ports, h.alike.span.s0, h.alike.span.e, h.alike.span.cueLead⟩

theorem clearOf_comm {margin : Nat} {b c : Booking} : b.clearOf margin c ↔ c.clearOf margin b := or_comm

theorem EndMoved.timelineLaw (h : s.EndMoved t i p q n) (law : s.TimelineLaw) : t.TimelineLaw := by
  obtain ⟨long, fits⟩ := h.fits law
  obtain ⟨spans, members, clear⟩ := law
  have span := h.alike.span
  have stood {j : Fin 192} {r : Place} (e : j ≠ i) (there : t.place j = some r) : s.place j = some r :=
    (h.others j e).symm.trans there
  have moved {port : Fin 32} {j : Fin 192} {r : Place} (on_i : i ∈ s.timeline port) (on_j : j ∈ s.timeline port)
      (e : j ≠ i) (hr : s.place j = some r) (old : p.booking.clearOf s.dir.margin r.booking) :
      q.booking.clearOf s.dir.margin r.booking := by
    obtain ⟨p', hp', on, -⟩ := members port i on_i
    cases h.here.symm.trans hp'
    have new := fits port j r on on_j e hr old
    rw [Booking.clearOf] at new ⊢
    rwa [span.s0, span.e]
  refine ⟨fun j r hr => ?_, fun port j hj => ?_, fun port => ?_⟩
  · by_cases e : j = i
    · subst e
      cases h.there.symm.trans hr
      rw [span.s0, span.e, span.ports]
      exact ⟨long, (spans j p h.here).2⟩
    · exact spans j r (stood e hr)
  · rw [h.timelines] at hj
    obtain ⟨r, hr, on, off⟩ := members port j hj
    by_cases e : j = i
    · subst e
      cases h.here.symm.trans hr
      exact ⟨q, h.there, span.ports ▸ on, fun closing => off (h.alike.name.closing.mp closing)⟩
    · exact ⟨r, (h.others j e).trans hr, on, off⟩
  · rw [h.timelines, h.dir]
    refine (clear port).imp_of_mem fun {j k} hj hk old a b ha hb => ?_
    by_cases ej : j = i <;> by_cases ek : k = i
    · subst ej ek
      exact absurd (old p p h.here h.here).1 (Nat.lt_irrefl _)
    · subst ej
      cases h.there.symm.trans ha
      obtain ⟨before, apart⟩ := old p b h.here (stood ek hb)
      exact ⟨by rw [span.s0]; exact before, moved hj hk ek (stood ek hb) apart⟩
    · subst ek
      cases h.there.symm.trans hb
      obtain ⟨before, apart⟩ := old a p (stood ej ha) h.here
      exact ⟨by rw [span.s0]; exact before, clearOf_comm.mp (moved hk hj ej (stood ej ha) (clearOf_comm.mp apart))⟩
    · exact old a b (stood ej ha) (stood ek hb)

/-- In a list with increasing values, what is left once the values up to `x` are dropped is above `x`. -/
theorem lt_of_mem_dropWhile {α : Type} {f : α → Nat} {x : Nat} {l : List α} (increasing : l.Pairwise fun a b => f a < f b)
    {b : α} (hb : b ∈ l.dropWhile fun a => decide (f a ≤ x)) : x < f b := by
  induction l with
  | nil => cases hb
  | cons a l ih =>
    obtain ⟨first, rest⟩ := List.pairwise_cons.mp increasing
    rw [List.dropWhile_cons] at hb
    split at hb
    next => exact ih rest hb
    next above =>
      have above : x < f a := Nat.lt_of_not_le fun le => above (decide_eq_true le)
      rcases List.mem_cons.mp hb with rfl | hb
      · exact above
      · exact above.trans (first b hb)

theorem startAt_of_some (here : s.place i = some p) : s.startAt i = p.booking.s0 := by rw [startAt, here]; rfl

theorem Admits.timelineLaw (h : s.Admits t i p) (law : s.TimelineLaw) : t.TimelineLaw := by
  obtain ⟨spans, members, clear⟩ := law
  have on_table {q : Fin 32} {j : Fin 192} (hj : j ∈ s.timeline q) : j ≠ i := fun e => by
    obtain ⟨r, hr, -⟩ := members q j hj
    exact nomatch (e ▸ h.free).symm.trans hr
  have stood {j : Fin 192} {r : Place} (e : j ≠ i) (there : t.place j = some r) : s.place j = some r :=
    (h.others j e).symm.trans there
  refine ⟨fun j r hr => ?_, fun q j hj => ?_, fun q => ?_⟩
  · by_cases e : j = i
    · subst e
      cases h.there.symm.trans hr
      exact ⟨h.span, h.distinct⟩
    · exact spans j r (stood e hr)
  · rw [h.timelines] at hj
    have old (hj : j ∈ s.timeline q) : ∃ r, t.place j = some r ∧ q ∈ r.booking.ports ∧ r.booking.state ≠ .closing := by
      obtain ⟨r, hr, on, off⟩ := members q j hj
      exact ⟨r, (h.others j (on_table hj)).trans hr, on, off⟩
    split at hj
    next on =>
      rw [insertByStart_eq, List.mem_append, List.mem_cons] at hj
      rcases hj with hj | rfl | hj
      · exact old ((List.takeWhile_sublist _).subset hj)
      · exact ⟨p, h.there, on, h.open_⟩
      · exact old ((List.dropWhile_sublist _).subset hj)
    next => exact old hj
  · have kept : (s.timeline q).Pairwise fun j k => ∀ a b, t.place j = some a → t.place k = some b →
        a.booking.s0 < b.booking.s0 ∧ a.booking.clearOf t.dir.margin b.booking := by
      rw [h.margin]
      exact (clear q).imp_of_mem fun {j k} hj hk old a b ha hb =>
        old a b (stood (on_table hj) ha) (stood (on_table hk) hb)
    rw [h.timelines]
    split
    next on =>
      rw [insertByStart_eq]
      have increasing : (s.timeline q).Pairwise fun j k => s.startAt j < s.startAt k :=
        (clear q).imp_of_mem fun {j k} hj hk old => by
          obtain ⟨a, ha, -⟩ := members q j hj
          obtain ⟨b, hb, -⟩ := members q k hk
          rw [startAt_of_some ha, startAt_of_some hb]
          exact (old a b ha hb).1
      have before {j : Fin 192} (hj : j ∈ (s.timeline q).takeWhile fun j => decide (s.startAt j ≤ p.booking.s0)) :
          ∀ a b, t.place j = some a → t.place i = some b →
            a.booking.s0 < b.booking.s0 ∧ a.booking.clearOf t.dir.margin b.booking := fun a b ha hb => by
        cases h.there.symm.trans hb
        have mem := (List.takeWhile_sublist _).subset hj
        have ha := stood (on_table mem) ha
        have start : s.startAt j ≤ p.booking.s0 := of_decide_eq_true
          (List.mem_takeWhile_imp (p := fun j => decide (s.startAt j ≤ p.booking.s0)) hj)
        rw [startAt_of_some ha] at start
        have apart := h.clear q on j mem a ha
        have length := (spans j a ha).1
        have span := h.span
        rw [h.margin]
        refine ⟨?_, apart⟩
        rw [Booking.clearOf] at apart
        omega
      have behind {j : Fin 192} (hj : j ∈ (s.timeline q).dropWhile fun j => decide (s.startAt j ≤ p.booking.s0)) :
          ∀ a b, t.place i = some a → t.place j = some b →
            a.booking.s0 < b.booking.s0 ∧ a.booking.clearOf t.dir.margin b.booking := fun a b ha hb => by
        cases h.there.symm.trans ha
        have mem := (List.dropWhile_sublist _).subset hj
        have hb := stood (on_table mem) hb
        have start := lt_of_mem_dropWhile increasing hj
        rw [startAt_of_some hb] at start
        rw [h.margin]
        exact ⟨start, clearOf_comm.mp (h.clear q on j mem b hb)⟩
      have split_at := List.takeWhile_append_dropWhile (p := fun j => decide (s.startAt j ≤ p.booking.s0))
        (l := s.timeline q)
      rw [← split_at] at kept
      obtain ⟨first, last, across⟩ := List.pairwise_append.mp kept
      refine List.pairwise_append.mpr ⟨first, List.pairwise_cons.mpr ⟨fun j hj => behind hj, last⟩, fun j hj k hk => ?_⟩
      rcases List.mem_cons.mp hk with rfl | hk
      · exact before hj
      · exact across j hj k hk
    next => exact kept

theorem Emptied.timelineLaw (h : t.Emptied) : t.TimelineLaw := by
  refine ⟨fun i p here => (nomatch (h.places i).symm.trans here), fun q i mem => ?_, fun q => ?_⟩
  · rw [h.timelines] at mem
    cases mem
  · rw [h.timelines]
    exact .nil

theorem BookEvent.timelineLaw (h : s.BookEvent t) (law : s.TimelineLaw) : t.TimelineLaw := by
  cases h with
  | kept h => exact h.timelineLaw law
  | moved i p q n h => exact h.timelineLaw law
  | admits i p h => exact h.timelineLaw law
  | departs i p0 p x h => exact h.timelineLaw law
  | serves i p y others h =>
    obtain ⟨-, -, -, -, -, -, margin, -⟩ := h.served.kept
    exact law.of_left h.here h.timelines h.served.places (fun q there => nomatch h.served.here.symm.trans there) margin
  | emptied h => exact h.timelineLaw

end State
end Sys2Proof.Machine
end

