-- ==== Sys2Proof/Proofs/Reaching.lean ====
section
/-! PROOFS. `Reaches`: what the operations of the model lead to from a state, in the words of the laws that every step keeps
(R1, R11, R46, R32, R67, R78, R79, R81, R148, R165, R176); and the laws of PSEL and RMON under a change of health. -/

namespace Sys2Proof.Machine

/-! ### The record of a circuit (R46) -/

namespace Circuit

/-- The law of the selector for a record whose routes compare as `rank` gives (R46). -/
def Law (k : Circuit) (rank : Side → Nat) : Prop :=
  (∀ st, k.selector = some st → st.automatic = true → k.guard = none → rank st.side.other ≤ rank st.side) ∧
  (k.guard ≠ none → ∃ st, k.selector = some st ∧ st.automatic = true) ∧
  (k.wtr ≠ none ↔ k.selector = some .wtr) ∧ (k.selector = some .wtr → rank .a = 2)

/-- A guard timer runs in automatic states only, and the WTR timer exactly in WTR (R48, R51). -/
def TimersLaw (k : Circuit) : Prop :=
  (k.guard ≠ none → ∃ st, k.selector = some st ∧ st.automatic = true) ∧ (k.wtr ≠ none ↔ k.selector = some .wtr)

variable {k : Circuit} {rank : Side → Nat} {bUsable unfit : Bool} {why : CircuitReason} {now frame : Nat} {st : SelState}

theorem Law.timers (h : k.Law rank) : k.TimersLaw := ⟨h.2.1, h.2.2.1⟩

/-- A record in a state other than WTR, with its ranks where it is automatic and unguarded. -/
theorem law_of_selector (selector : k.selector = some st) (not_wtr : st ≠ .wtr) (timers : k.TimersLaw)
    (ranks : st.automatic = true → k.guard = none → rank st.side.other ≤ rank st.side) : k.Law rank := by
  refine ⟨fun st' h => ?_, timers.1, timers.2, fun h => ?_⟩
  · cases selector.symm.trans h
    exact ranks
  · cases selector.symm.trans h
    exact absurd rfl not_wtr

theorem law_of_wtr (selector : k.selector = some .wtr) (timers : k.TimersLaw) (restored : rank .a = 2)
    (ranks : k.guard = none → rank .a ≤ rank .b) : k.Law rank := by
  refine ⟨fun st' h _ => ?_, timers.1, timers.2, fun _ => restored⟩
  cases selector.symm.trans h
  exact ranks

theorem switched_timers (auto : st.automatic = true) (not_wtr : st ≠ .wtr) : (k.switched st why now frame).TimersLaw :=
  ⟨fun _ => ⟨st, rfl, auto⟩, fun h => absurd rfl h, fun h => absurd (Option.some.inj h) not_wtr⟩

theorem switched_law (auto : st.automatic = true) (not_wtr : st ≠ .wtr) (ranks : rank st.side.other ≤ rank st.side) :
    (k.switched st why now frame).Law rank :=
  law_of_selector rfl not_wtr (switched_timers auto not_wtr) fun _ _ => ranks

theorem ordered_timers : (k.ordered st why frame).TimersLaw ↔ st ≠ .wtr := by
  refine ⟨fun h e => ?_, fun ne => ⟨fun h => absurd rfl h, fun h => absurd rfl h, fun h => absurd (Option.some.inj h) ne⟩⟩
  exact h.2.mpr (congrArg some e) rfl

/-- An evaluation makes the record keep its law (R46, R47, R48, R51). -/
theorem evaluated_law (timers : k.TimersLaw) (low : ∀ side, rank side ≤ 2) :
    (k.evaluated rank bUsable why now frame).Law rank := by
  cases selector : k.selector with
  | none =>
    rw [evaluated_of_held (by simp [selector])]
    exact ⟨fun st h => (nomatch selector.symm.trans h), timers.1, timers.2, fun h => (nomatch selector.symm.trans h)⟩
  | some st =>
    cases st with
    | selA =>
      rw [evaluated_of_selA selector]
      split
      next switch => exact switched_law rfl nofun switch.2.le
      next stay => exact law_of_selector selector nofun timers fun _ free => Nat.le_of_not_lt fun lt => stay ⟨free, lt⟩
    | selB =>
      rw [evaluated_of_selB selector]
      split
      next switch => exact switched_law rfl nofun switch.2.le
      next stay =>
        have ranks (free : k.guard = none) : rank .a ≤ rank .b := Nat.le_of_not_lt fun lt => stay ⟨free, lt⟩
        split
        next restore =>
          split
          · exact switched_law rfl nofun (restore.2.1 ▸ low .b)
          · exact law_of_wtr rfl ⟨fun _ => ⟨.wtr, rfl, rfl⟩, fun _ => rfl, fun _ => nofun⟩ restore.2.1 ranks
        next => exact law_of_selector selector nofun timers fun _ => ranks
    | wtr =>
      rw [evaluated_of_wtr selector]
      split
      next switch => exact switched_law rfl nofun switch.2.le
      next stay =>
        have ranks (free : k.guard = none) : rank .a ≤ rank .b := Nat.le_of_not_lt fun lt => stay ⟨free, lt⟩
        split
        next =>
          exact law_of_selector (st := .selB) rfl nofun ⟨fun _ => ⟨.selB, rfl, rfl⟩, fun h => absurd rfl h, nofun⟩
            fun _ => ranks
        next restored => exact law_of_wtr selector timers (not_not.mp restored) ranks
    | forcedA | forcedB | lockout =>
      rw [evaluated_of_held (by simp [selector, SelState.automatic])]
      exact law_of_selector selector nofun timers nofun

/-- A change of health makes the record keep its law (R46, R53). -/
theorem heard_law (timers : k.TimersLaw) (low : ∀ side, rank side ≤ 2) :
    (k.heard rank bUsable unfit now frame).Law rank := by
  have held {st : SelState} (selector : k.selector = some st) (forced : st.automatic = false) : k.Law rank :=
    law_of_selector selector (by rintro rfl; cases forced) timers (by rw [forced]; nofun)
  unfold heard
  cases selector : k.selector with
  | none => exact ⟨fun st h => (nomatch selector.symm.trans h), timers.1, timers.2, fun h => (nomatch selector.symm.trans h)⟩
  | some st =>
    cases st with
    | selA | selB | wtr => exact evaluated_law timers low
    | lockout => exact held selector rfl
    | forcedA | forcedB =>
      dsimp only
      split
      · exact evaluated_law (ordered_timers.mpr nofun) low
      · exact held selector rfl

end Circuit

namespace State

/-! ### What an operation keeps -/

/-- `t` is what operations of the model make of `s`: each law that `s` keeps, `t` keeps, and the booking table, the directory
and the settlement queue have gone through events of the list. Elapsed time, the tick divider, the queue of commands and the
line rate stand. -/
structure Reaches (s t : State) : Prop where
  pending : t.pending = s.pending
  strap : t.lnk.strap = s.lnk.strap
  elapsed : t.tb.elapsed = s.tb.elapsed
  lastTick : t.tb.lastTick = s.tb.lastTick
  notices : s.ntc.Law → t.ntc.Law
  time : s.tb.InRange → t.tb.InRange
  link : s.lnk.Bounded → t.lnk.Bounded
  take : s.TakeLaw → t.TakeLaw
  health : s.HealthLaw → t.HealthLaw
  selector : s.SelectorLaw → t.SelectorLaw
  books : Relation.ReflTransGen BookEvent s t

variable {s t u : State}

theorem Reaches.refl (s : State) : s.Reaches s := ⟨rfl, rfl, rfl, rfl, id, id, id, id, id, id, .refl⟩

theorem Reaches.trans (h : s.Reaches t) (k : t.Reaches u) : s.Reaches u :=
  ⟨k.pending.trans h.pending, k.strap.trans h.strap, k.elapsed.trans h.elapsed, k.lastTick.trans h.lastTick,
    k.notices ∘ h.notices, k.time ∘ h.time, k.link ∘ h.link, k.take ∘ h.take, k.health ∘ h.health,
    k.selector ∘ h.selector, h.books.trans k.books⟩

theorem Reaches.foldl {β : Type} {f : State → β → State} (each : ∀ (s : State) (b : β), s.Reaches (f s b)) (l : List β) (s : State) :
    s.Reaches (l.foldl f s) := by
  induction l generalizing s with
  | nil => exact .refl s
  | cons b l ih => exact (each s b).trans (ih _)

/-- One of two ways on. -/
theorem Reaches.ite {c : Prop} [Decidable c] (h : c → s.Reaches t) (k : ¬c → s.Reaches u) :
    s.Reaches (if c then t else u) := by
  split
  next yes => exact h yes
  next no => exact k no

/-! ### One part at a time -/

/-- BKU, DIR and STL stand. -/
theorem RecordsKept.of_same (bku : t.bku = s.bku) (dir : t.dir = s.dir) (stl : t.stl = s.stl) : s.RecordsKept t where
  places := .of_same .refl fun i => by rw [place, bku]; rfl
  timelines q := by rw [timeline, bku]; rfl
  entries := by rw [bku]
  refs := ⟨fun _ => by rw [dir], fun _ => by rw [dir], fun _ => by rw [stl]⟩
  margin := .inl (by rw [dir])
  queue := by rw [stl]
  closing _ := ⟨by rw [stl], .inl (by rw [stl])⟩
  totals h a := by rw [stl]; exact h a

theorem books_of_same (bku : t.bku = s.bku) (dir : t.dir = s.dir) (stl : t.stl = s.stl) :
    Relation.ReflTransGen BookEvent s t := .single (.kept (.of_same bku dir stl))

theorem reaches_ntc (s : State) {n : NTC} (law : s.ntc.Law → n.Law) : s.Reaches { s with ntc := n } :=
  ⟨rfl, rfl, rfl, rfl, law, id, id, id, id, id, books_of_same rfl rfl rfl⟩

theorem reaches_tcu (s : State) (x : TCU) : s.Reaches { s with tcu := x } :=
  ⟨rfl, rfl, rfl, rfl, id, id, id, id, id, id, books_of_same rfl rfl rfl⟩

theorem reaches_race (s : State) (n : Nat) : s.Reaches { s with raceCount := n } :=
  ⟨rfl, rfl, rfl, rfl, id, id, id, id, id, id, books_of_same rfl rfl rfl⟩

theorem reaches_tb (s : State) {x : TB} (range : s.tb.InRange → x.InRange) (elapsed : x.elapsed = s.tb.elapsed)
    (lastTick : x.lastTick = s.tb.lastTick) : s.Reaches { s with tb := x } :=
  ⟨rfl, rfl, elapsed, lastTick, id, range, id, id, id, id, books_of_same rfl rfl rfl⟩

theorem reaches_lnk (s : State) {x : LNK} (bounded : s.lnk.Bounded → x.Bounded) (strap : x.strap = s.lnk.strap) :
    s.Reaches { s with lnk := x } :=
  ⟨rfl, strap, rfl, rfl, id, id, bounded, id, id, id, books_of_same rfl rfl rfl⟩

theorem reaches_xpc (s : State) {x : XPC} (take : s.TakeLaw → State.TakeLaw { s with xpc := x }) :
    s.Reaches { s with xpc := x } :=
  ⟨rfl, rfl, rfl, rfl, id, id, id, take, id, id, books_of_same rfl rfl rfl⟩

/-- RMON changes in what neither R34 nor PSEL reads. -/
theorem reaches_rmon (s : State) {x : RMON} (health : s.HealthLaw → State.HealthLaw { s with rmon := x })
    (same : ∀ r, (x.routes.get r).effective = s.health r) : s.Reaches { s with rmon := x } := by
  refine ⟨rfl, rfl, rfl, rfl, id, id, id, id, health, fun law c => ?_, books_of_same rfl rfl rfl⟩
  have rank : State.rankOf { s with rmon := x } c = s.rankOf c := by
    funext side
    unfold rankOf
    rw [show State.health { s with rmon := x } (routeOf c side) = s.health (routeOf c side) from same _]
    rfl
  have old := law c
  unfold SelectorLawAt at old ⊢
  rw [rank]
  exact old

/-- BKU, DIR and STL take an event. -/
theorem reaches_books (s : State) {k : BKU} {d : DIR} {q : STL} (h : s.BookEvent { s with bku := k, dir := d, stl := q }) :
    s.Reaches { s with bku := k, dir := d, stl := q } :=
  ⟨rfl, rfl, rfl, rfl, id, id, id, id, id, id, .single h⟩

theorem reaches_raise (s : State) (o : Fin 267) : s.Reaches (s.raise o) := s.reaches_ntc fun h => NTC.raise_law h o

theorem reaches_withdraw (s : State) (o : Fin 267) : s.Reaches (s.withdraw o) := s.reaches_ntc fun h => NTC.withdraw_law h o

theorem reaches_raced (s : State) : s.Reaches s.raced := s.reaches_race _

/-- Events in any order, each of which the laws allow (log entry 4). -/
theorem reaches_inAnyOrder {fs : List (State → State)} (each : ∀ f ∈ fs, ∀ v : State, v.Reaches (f v)) (s : State) :
    s.Reaches (s.inAnyOrder fs) := by
  obtain ⟨order, n, perm, eq⟩ := inAnyOrder_spec fs s
  have all (order : List (State → State)) (each : ∀ f ∈ order, ∀ v : State, v.Reaches (f v)) (v : State) :
      v.Reaches (order.foldl (fun s f => f s) v) := by
    induction order generalizing v with
    | nil => exact .refl v
    | cons f fs ih =>
      exact (each f (List.mem_cons_self ..) v).trans (ih (fun g hg => each g (.tail _ hg)) _)
  rw [eq]
  exact (s.reaches_race n).trans (all order (fun f hf => each f (perm.mem_iff.mp hf)) _)

/-! ### Places that the laws see alike -/

/-- The booking table changes, and the laws see every record alike; entries may leave the time list (R81). -/
theorem reaches_places (s : State) {k : BKU} (places : PlacesBy Place.Alike s { s with bku := k })
    (timelines : k.timelines = s.bku.timelines) (entries : k.timeList.Sublist s.bku.timeList) :
    s.Reaches { s with bku := k } :=
  s.reaches_books (.kept ⟨places, fun q => congrArg (·.get q) timelines, entries, ⟨fun _ => rfl, fun _ => rfl, fun _ => rfl⟩,
    .inl rfl, List.Sublist.refl _, fun _ => ⟨rfl, .inl rfl⟩, id⟩)

theorem reaches_setPlace (s : State) {i : Fin 192} {p q : Place} (here : s.place i = some p) (alike : p.Alike q) :
    s.Reaches (s.setPlace i (some q)) :=
  s.reaches_places (.of_one .refl here (setPlace_place ..) (fun _ ne => setPlace_place_ne s _ (Ne.symm ne)) alike) rfl
    (List.Sublist.refl _)

theorem reaches_onPlace (s : State) (i : Fin 192) {f : Place → Place}
    (alike : ∀ p, s.place i = some p → p.Alike (f p)) : s.Reaches (s.onPlace i f) := by
  cases here : s.place i with
  | none =>
    rw [show s.onPlace i f = s by rw [onPlace, here]]
    exact .refl s
  | some p =>
    rw [onPlace_of_some here]
    exact s.reaches_setPlace here (alike p here)

theorem reaches_mapPlaces (s : State) {f : Place → Place} (alike : ∀ p : Place, p.Alike (f p)) : s.Reaches (s.mapPlaces f) := by
  refine s.reaches_places (fun i => ?_) rfl (List.Sublist.refl _)
  have place : (s.mapPlaces f).place i = (s.place i).map f := mapPlaces_place s f i
  cases here : s.place i with
  | none => exact .inl ⟨rfl, by rw [here] at place; exact place⟩
  | some p => exact .inr ⟨p, f p, rfl, by rw [here] at place; exact place, alike p⟩

/-- Some entries leave the time list. -/
theorem reaches_entries (s : State) {l : List TimeEntry} (sub : l.Sublist s.bku.timeList) :
    s.Reaches { s with bku := { s.bku with timeList := l } } :=
  s.reaches_places (.of_same .refl fun _ => rfl) rfl sub

theorem alike_of_sameBooking {p q : Place} (h : p.SameBooking q) : p.Alike q := by
  obtain ⟨booking, held, -⟩ := h
  exact ⟨⟨by rw [booking], by rw [booking], by rw [booking], by rw [booking], by rw [booking], by rw [booking], held⟩,
    ⟨by rw [booking], by rw [booking], by rw [booking], by rw [booking]⟩⟩

theorem BookingsKept.recordsKept (h : s.BookingsKept t) (dir : t.dir = s.dir) (stl : t.stl = s.stl) : s.RecordsKept t where
  places i := (h.2.2 i).imp_right fun ⟨p, q, hs, ht, same⟩ => ⟨p, q, hs, ht, alike_of_sameBooking same⟩
  timelines q := by rw [timeline, h.1]; rfl
  entries := by rw [h.2.1]
  refs := ⟨fun _ => by rw [dir], fun _ => by rw [dir], fun _ => by rw [stl]⟩
  margin := .inl (by rw [dir])
  queue := by rw [stl]
  closing _ := ⟨by rw [stl], .inl (by rw [stl])⟩
  totals h a := by rw [stl]; exact h a

/-! ### The takes under way (R127, R138) -/

theorem FlightKept.takeLaw (h : s.FlightKept t) (law : s.TakeLaw) : t.TakeLaw := by
  obtain ⟨xpc, ports⟩ := h
  unfold TakeLaw at law ⊢
  rw [xpc]
  simp only [ports]
  exact law

/-- Ports change in neither their committed input nor their holder. -/
theorem reaches_ports (s : State) {x : Table XPort 32}
    (same : ∀ p, (x.get p).committed = (s.xport p).committed ∧ (x.get p).holder = (s.xport p).holder) :
    s.Reaches { s with xpc := { s.xpc with ports := x } } :=
  s.reaches_xpc (FlightKept.takeLaw ⟨rfl, same⟩)

theorem reaches_onXPort (s : State) (p : Fin 32) {f : XPort → XPort}
    (same : ∀ x, (f x).committed = x.committed ∧ (f x).holder = x.holder) : s.Reaches (s.onXPort p f) := by
  refine s.reaches_ports fun q => ?_
  rw [upd_get_eq]
  split
  next e => exact e ▸ same _
  next => exact ⟨rfl, rfl⟩

/-- Places and ports alone change, the bookings and the takes under way standing. -/
theorem OnlyPlacesAndPorts.reaches (only : s.OnlyPlacesAndPorts t) (flight : s.FlightKept t) (bookings : s.BookingsKept t) :
    s.Reaches t := by
  have kept := bookings.recordsKept (by rw [only]) (by rw [only])
  refine ⟨by rw [only], by rw [only], by rw [only], by rw [only], by rw [only]; exact id, by rw [only]; exact id,
    by rw [only]; exact id, flight.takeLaw, ?_, ?_, .single (.kept kept)⟩
  · rw [only]; exact id
  · rw [only]; exact id

/-- Flags are worked out anew (R137). -/
theorem reaches_recomputeFlags (s : State) (ports : List (Fin 32)) : s.Reaches (s.recomputeFlags ports) := by
  obtain ⟨flight, bookings⟩ := flight_bookings_of_flags s ports
  exact (recomputeFlags_only s ports).reaches flight bookings

end State
end Sys2Proof.Machine
end

