-- ==== Sys2Proof/Proofs/HealthReaches.lean ====
section
/-! PROOFS. What RMON's events and PSEL's orders lead to: each keeps the laws of effective health, of the selector and of the
notice list (R32, R34, R46, R176). -/

namespace Sys2Proof.Machine

namespace Circuit
variable {k l : Circuit} {rank : Side → Nat} {bUsable unfit : Bool} {why : CircuitReason} {now frame : Nat}

/-- The law reads the selector state and the two timers alone. -/
theorem Law.congr (h : k.Law rank) (selector : l.selector = k.selector) (guard : l.guard = k.guard) (wtr : l.wtr = k.wtr) :
    l.Law rank := by
  unfold Law at h ⊢
  rwa [selector, guard, wtr]

/-- An evaluation leaves the options of the circuit. -/
theorem evaluated_degSwitch : (k.evaluated rank bUsable why now frame).degSwitch = k.degSwitch := by
  unfold evaluated
  cases k.selector with
  | none => rfl
  | some st => cases st <;> dsimp only <;> split_ifs <;> rfl

theorem heard_degSwitch : (k.heard rank bUsable unfit now frame).degSwitch = k.degSwitch := by
  unfold heard
  cases k.selector with
  | none => rfl
  | some st =>
    cases st with
    | selA | selB | wtr => exact evaluated_degSwitch
    | forcedA | forcedB =>
      dsimp only
      split
      · exact evaluated_degSwitch
      · rfl
    | lockout => rfl

end Circuit

theorem comparedRank_le_two (deg : Bool) (h : Health) : comparedRank deg h ≤ 2 := by
  cases deg <;> cases h <;> decide

namespace State
variable {s t u : State} {c : Fin 24} {k : Circuit}

/-! ### The notice list through a health event (R36, R58) -/

theorem CircuitHears.notices (h : s.CircuitHears t c k) (law : s.ntc.Law) : t.ntc.Law := by
  obtain ⟨rfl, -⟩ | ⟨moved, -⟩ := h
  · exact law
  · exact moved.object ▸ NTC.raise_law law _

theorem recomputeFlags_ntc (s : State) (ports : List (Fin 32)) : (s.recomputeFlags ports).ntc = s.ntc := by
  rw [recomputeFlags_only]

theorem pselHealth_notices {changed : List (Fin 48)} (law : s.ntc.Law) : (s.pselHealth changed).ntc.Law :=
  foldl_inv (fun v => v.ntc.Law) (fun v c h => (pselCircuit_hears changed v c).notices h) _ s law

theorem handHealth_notices {changed : List (Fin 48)} (law : s.ntc.Law) : (s.handHealth changed).ntc.Law := by
  have flags (v : State) : (v.xpcHealth changed).ntc = v.ntc := recomputeFlags_ntc ..
  unfold handHealth
  split
  · exact pselHealth_notices (by rw [flags]; exact law)
  · rw [flags]
    exact pselHealth_notices law

theorem applyHealth_notices {r : Fin 48} (law : s.ntc.Law) : (s.applyHealth r).ntc.Law := by
  rw [applyHealth_eq]
  dsimp only
  split
  · exact NTC.withdraw_law law _
  · exact NTC.raise_law law _

theorem healthEvent_notices {cs : List (Fin 24)} (law : s.ntc.Law) : (s.healthEvent cs).ntc.Law := by
  have aborted : (cs.foldl partnerAbort s).ntc.Law :=
    foldl_inv (fun v => v.ntc.Law) (fun v c h => by rw [partnerAbort_eq]; exact h) cs s law
  have applied (l : List (Fin 48)) : (l.foldl applyHealth (cs.foldl partnerAbort s)).ntc.Law :=
    foldl_inv (fun v => v.ntc.Law) (fun v r h => applyHealth_notices h) l _ aborted
  unfold healthEvent
  dsimp only
  split
  · exact applied _
  · exact handHealth_notices (applied _)

/-! ### A health event (R32, R34, R46) -/

section
variable {cs : List (Fin 24)}

/-- A health event leaves the inputs of the health of each route whose circuit's drill stands. -/
theorem HealthTaken.healthNow_eq (h : s.HealthTaken t cs) {r : Fin 48} (drill : t.drill (circuitOf r) = s.drill (circuitOf r)) :
    t.healthNow r = s.healthNow r := by
  by_cases same : t.health r = s.health r
  · have route := h.unchanged r (.inl same)
    exact healthNow_congr drill (by rw [route]) (by rw [route])
  · have route := h.changed r same
    exact healthNow_congr drill (by rw [route]) (by rw [route]; rfl)

theorem HealthTaken.healthLaw (h : s.HealthTaken t cs)
    (standing : ∀ r, circuitOf r ∉ cs → s.health r = s.healthNow r)
    (partners : ∀ c d, c ∉ cs → s.drill c = some d → s.health (routeOf c d.side.other) = .ok) : t.HealthLaw := by
  have others {c : Fin 24} (out : c ∉ cs) : t.drill c = s.drill c := h.drills c fun both => out both.1
  have stood {r : Fin 48} (out : circuitOf r ∉ cs) : t.health r = s.health r := by
    rw [health, health, h.unchanged r (.inr out)]
  refine ⟨fun r => ?_, fun c d drill => ?_⟩
  · by_cases mem : circuitOf r ∈ cs
    · exact h.effective r mem
    · rw [h.healthNow_eq (others mem), stood mem]
      exact standing r mem
  · by_cases mem : c ∈ cs
    · have fit : ¬s.partnerUnfit c := fun unfit => nomatch (h.aborted c mem unfit).symm.trans drill
      have kept := h.drills c fun both => fit both.2
      rw [h.effective _ (by rwa [circuitOf_routeOf]), h.healthNow_eq (by rwa [circuitOf_routeOf])]
      by_contra unfit
      exact fit ⟨d, kept ▸ drill, unfit⟩
    · rw [stood (by rwa [circuitOf_routeOf])]
      exact partners c d mem (others mem ▸ drill)

theorem HealthTaken.selectorLaw (h : s.HealthTaken t cs) (law : s.SelectorLaw) : t.SelectorLaw := by
  intro c
  obtain ⟨moved, stood⟩ := h.circuits c
  by_cases change : s.healthMoved t c
  · have now := moved change
    have rank : t.rankOf c = fun side => comparedRank (s.circuit c).degSwitch (t.health (routeOf c side)) := by
      funext side
      rw [rankOf, now, heardCircuit, Circuit.heard_degSwitch]
    show (t.circuit c).Law (t.rankOf c)
    rw [rank, now]
    exact Circuit.heard_law (Circuit.Law.timers (law c)) fun _ => comparedRank_le_two _ _
  · have rank : t.rankOf c = s.rankOf c := by
      funext side
      rw [rankOf, rankOf, stood change]
      congr 1
      by_contra ne
      exact change ⟨side, ne⟩
    show (t.circuit c).Law (t.rankOf c)
    rw [rank, stood change]
    exact law c

/-- An RMON event in which the inputs of routes of the circuits `cs` change. -/
theorem reaches_healthEvent_of_now (s : State) (nodup : cs.Nodup) {x : RMON}
    (effective : ∀ r, (x.routes.get r).effective = s.health r)
    (drills : ∀ c d, c ∉ cs → x.drills.get c = some d → ∃ d', s.drill c = some d' ∧ d'.side = d.side)
    (inputs : ∀ r, circuitOf r ∉ cs → State.healthNow { s with rmon := x } r = s.healthNow r) :
    s.Reaches (State.healthEvent { s with rmon := x } cs) := by
  have taken := healthEvent_taken { s with rmon := x } nodup
  have notices : s.ntc.Law → (State.healthEvent { s with rmon := x } cs).ntc.Law :=
    fun law => healthEvent_notices (s := { s with rmon := x }) law
  have same (r : Fin 48) : State.health { s with rmon := x } r = s.health r := effective r
  have selector : s.SelectorLaw → State.SelectorLaw { s with rmon := x } := by
    intro law c
    have rank : State.rankOf { s with rmon := x } c = s.rankOf c := by
      funext side
      rw [rankOf, rankOf, same]
      rfl
    show (s.circuit c).Law (State.rankOf { s with rmon := x } c)
    rw [rank]
    exact law c
  generalize State.healthEvent { s with rmon := x } cs = t at taken notices
  obtain ⟨tb, dir, stl, tcu, lnk, pending, flight, bookings⟩ := taken.outside
  refine ⟨pending, by rw [lnk], by rw [tb], by rw [tb], notices, by rw [tb]; exact id, by rw [lnk]; exact id,
    FlightKept.takeLaw (s := { s with rmon := x }) flight, fun law => ?_, fun law => taken.selectorLaw (selector law),
    (books_of_same (s := s) (t := { s with rmon := x }) rfl rfl rfl).tail (.kept (bookings.recordsKept dir stl))⟩
  refine taken.healthLaw (fun r out => ?_) (fun c d out drill => ?_)
  · rw [same, inputs r out]
    exact law.1 r
  · obtain ⟨d', drill', side⟩ := drills c d out drill
    rw [same, ← side]
    exact law.2 c d' drill'

/-- An RMON event in which inputs of routes of the circuits `cs` change, and the other drills and inputs stand. -/
theorem reaches_healthEvent (s : State) (nodup : cs.Nodup) {x : RMON}
    (effective : ∀ r, (x.routes.get r).effective = s.health r) (drills : ∀ c, c ∉ cs → x.drills.get c = s.drill c)
    (inputs : ∀ r, circuitOf r ∉ cs → (x.routes.get r).worksActive = (s.route r).worksActive ∧
      (x.routes.get r).measured = (s.route r).measured) : s.Reaches (State.healthEvent { s with rmon := x } cs) :=
  s.reaches_healthEvent_of_now nodup effective (fun c d out drill => ⟨d, (drills c out).symm.trans drill, rfl⟩)
    fun r out => healthNow_congr (s := s) (t := { s with rmon := x }) (drills _ out) (inputs r out).1 (inputs r out).2

/-- One route takes an input of its health. -/
theorem reaches_routeEvent (s : State) {x : RMON} (r : Fin 48) {f : Route → Route}
    (routes : x.routes = upd s.rmon.routes r (f (s.route r))) (drills : x.drills = s.rmon.drills)
    (effective : (f (s.route r)).effective = s.health r) :
    s.Reaches (State.healthEvent { s with rmon := x } [circuitOf r]) := by
  refine s.reaches_healthEvent (List.nodup_singleton _) (fun q => ?_) (fun c _ => by rw [drills]; rfl) fun q out => ?_
  · rw [routes, upd_get_eq]
    split
    next e => exact e ▸ effective
    next => rfl
  · have ne : r ≠ q := fun e => out (e ▸ List.mem_singleton_self _)
    rw [routes, upd_get_eq, if_neg ne]
    exact ⟨rfl, rfl⟩

/-- Every route takes inputs of its health. -/
theorem reaches_routesEvent (s : State) {x : RMON} {f : Route → Route} (routes : x.routes = tab fun r => f (s.route r))
    (effective : ∀ y, (f y).effective = y.effective) : s.Reaches (State.healthEventAll { s with rmon := x }) := by
  refine s.reaches_healthEvent (List.nodup_finRange 24) (fun r => ?_) (fun c out => absurd (List.mem_finRange c) out)
    fun r out => absurd (List.mem_finRange _) out
  rw [routes, tab_get]
  exact effective _

/-- The drill of one circuit changes. -/
theorem reaches_drillEvent (s : State) (c : Fin 24) (d : Option Drill) : s.Reaches ((s.setDrill c d).healthEvent [c]) := by
  refine s.reaches_healthEvent (x := { s.rmon with drills := upd s.rmon.drills c d }) (List.nodup_singleton _)
    (fun _ => rfl) (fun b out => ?_) fun _ _ => ⟨rfl, rfl⟩
  exact upd_get_ne _ _ fun e => out (e ▸ List.mem_singleton_self _)

/-! ### The events of RMON -/

theorem setRaw_effective (now : Nat) (bad : Bool) (x : Route) : (x.setRaw now bad).effective = x.effective := by
  unfold Route.setRaw Route.toBad Route.toGood
  split_ifs <;> rfl

theorem reaches_statusWord (s : State) (group : List Byte) : s.Reaches (s.statusWord group) := by
  unfold statusWord
  split
  · exact s.reaches_routeEvent _ (f := fun x => (x.setRaw s.tb.elapsed _).addErrors _) rfl rfl (setRaw_effective ..)
  · exact .refl s

theorem reaches_loseCard (s : State) (k : Fin 6) : s.Reaches (s.loseCard k) := by
  have lost : (routesOfCard k).foldl (fun acc r => acc.onRoute r (Route.toBad s.tb.elapsed)) (s.setCard k none) =
      { s with rmon := { s.rmon with
        cards := upd s.rmon.cards k none
        routes := tab fun r => if r ∈ routesOfCard k then (s.route r).toBad s.tb.elapsed else s.route r } } := by
    rw [foldl_onRoute (nodup_routesOfCard k)]
    rfl
  unfold loseCard
  rw [lost]
  refine s.reaches_healthEvent (cs := circuitsOfCard k) ((List.nodup_finRange 24).filter _) (fun r => ?_) (fun _ _ => rfl)
    fun r out => ?_
  · rw [tab_get]
    split
    · exact setRaw_effective s.tb.elapsed true (s.route r)
    · rfl
  · have other : r ∉ routesOfCard k := fun mem => out <| by
      rw [mem_routesOfCard] at mem
      rw [circuitsOfCard_eq, List.mem_filter]
      refine ⟨List.mem_finRange _, ?_⟩
      rw [← mem, beq_iff_eq]
      simp only [circuitOf, cardOf]
      omega
    rw [tab_get, if_neg other]
    exact ⟨rfl, rfl⟩

theorem reaches_cardExpiry (s : State) (k : Fin 6) : s.Reaches (s.cardExpiry k) :=
  .ite (fun _ => s.reaches_loseCard k) fun _ => .refl s

theorem reaches_failExpiry (s : State) (r : Fin 48) : s.Reaches (s.failExpiry r) :=
  .ite (fun _ => s.reaches_routeEvent r (f := fun x => { x with failed := true, failTimer := none }) rfl rfl rfl)
    fun _ => .refl s

theorem reaches_clearExpiry (s : State) (r : Fin 48) : s.Reaches (s.clearExpiry r) :=
  .ite (fun _ => s.reaches_routeEvent r (f := fun x => { x with failed := false, clearTimer := none }) rfl rfl rfl)
    fun _ => .refl s

theorem reaches_closeDueBlock (s : State) : s.Reaches s.closeDueBlock :=
  .ite (fun _ => s.reaches_routesEvent (f := Route.closeBlock) rfl fun _ => rfl) fun _ => .refl s

theorem reaches_worksEdges (s : State) (n : Nat) : s.Reaches (s.worksEdges n) := by
  refine s.reaches_routesEvent (f := Route.worksEdge n) rfl fun y => ?_
  unfold Route.worksEdge
  split_ifs <;> rfl

/-- RMON changes in what it has yet to take, and in reported health and settings, alone. -/
theorem reaches_rmonAside (s : State) {x : RMON} (drills : x.drills = s.rmon.drills)
    (routes : ∀ r, (x.routes.get r).effective = s.health r ∧ (x.routes.get r).worksActive = (s.route r).worksActive ∧
      (x.routes.get r).measured = (s.route r).measured) : s.Reaches { s with rmon := x } := by
  refine s.reaches_rmon (fun law => ?_) fun r => (routes r).1
  have same (r : Fin 48) : State.health { s with rmon := x } r = s.health r := (routes r).1
  refine ⟨fun r => ?_, fun c d drill => ?_⟩
  · rw [same, law.1 r]
    exact (healthNow_congr (t := { s with rmon := x }) (congrArg (fun t : Table _ 24 => t.get (circuitOf r)) drills) (routes r).2.1 (routes r).2.2).symm
  · rw [same]
    exact law.2 c d ((congrArg (fun t : Table _ 24 => t.get c) drills).symm.trans drill)

/-- One route changes in reported health and settings alone. -/
theorem reaches_onRoute (s : State) (r : Fin 48) {f : Route → Route} (effective : ∀ y, (f y).effective = y.effective)
    (works : ∀ y, (f y).worksActive = y.worksActive) (measured : ∀ y, (f y).measured = y.measured) :
    s.Reaches (s.onRoute r f) := by
  refine s.reaches_rmonAside rfl fun q => ?_
  rw [upd_get_eq]
  split
  next e => exact e ▸ ⟨effective _, works _, measured _⟩
  next => exact ⟨rfl, rfl, rfl⟩

theorem reaches_takeWorksEdge (s : State) : s.Reaches s.takeWorksEdge := by
  unfold takeWorksEdge
  split
  · exact (s.reaches_rmonAside (x := { s.rmon with worksDue := none }) rfl fun _ => ⟨rfl, rfl, rfl⟩).trans
      (reaches_worksEdges _ _)
  · exact .refl s

theorem reaches_handBoundary (s : State) : s.Reaches s.handBoundary := by
  unfold handBoundary
  split
  · exact (s.reaches_tb (x := { s.tb with boundary := none }) id rfl rfl).trans
      (reaches_rmonAside _ rfl fun _ => ⟨rfl, rfl, rfl⟩)
  · exact .refl s

theorem reaches_activateDrill (s : State) (c : Fin 24) : s.Reaches (s.activateDrill c) := by
  unfold activateDrill
  split
  · split
    · exact s.reaches_drillEvent c _
    · exact .refl s
    · exact .refl s
  · exact .refl s

theorem reaches_endDrill (s : State) (c : Fin 24) : s.Reaches (s.endDrill c) := by
  unfold endDrill
  split
  · exact .ite (fun _ => s.reaches_drillEvent c _) fun _ => .refl s
  · exact .refl s
  · exact .refl s

theorem reaches_flagStepped (s : State) : s.Reaches s.flagStepped := by
  refine s.reaches_mapPlaces fun p => ?_
  split
  · exact ⟨⟨rfl, rfl, rfl, rfl, rfl, .rfl, rfl⟩, ⟨rfl, rfl, rfl, rfl⟩⟩
  · exact .refl p

/-- A step of network time, with the records on their way flagged (R6, R7). -/
theorem reaches_stepped (s : State) {n : Nat} (range : n ≤ max32) :
    s.Reaches (State.flagStepped { s with tb := { s.tb with seconds := n, sub := 0 } }) := by
  refine (s.reaches_tb (x := { s.tb with seconds := n, sub := 0 }) ?_ rfl rfl).trans (reaches_flagStepped _)
  rintro ⟨-, -, rest⟩
  exact ⟨range, Nat.zero_le _, rest⟩

theorem reaches_stepBack (s : State) {n : Nat} (range : n ≤ max32) : s.Reaches (s.stepBack n) := by
  refine (s.reaches_stepped range).trans (reaches_routesEvent _ (f := Route.worksStepBack n) rfl fun y => ?_)
  unfold Route.worksStepBack
  split_ifs <;> rfl

/-- A drill that a marker does not bring to its end keeps its side, and stays ACTIVE or in COUNTDOWN (R31). -/
theorem count_of_not_runsOut {d : Drill} (now : Nat) (h : d.runsOut = false) : (d.count now).side = d.side ∧
    ((∃ t, d.phase = .active t ∧ (d.count now).phase = .active t) ∨
      ∃ n m, d.phase = .countdown n ∧ (d.count now).phase = .countdown m) := by
  unfold Drill.runsOut at h
  unfold Drill.count
  cases phase : d.phase with
  | active t => exact ⟨rfl, .inl ⟨t, rfl, phase⟩⟩
  | countdown n =>
    rw [phase] at h
    have more : ¬n ≤ 1 := of_decide_eq_false h
    dsimp only
    rw [if_neg more]
    exact ⟨rfl, .inr ⟨n, n - 1, rfl, rfl⟩⟩

theorem reaches_rmonMarker (s : State) : s.Reaches s.rmonMarker := by
  have stands {c : Fin 24} {d : Drill} (out : c ∉ s.drillsRunOut) (drill : s.drill c = some d) : d.runsOut = false := by
    rw [drillsRunOut, List.mem_filter, drill] at out
    simpa using out
  refine s.reaches_healthEvent_of_now ((List.nodup_finRange 24).filter _) (fun _ => rfl) (fun c d out drill => ?_)
    fun r out => ?_
  · rw [tab_get, Option.map_eq_some_iff] at drill
    obtain ⟨d', drill', rfl⟩ := drill
    exact ⟨d', drill', (count_of_not_runsOut _ (stands out drill')).1.symm⟩
  · have counted : State.drilled { s with rmon := { s.rmon with drills := tab fun c => (s.drill c).map (Drill.count s.tb.elapsed) } } r =
        s.drilled r := by
      unfold drilled
      rw [show State.drill { s with rmon := { s.rmon with drills := tab fun c => (s.drill c).map (Drill.count s.tb.elapsed) } }
        (circuitOf r) = (s.drill (circuitOf r)).map (Drill.count s.tb.elapsed) from tab_get ..]
      cases drill : s.drill (circuitOf r) with
      | none => rfl
      | some d =>
        obtain ⟨side, ⟨t, before, after⟩ | ⟨n, m, before, after⟩⟩ := count_of_not_runsOut s.tb.elapsed (stands out drill)
        · simp only [Option.map_some, before, after, side]
        · simp only [Option.map_some, before, after]
    unfold healthNow
    rw [counted]
    rfl

/-! ### The requests of RMON -/

theorem reaches_serveSetRoute (s : State) (route : Byte) (fh ch dt ct : Half) :
    s.Reaches (s.serveSetRoute route fh ch dt ct).1 := by
  unfold serveSetRoute
  split
  · exact .refl s
  · split
    · exact .refl s
    · dsimp only
      split
      · exact s.reaches_routeEvent _ (f := fun x => { x with settings := _, degraded := _ }) rfl rfl rfl
      · exact s.reaches_onRoute _ (fun _ => rfl) (fun _ => rfl) fun _ => rfl

theorem reaches_serveSetWorks (s : State) (route : Byte) (start stop : Word) (force : Byte) :
    s.Reaches (s.serveSetWorks route start stop force).1 := by
  unfold serveSetWorks
  split
  · dsimp only
    split
    · exact .refl s
    · exact s.reaches_routeEvent _ (f := fun x => { x with worksStart := _, worksEnd := _, worksActive := _ }) rfl rfl rfl
  · exact .refl s

theorem reaches_serveReadHealth (s : State) (route : Byte) : s.Reaches (s.serveReadHealth route).1 := by
  unfold serveReadHealth
  split
  · exact .refl s
  · exact (s.reaches_onRoute _ (f := fun x => { x with reported := x.effective }) (fun _ => rfl) (fun _ => rfl) fun _ => rfl).trans
      (reaches_withdraw _ _)

theorem drilled_of_idle {r : Fin 48} (idle : ∀ e, s.drill (circuitOf r) = some e → ∃ n, e.phase = .countdown n) :
    s.drilled r = false := by
  unfold drilled
  split
  next e drill =>
    obtain ⟨n, phase⟩ := idle e drill
    rw [phase]
  next => rfl

/-- A drill that is not ACTIVE is set or removed (R30, R33). -/
theorem reaches_setDrill (s : State) {c : Fin 24} {d : Option Drill}
    (old : ∀ e, s.drill c = some e → ∃ n, e.phase = .countdown n)
    (new : ∀ e, d = some e → (∃ n, e.phase = .countdown n) ∧ s.health (routeOf c e.side.other) = .ok) :
    s.Reaches (s.setDrill c d) := by
  have drill (b : Fin 24) : (s.setDrill c d).drill b = if c = b then d else s.drill b := upd_get_eq ..
  have same (r : Fin 48) : (s.setDrill c d).health r = s.health r := rfl
  refine s.reaches_rmon (fun law => ⟨fun r => (law.1 r).trans ?_, fun b e set => ?_⟩) fun _ => rfl
  · by_cases here : c = circuitOf r
    · have before : s.drilled r = false := drilled_of_idle (here ▸ old)
      have after : (s.setDrill c d).drilled r = false := by
        refine drilled_of_idle fun e set => ?_
        rw [drill, if_pos here] at set
        exact (new e set).1
      show _ = (s.setDrill c d).healthNow r
      unfold healthNow
      rw [before, after]
      rfl
    · exact (healthNow_congr (s := s) (t := s.setDrill c d) (by rw [drill, if_neg here]) rfl rfl).symm
  · have set : (if c = b then d else s.drill b) = some e := (drill b).symm.trans set
    split at set
    next here => exact here ▸ (new e set).2
    next => exact law.2 b e set

theorem reaches_serveDrill (s : State) (route : Byte) (delay duration : Half) :
    s.Reaches (s.serveDrill route delay duration).1 := by
  unfold serveDrill
  split
  · exact .refl s
  next r _ =>
    split
    · exact .refl s
    · split
      · exact .refl s
      next _ accepted =>
        obtain ⟨⟨-, fit⟩, free⟩ : (_ ∧ s.health (routeOf (circuitOf r) (sideOf r).other) = .ok) ∧
            s.drill (circuitOf r) = none := by
          simpa [drillRefused, not_or] using accepted
        dsimp only
        refine s.reaches_setDrill (by rw [free]; nofun) fun e new => ?_
        cases new
        exact ⟨⟨_, rfl⟩, fit⟩

theorem reaches_serveDrillAbort (s : State) (route : Byte) : s.Reaches (s.serveDrillAbort route).1 := by
  unfold serveDrillAbort
  split
  · exact .refl s
  next r _ =>
    dsimp only
    split
    next d drill =>
      split
      · dsimp only
        split
        · exact s.reaches_drillEvent _ none
        next n waiting =>
          refine s.reaches_setDrill (fun e set => ?_) nofun
          cases drill.symm.trans set
          exact ⟨n, waiting⟩
      · exact .refl s
    · exact .refl s

end

/-! ### The orders of PSEL (R46, R52 to R55) -/

/-- The ranks of the routes of circuit `c` for a record `k` (R45). -/
def ranksFor (s : State) (c : Fin 24) (k : Circuit) (side : Side) : Nat :=
  comparedRank k.degSwitch (s.health (routeOf c side))

theorem ranksFor_le_two (s : State) (c : Fin 24) (k : Circuit) (side : Side) : s.ranksFor c k side ≤ 2 :=
  comparedRank_le_two _ _

/-- Circuit `c` has taken the record `k`; ports and running sets have followed it, and the takes under way, the bookings and
the other parts stand. -/
structure CircuitTakes (s t : State) (c : Fin 24) (k : Circuit) : Prop where
  circuits : t.circuits = upd s.circuits c k
  kept : t.tb = s.tb ∧ t.rmon = s.rmon ∧ t.dir = s.dir ∧ t.stl = s.stl ∧ t.lnk = s.lnk ∧ t.pending = s.pending
  notices : s.ntc.Law → t.ntc.Law
  flight : s.FlightKept t
  bookings : s.BookingsKept t

variable {l : Circuit} {why : CircuitReason}

theorem CircuitTakes.refl (s : State) (c : Fin 24) : s.CircuitTakes s c (s.circuit c) :=
  ⟨(upd_self _ _).symm, ⟨rfl, rfl, rfl, rfl, rfl, rfl⟩, id, .refl s, .refl s⟩

theorem CircuitTakes.of_setCircuit (s : State) (c : Fin 24) (k : Circuit) : s.CircuitTakes (s.setCircuit c k) c k :=
  ⟨rfl, ⟨rfl, rfl, rfl, rfl, rfl, rfl⟩, id, .refl s, .refl s⟩

theorem SelectorMoved.takes (h : s.SelectorMoved t c k) : s.CircuitTakes t c k := by
  obtain ⟨tb, rmon, dir, stl, -, lnk, -, pending⟩ := h.kept
  exact ⟨h.circuit, ⟨tb, rmon, dir, stl, lnk, pending⟩, fun law => h.object ▸ NTC.raise_law law _, h.flight, h.bookings⟩

theorem CircuitHears.takes (h : s.CircuitHears t c k) : s.CircuitTakes t c k := by
  obtain ⟨rfl, rfl⟩ | ⟨moved, -⟩ := h
  · exact .refl t c
  · exact moved.takes

theorem CircuitTakes.circuit (h : s.CircuitTakes t c k) : t.circuit c = k := by
  rw [State.circuit, h.circuits, upd_get]

theorem CircuitTakes.trans (h : s.CircuitTakes t c k) (next : t.CircuitTakes u c l) : s.CircuitTakes u c l := by
  obtain ⟨tb, rmon, dir, stl, lnk, pending⟩ := h.kept
  obtain ⟨tb', rmon', dir', stl', lnk', pending'⟩ := next.kept
  refine ⟨by rw [next.circuits, h.circuits, upd_upd], ⟨tb'.trans tb, rmon'.trans rmon, dir'.trans dir, stl'.trans stl,
    lnk'.trans lnk, pending'.trans pending⟩, next.notices ∘ h.notices, h.flight.trans next.flight,
    h.bookings.trans next.bookings⟩

theorem CircuitTakes.rankOf (h : s.CircuitTakes t c k) : t.rankOf c = s.ranksFor c k := by
  obtain ⟨-, rmon, -⟩ := h.kept
  funext side
  rw [State.rankOf, h.circuit, health_of_rmon rmon]
  rfl

/-- The circuit is evaluated once it has taken its record. -/
theorem CircuitTakes.evaluate (h : s.CircuitTakes t c k) (why : CircuitReason) :
    s.CircuitTakes (t.evaluate c why) c
      (k.evaluated (s.ranksFor c k) (s.health (routeOf c .b)).usable why s.tb.elapsed s.tb.frame) := by
  obtain ⟨tb, rmon, -⟩ := h.kept
  have evaluated := (evaluated_hears (evaluate_evaluated t c why)).takes
  rw [h.circuit, h.rankOf, health_of_rmon rmon, tb] at evaluated
  exact h.trans evaluated

/-- The circuit changes its selector state once it has taken its record. -/
theorem CircuitTakes.changeSelector (h : s.CircuitTakes t c k) (same : l.selector = k.selector) (st : SelState)
    (why : CircuitReason) : s.CircuitTakes ((t.setCircuit c l).changeSelector c st why) c
      (l.taking (t.selectedSide c) st why s.tb.frame) := by
  have moved := (changeSelector_moved (s := t) (c := c) (k := l) (same.trans (congrArg _ h.circuit).symm) st why).takes
  rw [h.kept.1] at moved
  exact h.trans moved

theorem CircuitTakes.reaches (h : s.CircuitTakes t c k)
    (law : (s.circuit c).Law (s.rankOf c) → k.Law (s.ranksFor c k)) : s.Reaches t := by
  have rank := h.rankOf
  have record := h.circuit
  obtain ⟨tb, rmon, dir, stl, lnk, pending⟩ := h.kept
  refine ⟨pending, by rw [lnk], by rw [tb], by rw [tb], h.notices, by rw [tb]; exact id, by rw [lnk]; exact id,
    h.flight.takeLaw, fun old => ?_, fun old d => ?_, .single (.kept (h.bookings.recordsKept dir stl))⟩
  · refine ⟨fun r => ?_, fun d e drill => ?_⟩
    · rw [health_of_rmon rmon, old.1 r]
      exact (healthNow_congr (by rw [drill, rmon]; rfl) (by rw [route, rmon]; rfl) (by rw [route, rmon]; rfl)).symm
    · rw [health_of_rmon rmon]
      exact old.2 d e (by rw [State.drill, ← rmon]; exact drill)
  · by_cases same : d = c
    · subst same
      show (t.circuit d).Law (t.rankOf d)
      rw [rank, record]
      exact law (old d)
    · have other : t.circuit d = s.circuit d := by
        rw [State.circuit, h.circuits, upd_get_ne _ _ (Ne.symm same)]
        rfl
      have rank : t.rankOf d = s.rankOf d := by
        funext side
        rw [State.rankOf, State.rankOf, other, health_of_rmon rmon]
      show (t.circuit d).Law (t.rankOf d)
      rw [rank, other]
      exact old d

/-- An evaluation comes last: the timers alone have to keep their law before it. -/
theorem CircuitTakes.reaches_evaluate (h : s.CircuitTakes t c k) (why : CircuitReason)
    (timers : (s.circuit c).Law (s.rankOf c) → k.TimersLaw) : s.Reaches (t.evaluate c why) := by
  refine (h.evaluate why).reaches fun law => ?_
  rw [show s.ranksFor c (k.evaluated (s.ranksFor c k) (s.health (routeOf c .b)).usable why s.tb.elapsed s.tb.frame) =
    s.ranksFor c k from funext fun _ => by rw [ranksFor, Circuit.evaluated_degSwitch]; rfl]
  exact Circuit.evaluated_law (timers law) (s.ranksFor_le_two c k)

theorem reaches_guardExpiry (s : State) (c : Fin 24) : s.Reaches (s.guardExpiry c) :=
  .ite (fun _ => (CircuitTakes.of_setCircuit s c { s.circuit c with guard := none }).reaches_evaluate .auto
    fun law => ⟨fun h => absurd rfl h, law.timers.2⟩) fun _ => .refl s

theorem reaches_wtrExpiry (s : State) (c : Fin 24) : s.Reaches (s.wtrExpiry c) := by
  refine .ite (fun due => ?_) fun _ => .refl s
  refine ((CircuitTakes.refl s c).changeSelector (l := { s.circuit c with
    guard := startTimer s.tb.elapsed (s.circuit c).guardTime, wtr := none }) rfl .selA .wtrExpiry).reaches fun law => ?_
  have runs : (s.circuit c).wtr ≠ none := fun none => by rw [none] at due; cases due
  have restored : s.rankOf c .a = 2 := law.2.2.2 (law.timers.2.mp runs)
  refine Circuit.law_of_selector (st := .selA) rfl nofun ⟨fun _ => ⟨.selA, rfl, rfl⟩, fun h => absurd rfl h, nofun⟩
    fun _ _ => ?_
  exact (s.ranksFor_le_two c _ .b).trans restored.ge

/-- The timers of a circuit are stopped, and it takes a selector state by an order (R52 to R55). -/
theorem ordered_takes (s : State) (c : Fin 24) (st : SelState) (why : CircuitReason) : ∃ old,
    s.CircuitTakes ((s.stopTimers c).changeSelector c st why) c
      (({ s.circuit c with guard := none, wtr := none } : Circuit).taking old st why s.tb.frame) :=
  ⟨_, (CircuitTakes.refl s c).changeSelector (l := { s.circuit c with guard := none, wtr := none }) rfl st why⟩

/-- An order that holds the selection keeps the law of the selector (R52, R54). -/
theorem reaches_held (s : State) (c : Fin 24) {st : SelState} (held : st.automatic = false) (why : CircuitReason) :
    s.Reaches ((s.stopTimers c).changeSelector c st why) := by
  obtain ⟨old, takes⟩ := s.ordered_takes c st why
  refine takes.reaches fun _ => Circuit.law_of_selector (st := st) rfl (by rintro rfl; cases held)
    ⟨fun h => absurd rfl h, fun h => absurd rfl h, fun wtr => ?_⟩ (by rw [held]; nofun)
  cases Option.some.inj wtr
  cases held

theorem reaches_serveForce (s : State) (circuit target : Byte) : s.Reaches (s.serveForce circuit target).1 := by
  unfold serveForce
  split
  next c side _ _ =>
    split
    · exact .refl s
    · exact .refl s
    · split
      · exact .refl s
      · exact .ite (fun _ => .refl s) fun _ => s.reaches_held c (by cases side <;> rfl) .force
  · exact .refl s

theorem reaches_serveLockout (s : State) (circuit : Byte) : s.Reaches (s.serveLockout circuit).1 := by
  unfold serveLockout
  split
  · exact .refl s
  next c _ =>
    split
    · exact .refl s
    · exact .ite (fun _ => .refl s) fun _ => s.reaches_held c rfl .lockout

theorem reaches_serveClear (s : State) (circuit : Byte) : s.Reaches (s.serveClear circuit).1 := by
  unfold serveClear
  split
  · exact .refl s
  next c _ =>
    split
    · exact .refl s
    next st _ =>
      split
      · exact .refl s
      · obtain ⟨old, takes⟩ := s.ordered_takes c (autoState st.side) .clear
        refine takes.reaches_evaluate .clear fun _ => ⟨fun h => absurd rfl h, fun h => absurd rfl h, fun wtr => ?_⟩
        have ne : autoState st.side ≠ .wtr := by cases st.side <;> nofun
        exact absurd (Option.some.inj wtr) ne

/-! ### SET_CIRCUIT (R41 to R44) -/

section
variable {x : Circuit}

theorem reaches_toSplit (s : State) (c : Fin 24) (x : Circuit) : s.Reaches ((s.setCircuit c x).toSplit c) :=
  ((CircuitTakes.of_setCircuit s c x).trans (.of_setCircuit _ c _)).reaches fun _ =>
    ⟨nofun, fun h => absurd rfl h, ⟨fun h => absurd rfl h, nofun⟩, nofun⟩

theorem reaches_toPair (s : State) (c : Fin 24) (x : Circuit) : s.Reaches ((s.setCircuit c x).toPair c) :=
  ((CircuitTakes.of_setCircuit s c x).trans (.of_setCircuit _ c _)).reaches_evaluate .auto fun _ =>
    ⟨fun h => absurd rfl h, fun h => absurd rfl h, nofun⟩

/-- New options of a circuit that stays in PAIR (R44): it leaves WTR where it is no longer revertive, and is evaluated
where the options that an evaluation reads changed. -/
theorem reaches_applyOptions (s : State) (c : Fin 24) (selector : x.selector = (s.circuit c).selector)
    (guard : x.guard = (s.circuit c).guard) (wtr : x.wtr = (s.circuit c).wtr) :
    s.Reaches ((s.setCircuit c x).applyOptions c (s.circuit c)) := by
  have stored := CircuitTakes.of_setCircuit s c x
  have kept {rank : Side → Nat} (law : (s.circuit c).Law rank) : x.Law rank := law.congr selector guard wtr
  obtain ⟨u, y, left, takes, timers, stands⟩ : ∃ u y, (if (s.circuit c).revertive ∧ !((s.setCircuit c x).circuit c).revertive ∧
      ((s.setCircuit c x).circuit c).selector = some .wtr then
        ((s.setCircuit c x).setCircuit c { (s.setCircuit c x).circuit c with wtr := none }).changeSelector c .selB .auto
      else s.setCircuit c x) = u ∧ s.CircuitTakes u c y ∧ (x.TimersLaw → y.TimersLaw) ∧
      ((s.circuit c).revertive = x.revertive ∨ x.selector ≠ some .wtr → y = x) := by
    split
    next leaves =>
      rw [setCircuit_circuit] at leaves
      refine ⟨_, _, rfl, stored.changeSelector (l := { (s.setCircuit c x).circuit c with wtr := none })
        (by rw [setCircuit_circuit]) .selB .auto, fun _ => ⟨fun _ => ⟨.selB, rfl, rfl⟩, fun h => absurd rfl h, nofun⟩, ?_⟩
      rintro (same | other)
      · rw [same] at leaves
        exact absurd leaves.1 (by simpa using leaves.2.1)
      · exact absurd leaves.2.2 other
    next => exact ⟨_, x, rfl, stored, id, fun _ => rfl⟩
  have record : (s.setCircuit c x).circuit c = x := setCircuit_circuit s c x
  unfold applyOptions
  dsimp only
  rw [left, record]
  split
  next => exact takes.reaches_evaluate .auto fun law => timers (kept law).timers
  next same =>
    refine takes.reaches fun law => ?_
    by_cases automatic : x.selector.any (·.automatic) = true
    · have options : (s.circuit c).revertive = x.revertive ∧ (s.circuit c).degSwitch = x.degSwitch := by
        simpa [automatic] using same
      rw [stands (.inl options.1), show s.ranksFor c x = s.rankOf c from funext fun _ => by rw [ranksFor, ← options.2]; rfl]
      exact kept law
    · have held {st : SelState} (here : x.selector = some st) : st.automatic = false := by simpa [here] using automatic
      rw [stands (.inr fun here => nomatch held here)]
      have timers := (kept law).timers
      refine ⟨fun st here auto => ?_, timers.1, timers.2, fun here => nomatch held here⟩
      cases (held here).symm.trans auto

/-- An accepted SET_CIRCUIT, by the two modes. -/
theorem reaches_circuitSet (s : State) (c : Fin 24) (m : Mode) (selector : x.selector = (s.circuit c).selector)
    (guard : x.guard = (s.circuit c).guard) (wtr : x.wtr = (s.circuit c).wtr) : s.Reaches (s.circuitSet c x m) := by
  unfold circuitSet
  cases mode : (s.circuit c).mode <;> cases m
  · exact s.reaches_applyOptions c selector guard wtr
  · exact s.reaches_toSplit c x
  · exact s.reaches_toPair c x
  · have split : (s.circuit c).selector = none := by
      cases none : (s.circuit c).selector with
      | none => rfl
      | some st => simp [Circuit.mode, none] at mode
    refine (CircuitTakes.of_setCircuit s c x).reaches fun law => ?_
    have timers := (law.congr selector guard wtr).timers
    exact ⟨by rw [selector, split]; nofun, timers.1, timers.2, by rw [selector, split]; nofun⟩

theorem reaches_serveSetCircuit (s : State) (circuit mode revertive degSwitch : Byte) (guardTime wtrSecs : Half) :
    s.Reaches (s.serveSetCircuit circuit mode revertive degSwitch guardTime wtrSecs).1 := by
  unfold serveSetCircuit
  split
  next c m rev deg _ _ _ _ =>
    dsimp only
    split
    · exact .refl s
    · split
      · exact .refl s
      · exact s.reaches_circuitSet c m (x := { s.circuit c with
          revertive := rev, degSwitch := deg, guardTime := clamp 0 10000 guardTime.toNat,
          wtrSecs := clamp 0 3600 wtrSecs.toNat }) rfl rfl rfl
  · exact .refl s

end

end State
end Sys2Proof.Machine
end

