-- ==== Sys2Proof/Proofs/BookingReaches.lean ====
section
/-! PROOFS. What BKU, STL and MTR lead to: each event of the life cycle, each request about a booking, and the settlement of a
record keeps the laws (R78, R79, R81, R95, R101 to R118, R163 to R166). -/

namespace Sys2Proof.Machine
namespace State

variable {s t u : State} {i : Fin 192} {p : Place}

/-- An event of the booking table that leaves TB, RMON, PSEL, XPC and LNK. -/
theorem reaches_of_event (tb : t.tb = s.tb) (rmon : t.rmon = s.rmon) (circuits : t.circuits = s.circuits)
    (xpc : t.xpc = s.xpc) (lnk : t.lnk = s.lnk) (pending : t.pending = s.pending) (notices : s.ntc.Law → t.ntc.Law)
    (event : s.BookEvent t) : s.Reaches t := by
  refine ⟨pending, by rw [lnk], by rw [tb], by rw [tb], notices, by rw [tb]; exact id, by rw [lnk]; exact id,
    FlightKept.takeLaw ⟨by rw [xpc], fun q => by rw [xport, xpc]; exact ⟨rfl, rfl⟩⟩, fun law => ⟨fun r => ?_, fun c d drill => ?_⟩,
    fun law c => ?_, .single event⟩
  · rw [health_of_rmon rmon, law.1 r]
    exact (healthNow_congr (by rw [State.drill, rmon]; rfl) (by rw [route, rmon]; rfl) (by rw [route, rmon]; rfl)).symm
  · rw [health_of_rmon rmon]
    exact law.2 c d (by rw [State.drill, ← rmon]; exact drill)
  · have circuit : t.circuit c = s.circuit c := by rw [State.circuit, circuits]; rfl
    have rank : t.rankOf c = s.rankOf c := by
      funext side
      rw [State.rankOf, State.rankOf, circuit, health_of_rmon rmon]
    show (t.circuit c).Law (t.rankOf c)
    rw [rank, circuit]
    exact law c

/-! ### A record changes -/

/-- A record changes in what the laws do not read. -/
theorem reaches_onBooking (s : State) (i : Fin 192) {f : Booking → Booking}
    (alike : ∀ p, s.place i = some p → p.Alike { p with booking := f p.booking }) : s.Reaches (s.onBooking i f) :=
  s.reaches_onPlace i alike

theorem reaches_onMeter (s : State) (i : Fin 192) (f : MeterSet → MeterSet) : s.Reaches (s.onMeter i f) :=
  s.reaches_onPlace i fun _ _ => ⟨⟨rfl, rfl, rfl, rfl, rfl, .rfl, rfl⟩, ⟨rfl, rfl, rfl, rfl⟩⟩

/-- The record in place `i`, where there is one, is not in CLOSING. -/
def OpenAt (s : State) (i : Fin 192) : Prop := ∀ p, s.place i = some p → p.booking.state ≠ .closing

theorem OpenAt.of_place {st : BookingState} (here : s.place i = some p) (state : p.booking.state = st) (ne : st ≠ .closing) :
    s.OpenAt i := fun q there => by
  cases here.symm.trans there
  rwa [state]

theorem OpenAt.of_stateAt {st : BookingState} (here : s.stateAt i = some st) (ne : st ≠ .closing) : s.OpenAt i := by
  intro p place
  rw [stateAt, place] at here
  have state : p.booking.state = st := Option.some.inj here
  exact state ▸ ne

theorem OpenAt.onBooking {f : Booking → Booking} (h : s.OpenAt i) (state : ∀ b, (f b).state = b.state) :
    (s.onBooking i f).OpenAt i := by
  intro q there
  rw [onBooking_place, if_pos rfl, Option.map_eq_some_iff] at there
  obtain ⟨p, here, rfl⟩ := there
  rw [state]
  exact h p here

theorem reaches_enterState (s : State) {st : BookingState} (why : Reason) (here : s.OpenAt i) (ne : st ≠ .closing) :
    s.Reaches (s.enterState i st why) :=
  (s.reaches_onBooking i fun p place => ⟨⟨rfl, rfl, rfl, rfl, rfl, ⟨fun h => absurd h ne, fun h => absurd h (here p place)⟩, rfl⟩,
    ⟨rfl, rfl, rfl, rfl⟩⟩).trans (reaches_raise _ _)

/-- A record notes something that the laws do not read, and enters a state. -/
theorem reaches_noted (s : State) {f : Booking → Booking} {st : BookingState} (why : Reason) (here : s.OpenAt i)
    (ne : st ≠ .closing) (state : ∀ b, (f b).state = b.state) (alike : ∀ p : Place, p.Alike { p with booking := f p.booking }) :
    s.Reaches ((s.onBooking i f).enterState i st why) :=
  (s.reaches_onBooking i fun p _ => alike p).trans (reaches_enterState _ why (here.onBooking state) ne)

theorem Reaches.onMeter (h : s.Reaches u) (i : Fin 192) (f : MeterSet → MeterSet) : s.Reaches (u.onMeter i f) :=
  h.trans (u.reaches_onMeter i f)

theorem Reaches.raise (h : s.Reaches u) (o : Fin 267) : s.Reaches (u.raise o) := h.trans (u.reaches_raise o)

/-- Pending entries of ports are made (R125). -/
theorem Reaches.slots (h : s.Reaches u) (f : SlotRef → XPort → XPort) (l : List (Fin 32 × SlotRef))
    (same : ∀ ref x, (f ref x).committed = x.committed ∧ (f ref x).holder = x.holder) :
    s.Reaches (l.foldl (fun acc x => acc.onXPort x.1 (f x.2)) u) :=
  h.trans (.foldl (fun v x => v.reaches_onXPort x.1 (same x.2)) l u)

/-! ### Before LIVE (R101 to R107) -/

theorem reaches_enterStarting (s : State) (why : Reason) (here : s.OpenAt i) : s.Reaches (s.enterStarting i why) := by
  unfold enterStarting
  split
  · exact .refl s
  · refine Reaches.slots ?_ (fun ref x => x.startConnect ref) _ fun _ _ => ⟨rfl, rfl⟩
    exact s.reaches_noted why here nofun (fun _ => rfl) fun _ => ⟨⟨rfl, rfl, rfl, rfl, rfl, .rfl, rfl⟩, ⟨rfl, rfl, rfl, rfl⟩⟩

theorem reaches_trigger (s : State) (cause : Reason) (here : s.OpenAt i) : s.Reaches (s.trigger i cause) := by
  unfold trigger
  split
  · exact .refl s
  · split
    · exact s.reaches_enterStarting cause here
    · exact s.reaches_enterState _ here nofun

theorem reaches_waitingTest (s : State) (i : Fin 192) : s.Reaches (s.waitingTest i) := by
  unfold waitingTest
  split
  · exact .refl s
  next p place =>
    split
    next waiting =>
      have here : s.OpenAt i := .of_place place waiting nofun
      split
      · exact s.reaches_enterStarting _ here
      · exact .ite (fun _ => .refl s) fun _ => s.reaches_enterState _ here nofun
    · exact .refl s

theorem reaches_waitingTests (s : State) : s.Reaches s.waitingTests := .foldl reaches_waitingTest _ s

/-- An entry of a record leaves the time list. -/
theorem reaches_dropEntry (s : State) (i : Fin 192) (kind : EntryKind) :
    s.Reaches { s with bku := s.bku.dropEntry i kind } := s.reaches_entries List.filter_sublist

theorem reaches_cueOffer (s : State) (line : Fin 4) (dir : Edge) : s.Reaches (s.cueOffer line dir) := by
  refine .foldl (fun v i => ?_) _ s
  split
  · exact .refl v
  next p place =>
    split
    next armed =>
      exact (v.reaches_dropEntry i .start).trans
        (reaches_trigger _ _ (.of_place (s := { v with bku := v.bku.dropEntry i .start }) place armed.1 nofun))
    · exact .refl v

theorem reaches_takeArm (s : State) (i : Fin 192) : s.Reaches (s.takeArm i) :=
  .ite (fun scheduled => s.reaches_enterState _ (.of_stateAt scheduled nofun) nofun) fun _ => .refl s

theorem reaches_takeStart (s : State) (i : Fin 192) : s.Reaches (s.takeStart i) := by
  unfold takeStart
  split
  · exact .refl s
  next p place =>
    refine .ite (fun due => s.reaches_trigger _ ?_) fun _ => .refl s
    obtain ⟨-, scheduled⟩ | ⟨-, armed⟩ := due
    · exact .of_place place scheduled nofun
    · exact .of_place place armed nofun

/-! ### LIVE, RUN_ON and ENDING (R108, R110, R111, R116) -/

theorem reaches_enterLive (s : State) (here : s.OpenAt i) : s.Reaches (s.enterLive i) := by
  unfold enterLive
  split
  · exact .refl s
  · refine Reaches.onMeter ?_ i _
    exact s.reaches_noted _ here nofun (fun _ => rfl) fun _ => ⟨⟨rfl, rfl, rfl, rfl, rfl, .rfl, rfl⟩, ⟨rfl, rfl, rfl, rfl⟩⟩

theorem reaches_enterEnding (s : State) (why : Reason) (here : s.OpenAt i) : s.Reaches (s.enterEnding i why) := by
  unfold enterEnding
  split
  · exact .refl s
  · refine Reaches.slots (Reaches.onMeter ?_ i _) (fun ref x => x.disconnect ref) _ fun _ _ => ⟨rfl, rfl⟩
    exact s.reaches_noted why here nofun (fun _ => rfl) fun _ => ⟨⟨rfl, rfl, rfl, rfl, rfl, .rfl, rfl⟩, ⟨rfl, rfl, rfl, rfl⟩⟩

/-- The span of a record gets a later end that keeps its timelines clear (R93, R111). -/
theorem reaches_moved (s : State) {q : Place} {n : Nat} (here : s.place i = some p)
    (alike : Place.Alike { p with booking := { p.booking with e := n } } q) {l : List TimeEntry} {x : NTC}
    (entries : l = (s.bku.moveEnd i n).timeList) (notices : s.ntc.Law → x.Law)
    (fits : s.TimelineLaw → p.booking.s0 + 60 ≤ n ∧ ∀ port j r, port ∈ p.booking.ports → j ∈ s.timeline port → j ≠ i →
      s.place j = some r → p.booking.clearOf s.dir.margin r.booking →
      Booking.clearOf s.dir.margin { p.booking with e := n } r.booking) :
    s.Reaches { s with bku := { (s.setPlace i (some q)).bku with timeList := l }, ntc := x } :=
  reaches_of_event rfl rfl rfl rfl rfl rfl notices (.moved i p q n ⟨here, setPlace_place s i (some q),
    alike, fun _ ne => setPlace_place_ne s _ (Ne.symm ne), fun _ => rfl, entries, rfl, rfl, fits⟩)

/-- The next start bounds a run-on extension (R111). -/
theorem extension_clear {x : Nat} (length : x = s.extensionLength i p.booking) (long : 60 ≤ x) {port : Fin 32}
    {j : Fin 192} {r : Place} (on : port ∈ p.booking.ports) (listed : j ∈ s.timeline port) (ne : j ≠ i)
    (there : s.place j = some r) (after : p.booking.e ≤ r.booking.s0) : p.booking.e + x + s.dir.margin ≤ r.booking.s0 := by
  have mem : r.booking.s0 ∈ (p.booking.ports.flatMap s.timeline).filterMap fun j =>
      if j = i then none
      else (s.place j).bind fun r => if p.booking.e ≤ r.booking.s0 then some r.booking.s0 else none := by
    refine List.mem_filterMap.mpr ⟨j, List.mem_flatMap.mpr ⟨port, on, listed⟩, ?_⟩
    rw [if_neg ne, there, Option.bind_some, if_pos after]
  have starts := s.nextStart_eq i p.booking
  rw [extensionLength_eq] at length
  cases next : s.nextStart i p.booking with
  | none =>
    rw [next] at starts
    rw [List.min?_eq_none_iff.mp starts.symm] at mem
    cases mem
  | some n =>
    rw [next] at starts length
    have first : n ≤ r.booking.s0 := (List.min?_eq_some_iff.mp starts.symm).2 _ mem
    dsimp only at length
    omega

/-- A run-on extension of at least 60 s is granted (R111). -/
theorem reaches_grantRunOn (s : State) {x : Nat} (here : s.place i = some p) (open_ : p.booking.state ≠ .closing)
    (length : x = s.extensionLength i p.booking) (long : 60 ≤ x) : s.Reaches (s.grantRunOn i p.booking x) := by
  have entries : (s.grantRunOn i p.booking x).bku.timeList = (s.bku.moveEnd i (p.booking.e + x)).timeList := by
    have same (v : State) (f : MeterSet → MeterSet) : (v.onMeter i f).bku.timeList = v.bku.timeList := by
      rw [onMeter, onPlace_only]
    have noted : ((s.onBooking i fun b => { b with
        e := b.e + x, extension := b.extension + x, used := b.used + 1
        shortened := decide (x < b.quantum) }).enterState i .runOn .extended).bku.timeList = s.bku.timeList := by
      rw [onBooking_of_some here, enterState_of_some (setPlace_place ..)]
      rfl
    unfold grantRunOn
    dsimp only
    split
    · rw [same]
      simp only [BKU.moveEnd, BKU.dropEntry, noted]
    · simp only [BKU.moveEnd, BKU.dropEntry, noted]
  have extended := grantRunOn_extended here x
  generalize s.grantRunOn i p.booking x = t at entries extended
  obtain ⟨place, -, outside⟩ := extended
  rw [outside, place]
  refine s.reaches_moved here (n := p.booking.e + x) ?_ entries (fun law => NTC.raise_law law _) fun law => ?_
  · exact ⟨⟨rfl, rfl, rfl, rfl, rfl, ⟨nofun, fun h => absurd h open_⟩, rfl⟩, ⟨rfl, rfl, rfl, rfl⟩⟩
  refine ⟨Nat.le_add_right_of_le (law.1 i p here).1, fun port j r on listed ne there clear => ?_⟩
  unfold Booking.clearOf at clear ⊢
  dsimp only
  refine clear.imp (fun before => ?_) id
  exact extension_clear length long on listed ne there (by omega)

theorem reaches_attemptRunOn (s : State) (here : s.place i = some p) (open_ : p.booking.state ≠ .closing) :
    s.Reaches (s.attemptRunOn i p.booking) := by
  unfold attemptRunOn
  dsimp only
  split
  next granted => exact s.reaches_grantRunOn here open_ rfl granted.2
  next =>
    refine s.reaches_enterEnding _ fun q there => ?_
    cases here.symm.trans there
    exact open_

/-! ### Settlement (R95, R163 to R166) -/

/-- A record leaves service. -/
theorem Departs.reaches {p0 : Place} {x : Settlement} (h : s.Departs t i p0 p x) : s.Reaches t := by
  obtain ⟨tb, rmon, circuits, xpc, -, lnk, -, pending⟩ := h.left.kept
  refine reaches_of_event tb rmon circuits xpc lnk pending (fun law => ?_) (.departs i p0 p x h)
  by_cases room : s.stl.queue.length < 64
  · obtain ⟨-, -, -, ntc, -⟩ := h.left.appended room
    exact ntc ▸ NTC.withdraw_law law _
  · obtain ⟨-, -, -, ntc⟩ := h.left.waits (Nat.le_of_not_lt room)
    exact ntc ▸ NTC.raise_law law _

theorem reaches_announce (s before : State) : s.Reaches (s.announce before) :=
  .ite (fun _ => s.reaches_raise _) fun _ => .refl s

/-- A record that has left service is settled, its place having become `q`. -/
theorem SettledAs.reaches {q : Place} {x : Settlement} (h : s.SettledAs t i q x) (here : s.place i = some p) (alike : p.Alike q)
    (open_ : q.booking.state ≠ .closing) (id : x.id = q.booking.id) : s.Reaches t := by
  obtain ⟨u, left, rfl⟩ := h
  have left : s.Reaches u := Departs.reaches ⟨here, alike, open_, id, left⟩
  split
  · exact left.raise _
  · exact left

theorem reaches_noShow (s : State) (here : s.place i = some p) (open_ : p.booking.state ≠ .closing) :
    s.Reaches (s.noShow i) := by
  have settled := s.settleNow_settled i { p with booking := { p.booking with
    reason := some .noShow, endSecond := some s.tb.seconds } }
  rw [← onBooking_of_some here fun b => { b with reason := some .noShow, endSecond := some s.tb.seconds }] at settled
  exact settled.reaches here ⟨⟨rfl, rfl, rfl, rfl, rfl, .rfl, rfl⟩, ⟨rfl, rfl, rfl, rfl⟩⟩ open_ rfl

theorem reaches_disconnected (s : State) (ending : s.stateAt i = some .ending) : s.Reaches (s.disconnected i) := by
  cases here : s.place i with
  | none => simp [stateAt, here] at ending
  | some p =>
    have state : p.booking.state = .ending := Option.some.inj ((stateAt_of_some here).symm.trans ending)
    exact Departs.reaches ⟨here, .refl p, by rw [state]; nofun, rfl, disconnected_left here⟩

theorem reaches_takeEnd (s : State) (i : Fin 192) : s.Reaches (s.takeEnd i) := by
  unfold takeEnd
  split
  · exact .refl s
  next p here =>
    split
    next live => exact s.reaches_attemptRunOn here (by rw [live]; nofun)
    next runOn => exact s.reaches_attemptRunOn here (by rw [runOn]; nofun)
    next starting => exact s.reaches_enterEnding _ (.of_place here starting nofun)
    next armed => exact s.reaches_noShow here (by rw [armed]; nofun)
    next waiting => exact s.reaches_noShow here (by rw [waiting]; nofun)
    all_goals exact .refl s

theorem reaches_takeEntry (s : State) (e : TimeEntry) : s.Reaches (s.takeEntry e) := by
  have left := s.reaches_entries (l := s.bku.timeList.filter (· != e)) List.filter_sublist
  unfold takeEntry
  dsimp only
  split
  · exact left.trans (reaches_takeArm _ _)
  · exact left.trans (reaches_takeStart _ _)
  · exact left.trans (reaches_takeEnd _ _)

theorem reaches_takeNext (s : State) (i : Fin 192) (kind : EntryKind) : s.Reaches (s.takeNext i kind) := by
  unfold takeNext
  split
  · exact .ite (fun _ => s.reaches_takeEntry _) fun _ => .refl s
  · exact .refl s

/-! ### Take completion (R108, R117) -/

theorem reaches_completeRecord (included : List Rider) (s : State) (i : Fin 192) :
    s.Reaches (completeRecord included s i) := by
  unfold completeRecord
  split
  next ending =>
    rw [Bool.and_eq_true, beq_iff_eq] at ending
    exact s.reaches_disconnected ending.2
  next =>
    split
    next starting =>
      rw [Bool.and_eq_true, beq_iff_eq] at starting
      exact s.reaches_enterLive (.of_stateAt starting.2 nofun)
    · exact .refl s

theorem reaches_bkuCompletion (s : State) (included : List Rider) : s.Reaches (s.bkuCompletion included) :=
  (Reaches.foldl (reaches_completeRecord included) _ s).trans (reaches_announce _ _)

/-! ### The requests about a booking -/

/-- The ports that an allocation gives are distinct and clear (R73). -/
theorem GivenInTurn.spec {ring ports : List (Fin 32)} {x y : Nat} (h : s.GivenInTurn ring x y [] ports) : ports.Nodup ∧
    ∀ q ∈ ports, ∀ j ∈ s.timeline q, ∀ r, s.place j = some r →
      r.booking.e + s.dir.margin ≤ x ∨ y + s.dir.margin ≤ r.booking.s0 := by
  have fits {k : Nat} {q : Fin 32} (at_k : ports[k]? = some q) : s.Fits x y (ports.take k) q := by
    obtain ⟨-, -, -, fit, -⟩ := h k q at_k
    rwa [List.nil_append] at fit
  refine ⟨List.pairwise_iff_getElem.mpr fun a b ha hb lt same => ?_, fun q mem => ?_⟩
  · obtain ⟨-, new, -⟩ := fits (List.getElem?_eq_getElem hb)
    exact new (List.mem_take_iff_getElem.mpr ⟨a, by omega, same⟩)
  · obtain ⟨k, hk, rfl⟩ := List.mem_iff_getElem.mp mem
    exact (fits (List.getElem?_eq_getElem hk)).2.2

/-- What the six checks of an accepted BOOK found (R83). -/
theorem admissionChecks_passed {b : Booking} {ports : List (Fin 32)} (h : s.admissionChecks b = .inr (ports, i)) :
    ¬s.idInUse b.id = true ∧ ∃ ring, s.GivenInTurn ring b.s0 b.e0 [] ports := by
  unfold admissionChecks at h
  split at h
  next => cases h
  next new =>
    refine ⟨new, ?_⟩
    split at h
    · cases h
    split at h
    · cases h
    split at h
    · cases h
    cases allocated : s.allocatePorts b with
    | inl slot => rw [allocated] at h; cases h
    | inr given =>
      rw [allocated] at h
      dsimp only at h
      split at h
      · cases h
      cases h
      unfold allocatePorts at allocated
      split at allocated
      · cases allocated
      next entry _ =>
        have spec := s.allocate_spec (ringFrom entry.members (startMember b.id entry.mask entry.members.length)) b.s0 b.e0
          b.feeds.length []
        rw [allocated] at spec
        obtain ⟨more, eq, -, turns⟩ := spec
        rw [List.nil_append] at eq
        exact ⟨_, eq ▸ turns⟩

theorem reaches_serveBook (s : State) (f : BookFields) : s.Reaches (s.serveBook f).1 := by
  obtain ⟨refused, -⟩ | ⟨b, described, taken, stores⟩ := bookingOf_cases f s.tb.seconds
  · rw [serveBook, refused]
    exact .refl s
  obtain ⟨-, -, -, -, -, -, -, -, future, span, -, -, -, -, -, limit⟩ := taken
  obtain ⟨-, -, -, -, -, record⟩ := stores
  rw [serveBook, described]
  dsimp only
  cases checks : s.admissionChecks b with
  | inl refusal => exact .refl s
  | inr place =>
    obtain ⟨ports, i⟩ := place
    have admitted := s.admitRecord_admitted i b ports
    have free := place_of_admissionChecks checks
    obtain ⟨new, ring, turns⟩ := admissionChecks_passed checks
    obtain ⟨distinct, clear⟩ := turns.spec
    rw [idInUse_iff, not_or] at new
    obtain ⟨absent, unsettled⟩ := new
    have timelines (q : Fin 32) : (s.admitRecord i { b with ports := ports }).timeline q =
        if q ∈ ports then insertByStart s.startAt i b.s0 (s.timeline q) else s.timeline q := tab_get ..
    obtain ⟨-, margin, stl⟩ := admitted.kept
    have entries : (s.admitRecord i { b with ports := ports }).bku.timeList =
        (entriesOf s.tb.seconds i { b with ports := ports }).foldl (fun l e => insertEntry e l) s.bku.timeList := rfl
    dsimp only
    generalize s.admitRecord i { b with ports := ports } = t at *
    have only := admitted.only
    refine reaches_of_event (by rw [only]) (by rw [only]) (by rw [only]) (by rw [only]) (by rw [only]) (by rw [only])
      (by rw [only]; exact id) (.admits i _ ⟨free, admitted.place, admitted.others, timelines, ⟨s.tb.seconds, ?_, entries⟩,
        fun a => congrArg Account.refs (admitted.accounts a), fun g => congrArg Handoff.refs (admitted.handoffs g),
        fun k => congrArg Tariff.refs (admitted.tariffs k), margin, stl,
        ⟨fun j q there same => absent ⟨j, q, there, same⟩, fun x mem same => unsettled ⟨x, mem, same⟩⟩, ?_, distinct, ?_, ?_,
        rfl, ?_⟩)
    · rw [record]
      exact future
    · rw [record]
      exact span
    · intro q mem j listed r there
      have apart := clear q mem j listed r there
      rw [record] at apart ⊢
      exact apart
    · rw [record]
      nofun
    · rw [record]
      exact limit

theorem reaches_serveAmend (s : State) (id : Half) (newEnd : Word) : s.Reaches (s.serveAmend id newEnd).1 := by
  obtain ⟨none, -⟩ | ⟨i, p, found, here, -⟩ := s.findRecord_cases id
  · rw [serveAmend, none]
    exact .refl s
  rw [serveAmend_of_some s found here]
  split
  · exact .refl s
  next open_ =>
  split
  · exact .refl s
  split
  · exact .refl s
  next length =>
  cases conflict : p.booking.ports.find? fun q => !s.portClear (some i) q p.booking.s0 newEnd.toNat with
  | some q => exact .refl s
  | none =>
    have clear {q : Fin 32} (on : q ∈ p.booking.ports) := List.find?_eq_none.mp conflict q on
    refine s.reaches_moved (n := newEnd.toNat) (x := s.ntc) here (.refl _) rfl (fun law => law) fun law => ?_
    refine ⟨by omega, fun q j r on listed ne there _ => ?_⟩
    have apart := clear on
    rw [not_portClear_eq, List.any_eq_true, not_exists] at apart
    have other := apart j
    simp only [listed, ne, there, true_and, ne_eq, not_false_eq_true, decide_true, Bool.true_and, Option.any_some,
      Bool.not_eq_true', decide_eq_false_iff_not, not_not] at other
    exact other.symm

theorem reaches_serveCancel (s : State) (id : Half) : s.Reaches (s.serveCancel id).1 := by
  obtain ⟨none, -⟩ | ⟨i, p, found, here, -⟩ := s.findRecord_cases id
  · rw [serveCancel, none]
    exact .refl s
  rw [serveCancel_of_some s found here]
  split
  next accepted =>
    have open_ : p.booking.state ≠ .closing := fun closing => by rw [closing] at accepted; cases accepted
    exact (cancelled_settled here).1.reaches here ⟨⟨rfl, rfl, rfl, rfl, rfl, .rfl, rfl⟩, ⟨rfl, rfl, rfl, rfl⟩⟩ open_ rfl
  · exact .refl s

theorem reaches_serveEnd (s : State) (id : Half) : s.Reaches (s.serveEnd id).1 := by
  unfold serveEnd
  split
  · exact .refl s
  next i _ =>
    split
    · exact .refl s
    next st state =>
      split
      · exact .refl s
      next accepted =>
        have ne : st ≠ .closing := fun closing => by rw [closing] at accepted; exact accepted rfl
        have here : State.OpenAt { s with bku := s.bku.dropEntry i .stop } i :=
          .of_stateAt (s := { s with bku := s.bku.dropEntry i .stop }) state ne
        exact (s.reaches_dropEntry i .stop).trans (reaches_enterEnding _ _ here)

theorem reaches_swapSlot (s : State) (i : Fin 192) (b : Booking) (slot : Nat) (feed : Fin 48) :
    s.Reaches (s.swapSlot i b slot feed) := by
  have counted : s.Reaches ((s.onBooking i fun b => { b with feeds := b.feeds.set slot feed }).onMeter i fun m =>
      { m with nt := satAdd max16 m.nt 1 }) :=
    Reaches.onMeter (s.reaches_onBooking i fun _ _ => ⟨⟨rfl, rfl, rfl, rfl, rfl, .rfl, rfl⟩, ⟨rfl, rfl, rfl, rfl⟩⟩) i _
  unfold swapSlot
  dsimp only
  split
  · exact counted
  next q _ =>
    have connected := counted.trans (reaches_onXPort _ q (f := (·.swapConnect ⟨i, slot, b.id⟩)) fun _ => ⟨rfl, rfl⟩)
    exact .ite (fun _ => connected.trans (reaches_recomputeFlags _ _)) fun _ => connected

theorem reaches_serveSwap (s : State) (id : Half) (slot feed : Byte) : s.Reaches (s.serveSwap id slot feed).1 := by
  unfold serveSwap
  split
  · exact .refl s
  · split
    · exact .refl s
    · dsimp only
      split
      · exact .refl s
      · split
        · exact .refl s
        · split_ifs
          · exact .refl s
          · exact .refl s
          · exact .refl s
          · exact .refl s
          · exact s.reaches_swapSlot _ _ _ _

/-- The head of the closing list leaves its timelines when it is served; LNK has no part in that (R96, R166). -/
theorem serveClosing_timelines {y : Settlement} {others : List (Fin 192)} (closing : s.stl.closing = i :: others)
    (here : s.place i = some p) (held : p.held = some y) : s.serveClosing.lnk = s.lnk ∧
      ∀ q, s.serveClosing.timeline q = if q ∈ p.booking.ports then (s.timeline q).filter (· != i) else s.timeline q := by
  set v : State := State.raise { s with stl := STL.append { s.stl with closing := others } y } settlementObject
  have eq : s.serveClosing = v.release i := by
    rw [serveClosing, closing]
    simp only [here, Option.bind_some, held]
    rfl
  have here_v : v.place i = some p := here
  rw [eq, release_of_some here_v]
  exact ⟨rfl, fun q => leaveTimelines_get _ _ _ q⟩

/-- The oldest settlement record is taken, and the head of the closing list is served where it holds a settlement record
(R166, R168). -/
theorem reaches_serveSettleRelease (s : State) (id : Half) : s.Reaches (s.serveSettleRelease id).1 := by
  by_cases oldest : s.oldestId = some id
  · rw [serveSettleRelease_of_oldest s oldest]
    set u : State := { s with stl := { s.stl with queue := s.stl.queue.tail } } with u_eq
    dsimp only
    have kept {c : List (Fin 192)} (closing : s.ClosingLaw → c = s.stl.closing ∧ s.stl.closing = []) :
        s.Reaches { u with stl := { u.stl with closing := c } } :=
      reaches_of_event rfl rfl rfl rfl rfl rfl (fun law => law) (.kept ⟨.of_same .refl fun _ => rfl, fun _ => rfl,
        List.Sublist.refl _, ⟨fun _ => rfl, fun _ => rfl, fun _ => rfl⟩, .inl rfl, List.tail_sublist _,
        fun law => ⟨(closing law).1, .inr (closing law).2⟩, fun bounded => bounded⟩)
    cases closing : s.stl.closing with
    | nil =>
      rw [serveClosing_of_nil (s := u) closing]
      exact kept fun _ => ⟨rfl, closing⟩
    | cons i others =>
      cases held : (s.place i).bind (·.held) with
      | none =>
        have left : u.serveClosing = { u with stl := { u.stl with closing := others } } := by
          rw [serveClosing, show u.stl.closing = i :: others from closing]
          dsimp only
          rw [show (u.place i).bind (·.held) = none from held]
        rw [left]
        refine kept fun law => ?_
        obtain ⟨p, here, state⟩ := stateAt_eq_closing_iff.mp ((law.2.2.2.1 i).mp (closing ▸ List.mem_cons_self ..))
        rw [here] at held
        exact absurd held ((law.2.2.2.2 i p here).mpr state)
      | some y =>
        obtain ⟨p, here, holds⟩ := Option.bind_eq_some_iff.mp held
        have served := serveClosing_served (s := u) closing here holds
        obtain ⟨lnk, timelines⟩ := serveClosing_timelines (s := u) closing here holds
        obtain ⟨tb, rmon, circuits, xpc, -, -, -, pending⟩ := served.kept
        refine reaches_of_event tb rmon circuits xpc lnk pending (fun law => ?_)
          (.serves i p y others ⟨here, holds, closing, served, timelines⟩)
        exact served.ntc ▸ NTC.withdraw_law (NTC.raise_law law _) _
  · rw [serveSettleRelease_of_other s oldest]
    exact .refl s

/-! ### The requests of DIR, XPC, STL, NTC and TCU -/

/-- The directory changes in neither its counts nor its margin. -/
theorem reaches_dir (s : State) {d : DIR} (accounts : ∀ a, (d.accounts.get a).refs = (s.dir.accounts.get a).refs)
    (handoffs : ∀ h, (d.handoffs.get h).refs = (s.dir.handoffs.get h).refs) (margin : d.margin = s.dir.margin) :
    s.Reaches { s with dir := d } :=
  reaches_of_event rfl rfl rfl rfl rfl rfl id (.kept ⟨.of_same .refl fun _ => rfl, fun _ => rfl, List.Sublist.refl _,
    ⟨accounts, handoffs, fun _ => rfl⟩, .inl margin, List.Sublist.refl _, fun _ => ⟨rfl, .inl rfl⟩, id⟩)

/-- Tariffs and totals change, the counts standing. -/
theorem reaches_stl (s : State) {tariffs : Table Tariff 8} {totals : Table Totals 16}
    (refs : ∀ k, (tariffs.get k).refs = (s.stl.tariffs.get k).refs)
    (bounded : s.TotalsBounded → State.TotalsBounded { s with stl := { s.stl with tariffs := tariffs, totals := totals } }) :
    s.Reaches { s with stl := { s.stl with tariffs := tariffs, totals := totals } } :=
  reaches_of_event rfl rfl rfl rfl rfl rfl id (.kept ⟨.of_same .refl fun _ => rfl, fun _ => rfl, List.Sublist.refl _,
    ⟨fun _ => rfl, fun _ => rfl, refs⟩, .inl rfl, List.Sublist.refl _, fun _ => ⟨rfl, .inl rfl⟩, bounded⟩)

/-- An entry of a table is replaced by one with the same count. -/
theorem upd_count {α : Type} {n : Nat} (count : α → Nat) (t : Table α n) {i : Fin n} {a : α}
    (same : count a = count (t.get i)) (j : Fin n) : count ((upd t i a).get j) = count (t.get j) := by
  rw [upd_get_eq]
  split
  next e => exact e ▸ same
  next => rfl

theorem reaches_setEntry (s : State) (h : Fin 16) (e : Option HandoffEntry) (members : List (Fin 32)) :
    s.Reaches { s with dir := (s.dir.setEntry h e).assignPorts h members } :=
  s.reaches_dir (fun _ => rfl) (upd_count Handoff.refs _ rfl) rfl

theorem reaches_setPermitted (s : State) (a : Fin 16) (p : Option Byte) :
    s.Reaches { s with dir := s.dir.setPermitted a p } :=
  s.reaches_dir (upd_count Account.refs _ rfl) (fun _ => rfl) rfl

theorem reaches_onTariff (s : State) (k : Fin 8) {f : Tariff → Tariff} (refs : ∀ x, (f x).refs = x.refs) :
    s.Reaches { s with stl := s.stl.onTariff k f } :=
  s.reaches_stl (totals := s.stl.totals) (upd_count Tariff.refs _ (refs _)) id

theorem reaches_serveSetPort (s : State) (port setting : Byte) : s.Reaches (s.serveSetPort port setting).1 := by
  have stored (p : Fin 32) (f : DirPort → DirPort) : s.Reaches { s with dir := s.dir.onPort p f } :=
    s.reaches_dir (fun _ => rfl) (fun _ => rfl) rfl
  unfold serveSetPort
  split
  · exact stored _ _
  · split
    · exact .refl s
    · split
      · exact .refl s
      · exact (stored _ _).trans (reaches_onXPort _ _ fun _ => ⟨rfl, rfl⟩)
  · exact .refl s
  · exact .refl s

theorem reaches_serveSetHandoff (s : State) (handoff account count port0 port1 port2 port3 maskPresent : Byte) (mask : Half) :
    s.Reaches (s.serveSetHandoff handoff account count port0 port1 port2 port3 maskPresent mask).1 := by
  unfold serveSetHandoff
  split
  · exact .refl s
  · split_ifs
    · exact .refl s
    · exact .refl s
    · exact .refl s
    · exact s.reaches_setEntry _ _ _

theorem reaches_serveSetAccount (s : State) (account permitted : Byte) :
    s.Reaches (s.serveSetAccount account permitted).1 := by
  unfold serveSetAccount
  split
  · exact .refl s
  · split
    · exact .refl s
    · exact s.reaches_setPermitted _ _

theorem reaches_serveDeleteEntry (s : State) (kind index : Byte) : s.Reaches (s.serveDeleteEntry kind index).1 := by
  have account (a : Fin 16) : s.Reaches (s.deleteAccount a).1 := by
    unfold deleteAccount
    split_ifs
    · exact .refl s
    · exact .refl s
    · exact s.reaches_setPermitted _ _
  have handoff (h : Fin 16) : s.Reaches (s.deleteHandoff h).1 := by
    unfold deleteHandoff
    split_ifs
    · exact .refl s
    · exact .refl s
    · exact s.reaches_setEntry _ _ _
  have tariff (k : Fin 8) : s.Reaches (s.deleteTariff k).1 := by
    unfold deleteTariff
    split_ifs
    · exact .refl s
    · exact .refl s
    · exact s.reaches_onTariff _ fun _ => rfl
  unfold serveDeleteEntry
  split
  · exact .refl s
  · split
    · exact account _
    · exact .refl s
  · split
    · exact handoff _
    · exact .refl s
  · split
    · exact tariff _
    · exact .refl s

theorem reaches_serveSetMargin (s : State) (margin : Half) : s.Reaches (s.serveSetMargin margin).1 := by
  unfold serveSetMargin
  split
  · exact .refl s
  · split
    · exact .refl s
    next empty =>
      have free (i : Fin 192) : s.place i = none := by
        rw [not_not, recordCount, List.length_eq_zero_iff, recordsWhere, List.filter_eq_nil_iff] at empty
        have absent := empty i (List.mem_finRange i)
        cases here : s.place i with
        | none => rfl
        | some p => rw [here] at absent; exact absurd rfl absent
      exact reaches_of_event rfl rfl rfl rfl rfl rfl id (.kept ⟨.of_same .refl fun _ => rfl, fun _ => rfl,
        List.Sublist.refl _, ⟨fun _ => rfl, fun _ => rfl, fun _ => rfl⟩, .inr free, List.Sublist.refl _,
        fun _ => ⟨rfl, .inl rfl⟩, id⟩)

theorem reaches_serveSetTariff (s : State) (f : TariffFields) : s.Reaches (s.serveSetTariff f).1 := by
  unfold serveSetTariff
  split
  · exact .refl s
  · split
    · exact .refl s
    · split
      · exact .refl s
      · exact s.reaches_onTariff _ fun _ => rfl

theorem reaches_serveClearAccount (s : State) (account : Byte) : s.Reaches (s.serveClearAccount account).1 := by
  unfold serveClearAccount
  split
  · exact .refl s
  · refine s.reaches_stl (tariffs := s.stl.tariffs) (fun _ => rfl) fun bounded a => ?_
    dsimp only
    rw [upd_get_eq]
    split
    · exact ⟨Nat.zero_le _, Nat.zero_le _, Nat.zero_le _⟩
    · exact bounded a

theorem reaches_servePatch (s : State) (port route : Byte) : s.Reaches (s.servePatch port route).1 := by
  unfold servePatch
  split
  · split
    · exact .refl s
    · split
      · exact .refl s
      · exact s.reaches_onXPort _ (f := (·.setPatch _)) fun _ => ⟨rfl, rfl⟩
  · exact .refl s

theorem reaches_serveUnpatch (s : State) (port : Byte) : s.Reaches (s.serveUnpatch port).1 := by
  unfold serveUnpatch
  split
  · exact .refl s
  · split
    · exact .refl s
    · refine s.reaches_onXPort _ fun x => ?_
      unfold XPort.endPatch
      split <;> exact ⟨rfl, rfl⟩

theorem reaches_serveSetConfirm (s : State) (timeout : Byte) : s.Reaches (s.serveSetConfirm timeout).1 :=
  s.reaches_xpc id

theorem reaches_serveSetNotices (s : State) (health circuit booking reference take settlement : Byte) :
    s.Reaches (s.serveSetNotices health circuit booking reference take settlement).1 := by
  unfold serveSetNotices
  split
  · exact .refl s
  · exact s.reaches_ntc fun law => NTC.setMask_law law _

theorem reaches_serveSetTally (s : State) (line source : Byte) (param : Six) (invert : Byte) :
    s.Reaches (s.serveSetTally line source param invert).1 := by
  unfold serveSetTally
  split
  · split
    · exact .refl s
    · exact s.reaches_tcu _
  · exact .refl s

theorem reaches_serveSetCue (s : State) (line enable invert : Byte) : s.Reaches (s.serveSetCue line enable invert).1 := by
  unfold serveSetCue
  split
  · exact s.reaches_tcu _
  · exact .refl s

end State
end Sys2Proof.Machine
end

