-- ==== Sys2Proof/Proofs/TakeReaches.lean ====
section
/-! PROOFS. What XPC's takes and TB's markers lead to: each keeps the laws (R8 to R13, R127 to R131, R138). -/

namespace Sys2Proof.Machine
namespace State

variable {s t u w : State}

/-! ### Takes (R127 to R131) -/

/-- No port without a holder carries anything (R138), no order being open. -/
def Parked (s : State) : Prop :=
  ∀ p : Fin 32, (s.xport p).holder = .nobody → (s.xport p).committed = .park ∨ (s.xport p).committed = .suspect

theorem FlightKept.parked (h : s.FlightKept t) (parked : s.Parked) : t.Parked := fun p none => by
  obtain ⟨committed, holder⟩ := h.2 p
  rw [committed]
  exact parked p (holder ▸ none)

/-- XPC begins or ends a take, and what XPC's ports lead to comes between: the law of takes is kept over both. -/
theorem Reaches.betweenTakes {x y : XPC} (h : State.Reaches { s with xpc := x } w)
    (take : s.TakeLaw → State.TakeLaw { w with xpc := y }) : s.Reaches { w with xpc := y } :=
  ⟨h.pending, h.strap, h.elapsed, h.lastTick, h.notices, h.time, h.link, take, h.health, h.selector,
    ((books_of_same (s := s) (t := { s with xpc := x }) rfl rfl rfl).trans h.books).trans
      (books_of_same (s := w) (t := { w with xpc := y }) rfl rfl rfl)⟩

/-- The take ends with its last order (R131). -/
theorem Reaches.completeTake {x : XPC} (h : State.Reaches { s with xpc := x } w) (flight : State.FlightKept { s with xpc := x } w)
    (parked : s.TakeLaw → State.Parked { s with xpc := x }) (n : Nat) : s.Reaches (w.completeTake n) := by
  refine (h.betweenTakes fun law => ?_).trans (reaches_bkuCompletion _ _)
  refine ⟨⟨nofun, fun ne => absurd rfl ne⟩, ⟨nofun, fun ne => absurd rfl ne⟩, List.nodup_nil, fun p none => ⟨nofun, ?_⟩⟩
  exact (flight.parked (parked law) p none).imp_right .inl

/-- A take starts: the orders are open, and the confirm timer runs (R127, R128). -/
theorem Reaches.takeFlies {x : XPC} (h : State.Reaches { s with xpc := x } w) (flight : State.FlightKept { s with xpc := x } w)
    {n : Nat} (law : s.TakeLaw → State.TakeLaw { s with xpc := { x with inFlight := true, timer := some n } }) :
    s.Reaches { w with xpc := { w.xpc with inFlight := true, timer := some n } } := by
  refine h.betweenTakes fun old => ?_
  refine FlightKept.takeLaw (s := { s with xpc := { x with inFlight := true, timer := some n } }) ?_ (law old)
  obtain ⟨only, ports⟩ := flight
  exact ⟨by rw [only], ports⟩

/-- The input of a port without a holder (R127). -/
theorem desiredInput_of_nobody {x : XPort} (none : x.holder = .nobody) : s.desiredInput x = .park := by
  unfold desiredInput
  rw [none]

theorem mem_takeOrders {ports : List (Fin 32)} {o : Order} : o ∈ s.takeOrders ports ↔
    o.port ∈ ports ∧ (s.portsIncluded ports).orderFor o.port = some o := by
  have port {p : Fin 32} {o : Order} (h : (s.portsIncluded ports).orderFor p = some o) : o.port = p := by
    unfold orderFor at h
    dsimp only at h
    split at h
    · cases h
    · exact (Option.some.inj h) ▸ rfl
  rw [takeOrders, List.mem_filterMap]
  exact ⟨fun ⟨p, mem, eq⟩ => by cases port eq; exact ⟨mem, eq⟩, fun ⟨mem, eq⟩ => ⟨_, mem, eq⟩⟩

theorem nodup_takeOrders {ports : List (Fin 32)} (nodup : ports.Nodup) (s : State) :
    ((s.takeOrders ports).map (·.port)).Nodup := by
  have named : (s.takeOrders ports).map (·.port) = ports.filter fun p => ((s.portsIncluded ports).orderFor p).isSome := by
    rw [takeOrders, List.map_filterMap, ← List.filterMap_eq_filter]
    refine List.filterMap_congr fun p _ => ?_
    unfold orderFor
    dsimp only [Option.guard]
    split <;> rfl
  exact named ▸ nodup.filter _

/-- Every port of a take has its order, or carries what it should (R127 step 4). -/
theorem takeOrders_law (s : State) {ports : List (Fin 32)} (law : s.TakeLaw) (idle : s.xpc.inFlight = false)
    (p : Fin 32) (none : ((s.portsIncluded ports).xport p).holder = .nobody) :
    (∀ o ∈ s.takeOrders ports, o.port = p → o.input = .park) ∧
      (((s.portsIncluded ports).xport p).committed = .park ∨ ((s.portsIncluded ports).xport p).committed = .suspect ∨
        (⟨p, .park⟩ : Order) ∈ s.takeOrders ports) := by
  have order : (s.portsIncluded ports).orderFor p =
      if ((s.portsIncluded ports).xport p).committed = .park then Option.none else some ⟨p, .park⟩ := by
    unfold orderFor
    rw [desiredInput_of_nobody none]
    rfl
  refine ⟨fun o mem at_p => ?_, ?_⟩
  · obtain ⟨-, eq⟩ := mem_takeOrders.mp mem
    rw [at_p, order] at eq
    split at eq
    · cases eq
    · rw [← Option.some.inj eq]
  · by_cases mem : p ∈ ports
    · by_cases carries : ((s.portsIncluded ports).xport p).committed = .park
      · exact .inl carries
      · exact .inr (.inr (mem_takeOrders.mpr ⟨mem, by rw [order, if_neg carries]⟩))
    · have same : (s.portsIncluded ports).xport p = s.xport p := (tab_get ..).trans (if_neg mem)
      rw [same] at none ⊢
      obtain ⟨flies, -, -, parked⟩ := law
      have closed : s.xpc.orders = [] := by
        by_contra some
        rw [flies.mpr some] at idle
        cases idle
      obtain ⟨-, park | suspect | order⟩ := parked p none
      · exact .inl park
      · exact .inr (.inl suspect)
      · rw [closed] at order
        cases order

theorem reaches_startTake (s : State) {ports : List (Fin 32)} (nodup : ports.Nodup) (idle : s.xpc.inFlight = false) :
    s.Reaches (s.startTake ports) := by
  have flags := reaches_recomputeFlags (s.ordersMade ports) ports
  obtain ⟨flight, -⟩ := flight_bookings_of_flags (s.ordersMade ports) ports
  rw [startTake_eq]
  dsimp only
  generalize (s.ordersMade ports).recomputeFlags ports = w at flags flight
  have made : s.ordersMade ports = { s with xpc := (s.ordersMade ports).xpc } := rfl
  rw [made] at flags flight
  split
  next none =>
    refine flags.completeTake flight (fun law p nobody => ?_) 0
    obtain ⟨-, park | suspect | order⟩ := s.takeOrders_law law idle p nobody
    · exact .inl park
    · exact .inr suspect
    · rw [none] at order
      cases order
  next some =>
    refine flags.takeFlies flight fun law => ?_
    exact ⟨⟨fun _ => some, fun _ => rfl⟩, ⟨fun _ => nofun, fun _ => rfl⟩, nodup_takeOrders nodup s, s.takeOrders_law law idle⟩

theorem reaches_xpcMarker (s : State) : s.Reaches s.xpcMarker := by
  unfold xpcMarker
  split
  · exact .refl s
  next idle =>
    rw [Bool.or_eq_true, not_or] at idle
    exact s.reaches_startTake ((List.nodup_finRange 32).filter _) (Bool.eq_false_iff.mpr idle.1)

/-- A confirm closes its order (R129). -/
theorem confirmedOrder_law {o : Order} (law : s.TakeLaw) (mem : o ∈ s.xpc.orders) (p : Fin 32)
    (none : ((s.confirmedOrder o).xport p).holder = .nobody) :
    (∀ a ∈ s.xpc.orders.filter (· != o), a.port = p → a.input = .park) ∧
      (((s.confirmedOrder o).xport p).committed = .park ∨ ((s.confirmedOrder o).xport p).committed = .suspect ∨
        (⟨p, .park⟩ : Order) ∈ s.xpc.orders.filter (· != o)) := by
  have port : (s.confirmedOrder o).xport p = if o.port = p then { s.xport o.port with committed := o.input.committed }
      else s.xport p := upd_get_eq ..
  obtain ⟨-, -, -, parked⟩ := law
  have old : (s.xport p).holder = .nobody := by
    rw [port] at none
    split at none
    next here => exact here ▸ none
    next => exact none
  obtain ⟨inputs, carries⟩ := parked p old
  refine ⟨fun a a_mem => inputs a (List.mem_filter.mp a_mem).1, ?_⟩
  rw [port]
  by_cases here : o.port = p
  · rw [if_pos here, inputs o mem here]
    exact .inl rfl
  · rw [if_neg here]
    refine carries.imp_right (Or.imp_right fun order => List.mem_filter.mpr ⟨order, bne_iff_ne.mpr fun e => here ?_⟩)
    rw [← e]

theorem reaches_acceptConfirm (s : State) {o : Order} (flying : s.xpc.inFlight = true) (mem : o ∈ s.xpc.orders) :
    s.Reaches (s.acceptConfirm o) := by
  rw [acceptConfirm_eq]
  dsimp only
  have flags := reaches_recomputeFlags (s.confirmedOrder o) [o.port]
  obtain ⟨flight, -⟩ := flight_bookings_of_flags (s.confirmedOrder o) [o.port]
  generalize (s.confirmedOrder o).recomputeFlags [o.port] = v at flags flight
  obtain ⟨w, eq, noticed, kept⟩ : ∃ w, (if (s.xport o.port).committed = .suspect ∧ ∀ p, (v.xport p).committed ≠ .suspect then
      v.raise takeObject else v) = w ∧ (s.confirmedOrder o).Reaches w ∧ (s.confirmedOrder o).FlightKept w := by
    split
    · exact ⟨_, rfl, flags.raise _, flight⟩
    · exact ⟨_, rfl, flags, flight⟩
  rw [eq]
  have confirmed : s.confirmedOrder o = { s with xpc := (s.confirmedOrder o).xpc } := rfl
  rw [confirmed] at noticed kept
  split
  next none =>
    refine noticed.completeTake kept (fun law p nobody => ?_) 0
    obtain ⟨-, park | suspect | order⟩ := confirmedOrder_law law mem p nobody
    · exact .inl park
    · exact .inr suspect
    · rw [none] at order
      cases order
  next some =>
    refine noticed.betweenTakes (y := w.xpc) fun law => kept.takeLaw ?_
    obtain ⟨-, timer, distinct, -⟩ := id law
    exact ⟨⟨fun _ => some, fun _ => flying⟩, timer, distinct.sublist (List.filter_sublist.map _),
      confirmedOrder_law law mem⟩

theorem reaches_takeConfirm (s : State) (o : Order) : s.Reaches (s.takeConfirm o) := by
  refine .ite (fun open_ => ?_) fun _ => .refl s
  rw [Bool.and_eq_true, List.contains_iff_mem] at open_
  exact s.reaches_acceptConfirm open_.1 open_.2

theorem reaches_confirmWord (s : State) (group : List Byte) : s.Reaches (s.confirmWord group) := by
  unfold confirmWord
  split
  · exact s.reaches_takeConfirm _
  · exact .refl s

theorem reaches_suspectMarked (s : State) (seen : Fin 192 → Place → Bool) : s.Reaches (s.suspectMarked seen) := by
  refine s.reaches_places (fun i => ?_) rfl (List.Sublist.refl _)
  have place := s.suspectMarked_place seen i
  cases here : s.place i with
  | none => exact .inl ⟨rfl, by rw [here] at place; exact place⟩
  | some p =>
    rw [here, Option.map_some] at place
    refine .inr ⟨p, _, rfl, place, ?_⟩
    split
    · exact ⟨⟨rfl, rfl, rfl, rfl, rfl, .rfl, rfl⟩, ⟨rfl, rfl, rfl, rfl⟩⟩
    · exact .refl p

theorem reaches_confirmExpire (s : State) : s.Reaches s.confirmExpire := by
  rw [confirmExpire_eq]
  set ports := s.xpc.orders.map (·.port) with ports_eq
  set marked : State := (s.ordersLost ports).suspectMarked fun i x =>
    ports.any fun p => (s.xport p).holder.isSlotOf i x.booking.id
  have seen : (s.ordersLost ports).Reaches marked := reaches_suspectMarked _ _
  have flags := seen.trans (reaches_recomputeFlags marked ports)
  obtain ⟨flight, -⟩ := flight_bookings_of_flags marked ports
  generalize marked.recomputeFlags ports = v at flags flight
  have kept : (s.ordersLost ports).FlightKept v := flight
  have lost : s.ordersLost ports = { s with xpc := (s.ordersLost ports).xpc } := rfl
  rw [lost] at flags kept
  refine (flags.raise takeObject).completeTake kept (fun law p nobody => ?_) _
  have port : State.xport { s with xpc := (s.ordersLost ports).xpc } p =
      if p ∈ ports then { s.xport p with committed := .suspect } else s.xport p := tab_get ..
  rw [port] at nobody ⊢
  split
  · exact .inr rfl
  next other =>
    rw [if_neg other] at nobody
    obtain ⟨-, -, -, parked⟩ := law
    obtain ⟨-, park | suspect | order⟩ := parked p nobody
    · exact .inl park
    · exact .inr suspect
    · exact absurd (List.mem_map.mpr ⟨_, order, rfl⟩) other

theorem reaches_confirmExpiry (s : State) : s.Reaches s.confirmExpiry :=
  .ite (fun _ => s.reaches_confirmExpire) fun _ => .refl s

/-! ### What a drill hands on apart from RMON's event (R132) -/

theorem reaches_handSelection (s : State) (c : Fin 24) (old new : Side) : s.Reaches (s.handSelection c old new) := by
  have handed := handSelection_handedOn s c old new
  exact handed.only.reaches (handed.only.flightKept handed.carriage) handed.bookings

theorem reaches_handSelections (before after s : State) : s.Reaches (State.handSelections before after s) := by
  refine .foldl (fun v c => ?_) _ s
  split
  · exact .ite (fun _ => .refl v) fun _ => v.reaches_handSelection _ _ _
  · exact .refl v

theorem reaches_xpcHealth (s : State) (changed : List (Fin 48)) : s.Reaches (s.xpcHealth changed) :=
  s.reaches_recomputeFlags _

/-- RMON and PSEL have taken an event, and XPC, BKU and MTR have yet to take what it hands on. -/
theorem Reaches.apart (h : s.Reaches t) (dir : t.dir = s.dir) (stl : t.stl = s.stl) :
    s.Reaches { t with xpc := s.xpc, bku := s.bku } :=
  ⟨h.pending, h.strap, h.elapsed, h.lastTick, h.notices, h.time, h.link, id, h.health, h.selector,
    books_of_same rfl dir stl⟩

theorem reaches_splitMarker (s : State) {others : List (State → State)} (each : ∀ f ∈ others, ∀ v : State, v.Reaches (f v)) :
    s.Reaches (s.splitMarker others) := by
  obtain ⟨-, dir, stl, -⟩ := s.rmonMarker_taken.outside
  refine (s.reaches_rmonMarker.apart dir stl).trans (reaches_inAnyOrder (fun f mem v => ?_) _)
  rcases List.mem_cons.mp mem with rfl | mem
  · exact v.reaches_xpcHealth _
  rcases List.mem_cons.mp mem with rfl | mem
  · exact reaches_handSelections _ _ v
  exact each f mem v

/-! ### The marker (R13) -/

theorem reaches_allReaders (s : State) : s.Reaches s.allReaders := by
  unfold allReaders
  split
  · refine s.reaches_raced.trans (reaches_inAnyOrder (fun f mem v => ?_) _)
    simp only [List.mem_cons, List.not_mem_nil, or_false] at mem
    rcases mem with rfl | rfl | rfl
    · exact v.reaches_rmonMarker
    · exact v.reaches_waitingTests
    · exact v.reaches_xpcMarker
  · have twice := s.reaches_raced.trans (reaches_raced _)
    dsimp only
    split
    · refine twice.trans (reaches_splitMarker _ fun f mem v => ?_)
      simp only [List.mem_cons, List.not_mem_nil, or_false] at mem
      rcases mem with rfl | rfl
      · exact v.reaches_waitingTests
      · exact v.reaches_xpcMarker
    · refine (twice.trans (reaches_waitingTests _)).trans (reaches_splitMarker _ fun f mem v => ?_)
      rw [List.mem_singleton] at mem
      exact mem ▸ v.reaches_xpcMarker

theorem nextFrame_le {frame top n : Nat} (range : top ≤ n) (pos : 1 ≤ n) : nextFrame frame top ≤ n := by
  unfold nextFrame
  split_ifs <;> omega

theorem reaches_marker (s : State) : s.Reaches s.marker := by
  have stamped : s.Reaches s.markerStamp := by
    refine (s.reaches_tb (x := { s.tb with frame := nextFrame s.tb.frame s.tb.frameMax, lastMarker := s.tb.osc }) ?_ rfl
      rfl).trans (reaches_tcu _ _)
    rintro ⟨seconds, sub, elapsed, top, -, rest⟩
    exact ⟨seconds, sub, elapsed, top, nextFrame_le top (by decide), rest⟩
  exact stamped.trans (reaches_allReaders _)

/-! ### The sources of the marker (R8, R10, R11) -/

theorem reaches_frameInstant (s : State) : s.Reaches s.frameInstant := by
  have restarted := s.reaches_tb (x := { s.tb with osc := s.tb.nextInstant, genRestart := s.tb.nextInstant }) id rfl rfl
  exact .ite (fun _ => restarted) fun _ => restarted.trans (reaches_marker _)

theorem reaches_loseReference (s : State) (locked : s.tb.refState = .locked) : s.Reaches s.loseReference := by
  refine ((s.reaches_tb (x := { s.tb with
      osc := s.tb.lossInstant, genRestart := s.tb.lossInstant, refState := .holdover, qual := 0, prevPulse := none })
    ?_ rfl rfl).raise referenceObject).trans (reaches_marker _)
  rintro ⟨seconds, sub, elapsed, top, frame, -, source, -⟩
  rw [locked] at source
  exact ⟨seconds, sub, elapsed, top, frame, Nat.zero_le _, ⟨fun h => (nomatch source.mp h), nofun⟩,
    fun _ => Nat.succ_pos 7⟩

theorem reaches_tbUpTo (s : State) (n : Nat) : s.Reaches (s.tbUpTo n) := by
  have instant (v : State) (c : Prop) [Decidable c] : v.Reaches (if c then v.frameInstant else v) :=
    .ite (fun _ => v.reaches_frameInstant) fun _ => .refl v
  have loss (v : State) (c : Prop) [Decidable c] (locked : c → v.tb.refState = .locked) :
      v.Reaches (if c then v.loseReference else v) :=
    .ite (fun h => v.reaches_loseReference (locked h)) fun _ => .refl v
  exact ((instant s _).trans (loss _ _ And.left)).trans (instant _ _)

theorem reaches_dueInstant (s : State) : s.Reaches s.dueInstant :=
  .ite (fun _ => s.reaches_frameInstant) fun _ => .refl s

theorem reaches_dueLoss (s : State) : s.Reaches s.dueLoss := by
  refine .ite (fun due => s.reaches_loseReference ?_) fun _ => .refl s
  rw [TB.lossDue, Bool.and_eq_true, beq_iff_eq] at due
  exact due.1

theorem reaches_scoredPulse (s : State) (n : Nat) (scores : s.tb.refState = .seeking ∨ s.tb.refState = .holdover) :
    s.Reaches (s.scoredPulse n) := by
  have low {q : Nat} (eq : (if s.goodInterval n = true then s.tb.qual + 1 else 0) = q) (law : s.tb.InRange) : q ≤ 8 := by
    obtain ⟨-, -, -, -, -, -, -, qual⟩ := law
    have := qual scores
    split at eq <;> omega
  have external (law : s.tb.InRange) (internal : s.tb.source = .internal) : False := by
    obtain ⟨-, -, -, -, -, -, source, -⟩ := law
    rcases scores with seeking | holdover
    · exact nomatch seeking.symm.trans (source.mp internal)
    · exact nomatch holdover.symm.trans (source.mp internal)
  unfold scoredPulse
  generalize eq : (if s.goodInterval n = true then s.tb.qual + 1 else 0) = q
  dsimp only
  split
  next locks =>
    have locked := (s.reaches_tb (x := { s.tb with
      osc := n, qual := q, prevPulse := some n, lastPulse := n, genRestart := n, refState := .locked }) (fun law => by
        have external := external law
        obtain ⟨seconds, sub, elapsed, top, frame, -⟩ := law
        exact ⟨seconds, sub, elapsed, top, frame, locks.le, ⟨fun h => (external h).elim, nofun⟩, nofun⟩) rfl rfl).raise
      referenceObject
    exact .ite (fun _ => locked.trans (reaches_marker _)) fun _ => locked
  next more =>
    refine s.reaches_tb (fun law => ?_) rfl rfl
    have low := low eq law
    obtain ⟨seconds, sub, elapsed, top, frame, -, source, -⟩ := law
    exact ⟨seconds, sub, elapsed, top, frame, low, source, fun _ => Nat.lt_of_le_of_ne low more⟩

theorem reaches_pulseAt (s : State) (n : Nat) : s.Reaches (s.pulseAt n) := by
  have counted : s.Reaches { s with tb := { s.tb with osc := n } } := s.reaches_tb id rfl rfl
  unfold pulseAt
  split
  next => exact counted
  next =>
    exact .ite (fun _ => (s.reaches_tb (x := { s.tb with osc := n, lastPulse := n, genRestart := n }) id rfl rfl).trans
      (reaches_marker _)) fun _ => counted
  next seeking => exact s.reaches_scoredPulse n (.inl seeking)
  next holdover => exact s.reaches_scoredPulse n (.inr holdover)

theorem reaches_referencePulse (s : State) (offset : Nat) : s.Reaches (s.referencePulse offset) :=
  (s.reaches_tbUpTo _).trans (reaches_pulseAt _ _)

/-! ### The second boundary and the steps of network time (R2, R5 to R7) -/

theorem reaches_takeDueEntries (n : Nat) (s : State) : s.Reaches (takeDueEntries n s) := by
  induction n generalizing s with
  | zero => exact .refl s
  | succ n ih =>
    unfold takeDueEntries
    split
    · exact (s.reaches_takeEntry _).trans (ih _)
    · exact .refl s

theorem reaches_takeSecond (s : State) : s.Reaches s.takeSecond :=
  (s.reaches_handBoundary.trans (reaches_takeWorksEdge _)).trans (reaches_takeDueEntries _ _)

theorem reaches_replayEntry (s : State) (e : TimeEntry) : s.Reaches (s.replayEntry e) :=
  .ite (fun _ => (s.reaches_takeEntry e).trans (reaches_onBooking _ _ fun _ _ =>
    ⟨⟨rfl, rfl, rfl, rfl, rfl, .rfl, rfl⟩, ⟨rfl, rfl, rfl, rfl⟩⟩)) fun _ => s.reaches_takeEntry e

theorem reaches_replayEntries (t n : Nat) (s : State) : s.Reaches (replayEntries t n s) := by
  induction n generalizing s with
  | zero => exact .refl s
  | succ n ih =>
    unfold replayEntries
    split
    · exact .ite (fun _ => (s.reaches_replayEntry _).trans (ih _)) fun _ => .refl s
    · exact .refl s

theorem reaches_replaySecond (s : State) (t : Nat) : s.Reaches (s.replaySecond t) :=
  .ite (fun _ => (s.reaches_raced.trans (reaches_worksEdges _ t)).trans (reaches_replayEntries t _ _))
    fun _ => (s.reaches_raced.trans (reaches_replayEntries t _ _)).trans (reaches_worksEdges _ t)

theorem reaches_replay (hi n lo : Nat) (s : State) : s.Reaches (replay hi n lo s) := by
  induction n generalizing lo s with
  | zero => exact .refl s
  | succ n ih =>
    unfold replay
    split
    · exact (s.reaches_replaySecond _).trans (ih _ _)
    · exact .refl s

theorem reaches_stepForward (s : State) {n : Nat} (range : n ≤ max32) : s.Reaches (s.stepForward n) :=
  (s.reaches_stepped range).trans (reaches_replay _ _ _ _)

theorem reaches_serveSetTime (s : State) (second : Word) : s.Reaches (s.serveSetTime second).1 := by
  have range : second.toNat ≤ max32 := Nat.le_of_lt_succ second.isLt
  unfold serveSetTime
  dsimp only
  split
  · refine s.reaches_tb (fun law => ?_) rfl rfl
    obtain ⟨seconds, -, rest⟩ := law
    exact ⟨seconds, Nat.zero_le _, rest⟩
  · split
    · exact s.reaches_takeSecond
    · exact .ite (fun _ => s.reaches_takeSecond.trans (reaches_stepForward _ range))
        fun _ => s.reaches_takeSecond.trans (reaches_stepBack _ range)

theorem refAfter_free_iff {x : TB} {src : Source} {rt : Fin 4} : refAfter x src rt = .free ↔ src = .internal := by
  cases src with
  | internal => exact ⟨fun _ => rfl, fun _ => rfl⟩
  | external =>
    refine ⟨fun free => ?_, nofun⟩
    unfold refAfter at free
    cases state : x.refState <;> rw [state] at free <;> dsimp only at free
    · cases free
    all_goals split at free <;> cases free

/-- A scored state that SET_REFERENCE does not enter anew was there before (R9). -/
theorem refAfter_of_stays {x : TB} {src : Source} {rt : Fin 4} (stays : entersSeeking x src rt = false)
    (scores : refAfter x src rt = .seeking ∨ refAfter x src rt = .holdover) :
    x.refState = .seeking ∨ x.refState = .holdover := by
  cases src with
  | internal => rcases scores with h | h <;> cases h
  | external =>
    have same : rt = x.rate := by
      by_contra other
      simp [entersSeeking, other] at stays
    unfold refAfter at scores
    cases state : x.refState with
    | free => simp [entersSeeking, state] at stays
    | seeking => exact .inl rfl
    | locked => simp [state, same] at scores
    | holdover => exact .inr rfl

theorem reaches_serveSetReference (s : State) (source rate : Byte) (frameMax : Half) :
    s.Reaches (s.serveSetReference source rate frameMax).1 := by
  unfold serveSetReference
  split
  next src rt _ _ =>
    dsimp only
    generalize genRestart : (if rt = s.tb.rate then s.tb.genRestart
      else if s.tb.refState = .locked then s.tb.lastPulse else s.tb.lastMarker) = g
    generalize prevPulse : (if entersSeeking s.tb src rt = true then none else s.tb.prevPulse) = p
    have stored : s.Reaches { s with tb := { s.tb with
        source := src, rate := rt, frameMax := frameMax.toNat, refState := refAfter s.tb src rt
        qual := if entersSeeking s.tb src rt = true then 0 else s.tb.qual, prevPulse := p, genRestart := g } } := by
      refine s.reaches_tb (fun law => ?_) rfl rfl
      obtain ⟨seconds, sub, elapsed, -, frame, qual, -, low⟩ := law
      have top : frameMax.toNat ≤ max16 := Nat.le_of_lt_succ frameMax.isLt
      refine ⟨seconds, sub, elapsed, top, frame, ?_, refAfter_free_iff.symm, fun scores => ?_⟩
      · dsimp only
        split
        · exact Nat.zero_le _
        · exact qual
      · dsimp only
        split
        · exact Nat.succ_pos 7
        next stays => exact low (refAfter_of_stays (Bool.eq_false_iff.mpr stays) scores)
    exact .ite (fun _ => stored) fun _ => stored.raise _
  · exact .refl s

end State
end Sys2Proof.Machine
end

