-- ==== Sys2Proof/Proofs/CommandReaches.lean ====
section
/-! PROOFS. What the commands lead to: the service of each request, the arrival and the end of messages, the expiries of the
timers, the millisecond tick and the resets. -/

namespace Sys2Proof.Machine
namespace State

variable {s t u : State}

/-! ### Requests (R190) -/

theorem reaches_serveReset (s : State) (scope : Byte) : s.Reaches (s.serveReset scope).1 := by
  unfold serveReset
  split
  · exact .refl s
  · exact s.reaches_lnk (x := { s.lnk with hold := _ }) id rfl

theorem reaches_of_read {a : State × Answer} (same : a.1 = s) : s.Reaches a.1 := same ▸ .refl s

theorem reaches_serveBody (s : State) (r : Request) : s.Reaches (s.serveBody r).1 := by
  cases r
  case reset => exact s.reaches_serveReset _
  case setTime => exact s.reaches_serveSetTime _
  case setReference => exact s.reaches_serveSetReference _ _ _
  case setRoute => exact s.reaches_serveSetRoute _ _ _ _ _
  case setWorks => exact s.reaches_serveSetWorks _ _ _ _
  case readHealth => exact s.reaches_serveReadHealth _
  case drill => exact s.reaches_serveDrill _ _ _
  case drillAbort => exact s.reaches_serveDrillAbort _
  case setCircuit => exact s.reaches_serveSetCircuit _ _ _ _ _ _
  case force => exact s.reaches_serveForce _ _
  case lockout => exact s.reaches_serveLockout _
  case clear => exact s.reaches_serveClear _
  case setPort => exact s.reaches_serveSetPort _ _
  case setHandoff => exact s.reaches_serveSetHandoff _ _ _ _ _ _ _ _ _
  case setAccount => exact s.reaches_serveSetAccount _ _
  case deleteEntry => exact s.reaches_serveDeleteEntry _ _
  case setMargin => exact s.reaches_serveSetMargin _
  case book => exact s.reaches_serveBook _
  case amend => exact s.reaches_serveAmend _ _
  case cancel => exact s.reaches_serveCancel _
  case endBooking => exact s.reaches_serveEnd _
  case swap => exact s.reaches_serveSwap _ _ _
  case patch => exact s.reaches_servePatch _ _
  case unpatch => exact s.reaches_serveUnpatch _
  case setConfirm => exact s.reaches_serveSetConfirm _
  case setTariff => exact s.reaches_serveSetTariff _
  case settleRelease => exact s.reaches_serveSettleRelease _
  case clearAccount => exact s.reaches_serveClearAccount _
  case setNotices => exact s.reaches_serveSetNotices _ _ _ _ _ _
  case setTally => exact s.reaches_serveSetTally _ _ _ _
  case setCue => exact s.reaches_serveSetCue _ _ _
  all_goals
    refine reaches_of_read ?_
    simp only [State.serveBody, serveIdent, serveStatus, serveReadTime, serveReadCircuit, serveReadBooking, serveListPort,
      serveReadPort, serveReadMeter, serveSettlePeek, serveReadAccount] <;> (repeat' split) <;> rfl

/-! ### LNK (R178, R179, R187 to R190) -/

theorem length_markServed (l : List Queued) : (markServed l).length = l.length := by
  induction l with
  | nil => rfl
  | cons q l ih =>
    unfold markServed
    split
    · rw [List.length_cons, List.length_cons, ih]
    · rfl

theorem reaches_serveOne (s : State) (q : Queued) : s.Reaches (s.serveOne q) := by
  refine (s.reaches_serveBody q.request).trans (reaches_lnk _ (fun law => ?_) rfl)
  exact ⟨(length_markServed _).trans_le law.1, law.2⟩

theorem reaches_serveUpTo (n : Nat) (s : State) : s.Reaches (serveUpTo n s) := by
  induction n generalizing s with
  | zero => exact .refl s
  | succ n ih =>
    unfold serveUpTo
    split
    · exact .refl s
    · split
      · exact (s.reaches_serveOne _).trans (ih _)
      · exact .refl s

theorem reaches_serveQueue (s : State) : s.Reaches s.serveQueue := reaches_serveUpTo _ s

theorem reaches_countError (s : State) : s.Reaches s.countError :=
  s.reaches_lnk (fun law => ⟨law.1, Nat.min_le_left _ _⟩) rfl

theorem reaches_arrive (s : State) (tag : Byte) (r : Request) : s.Reaches (s.arrive tag r) := by
  unfold arrive
  split
  next room =>
    refine (s.reaches_lnk (x := { s.lnk with queue := s.lnk.queue ++ [⟨tag, r, false⟩] }) (fun law => ⟨?_, law.2⟩) rfl).trans
      (reaches_serveQueue _)
    rw [List.length_append]
    exact room
  · exact .ite (fun _ => s.reaches_lnk (x := { s.lnk with busySlot := true, replies := _ }) id rfl)
      fun _ => s.reaches_countError

theorem reaches_rescan (n : Nat) (bytes : List Byte) (s : State) : s.Reaches (rescan n bytes s) := by
  induction n generalizing bytes s with
  | zero => exact .refl s
  | succ n ih =>
    unfold rescan
    dsimp only
    split
    · exact .refl s
    · split
      · exact s.reaches_lnk (x := { s.lnk with rx := _, gap := _ }) id rfl
      · split
        · exact (s.reaches_arrive _ _).trans (ih _ _)
        · exact s.reaches_countError.trans (ih _ _)

theorem reaches_hunt (s : State) : s.Reaches s.hunt := s.reaches_lnk (x := { s.lnk with rx := [], gap := none }) id rfl

theorem reaches_rescanAll (s : State) (bytes : List Byte) : s.Reaches (s.rescanAll bytes) :=
  s.reaches_hunt.trans (reaches_rescan _ _ _)

theorem reaches_checkFrame (s : State) : s.Reaches s.checkFrame :=
  .ite (fun _ => s.reaches_rescanAll _) fun _ => .refl s

theorem reaches_takeByte (s : State) (b : Byte) : s.Reaches (s.takeByte b) := by
  refine .ite (fun _ => .refl s) fun _ => .ite (fun _ => s.reaches_rescanAll _) fun _ => .ite (fun _ => ?_) fun _ => ?_
  · exact s.reaches_lnk (x := { s.lnk with rx := _, gap := none }) id rfl
  · exact s.reaches_lnk (x := { s.lnk with rx := _, gap := _ }) id rfl

/-- What the transmitter makes of LNK keeps its bounds. -/
theorem reaches_line (s : State) {line : Option Sending} {replies : List Unsent} {ready : Option ResetKind} :
    s.Reaches { s with lnk := { s.lnk with line := line, replies := replies, ready := ready } } :=
  s.reaches_lnk id rfl

theorem reaches_noticeSent (s : State) (o : Fin 267) : s.Reaches (s.noticeSent o) := by
  unfold noticeSent
  split
  · exact s.reaches_onRoute _ (fun _ => rfl) (fun _ => rfl) fun _ => rfl
  · exact .ite (fun _ => s.reaches_xpc id) fun _ => .refl s

theorem reaches_sendNotice (s : State) : s.Reaches s.sendNotice := by
  unfold sendNotice
  split
  · exact .refl s
  next o rest list =>
    exact ((s.reaches_ntc fun law => NTC.sent_law law list).trans (reaches_noticeSent _ o)).trans (reaches_line _)

theorem reaches_sendReply (s : State) : s.Reaches s.sendReply := by
  unfold sendReply
  split
  · exact .refl s
  · exact s.reaches_line

theorem reaches_choose (s : State) : s.Reaches s.choose := by
  unfold choose
  split
  · exact s.reaches_line
  · exact .ite (fun _ => s.reaches_sendNotice) fun _ => s.reaches_sendReply

theorem reaches_becomesFree (s : State) : s.Reaches s.becomesFree := .ite (fun _ => .refl s) fun _ => s.reaches_choose

theorem reaches_transmit (s : State) : s.Reaches s.transmit :=
  .ite (fun _ => .refl s) fun _ => .ite
    (fun _ => .ite (fun _ => s.reaches_raced.trans (reaches_sendReply _)) fun _ => s.reaches_raced.trans (reaches_sendNotice _))
    fun _ => s.reaches_choose

/-! ### Timers and pins -/

theorem reaches_gapExpiry (s : State) : s.Reaches s.gapExpiry :=
  .ite (fun _ => s.reaches_hunt.trans (reaches_countError _)) fun _ => .refl s

theorem reaches_endPulse (s : State) : s.Reaches s.endPulse := .ite (fun _ => s.reaches_tcu _) fun _ => .refl s

theorem reaches_cueExpiry (s : State) (l : Fin 4) : s.Reaches (s.cueExpiry l) := by
  refine .ite (fun _ => ?_) fun _ => .refl s
  have accepted : s.Reaches (s.setCueLine l
      { s.tcu.cues.get l with timer := none, accepted := (s.tcu.cues.get l).filtered }) := s.reaches_tcu _
  exact .ite (fun _ => accepted) fun _ => .ite (fun _ => accepted.trans (reaches_cueOffer _ _ _)) fun _ => accepted

/-! ### The tick -/

theorem Reaches.thenFoldl {β : Type} {f : State → β → State} (h : s.Reaches u) (each : ∀ (v : State) (b : β), v.Reaches (f v b))
    (l : List β) : s.Reaches (l.foldl f u) := h.trans (.foldl each l u)

theorem reaches_takeTimers (s : State) : s.Reaches s.takeTimers := by
  have cards := (Reaches.refl s).thenFoldl reaches_cardExpiry (List.finRange 6)
  have fails := cards.thenFoldl reaches_failExpiry (List.finRange 48)
  have clears := fails.thenFoldl reaches_clearExpiry (List.finRange 48)
  have drills := (clears.trans (reaches_closeDueBlock _)).thenFoldl reaches_endDrill (List.finRange 24)
  have guards := drills.thenFoldl reaches_guardExpiry (List.finRange 24)
  have wtrs := guards.thenFoldl reaches_wtrExpiry (List.finRange 24)
  have cues := (wtrs.trans (reaches_confirmExpiry _)).thenFoldl reaches_cueExpiry (List.finRange 4)
  exact (cues.trans (reaches_endPulse _)).trans (reaches_gapExpiry _)

/-- Everything that was due and untaken (log entry 3). -/
theorem reaches_takeDue (s : State) : s.Reaches s.takeDue := by
  have second := (s.reaches_checkFrame.trans (reaches_takeTimers _)).trans (reaches_takeSecond _)
  unfold takeDue
  exact second.trans (reaches_tbUpTo _ _)

/-! ### What every command keeps -/

/-- `t` is what commands make of `s`, resets and ticks among them: each law that `s` keeps, `t` keeps. -/
structure Keeps (s t : State) : Prop where
  pending : t.pending = s.pending
  notices : s.ntc.Law → t.ntc.Law
  time : s.tb.InRange → t.tb.InRange
  link : s.lnk.Bounded → t.lnk.Bounded
  take : s.TakeLaw → t.TakeLaw
  health : s.HealthLaw → t.HealthLaw
  selector : s.SelectorLaw → t.SelectorLaw
  books : Relation.ReflTransGen BookEvent s t

theorem Reaches.keeps (h : s.Reaches t) : s.Keeps t :=
  ⟨h.pending, h.notices, h.time, h.link, h.take, h.health, h.selector, h.books⟩

theorem Keeps.trans (h : s.Keeps t) (k : t.Keeps u) : s.Keeps u :=
  ⟨k.pending.trans h.pending, k.notices ∘ h.notices, k.time ∘ h.time, k.link ∘ h.link, k.take ∘ h.take, k.health ∘ h.health,
    k.selector ∘ h.selector, h.books.trans k.books⟩

theorem advance_lnk (s : State) : s.advance.lnk = s.lnk := rfl

/-- The tick alone (R1, R2, R24, R148, R183). -/
theorem keeps_advance (s : State) : s.Keeps s.advance := by
  have tick : s.tb.InRange → (TB.tick s.tb).InRange := by
    rintro ⟨seconds, sub, -, rest⟩
    have next : (nextTime s.tb.seconds s.tb.sub).1 ≤ max32 ∧ (nextTime s.tb.seconds s.tb.sub).2.1 ≤ 999 := by
      unfold nextTime
      split_ifs <;> exact ⟨by dsimp only; omega, by dsimp only; omega⟩
    exact ⟨next.1, next.2, Nat.min_le_left _ _, rest⟩
  have records : s.RecordsKept s.advance := by
    refine ⟨fun i => ?_, fun _ => rfl, List.Sublist.refl _, ⟨fun _ => rfl, fun _ => rfl, fun _ => rfl⟩, .inl rfl,
      List.Sublist.refl _, fun _ => ⟨rfl, .inl rfl⟩, id⟩
    have place : s.advance.place i = (s.place i).map fun p => { p with meter := p.meter.tick } := mapPlaces_place s _ i
    cases here : s.place i with
    | none => exact .inl ⟨rfl, by rw [place, here]; rfl⟩
    | some p =>
      exact .inr ⟨p, { p with meter := p.meter.tick }, rfl, by rw [place, here]; rfl, ⟨⟨rfl, rfl, rfl, rfl, rfl, .rfl, rfl⟩, ⟨rfl, rfl, rfl, rfl⟩⟩⟩
  exact ⟨rfl, id, tick, id, id, id, id, .single (.kept records)⟩

theorem keeps_tick (s : State) : s.Keeps s.tick := s.reaches_takeDue.keeps.trans (keeps_advance _)

/-! ### Resets -/

/-- Every block beside TB, TCU and LNK has its reset values (R38, R60, R75, R99, R142, R173, R181). -/
structure Fresh (t : State) : Prop where
  rmon : t.rmon = RMON.reset
  circuits : t.circuits = same 24 Circuit.reset
  dir : t.dir = DIR.reset
  bku : t.bku = BKU.reset
  xpc : t.xpc = XPC.reset
  stl : t.stl = STL.reset
  ntc : t.ntc = NTC.reset

theorem Fresh.health_eq (h : t.Fresh) (r : Fin 48) : t.health r = .failed := by
  rw [health, route, h.rmon]
  exact congrArg Route.effective (same_get 48 Route.reset r)

theorem Fresh.healthLaw (h : t.Fresh) : t.HealthLaw := by
  have undrilled (c : Fin 24) : t.drill c = none := by
    rw [drill, h.rmon]
    exact same_get 24 none c
  refine ⟨fun r => ?_, fun c d drill => nomatch (undrilled c).symm.trans drill⟩
  have route : t.route r = Route.reset := by
    rw [State.route, h.rmon]
    exact same_get 48 Route.reset r
  rw [h.health_eq]
  unfold healthNow drilled
  rw [undrilled, route]
  rfl

theorem Fresh.selectorLaw (h : t.Fresh) : t.SelectorLaw := by
  intro c
  have circuit : t.circuit c = Circuit.reset := by
    rw [State.circuit, h.circuits]
    exact same_get 24 Circuit.reset c
  show (t.circuit c).Law (t.rankOf c)
  rw [circuit]
  refine Circuit.law_of_selector (st := .selA) rfl nofun ⟨fun g => absurd rfl g, fun w => absurd rfl w, nofun⟩ fun _ _ => ?_
  rw [rankOf, rankOf, h.health_eq, h.health_eq]

theorem Fresh.takeLaw (h : t.Fresh) : t.TakeLaw := by
  unfold TakeLaw xport
  rw [h.xpc]
  refine ⟨⟨nofun, fun ne => absurd rfl ne⟩, ⟨nofun, fun ne => absurd rfl ne⟩, List.nodup_nil, fun p _ => ⟨nofun, ?_⟩⟩
  rw [show (XPC.reset.ports.get p) = XPort.reset from same_get 32 XPort.reset p]
  exact .inr (.inl rfl)

theorem Fresh.notices (h : t.Fresh) : t.ntc.Law := h.ntc ▸ NTC.reset_law

theorem Fresh.emptied (h : t.Fresh) : t.Emptied where
  places := place_bku_reset h.bku
  timelines q := by
    rw [timeline, h.bku]
    exact same_get 32 [] q
  entries := by rw [h.bku]; rfl
  queue := by rw [h.stl]; rfl
  closing := by rw [h.stl]; rfl
  accounts a := by
    rw [h.dir]
    exact congrArg Account.refs (same_get 16 _ a)
  handoffs g := by
    rw [h.dir]
    exact congrArg Handoff.refs (same_get 16 _ g)
  tariffs k := by
    rw [h.stl]
    exact congrArg Tariff.refs (same_get 8 Tariff.reset k)

theorem Fresh.totalsBounded (h : t.Fresh) : t.TotalsBounded := fun a => by
  rw [h.stl, show STL.reset.totals.get a = ⟨0, 0, 0⟩ from same_get 16 _ a]
  exact ⟨Nat.zero_le _, Nat.zero_le _, Nat.zero_le _⟩

theorem Fresh.keeps (h : t.Fresh) (pending : t.pending = s.pending) (time : t.tb.InRange)
    (link : s.lnk.Bounded → t.lnk.Bounded) : s.Keeps t :=
  ⟨pending, fun _ => h.notices, fun _ => time, link, fun _ => h.takeLaw, fun _ => h.healthLaw, fun _ => h.selectorLaw,
    .single (.emptied h.emptied fun _ => h.totalsBounded)⟩

theorem fresh_powerOn (strap : Fin 4) (s : State) : (s.resetPowerOn strap).Fresh := ⟨rfl, rfl, rfl, rfl, rfl, rfl, rfl⟩

theorem fresh_resetAll (s : State) : s.resetAll.Fresh := ⟨rfl, rfl, rfl, rfl, rfl, rfl, rfl⟩

/-- TB is in its ranges after a reset, wherever the oscillator stands. -/
theorem inRange_reset {x : TB} (seconds : x.seconds = 0) (sub : x.sub = 0) (elapsed : x.elapsed = 0) (top : x.frameMax = 0)
    (frame : x.frame = 0) (qual : x.qual = 0) (source : x.source = .internal) (free : x.refState = .free) : x.InRange := by
  unfold TB.InRange
  rw [seconds, sub, elapsed, top, frame, qual, source, free]
  exact ⟨Nat.zero_le _, Nat.zero_le _, Nat.zero_le _, Nat.zero_le _, Nat.zero_le _, Nat.zero_le _, ⟨fun _ => rfl, fun _ => rfl⟩,
    fun _ => Nat.succ_pos 7⟩

theorem keeps_resetPowerOn (strap : Fin 4) (s : State) : s.Keeps (s.resetPowerOn strap) :=
  (fresh_powerOn strap s).keeps rfl (inRange_reset rfl rfl rfl rfl rfl rfl rfl rfl)
    fun _ => ⟨Nat.zero_le _, Nat.zero_le _⟩

theorem keeps_resetAll (s : State) : s.Keeps s.resetAll :=
  (fresh_resetAll s).keeps rfl (inRange_reset rfl rfl rfl rfl rfl rfl rfl rfl) fun law => ⟨law.1, Nat.zero_le _⟩

/-- What RESET TRAFFIC sets in every block (R76, R100, R143, R174, R181). -/
theorem emptied_clearTraffic (s : State) (r : RMON) : State.Emptied { s.clearTraffic with rmon := r } where
  places := place_bku_reset rfl
  timelines q := same_get 32 [] q
  entries := rfl
  queue := rfl
  closing := rfl
  accounts a := congrArg Account.refs (tab_get _ a)
  handoffs g := congrArg Handoff.refs (tab_get _ g)
  tariffs k := congrArg Tariff.refs (tab_get _ k)

theorem reaches_resetTraffic (s : State) : s.Reaches s.resetTraffic := by
  set u : State := { s.clearTraffic with rmon := s.rmon }
  have emptied : u.Emptied := s.emptied_clearTraffic s.rmon
  have take : u.TakeLaw := by
    refine ⟨⟨nofun, fun ne => absurd rfl ne⟩, ⟨nofun, fun ne => absurd rfl ne⟩, List.nodup_nil, fun p _ => ⟨nofun, ?_⟩⟩
    rw [show u.xport p = XPort.reset from same_get 32 XPort.reset p]
    exact .inr (.inl rfl)
  have cleared : s.Reaches u :=
    ⟨rfl, rfl, rfl, rfl, fun law => NTC.resetTraffic_law law, id, id, fun _ => take, id, id, .single (.emptied emptied id)⟩
  refine cleared.trans (reaches_healthEvent u (cs := s.drilledCircuits) ((List.nodup_finRange 24).filter _) (fun _ => rfl)
    (fun c out => ?_) fun _ _ => ⟨rfl, rfl⟩)
  rw [drilledCircuits, List.mem_filter] at out
  have none : s.drill c = none := by simpa using out
  exact (same_get 24 Option.none c).trans none.symm

theorem keeps_performReset (s : State) (scope : Scope) : s.Keeps (s.performReset scope) := by
  cases scope with
  | all => exact s.keeps_resetAll
  | traffic => exact s.reaches_resetTraffic.keeps

/-! ### The end of a message -/

theorem reaches_free (s : State) {queue : List Queued} (shorter : queue.length ≤ s.lnk.queue.length) (busySlot : Bool) :
    s.Reaches { s with lnk := { s.lnk with line := none, queue := queue, busySlot := busySlot } } :=
  s.reaches_lnk (fun law => ⟨shorter.trans law.1, law.2⟩) rfl

theorem length_tail_le {α : Type} (l : List α) : l.tail.length ≤ l.length := by
  rw [List.length_tail]
  exact Nat.sub_le ..

theorem keeps_endMessage (s : State) : s.Keeps s.endMessage := by
  unfold endMessage
  split
  · exact (Reaches.refl s).keeps
  · dsimp only
    split
    · exact (s.reaches_free le_rfl _).keeps
    · exact (s.reaches_free (length_tail_le _) _).keeps
    · exact (s.reaches_free le_rfl _).keeps
    · exact ((s.reaches_free (length_tail_le _) _).keeps.trans (keeps_performReset _ _)).trans (reaches_serveQueue _).keeps

theorem keeps_endLine (s : State) : s.Keeps s.endLine := by
  unfold endLine
  split
  · exact s.keeps_endMessage
  · exact s.keeps_endMessage.trans (reaches_becomesFree _).keeps

end State

namespace State

/-- A reset but for power-on, and the service that follows it, leave the line rate (R186, R197). -/
theorem endMessage_strap (s : State) : s.endMessage.lnk.strap = s.lnk.strap := by
  have performed (u : State) (scope : Scope) : (u.performReset scope).serveQueue.lnk.strap = u.lnk.strap := by
    refine (reaches_serveQueue _).strap.trans ?_
    cases scope with
    | all => rfl
    | traffic => exact u.reaches_resetTraffic.strap
  unfold endMessage
  split
  · rfl
  · dsimp only
    split
    · rfl
    · rfl
    · rfl
    · exact performed _ _

end State

/-- The command leads to a next state that keeps every law, the queue of commands and, but for a power-on/pin reset, the line
rate. -/
def Completes (c : Instr) (s : State) : Prop :=
  ∃ t, exec c s = .next t ∧ s.Keeps t ∧
    (t.lnk.strap = s.lnk.strap ∨ ∃ straps, c = .powerOnReset straps ∧ t.lnk.strap = straps)

namespace Completes
variable {c : Instr} {s u : State}

theorem of_next (led : exec c s = .next u) (keeps : s.Keeps u) (strap : u.lnk.strap = s.lnk.strap) : Completes c s :=
  ⟨u, led, keeps, .inl strap⟩

theorem of_reaches (led : exec c s = u.done) (h : s.Reaches u) : Completes c s :=
  have sent := h.trans u.reaches_transmit
  .of_next led sent.keeps sent.strap

theorem of_endReset {scope : Scope} (led : exec c s = s.endReset scope) : Completes c s := by
  unfold State.endReset at led
  split at led
  · exact .of_next led s.keeps_endMessage s.endMessage_strap
  · exact .of_reaches led (.refl s)

end Completes

/-- Every command completes. -/
theorem completes (c : Instr) (s : State) : Completes c s := by
  cases request : requestOf c with
  | some r => exact .of_reaches (exec_request request s) (s.reaches_arrive _ _)
  | none =>
    cases c
    case powerOnReset straps =>
      have sent := State.reaches_transmit (s.resetPowerOn straps)
      exact ⟨_, rfl, (s.keeps_resetPowerOn straps).trans sent.keeps, .inr ⟨straps, rfl, sent.strap⟩⟩
    case millisecondTick =>
      have sent := State.reaches_transmit s.tick
      have strap : s.tick.lnk.strap = s.lnk.strap :=
        (congrArg LNK.strap s.takeDue.advance_lnk).trans s.reaches_takeDue.strap
      exact .of_next rfl (s.keeps_tick.trans sent.keeps) (sent.strap.trans strap)
    case transmitterFree =>
      refine .of_next rfl s.keeps_endLine ?_
      unfold State.endLine
      split
      · exact s.endMessage_strap
      · exact (State.reaches_becomesFree _).strap.trans s.endMessage_strap
    case resetAll => exact .of_endReset rfl
    case resetTraffic => exact .of_endReset rfl
    case secondBoundary => exact .of_reaches rfl s.reaches_handBoundary
    case internalFrameInstant => exact .of_reaches rfl s.reaches_dueInstant
    case referencePulse => exact .of_reaches rfl (s.reaches_referencePulse _)
    case lossLimitExpiry => exact .of_reaches rfl s.reaches_dueLoss
    case drillActivation => exact .of_reaches rfl (s.reaches_activateDrill _)
    case drillEnd => exact .of_reaches rfl (s.reaches_endDrill _)
    case markerPulseEnd => exact .of_reaches rfl s.reaches_endPulse
    case statusWord => exact .of_reaches rfl (s.reaches_statusWord _)
    case cardLoss => exact .of_reaches rfl (s.reaches_cardExpiry _)
    case failTimerExpiry => exact .of_reaches rfl (s.reaches_failExpiry _)
    case clearTimerExpiry => exact .of_reaches rfl (s.reaches_clearExpiry _)
    case blockClose => exact .of_reaches rfl s.reaches_closeDueBlock
    case worksEdge => exact .of_reaches rfl s.reaches_takeWorksEdge
    case guardExpiry => exact .of_reaches rfl (s.reaches_guardExpiry _)
    case wtrExpiry => exact .of_reaches rfl (s.reaches_wtrExpiry _)
    case armEntry => exact .of_reaches rfl (s.reaches_takeNext _ _)
    case startEntry => exact .of_reaches rfl (s.reaches_takeNext _ _)
    case endEntry => exact .of_reaches rfl (s.reaches_takeNext _ _)
    case cueInputChange => exact .of_reaches rfl (s.reaches_tcu _)
    case cueEdge => exact .of_reaches rfl (s.reaches_cueExpiry _)
    case confirm => exact .of_reaches rfl (s.reaches_confirmWord _)
    case confirmTimerExpiry => exact .of_reaches rfl s.reaches_confirmExpiry
    case gapTimerExpiry => exact .of_reaches rfl s.reaches_gapExpiry
    case frameReceived => exact .of_reaches rfl s.reaches_checkFrame
    case byteReceived => exact .of_reaches rfl (s.reaches_checkFrame.trans (State.reaches_takeByte _ _))
    all_goals simp [requestOf] at request

/-- What every step keeps: with no command waiting the state stands. -/
theorem keeps_of_step {s t : State} (led : step s = .next t) : s = t ∨ ∃ rest, State.Keeps { s with pending := rest } t := by
  unfold step at led
  split at led
  next => cases led; exact .inl rfl
  next c rest _ =>
    obtain ⟨u, next, keeps, -⟩ := completes c { s with pending := rest }
    cases led.symm.trans next
    exact .inr ⟨rest, keeps⟩

end Sys2Proof.Machine
end

