-- ==== Sys2Proof/Proofs/LawsKept.lean ====
section
/-! PROOFS. The laws that every step keeps, and that hold after reset (O2, O3, O6 to O14); the tick and the power-on reset. -/

namespace Sys2Proof.Machine
namespace State

variable {s t : State}

/-- A law that every event of the list keeps is kept through any number of them. -/
theorem law_of_events {law : State → Prop} (each : ∀ s t : State, s.BookEvent t → law s → law t)
    (h : Relation.ReflTransGen BookEvent s t) (old : law s) : law t := by
  induction h with
  | refl => exact old
  | tail _ event ih => exact each _ _ event ih

theorem Keeps.inRange (h : s.Keeps t) (range : s.InRange) : t.InRange := by
  obtain ⟨time, link, room, low, bounded⟩ := range
  obtain ⟨room, low, bounded⟩ := law_of_events (fun _ _ => BookEvent.booksInRange) h.books ⟨room, low, bounded⟩
  exact ⟨h.time time, h.link link, room, low, bounded⟩

theorem Keeps.closingLaw (h : s.Keeps t) : s.ClosingLaw → t.ClosingLaw := law_of_events (fun _ _ => BookEvent.closingLaw) h.books

theorem Keeps.idLaw (h : s.Keeps t) : s.IdLaw → t.IdLaw := law_of_events (fun _ _ => BookEvent.idLaw) h.books

theorem Keeps.countsLaw (h : s.Keeps t) : s.CountsLaw → t.CountsLaw := law_of_events (fun _ _ => BookEvent.countsLaw) h.books

theorem Keeps.timelineLaw (h : s.Keeps t) : s.TimelineLaw → t.TimelineLaw :=
  law_of_events (fun _ _ => BookEvent.timelineLaw) h.books

theorem Keeps.timeListLaw (h : s.Keeps t) : s.TimeListLaw → t.TimeListLaw :=
  law_of_events (fun _ _ => BookEvent.timeListLaw) h.books

/-- A law that commands keep, and that does not read the queue of commands, every step keeps. -/
theorem law_of_step {law : State → Prop} (kept : ∀ s t : State, s.Keeps t → law s → law t)
    (queue : ∀ (s : State) (rest : List Instr), law s → law { s with pending := rest }) (old : law s)
    (led : step s = .next t) : law t := by
  rcases keeps_of_step led with rfl | ⟨rest, keeps⟩
  · exact old
  · exact kept _ _ keeps (queue s rest old)

end State

/-- Settles O3: NTC's operations keep the law one by one, and no other operation touches the list. -/
theorem noticeListLawKept : Obligations.NoticeListLawKept := fun _ _ =>
  State.law_of_step (law := fun s => s.ntc.Law) (fun _ _ h => h.notices) fun _ _ h => h

/-- Settles O6. -/
theorem rangesKept : Obligations.RangesKept := fun _ _ => State.law_of_step (fun _ _ h => h.inRange) fun _ _ h => h

/-- Settles O7: an evaluation or an order leaves the law at the circuit, and no other operation reaches its ranks. -/
theorem selectorLawKept : Obligations.SelectorLawKept := fun _ _ => State.law_of_step (fun _ _ h => h.selector) fun _ _ h => h

/-- Settles O8: each change of an input ends in the health event of its circuit. -/
theorem healthLawKept : Obligations.HealthLawKept := fun _ _ => State.law_of_step (fun _ _ h => h.health) fun _ _ h => h

/-- Settles O9: by the events of the booking table and the settlement queue. -/
theorem closingAndIdLawsKept : Obligations.ClosingAndIdLawsKept := fun _ _ closing led =>
  ⟨State.law_of_step (fun _ _ h => h.closingLaw) (fun _ _ h => h) closing led,
    fun ids => State.law_of_step (fun _ _ h => h.idLaw) (fun _ _ h => h) ids led⟩

/-- Settles O10: by the same events, each of which counts the record that comes or goes. -/
theorem countsLawKept : Obligations.CountsLawKept := fun _ _ => State.law_of_step (fun _ _ h => h.countsLaw) fun _ _ h => h

/-- Settles O11. -/
theorem timelineLawKept : Obligations.TimelineLawKept := fun _ _ => State.law_of_step (fun _ _ h => h.timelineLaw) fun _ _ h => h

/-- Settles O12. -/
theorem timeListLawKept : Obligations.TimeListLawKept := fun _ _ => State.law_of_step (fun _ _ h => h.timeListLaw) fun _ _ h => h

/-- Settles O13: a take starts and ends with its orders, and a confirm closes one. -/
theorem takeLawKept : Obligations.TakeLawKept := fun _ _ => State.law_of_step (fun _ _ h => h.take) fun _ _ h => h

/-- Settles O2. -/
theorem everyCommandCompletes : Obligations.EveryCommandCompletes := fun c s => by
  obtain ⟨t, led, keeps, strap⟩ := completes c s
  exact ⟨t, led, keeps.pending, strap⟩

/-- Settles O1. -/
theorem stepRunsFront : Obligations.StepRunsFront := fun _ _ _ => rfl

/-! ### The tick (R1, R2, R24, R148, R183) -/

theorem nextTime_eq (seconds sub : Nat) (boundary : Option Nat) :
    ((nextTime seconds sub).1, (nextTime seconds sub).2.1, (nextTime seconds sub).2.2.or boundary) =
      if sub < 999 then (seconds, sub + 1, boundary)
      else if seconds < max32 then (seconds + 1, 0, some (seconds + 1))
      else (seconds, sub, boundary) := by
  unfold nextTime
  split_ifs <;> rfl

theorem MeterSet.tick_eq (m : MeterSet) : m.tick =
    if m.phase ≠ .running ∨ max32 ≤ m.l then m
    else if m.gate = true then { m with l := m.l + 1, s := m.s + 1, t := if m.overtime then m.t + 1 else m.t }
    else { m with l := m.l + 1, o := m.o + 1, episode := m.episode.map (· + 1) } := by
  have idle : (m.phase != .running || decide (m.l ≥ max32)) = true ↔ m.phase ≠ .running ∨ max32 ≤ m.l := by
    rw [Bool.or_eq_true, bne_iff_ne, decide_eq_true_eq]
  unfold MeterSet.tick
  exact if_congr idle rfl rfl

namespace State

theorem advance_elapsed (s : State) : s.advance.tb.elapsed = min max48 (s.tb.elapsed + 1) := rfl

theorem advance_lastTick (s : State) : s.advance.tb.lastTick = s.tb.lastTick + Machine.tickCounts := rfl

theorem advance_pending (s : State) : s.advance.pending = s.pending := rfl

theorem advance_blockDue (s : State) : s.advance.rmon.blockDue = true ↔
    s.rmon.blockDue = true ∨ s.tb.elapsed < s.advance.tb.elapsed ∧ s.advance.tb.elapsed % 1000 = 0 := by
  show (s.rmon.blockDue || blockAt s.tb.elapsed s.advance.tb.elapsed) = true ↔ _
  rw [Bool.or_eq_true, blockAt, decide_eq_true_eq]

theorem advance_place (s : State) (i : Fin 192) :
    s.advance.place i = (s.place i).map fun p => { p with meter := p.meter.tick } := mapPlaces_place s _ i

/-- Settles O18. -/
theorem tickCounts : Obligations.TickCounts := by
  refine ⟨fun s => ⟨s.tick.transmit, rfl, ?_⟩, fun s nothing_due => ⟨s.advance, ?_, ?_⟩⟩
  · have due := s.reaches_takeDue
    have sent := State.reaches_transmit s.tick
    refine ⟨?_, ?_, ?_⟩
    · rw [sent.elapsed, tick, advance_elapsed, due.elapsed]
    · rw [sent.lastTick, tick, advance_lastTick, due.lastTick]
    · rw [sent.pending, tick, advance_pending, due.pending]
  · show exec .millisecondTick s = .next s.advance.transmit
    rw [show exec .millisecondTick s = .next s.takeDue.advance.transmit from rfl, nothing_due]
  · refine ⟨nextTime_eq .., rfl, rfl, s.advance_blockDue, rfl, rfl, fun i free => ?_, fun i p here => ?_, rfl, rfl, rfl, rfl,
      rfl, rfl, rfl, rfl, rfl⟩
    · rw [advance_place, free, Option.map_none]
    · rw [advance_place, here, Option.map_some, MeterSet.tick_eq]

end State

/-! ### Resets -/

namespace State

/-- A state without records keeps any law of the places. -/
theorem Emptied.places_law {t : State} (h : t.Emptied) {P : Place → Prop} (i : Fin 192) (p : Place) (here : t.place i = some p) :
    P p := nomatch (h.places i).symm.trans here

end State

/-- Settles O14: each law on the reset values of its block. -/
theorem lawsAtReset : Obligations.LawsAtReset := by
  have fresh : State.reset.Fresh := ⟨rfl, rfl, rfl, rfl, rfl, rfl, rfl⟩
  have empty := fresh.emptied
  refine ⟨fresh.notices, empty.places_law, ?_, fresh.selectorLaw, fresh.healthLaw, empty.closingLaw, empty.idLaw,
    empty.countsLaw, empty.timelineLaw, fresh.takeLaw, empty.places_law, empty.timeListLaw⟩
  exact ⟨State.inRange_reset rfl rfl rfl rfl rfl rfl rfl rfl, ⟨Nat.zero_le _, Nat.zero_le _⟩, Nat.zero_le _,
    empty.places_law, fresh.totalsBounded⟩

/-- Settles O15: the reset values of each block, and what LNK keeps of the message on the line. -/
theorem powerOnSetsTheTables : Obligations.PowerOnSetsTheTables := by
  intro straps s
  have line (l : Fin 8) : (s.resetPowerOn straps).tcu.lines.get l = ⟨.off, none, false⟩ := same_get 8 _ l
  refine ⟨s.resetPowerOn straps, rfl, ⟨rfl, rfl, rfl, rfl, rfl, rfl, rfl, rfl, rfl, rfl, rfl⟩, fun k => same_get 6 none k,
    fun r => same_get 48 Route.reset r, fun c => ⟨same_get 24 none c, same_get 24 Circuit.reset c⟩,
    fun p => ⟨same_get 32 _ p, same_get 32 [] p, same_get 32 XPort.reset p⟩, fun a => ⟨same_get 16 _ a, same_get 16 _ a⟩,
    fun h => same_get 16 _ h, rfl, fun i => same_get 192 none i, rfl, ⟨rfl, rfl, rfl, rfl, rfl, rfl⟩,
    fun x => same_get 8 Tariff.reset x, rfl, rfl, ⟨fun o => same_get 267 false o, rfl, fun k => same_get 6 true k⟩,
    fun l => ⟨line l, ?_⟩, fun l => tab_get _ l, rfl, rfl, rfl, rfl, rfl, rfl, rfl, rfl, rfl, ?_⟩
  · rw [State.tallyLevel, line]
    rfl
  · exact (Option.map_map ..)

end Sys2Proof.Machine
end

