-- ==== Sys2Proof/Proofs/Resets.lean ====
section
/-! PROOFS. The resets that the end of a reply performs (O16, O17). -/

namespace Sys2Proof.Machine

theorem same_eq_tab {α : Type} (n : Nat) (a : α) : same n a = tab fun _ => a :=
  table_ext fun i => (same_get n a i).trans (tab_get (fun _ => a) i).symm

theorem keptByTraffic_eq (o : Fin 267) : keptByTraffic o = decide (classOf o = 0 ∨ classOf o = 1 ∨ classOf o = 3) := by
  rw [Bool.eq_iff_iff, decide_eq_true_iff]
  simp [keptByTraffic, or_assoc]

namespace State

/-! ### The end of the reply to a RESET -/

theorem endMessage_of_reset {s : State} {m : Message} {scope : Scope} {q : Queued} {behind : List Queued}
    (line : s.lnk.line = some ⟨m, .reset scope⟩) (queue : s.lnk.queue = q :: behind) :
    s.endMessage = (performReset { s with lnk := { s.lnk with line := none, queue := behind } } scope).serveQueue := by
  unfold endMessage
  rw [line, queue]
  rfl

/-- Behind a reset the transmitter makes no choice (R196, log entry 20). -/
theorem endLine_of_reset {s : State} {m : Message} {scope : Scope} (line : s.lnk.line = some ⟨m, .reset scope⟩) :
    s.endLine = s.endMessage := by
  unfold endLine
  rw [resetOnLine_of_line line, resetOnLine_of_line line]
  cases scope <;> rfl

theorem endReset_of_reset {s : State} {m : Message} {scope : Scope} (line : s.lnk.line = some ⟨m, .reset scope⟩) :
    s.endReset scope = .next s.endMessage := by
  unfold endReset
  rw [resetOnLine_of_line line, decide_eq_true rfl]
  rfl

/-- The command of a reset and the end of the reply are one event: the place is freed, the reset is performed and the
requests behind it are served. -/
theorem reset_performed {s : State} {m : Message} {scope : Scope} {q : Queued} {behind : List Queued}
    (line : s.lnk.line = some ⟨m, .reset scope⟩) (queue : s.lnk.queue = q :: behind) :
    let u := performReset { s with lnk := { s.lnk with line := none, queue := behind } } scope
    s.endReset scope = .next u.serveQueue ∧ exec .transmitterFree s = .next u.serveQueue := by
  have ended := endMessage_of_reset line queue
  refine ⟨?_, ?_⟩
  · rw [endReset_of_reset line, ended]
  · show Host.Outcome.next s.endLine = _
    rw [endLine_of_reset line, ended]

theorem serveQueue_of_empty {s : State} (h : s.lnk.queue = []) : s.serveQueue = s :=
  serveQueue_of_idle (.inr fun _ mem => nomatch (h ▸ mem : _ ∈ []))

/-! ### Service leaves the line -/

theorem serveUpTo_line (n : Nat) (s : State) : (serveUpTo n s).lnk.line = s.lnk.line := by
  induction n generalizing s with
  | zero => rfl
  | succ n ih =>
    unfold serveUpTo
    split
    · rfl
    · split
      · rw [ih, serveOne_eq]
      · rfl

/-- A transmitter with nothing on the line sends READY after a power-on/pin reset (R179, R196). -/
theorem powerOnReset_sends {s : State} (idle : s.lnk.line = none) (straps : Fin 4) :
    ∃ t, exec (.powerOnReset straps) s = .next t ∧ t.lnk.line = some ⟨.ready .powerOn, .nothing⟩ ∧ t.lnk.ready = none := by
  have detached : (s.resetPowerOn straps).lnk.line = none := by
    show s.detachLine = none
    rw [detachLine, idle]
    rfl
  have sent : (s.resetPowerOn straps).transmit = (s.resetPowerOn straps).choose := by
    unfold transmit
    rw [detached]
    rfl
  exact ⟨(s.resetPowerOn straps).transmit, rfl, by rw [sent]; rfl, by rw [sent]; rfl⟩

end State

/-- Settles O16. -/
theorem resetAllPerformed : Obligations.ResetAllPerformed := by
  intro s m q behind line queue
  obtain ⟨command, freed⟩ := State.reset_performed line queue
  refine ⟨_, command, freed, fun none => ?_, rfl, rfl, rfl, rfl, rfl, rfl, rfl, rfl, ⟨rfl, rfl, fun l => tab_get _ l⟩, rfl, rfl,
    rfl, fun straps => State.powerOnReset_sends ?_ straps⟩
  · exact State.serveQueue_of_empty none
  · rw [State.serveQueue, State.serveUpTo_line]
    rfl

/-- Settles O17: RMON recomputes the drilled circuits on what the blocks have set. -/
theorem resetTrafficPerformed : Obligations.ResetTrafficPerformed := by
  intro s m q behind line queue kept
  obtain ⟨command, freed⟩ := State.reset_performed line queue
  set u : State := { s with lnk := { s.lnk with line := none, queue := behind } } with u_eq
  have taken : u.clearTraffic.HealthTaken u.resetTraffic s.drilledCircuits :=
    State.healthEvent_taken _ ((List.nodup_finRange 24).filter _)
  obtain ⟨link, -⟩ : u.clearTraffic.SameLink u.resetTraffic := State.healthEvent_link ⟨rfl, rfl⟩ _
  refine ⟨u.resetTraffic, command, freed, fun none => ?_, ?_⟩
  · refine State.serveQueue_of_empty ?_
    rw [link]
    exact none
  · have kept_eq : keptByTraffic = kept := funext keptByTraffic_eq
    simp only [State.clearTraffic, RMON.dropDrills, NTC.resetTraffic, XPC.resetTraffic, BKU.reset, same_eq_tab, kept_eq]
      at taken
    exact taken

end Sys2Proof.Machine
end

