-- ==== Sys2Proof/Proofs/Markers.lean ====
section
/-! PROOFS. The reference marker taken by every block, and its sources (O19, O20). -/

namespace Sys2Proof.Machine
namespace State

/-! ### The marker (R13) -/

/-- Events behind some open orders may have any number of open orders decided before them (log entry 4). -/
theorem inOrder_of_raced {events : List (State → State → Prop)} {s t : State} {n : Nat} (some_event : events ≠ [])
    (h : InOrder Raced events { s with raceCount := n } t) : InOrder Raced events s t := by
  cases events with
  | nil => exact absurd rfl some_event
  | cons r rest => exact h

/-- An event may be taken with no open order decided before it (log entry 4). -/
theorem raced_of {r : State → State → Prop} {s t : State} (h : r s t) : Raced r s t := ⟨s.raceCount, h⟩

theorem allReaders_taken (s : State) : ∃ readers : List (State → State → Prop),
    (readers.Perm [DrillsTaken, WaitingTaken, XpcTook] ∨
      readers = [DrillsTakenApart [WaitingTaken, XpcTook]] ∨
      readers = [WaitingTaken, DrillsTakenApart [XpcTook]]) ∧ InOrder Raced readers s s.allReaders := by
  unfold allReaders
  dsimp only
  split
  · obtain ⟨readers, perm, taken⟩ := inAnyOrder_taken
      (.cons rmonMarker_taken (.cons waitingTests_taken (.cons xpcMarker_took .nil))) nofun s.raced
    refine ⟨readers, .inl perm, inOrder_of_raced (fun empty => ?_) taken⟩
    subst empty
    exact nomatch perm.length_eq
  split
  · refine ⟨_, .inr (.inl rfl), _, ⟨s.raced.raced.raceCount, ?_⟩, rfl⟩
    exact s.raced.raced.splitMarker_taken (.cons waitingTests_taken (.cons xpcMarker_took .nil))
  · refine ⟨_, .inr (.inr rfl), _, ⟨s.raced.raced.raceCount, s.raced.raced.waitingTests_taken⟩, _,
      raced_of (splitMarker_taken (.cons xpcMarker_took .nil) _), rfl⟩

theorem marker_taken (s : State) : s.MarkerTaken s.marker := s.markerStamp.allReaders_taken

/-! ### TB's own instants (R8, R10) -/

theorem dueInstant_of_due {s : State} (due : s.tb.nextInstant ≤ s.tb.lastTick + Machine.tickCounts) :
    s.dueInstant = s.frameInstant := if_pos (decide_eq_true due)

theorem dueInstant_of_not_due {s : State} (due : ¬s.tb.nextInstant ≤ s.tb.lastTick + Machine.tickCounts) :
    s.dueInstant = s := if_neg (by rw [TB.instantDue, decide_eq_true_eq]; exact due)

theorem lossDue_iff (t : TB) :
    t.lossDue = true ↔ t.refState = .locked ∧ t.lossInstant ≤ t.lastTick + Machine.tickCounts := by
  rw [TB.lossDue, Bool.and_eq_true, beq_iff_eq, decide_eq_true_eq]

theorem frameInstant_locked {s : State} (locked : s.tb.refState = .locked) :
    s.frameInstant = { s with tb := { s.tb with osc := s.tb.nextInstant, genRestart := s.tb.nextInstant } } := if_pos locked

theorem frameInstant_marker {s : State} (locked : s.tb.refState ≠ .locked) :
    s.frameInstant = marker { s with tb := { s.tb with osc := s.tb.nextInstant, genRestart := s.tb.nextInstant } } :=
  if_neg locked

/-- A command that is carried out as `f` leads to what `f` makes. -/
theorem leads_of_eq {c : Instr} {s t u : State} (exec_eq : exec c s = u.done) (eq : u = t) : Leads c s t := eq ▸ exec_eq

end State

/-- Settles O19. -/
theorem generatorInstants : Obligations.GeneratorInstants := by
  intro s s1 s2
  constructor
  · split
    next due =>
      have instant : exec .internalFrameInstant s = s.frameInstant.done := State.dueInstant_of_due due ▸ rfl
      split
      next locked => exact State.leads_of_eq instant (State.frameInstant_locked locked)
      next other => exact ⟨_, State.leads_of_eq instant (State.frameInstant_marker other), s1.marker_taken⟩
    next not_due => exact State.leads_of_eq rfl (State.dueInstant_of_not_due not_due)
  · split
    next due => exact ⟨s.loseReference, State.leads_of_eq rfl (if_pos ((State.lossDue_iff s.tb).mpr due)), State.marker_taken _⟩
    next not_due => exact State.leads_of_eq rfl (if_neg (mt (State.lossDue_iff s.tb).mp not_due))

namespace State

/-! ### A pulse on the reference input (R10, R11) -/

/-- None of TB's own instants falls before `n`. -/
theorem tbUpTo_of_none {s : State} {n : Nat} (instant : n ≤ s.tb.nextInstant)
    (loss : s.tb.refState = .locked → n ≤ s.tb.lossInstant) : s.tbUpTo n = s := by
  have early : ¬s.tb.nextInstant < n := Nat.not_lt.mpr instant
  have first : ¬(s.tb.nextInstant < n ∧ (s.tb.refState = .locked → s.tb.nextInstant < s.tb.lossInstant)) :=
    fun h => early h.1
  have second : ¬(s.tb.refState = .locked ∧ s.tb.lossInstant < n) := fun h => Nat.not_lt.mpr (loss h.1) h.2
  simp only [tbUpTo, if_neg first, if_neg second, if_neg early]

/-- The qualification after a scored pulse (R11). -/
theorem qual_of_scored (s : State) (n : Nat) : (if s.goodInterval n = true then s.tb.qual + 1 else 0) =
    match s.tb.prevPulse with
    | some p => if 9 * period s.tb.rate ≤ 10 * (n - p) ∧ 10 * (n - p) ≤ 11 * period s.tb.rate then s.tb.qual + 1 else 0
    | none => 0 := by
  unfold goodInterval
  cases s.tb.prevPulse with
  | none => rfl
  | some p => exact if_congr decide_eq_true_iff rfl rfl

/-- A pulse in LOCKED (R10), as the command `c` carries it out. -/
theorem lockedPulse_taken {c : Instr} {s : State} {n : Nat} (led : exec c s = (s.lockedPulse n).done) :
    if 9 * period s.tb.rate ≤ 10 * (n - s.tb.lastPulse) then
      ∃ t, Leads c s t ∧ MarkerTaken { s with tb := { s.tb with osc := n, lastPulse := n, genRestart := n } } t
    else Leads c s { s with tb := { s.tb with osc := n } } := by
  unfold lockedPulse at led
  split
  next accepted => exact ⟨_, leads_of_eq led (if_pos accepted), marker_taken _⟩
  next early => exact leads_of_eq led (if_neg early)

/-- A pulse in SEEKING or HOLDOVER (R11) that makes the qualification `q`, as the command `c` carries it out. -/
theorem scoredPulse_taken {c : Instr} {s : State} {n q : Nat} (led : exec c s = (s.scoredPulse n).done)
    (scores : (if s.goodInterval n = true then s.tb.qual + 1 else 0) = q) :
    let locked : TB := { s.tb with
      osc := n, qual := q, prevPulse := some n, lastPulse := n, genRestart := n, refState := .locked }
    if q = 8 then
      if period s.tb.rate ≤ 2 * (n - s.tb.lastMarker) then
        ∃ t, Leads c s t ∧ MarkerTaken { s with tb := locked, ntc := s.ntc.raise referenceObject } t
      else Leads c s { s with tb := locked, ntc := s.ntc.raise referenceObject }
    else Leads c s { s with tb := { s.tb with osc := n, qual := q, prevPulse := some n } } := by
  rw [scoredPulse, scores] at led
  dsimp only at led ⊢
  split
  next eighth =>
    rw [if_pos eighth] at led
    split
    next marks => exact ⟨_, leads_of_eq led (if_pos marks), marker_taken _⟩
    next close => exact leads_of_eq led (if_neg close)
  next fewer => exact leads_of_eq led (if_neg fewer)

end State

/-- Settles O20. -/
theorem referencePulse : Obligations.ReferencePulse := by
  intro offset s t0 P at0 q instant loss
  have pulse : exec (.referencePulse offset) s = (s.pulseAt t0).done := by
    show ((s.tbUpTo t0).pulseAt t0).done = _
    rw [State.tbUpTo_of_none instant loss]
  split
  next free => exact State.leads_of_eq pulse (by rw [State.pulseAt, free])
  next locked => exact State.lockedPulse_taken (by rw [pulse, State.pulseAt, locked])
  next seeking => exact State.scoredPulse_taken (by rw [pulse, State.pulseAt, seeking]) (s.qual_of_scored t0)
  next holdover => exact State.scoredPulse_taken (by rw [pulse, State.pulseAt, holdover]) (s.qual_of_scored t0)

end Sys2Proof.Machine
end

