-- ==== Sys2Proof/Proofs/Replay.lean ====
section
/-! PROOFS. What is due at the present second, and the replay of a forward step (O23). -/

namespace Sys2Proof.Machine
namespace State

variable {s t u : State} {i : Fin 192} {p q : Place} {e : TimeEntry}

/-! ### What BKU can still take (R81, R111) -/

/-- The run-on grants that the record in place `i` can still get (R82, R111). -/
def runOnsLeft (s : State) (i : Fin 192) : Nat :=
  match s.place i with
  | some p => p.booking.limit - p.booking.used
  | none => 0

/-- The most entries that BKU can take with no record admitted: those on the list and one more for each run-on grant. -/
def takesLeft (s : State) : Nat := s.bku.timeList.length + ∑ i, s.runOnsLeft i

theorem runOnsLeft_of_some (here : s.place i = some p) : s.runOnsLeft i = p.booking.limit - p.booking.used := by
  rw [runOnsLeft, here]

theorem runOnsLeft_of_none (free : s.place i = none) : s.runOnsLeft i = 0 := by rw [runOnsLeft, free]

theorem runOnsLeft_congr (same : t.place i = s.place i) : t.runOnsLeft i = s.runOnsLeft i := by
  rw [runOnsLeft, runOnsLeft, same]

/-- The events of a second leave TB, TCU, the queue of commands and the works windows (R5). -/
structure TimeFrame (s t : State) : Prop where
  tb : t.tb = s.tb
  tcu : t.tcu = s.tcu
  pending : t.pending = s.pending
  windows : ∀ r, (t.route r).worksStart = (s.route r).worksStart ∧ (t.route r).worksEnd = (s.route r).worksEnd

/-- No entry comes, and no run-on grant is given back. -/
structure Spends (s t : State) : Prop extends s.TimeFrame t where
  entries : t.bku.timeList.length ≤ s.bku.timeList.length
  runOns : ∀ i, t.runOnsLeft i ≤ s.runOnsLeft i

theorem TimeFrame.of_rmon (tb : t.tb = s.tb) (tcu : t.tcu = s.tcu) (pending : t.pending = s.pending)
    (rmon : t.rmon = s.rmon) : s.TimeFrame t :=
  ⟨tb, tcu, pending, fun r => by rw [route, rmon]; exact ⟨rfl, rfl⟩⟩

theorem TimeFrame.trans (h : s.TimeFrame t) (k : t.TimeFrame u) : s.TimeFrame u :=
  ⟨k.tb.trans h.tb, k.tcu.trans h.tcu, k.pending.trans h.pending, fun r =>
    ⟨(k.windows r).1.trans (h.windows r).1, (k.windows r).2.trans (h.windows r).2⟩⟩

theorem Spends.refl (s : State) : s.Spends s := ⟨.of_rmon rfl rfl rfl rfl, le_rfl, fun _ => le_rfl⟩

theorem Spends.trans (h : s.Spends t) (k : t.Spends u) : s.Spends u :=
  ⟨h.toTimeFrame.trans k.toTimeFrame, k.entries.trans h.entries, fun i => (k.runOns i).trans (h.runOns i)⟩

theorem Spends.takesLeft_le (h : s.Spends t) : t.takesLeft ≤ s.takesLeft :=
  Nat.add_le_add h.entries (Finset.sum_le_sum fun i _ => h.runOns i)

/-- The list and the limits bound what BKU takes at one instant (R82). -/
theorem takesLeft_le_takeFuel (low : s.LimitsLow) : s.takesLeft ≤ s.takeFuel := by
  have each (i : Fin 192) : s.runOnsLeft i ≤ 16 := by
    cases here : s.place i with
    | none => rw [runOnsLeft_of_none here]; exact Nat.zero_le _
    | some p =>
      have := low i p here
      rw [runOnsLeft_of_some here]
      omega
  refine Nat.add_le_add_left ((Finset.sum_le_card_nsmul _ _ 16 fun i _ => each i).trans ?_) _
  simp

/-! ### An entry taken (R81) -/

/-- The record of one place changes, with no more run-on grants than it had. -/
theorem Spends.of_setPlace (here : s.place i = some p) (bku : t.bku = (s.setPlace i (some q)).bku)
    (fewer : q.booking.limit - q.booking.used ≤ p.booking.limit - p.booking.used) (frame : s.TimeFrame t) : s.Spends t where
  toTimeFrame := frame
  entries := by rw [bku]; exact le_rfl
  runOns j := by
    have place : t.place j = (s.setPlace i (some q)).place j := by rw [State.place, bku]; rfl
    by_cases same : i = j
    · subst same
      rw [setPlace_place] at place
      rw [runOnsLeft_of_some place, runOnsLeft_of_some here]
      exact fewer
    · rw [setPlace_place_ne s _ same] at place
      exact (runOnsLeft_congr place).le

theorem OutsideLife.frame (h : s.OutsideLife t) : s.TimeFrame t := by
  obtain ⟨tb, rmon, -, -, -, tcu, -, -, pending, -⟩ := h
  exact .of_rmon tb tcu pending rmon

theorem Started.spends {why : Reason} (h : s.Started t i p why) (here : s.place i = some p) : s.Spends t :=
  .of_setPlace here h.place le_rfl h.outside.frame

theorem Ended.spends {why : Reason} (h : s.Ended t i p why) (here : s.place i = some p) : s.Spends t := by
  obtain ⟨m, bku, -⟩ := h.place
  exact .of_setPlace here bku le_rfl h.outside.frame

theorem waiting_spends (here : s.place i = some p) (why : Reason) : s.Spends (s.waiting i p why) :=
  .of_setPlace here rfl le_rfl (.of_rmon rfl rfl rfl rfl)

theorem Triggered.spends {cause : Reason} (h : s.Triggered t i p cause) (here : s.place i = some p) : s.Spends t := by
  obtain ⟨occupied, unavailable, starts⟩ := h
  by_cases taken : s.occupied i p.booking
  · exact occupied taken ▸ waiting_spends here _
  by_cases waits : p.booking.startRule = .allOrWait ∧ s.unavailable p.booking
  · exact unavailable taken waits.1 waits.2 ▸ waiting_spends here _
  · exact (starts taken fun rule none => waits ⟨rule, none⟩).spends here

theorem LeftService.spends {x : Settlement} {p0 : Place} (h : s.LeftService t i p x) (here : s.place i = some p0)
    (same : p.booking.limit - p.booking.used = p0.booking.limit - p0.booking.used) : s.Spends t := by
  obtain ⟨tb, rmon, -, -, tcu, -, -, pending⟩ := h.kept
  refine ⟨.of_rmon tb tcu pending rmon, ?_, fun j => ?_⟩
  · rw [h.entries]
    exact List.length_filter_le ..
  by_cases e : j = i
  · subst e
    by_cases free : s.stl.queue.length < 64
    · rw [runOnsLeft_of_none (h.appended free).1]
      exact Nat.zero_le _
    · rw [runOnsLeft_of_some (h.waits (Nat.le_of_not_lt free)).1, runOnsLeft_of_some here, ← same]
  · exact (runOnsLeft_congr (h.others j e)).le

theorem SettledAs.spends {x : Settlement} {p0 : Place} (h : s.SettledAs t i p x) (here : s.place i = some p0)
    (same : p.booking.limit - p.booking.used = p0.booking.limit - p0.booking.used) : s.Spends t := by
  obtain ⟨u, left, rfl⟩ := h
  have spends := left.spends here same
  split
  · exact spends.trans ⟨.of_rmon rfl rfl rfl rfl, le_rfl, fun _ => le_rfl⟩
  · exact spends

theorem Extended.frame {x : Nat} (h : s.Extended t i p x) : s.TimeFrame t := by
  rw [h.outside]
  exact .of_rmon rfl rfl rfl rfl

/-- A run-on grant is spent on the end entry that comes anew (R111). -/
theorem Extended.takesLeft_le {x : Nat} (h : s.Extended t i p x) (here : s.place i = some p)
    (left : p.booking.used < p.booking.limit) : t.takesLeft ≤ s.takesLeft := by
  have place (j : Fin 192) : t.place j = _ := congrArg (fun k : BKU => k.places.get j) h.place
  have grant : t.runOnsLeft i + 1 = s.runOnsLeft i := by
    rw [runOnsLeft_of_some ((place i).trans (setPlace_place s i _)), runOnsLeft_of_some here]
    dsimp only
    omega
  have others (j : Fin 192) (ne : j ≠ i) : t.runOnsLeft j = s.runOnsLeft j :=
    runOnsLeft_congr ((place j).trans (setPlace_place_ne s _ (Ne.symm ne)))
  have rest : ∑ j ∈ Finset.univ.erase i, t.runOnsLeft j = ∑ j ∈ Finset.univ.erase i, s.runOnsLeft j :=
    Finset.sum_congr rfl fun j mem => others j (Finset.ne_of_mem_erase mem)
  have sum_s : s.runOnsLeft i + ∑ j ∈ Finset.univ.erase i, s.runOnsLeft j = ∑ j, s.runOnsLeft j :=
    Finset.add_sum_erase _ _ (Finset.mem_univ i)
  have sum_t : t.runOnsLeft i + ∑ j ∈ Finset.univ.erase i, t.runOnsLeft j = ∑ j, t.runOnsLeft j :=
    Finset.add_sum_erase _ _ (Finset.mem_univ i)
  have entries : t.bku.timeList.length ≤ s.bku.timeList.length + 1 := by
    rw [h.entry.length_eq, List.length_cons]
    exact Nat.succ_le_succ (List.length_filter_le ..)
  unfold takesLeft
  omega

/-- The time list without the entry `e`. -/
def withoutEntry (s : State) (e : TimeEntry) : State :=
  { s with bku := { s.bku with timeList := s.bku.timeList.filter (· != e) } }

theorem EndTaken.spends_or_extended (h : s.EndTaken t i p) (here : s.place i = some p) :
    s.Spends t ∨ p.booking.used < p.booking.limit ∧ ∃ x, s.Extended t i p x := by
  unfold EndTaken at h
  dsimp only at h
  cases state : p.booking.state with
  | live | runOn =>
    rw [state] at h
    obtain ⟨grants, extended⟩ | ⟨-, ended⟩ := ite_prop_iff_or.mp h
    · exact .inr ⟨grants.1.2, _, extended⟩
    · exact .inl (ended.spends here)
  | starting =>
    rw [state] at h
    exact .inl (Ended.spends h here)
  | armed | waiting =>
    rw [state] at h
    dsimp only at h
    exact .inl (SettledAs.spends h here rfl)
  | scheduled | ending | closing =>
    rw [state] at h
    exact .inl (h ▸ .refl s)

theorem EntryTaken.spends_or_extended (h : EntryTaken e s t) : (s.withoutEntry e).Spends t ∨
    ∃ p x, s.place e.record = some p ∧ p.booking.used < p.booking.limit ∧ (s.withoutEntry e).Extended t e.record p x := by
  have same (j : Fin 192) : (s.withoutEntry e).place j = s.place j := rfl
  unfold EntryTaken at h
  dsimp only at h
  cases here : s.place e.record with
  | none =>
    rw [here] at h
    exact .inl (h ▸ .refl _)
  | some p =>
    rw [here] at h
    have here1 := (same e.record).trans here
    cases kind : e.kind with
    | arm =>
      rw [kind] at h
      dsimp only at h
      refine .inl ?_
      rw [h]
      split
      · exact .of_setPlace here1 rfl le_rfl (.of_rmon rfl rfl rfl rfl)
      · exact .refl _
    | start =>
      rw [kind] at h
      dsimp only at h
      split at h
      · exact .inl (Triggered.spends h here1)
      · exact .inl (h ▸ .refl _)
    | stop =>
      rw [kind] at h
      rcases EndTaken.spends_or_extended h here1 with spends | ⟨left, x, extended⟩
      · exact .inl spends
      · exact .inr ⟨p, x, rfl, left, extended⟩

theorem withoutEntry_frame (s : State) (e : TimeEntry) : s.TimeFrame (s.withoutEntry e) := .of_rmon rfl rfl rfl rfl

theorem EntryTaken.frame (h : EntryTaken e s t) : s.TimeFrame t := by
  rcases h.spends_or_extended with spends | ⟨p, x, -, -, extended⟩
  · exact (s.withoutEntry_frame e).trans spends.toTimeFrame
  · exact (s.withoutEntry_frame e).trans extended.frame

theorem EntryTaken.takesLeft_lt (h : EntryTaken e s t) (mem : e ∈ s.bku.timeList) : t.takesLeft < s.takesLeft := by
  have fewer : (s.withoutEntry e).takesLeft < s.takesLeft :=
    Nat.add_lt_add_right (List.length_filter_lt_length_iff_exists.mpr ⟨e, mem, by simp⟩) _
  refine lt_of_le_of_lt ?_ fewer
  rcases h.spends_or_extended with spends | ⟨p, x, here, left, extended⟩
  · exact spends.takesLeft_le
  · exact extended.takesLeft_le here left

/-! ### The works edges of a second (R27) -/

theorem HealthTaken.window {cs : List (Fin 24)} (h : s.HealthTaken t cs) (r : Fin 48) :
    (t.route r).worksStart = (s.route r).worksStart ∧ (t.route r).worksEnd = (s.route r).worksEnd := by
  by_cases same : t.health r = s.health r
  · rw [h.unchanged r (.inl same)]
    exact ⟨rfl, rfl⟩
  · rw [h.changed r same]
    exact ⟨rfl, rfl⟩

theorem HealthTaken.spends {cs : List (Fin 24)} (h : s.HealthTaken t cs) : s.Spends t := by
  obtain ⟨tb, -, -, tcu, -, pending, -, -, entries, places⟩ := h.outside
  refine ⟨⟨tb, tcu, pending, h.window⟩, by rw [entries], fun i => ?_⟩
  rcases places i with ⟨-, free⟩ | ⟨p, q, here, there, booking, -⟩
  · rw [runOnsLeft_of_none free]
    exact Nat.zero_le _
  · rw [runOnsLeft_of_some here, runOnsLeft_of_some there, booking]

theorem WorksTaken.spends {n : Nat} (h : WorksTaken n s t) : s.Spends t := by
  have worked : HealthTaken _ t _ := h
  refine Spends.trans ?_ worked.spends
  refine ⟨⟨rfl, rfl, rfl, fun r => ?_⟩, le_rfl, fun _ => le_rfl⟩
  rw [State.route, tab_get]
  dsimp only
  split_ifs <;> exact ⟨rfl, rfl⟩

theorem WorksTaken.entries {n : Nat} (h : WorksTaken n s t) : t.bku.timeList = s.bku.timeList := by
  obtain ⟨-, -, -, -, -, -, -, -, entries, -⟩ := (show HealthTaken _ _ _ from h).outside
  exact entries

/-! ### What is due at the present second (R2, R27, R81) -/

theorem Reaches.limitsLow (h : s.Reaches t) (low : s.LimitsLow) : t.LimitsLow :=
  law_of_events (fun _ _ => BookEvent.limitsLow) h.books low

theorem takeDueEntries_frame (n : Nat) (s : State) : s.TimeFrame (takeDueEntries n s) := by
  induction n generalizing s with
  | zero => exact (Spends.refl s).toTimeFrame
  | succ n ih =>
    unfold takeDueEntries
    split
    · exact (takeEntry_taken s _).frame.trans (ih _)
    · exact (Spends.refl s).toTimeFrame

/-- With fuel for all that BKU can take, it takes entries until none is due. -/
theorem takeDueEntries_exhausts (n : Nat) (s : State) (enough : s.takesLeft ≤ n) :
    Exhausts (fun u => u.bku.timeList.find? u.isDue) EntryTaken s (takeDueEntries n s) := by
  induction n generalizing s with
  | zero =>
    refine .stop ?_
    have empty : s.bku.timeList = [] := List.length_eq_zero_iff.mp (Nat.le_zero.mp ((Nat.le_add_right ..).trans enough))
    rw [empty]
    rfl
  | succ n ih =>
    unfold takeDueEntries
    rw [nextEntry_eq]
    cases next : s.bku.timeList.find? s.isDue with
    | none => exact .stop next
    | some e =>
      have taken := takeEntry_taken s e
      have fewer := taken.takesLeft_lt (List.mem_of_find?_eq_some next)
      exact .step next taken (ih _ (by omega))

theorem takeSecond_taken (low : s.LimitsLow) : s.SecondTaken s.takeSecond := by
  have low : s.handBoundary.takeWorksEdge.LimitsLow := (s.reaches_handBoundary.trans (reaches_takeWorksEdge _)).limitsLow low
  refine ⟨s.handBoundary.takeWorksEdge, ?_, takeDueEntries_exhausts _ _ (takesLeft_le_takeFuel low)⟩
  show match s.handBoundary.rmon.worksDue with
    | some n => WorksTaken n { s.handBoundary with rmon := { s.handBoundary.rmon with worksDue := none } }
        s.handBoundary.takeWorksEdge
    | none => s.handBoundary.takeWorksEdge = s.handBoundary
  split
  next n due => exact takeWorksEdge_of_due due
  next none => exact takeWorksEdge_of_none none

/-! ### The entries of a replayed second (R5) -/

theorem onBooking_spends (u : State) (i : Fin 192) (f : Booking → Booking)
    (same : ∀ b, (f b).limit = b.limit ∧ (f b).used = b.used) : u.Spends (u.onBooking i f) := by
  cases here : u.place i with
  | none =>
    rw [onBooking, onPlace, here]
    exact .refl u
  | some p =>
    obtain ⟨limit, used⟩ := same p.booking
    rw [onBooking_of_some here]
    exact .of_setPlace here rfl (by rw [limit, used]) (.of_rmon rfl rfl rfl rfl)

theorem EntryReplayed.spends (h : EntryReplayed e s t) : ∃ u, EntryTaken e s u ∧ u.Spends t := by
  obtain ⟨u, taken, rfl⟩ := h
  refine ⟨u, taken, ?_⟩
  split
  · exact onBooking_spends u _ _ fun _ => ⟨rfl, rfl⟩
  · exact .refl u

theorem EntryReplayed.frame (h : EntryReplayed e s t) : s.TimeFrame t := by
  obtain ⟨u, taken, spends⟩ := h.spends
  exact taken.frame.trans spends.toTimeFrame

theorem EntryReplayed.takesLeft_lt (h : EntryReplayed e s t) (mem : e ∈ s.bku.timeList) : t.takesLeft < s.takesLeft := by
  obtain ⟨u, taken, spends⟩ := h.spends
  exact spends.takesLeft_le.trans_lt (taken.takesLeft_lt mem)

theorem mem_of_head_filter {l : List TimeEntry} {f : TimeEntry → Bool} (h : l.head?.filter f = some e) :
    e ∈ l ∧ f e = true := by
  obtain ⟨head, ok⟩ := Option.filter_eq_some_iff.mp h
  exact ⟨List.mem_of_head? head, ok⟩

theorem EntriesReplayed.takesLeft_le {n : Nat} (h : EntriesReplayed n s t) : t.takesLeft ≤ s.takesLeft := by
  unfold EntriesReplayed at h
  induction h with
  | stop => exact le_rfl
  | step next replayed _ ih => exact ih.trans (replayed.takesLeft_lt (mem_of_head_filter next).1).le

/-- An entry of the second or before it is taken. -/
theorem EntriesReplayed.takesLeft_lt {n : Nat} (h : EntriesReplayed n s t) (head : s.bku.timeList.head? = some e)
    (due : e.second ≤ n) : t.takesLeft < s.takesLeft := by
  have next : s.bku.timeList.head?.filter (fun e => decide (e.second ≤ n)) = some e := by
    rw [head]
    exact Option.filter_eq_some_iff.mpr ⟨rfl, decide_eq_true due⟩
  cases h with
  | stop none => exact nomatch none.symm.trans next
  | step first replayed rest =>
    exact (takesLeft_le rest).trans_lt (replayed.takesLeft_lt (mem_of_head_filter first).1)

theorem EntriesReplayed.done {n : Nat} (h : EntriesReplayed n s t) :
    t.bku.timeList.head?.filter (fun e => decide (e.second ≤ n)) = none := by
  unfold EntriesReplayed at h
  induction h with
  | stop none => exact none
  | step _ _ _ ih => exact ih

theorem replayEntry_replayed (s : State) (e : TimeEntry) : EntryReplayed e s (s.replayEntry e) :=
  ⟨_, takeEntry_taken s e, rfl⟩

theorem replayEntries_frame (n fuel : Nat) (s : State) : s.TimeFrame (replayEntries n fuel s) := by
  induction fuel generalizing s with
  | zero => exact (Spends.refl s).toTimeFrame
  | succ fuel ih =>
    unfold replayEntries
    split
    · split
      · exact (s.replayEntry_replayed _).frame.trans (ih _)
      · exact (Spends.refl s).toTimeFrame
    · exact (Spends.refl s).toTimeFrame

theorem replayEntries_replayed (n fuel : Nat) (s : State) (enough : s.takesLeft ≤ fuel) :
    EntriesReplayed n s (replayEntries n fuel s) := by
  induction fuel generalizing s with
  | zero =>
    refine .stop ?_
    have empty : s.bku.timeList = [] := List.length_eq_zero_iff.mp (Nat.le_zero.mp ((Nat.le_add_right ..).trans enough))
    rw [empty]
    rfl
  | succ fuel ih =>
    unfold replayEntries
    split
    next e rest list =>
      have head : s.bku.timeList.head? = some e := by rw [list]; rfl
      split
      next due =>
        have replayed := s.replayEntry_replayed e
        have fewer := replayed.takesLeft_lt (List.mem_of_head? head)
        exact .step (Option.filter_eq_some_iff.mpr ⟨head, decide_eq_true due⟩) replayed (ih _ (by omega))
      next later =>
        refine .stop ?_
        rw [head]
        exact Option.filter_eq_none_iff.mpr fun a eq => by cases eq; simpa using later
    next list =>
      refine .stop ?_
      rw [list]
      rfl

/-! ### A replayed second (R5, R105) -/

/-- RMON and BKU take the second one after the other. -/
theorem replaySecond_turns (low : s.LimitsLow) (n : Nat) :
    (∃ a, WorksTaken n s.raced a ∧ EntriesReplayed n a (s.replaySecond n)) ∨
      ∃ a, EntriesReplayed n s.raced a ∧ WorksTaken n a (s.replaySecond n) := by
  have enough := takesLeft_le_takeFuel low
  unfold replaySecond
  dsimp only
  split
  · have worked := worksEdges_taken n s.raced
    exact .inl ⟨_, worked, replayEntries_replayed n _ _ (worked.spends.takesLeft_le.trans enough)⟩
  · exact .inr ⟨_, replayEntries_replayed n _ s.raced enough, worksEdges_taken n _⟩

theorem replaySecond_replayed (low : s.LimitsLow) (n : Nat) : s.SecondReplayed n (s.replaySecond n) := by
  rcases replaySecond_turns low n with ⟨a, worked, replayed⟩ | ⟨a, replayed, worked⟩
  · exact ⟨_, .refl _, a, ⟨_, worked⟩, _, raced_of replayed, rfl⟩
  · exact ⟨_, .swap .., a, ⟨_, replayed⟩, _, raced_of worked, rfl⟩

theorem raced_frame (s : State) : s.TimeFrame s.raced := .of_rmon rfl rfl rfl rfl

theorem replaySecond_frame (s : State) (n : Nat) : s.TimeFrame (s.replaySecond n) := by
  have worked (v : State) : v.TimeFrame (v.worksEdges n) := (worksEdges_taken n v).spends.toTimeFrame
  refine s.raced_frame.trans ?_
  unfold replaySecond
  dsimp only
  split
  · exact (worked _).trans (replayEntries_frame ..)
  · exact (replayEntries_frame ..).trans (worked _)

theorem replay_frame (hi n lo : Nat) (s : State) : s.TimeFrame (replay hi n lo s) := by
  induction n generalizing lo s with
  | zero => exact (Spends.refl s).toTimeFrame
  | succ n ih =>
    unfold replay
    split
    · exact (s.replaySecond_frame _).trans (ih _ _)
    · exact (Spends.refl s).toTimeFrame

theorem replaySecond_takesLeft_le (low : s.LimitsLow) (n : Nat) : (s.replaySecond n).takesLeft ≤ s.takesLeft := by
  rcases replaySecond_turns low n with ⟨a, worked, replayed⟩ | ⟨a, replayed, worked⟩
  · exact replayed.takesLeft_le.trans worked.spends.takesLeft_le
  · exact worked.spends.takesLeft_le.trans replayed.takesLeft_le

theorem replaySecond_takesLeft_lt (low : s.LimitsLow) {n : Nat} (head : s.bku.timeList.head? = some e) (due : e.second ≤ n) :
    (s.replaySecond n).takesLeft < s.takesLeft := by
  rcases replaySecond_turns low n with ⟨a, worked, replayed⟩ | ⟨a, replayed, worked⟩
  · exact (replayed.takesLeft_lt (worked.entries ▸ head) due).trans_le worked.spends.takesLeft_le
  · exact worked.spends.takesLeft_le.trans_lt (replayed.takesLeft_lt head due)

/-- In the order of the list no entry lies before the first. -/
theorem TimeListLaw.head_le (law : s.TimeListLaw) {a : TimeEntry} (head : s.bku.timeList.head? = some e)
    (mem : a ∈ s.bku.timeList) : e.second ≤ a.second := by
  obtain ⟨ordered, -⟩ := law
  cases list : s.bku.timeList with
  | nil => rw [list] at mem; cases mem
  | cons x l =>
    rw [list] at head mem ordered
    cases head
    rcases List.mem_cons.mp mem with rfl | mem
    · exact le_rfl
    · rcases (List.pairwise_cons.mp ordered).1 a mem with lt | ⟨eq, -⟩
      · exact lt.le
      · exact eq.le

/-- Behind a replayed second every entry lies later (R5). -/
theorem replaySecond_later (low : s.LimitsLow) (law : s.TimeListLaw) (n : Nat) :
    ∀ a ∈ (s.replaySecond n).bku.timeList, n < a.second := by
  have law : (s.replaySecond n).TimeListLaw := (s.reaches_replaySecond n).keeps.timeListLaw law
  have done : (s.replaySecond n).bku.timeList.head?.filter (fun e => decide (e.second ≤ n)) = none := by
    rcases replaySecond_turns low n with ⟨a, -, replayed⟩ | ⟨a, replayed, worked⟩
    · exact replayed.done
    · rw [worked.entries]
      exact replayed.done
  intro a mem
  cases head : (s.replaySecond n).bku.timeList.head? with
  | none =>
    rw [List.head?_eq_none_iff.mp head] at mem
    cases mem
  | some e =>
    have later : ¬e.second ≤ n := by
      have := Option.filter_eq_none_iff.mp done e head
      simpa using this
    exact (Nat.lt_of_not_le later).trans_le (law.head_le head mem)

/-! ### The seconds that are replayed (R5) -/

theorem mem_worksSeconds {lo hi n : Nat} : n ∈ s.worksSeconds lo hi ↔
    (∃ r, (s.route r).worksStart = n ∨ (s.route r).worksEnd = n) ∧ lo < n ∧ n ≤ hi := by
  simp only [worksSeconds, List.mem_filter, List.mem_flatMap, List.mem_finRange, true_and, List.mem_cons, List.not_mem_nil,
    or_false, decide_eq_true_eq, eq_comm (a := n)]

/-- The seconds among which the replay takes the least (R5). -/
def expiries (s : State) (lo hi : Nat) : List Nat :=
  s.worksSeconds lo hi ++ (s.bku.timeList.take 1).filterMap fun e =>
    if e.second ≤ hi then some (max e.second (lo + 1)) else none

theorem nextReplay_eq (s : State) (lo hi : Nat) : s.nextReplay lo hi = (s.expiries lo hi).min? := rfl

theorem mem_expiries {lo hi n : Nat} (later : ∀ a ∈ s.bku.timeList, lo < a.second) :
    n ∈ s.expiries lo hi ↔ n ∈ s.worksSeconds lo hi ∨ ∃ e, s.bku.timeList.head? = some e ∧ e.second ≤ hi ∧ e.second = n := by
  rw [expiries, List.mem_append, List.mem_filterMap]
  refine or_congr_right ⟨?_, ?_⟩
  · rintro ⟨e, mem, eq⟩
    cases list : s.bku.timeList with
    | nil => rw [list] at mem; cases mem
    | cons x l =>
      rw [list] at mem later
      obtain rfl := List.mem_singleton.mp mem
      have := later e List.mem_cons_self
      split at eq
      next within =>
        refine ⟨e, rfl, within, ?_⟩
        have := Option.some.inj eq
        omega
      next => cases eq
  · rintro ⟨e, head, within, rfl⟩
    cases list : s.bku.timeList with
    | nil => rw [list] at head; cases head
    | cons x l =>
      rw [list] at head later
      cases head
      refine ⟨e, List.mem_singleton.mpr rfl, ?_⟩
      rw [if_pos within, max_eq_left (later e List.mem_cons_self)]

/-- A second in the range holds an expiry exactly where the replay finds one no later (R5). -/
theorem expiries_spec {lo hi : Nat} (law : s.TimeListLaw) (later : ∀ a ∈ s.bku.timeList, lo < a.second) :
    (∀ n ∈ s.expiries lo hi, lo < n ∧ n ≤ hi ∧ s.hasExpiry n) ∧
      ∀ n, lo < n → n ≤ hi → s.hasExpiry n → ∃ m ∈ s.expiries lo hi, m ≤ n := by
  refine ⟨fun n mem => ?_, fun n low high expiry => ?_⟩
  · rcases (mem_expiries later).mp mem with works | ⟨e, head, within, rfl⟩
    · obtain ⟨edge, low, high⟩ := mem_worksSeconds.mp works
      exact ⟨low, high, .inr edge⟩
    · have mem := List.mem_of_head? head
      exact ⟨later e mem, within, .inl ⟨e, mem, rfl⟩⟩
  · rcases expiry with ⟨a, mem, rfl⟩ | edge
    · cases head : s.bku.timeList.head? with
      | none =>
        rw [List.head?_eq_none_iff.mp head] at mem
        cases mem
      | some e =>
        have first := law.head_le head mem
        exact ⟨e.second, (mem_expiries later).mpr (.inr ⟨e, head, first.trans high, rfl⟩), first⟩
    · exact ⟨n, (mem_expiries later).mpr (.inl (mem_worksSeconds.mpr ⟨edge, low, high⟩)), le_rfl⟩

theorem length_worksSeconds (s : State) (lo hi : Nat) : (s.worksSeconds lo hi).length ≤ 96 := by
  refine (List.length_filter_le ..).trans ?_
  simp [List.length_flatMap]

/-- The works seconds behind a replayed one are fewer, by that one where it is of them. -/
theorem worksSeconds_after (h : s.TimeFrame t) {lo hi n : Nat} (after : lo < n) :
    (t.worksSeconds n hi).length ≤ (s.worksSeconds lo hi).length ∧
      (n ∈ s.worksSeconds lo hi → (t.worksSeconds n hi).length < (s.worksSeconds lo hi).length) := by
  have eq : t.worksSeconds n hi = (s.worksSeconds lo hi).filter fun m => decide (n < m) := by
    unfold worksSeconds
    simp only [h.windows, List.filter_filter]
    refine List.filter_congr fun m _ => ?_
    rw [← Bool.decide_and, decide_eq_decide]
    omega
  rw [eq]
  exact ⟨List.length_filter_le .., fun mem => List.length_filter_lt_length_iff_exists.mpr ⟨n, mem, by simp⟩⟩

/-- With fuel for what BKU can take and for the works edges of the range, every second with an expiry is replayed (R5). -/
theorem replay_replayed (hi fuel lo : Nat) (s : State) (low : s.LimitsLow) (law : s.TimeListLaw)
    (later : ∀ a ∈ s.bku.timeList, lo < a.second)
    (enough : s.takesLeft + (s.worksSeconds lo hi).length ≤ fuel) : Replayed hi lo s (replay hi fuel lo s) := by
  induction fuel generalizing lo s with
  | zero =>
    refine .done fun n after within expiry => ?_
    obtain ⟨m, mem, -⟩ := (expiries_spec law later).2 n after within expiry
    have no_entry : s.bku.timeList.length = 0 := by unfold takesLeft at enough; omega
    have no_works : (s.worksSeconds lo hi).length = 0 := by omega
    rw [expiries, List.length_eq_zero_iff.mp no_entry, List.length_eq_zero_iff.mp no_works] at mem
    cases mem
  | succ fuel ih =>
    obtain ⟨sound, complete⟩ := expiries_spec (hi := hi) law later
    unfold replay
    rw [nextReplay_eq]
    cases least : (s.expiries lo hi).min? with
    | none =>
      rw [List.min?_eq_none_iff] at least
      refine .done fun n after within expiry => ?_
      obtain ⟨m, mem, -⟩ := complete n after within expiry
      rw [least] at mem
      cases mem
    | some n =>
      obtain ⟨mem, least⟩ := List.min?_eq_some_iff.mp least
      obtain ⟨after, within, expiry⟩ := sound n mem
      have reaches := s.reaches_replaySecond n
      have frame := s.replaySecond_frame n
      have fewer := replaySecond_takesLeft_le low n
      obtain ⟨shorter, by_works⟩ := worksSeconds_after (hi := hi) frame after
      have measure : (s.replaySecond n).takesLeft + ((s.replaySecond n).worksSeconds n hi).length ≤ fuel := by
        rcases (mem_expiries later).mp mem with works | ⟨e, head, -, second⟩
        · have := by_works works
          omega
        · have := replaySecond_takesLeft_lt low head second.le
          omega
      refine .second after within expiry (fun m above below has => ?_) (replaySecond_replayed low n)
        (ih n _ (reaches.limitsLow low) (reaches.keeps.timeListLaw law) (replaySecond_later low law n) measure)
      obtain ⟨k, mem, le⟩ := complete m above (below.le.trans within) has
      exact absurd (least k mem) (by omega)

/-! ### A forward step (R5, R7) -/

/-- The records on their way are flagged (R7). -/
theorem flagStepped_eq (s : State) : s.flagStepped = { s with
    bku := { s.bku with places := tab fun i => (s.place i).map fun p =>
      { p with booking := { p.booking with
        timeStepped := p.booking.timeStepped || p.booking.state.active } } } } := by
  have flag (p : Place) : (if p.booking.state.active = true then
      { p with booking := { p.booking with timeStepped := true } } else p) =
      { p with booking := { p.booking with timeStepped := p.booking.timeStepped || p.booking.state.active } } := by
    cases p.booking.state.active with
    | true => rw [if_pos rfl, Bool.or_true]
    | false => rw [if_neg nofun, Bool.or_false]
  unfold flagStepped mapPlaces
  simp only [flag]

theorem stepForward_replayed {n : Nat} (low : s.LimitsLow) (law : s.TimeListLaw)
    (later : ∀ e ∈ s.bku.timeList, s.tb.seconds < e.second) :
    Replayed n s.tb.seconds (State.flagStepped { s with tb := { s.tb with seconds := n, sub := 0 } }) (s.stepForward n) := by
  set s1 := State.flagStepped { s with tb := { s.tb with seconds := n, sub := 0 } }
  have flagged : State.Reaches { s with tb := { s.tb with seconds := n, sub := 0 } } s1 := reaches_flagStepped _
  have low : s1.LimitsLow := flagged.limitsLow low
  have takes : s1.takesLeft ≤ s1.bku.timeList.length + 192 * 16 := takesLeft_le_takeFuel low
  have works := s1.length_worksSeconds s.tb.seconds n
  refine replay_replayed n s1.replayFuel s.tb.seconds s1 low (flagged.keeps.timeListLaw law) later ?_
  rw [replayFuel]
  omega

end State

/-- Settles O23. -/
theorem replay : Obligations.Replay := by
  refine ⟨fun s low => State.takeSecond_taken low, fun s n _ low law later => ?_⟩
  have replayed := State.stepForward_replayed (n := n) low law later
  rw [State.flagStepped_eq] at replayed
  exact replayed

end Sys2Proof.Machine
end

