-- ==== Sys2Proof/Proofs/LinkBlind.lean ====
section
/-! PROOFS. What is due at the present second, and the steps of network time, neither read nor change LNK: SET_TIME (O22). -/

namespace Sys2Proof.Machine
namespace State

/-- `s` with the state of LNK replaced. -/
def withLink (s : State) (l : LNK) : State := { s with lnk := l }

variable (s : State) (l : LNK)

/-! ### What is read of a state -/

@[simp] theorem withLink_place (i : Fin 192) : (s.withLink l).place i = s.place i := rfl
@[simp] theorem withLink_xport (p : Fin 32) : (s.withLink l).xport p = s.xport p := rfl
@[simp] theorem withLink_route (r : Fin 48) : (s.withLink l).route r = s.route r := rfl
@[simp] theorem withLink_circuit (c : Fin 24) : (s.withLink l).circuit c = s.circuit c := rfl
@[simp] theorem withLink_drill (c : Fin 24) : (s.withLink l).drill c = s.drill c := rfl
@[simp] theorem withLink_tb : (s.withLink l).tb = s.tb := rfl
@[simp] theorem withLink_bku : (s.withLink l).bku = s.bku := rfl
@[simp] theorem withLink_raceFirst : (s.withLink l).raceFirst = s.raceFirst := rfl

/-! ### One part at a time -/

@[simp] theorem withLink_raise (o : Fin 267) : (s.withLink l).raise o = (s.raise o).withLink l := rfl
@[simp] theorem withLink_withdraw (o : Fin 267) : (s.withLink l).withdraw o = (s.withdraw o).withLink l := rfl
@[simp] theorem withLink_raced : (s.withLink l).raced = s.raced.withLink l := rfl
@[simp] theorem withLink_setRoute (r : Fin 48) (x : Route) : (s.withLink l).setRoute r x = (s.setRoute r x).withLink l := rfl
@[simp] theorem withLink_setDrill (c : Fin 24) (d : Option Drill) :
    (s.withLink l).setDrill c d = (s.setDrill c d).withLink l := rfl
@[simp] theorem withLink_setCircuit (c : Fin 24) (k : Circuit) :
    (s.withLink l).setCircuit c k = (s.setCircuit c k).withLink l := rfl
@[simp] theorem withLink_onXPort (p : Fin 32) (f : XPort → XPort) :
    (s.withLink l).onXPort p f = (s.onXPort p f).withLink l := rfl
@[simp] theorem withLink_mapRoutes (f : Route → Route) : (s.withLink l).mapRoutes f = (s.mapRoutes f).withLink l := rfl

@[simp] theorem withLink_onPlace (i : Fin 192) (f : Place → Place) :
    (s.withLink l).onPlace i f = (s.onPlace i f).withLink l := by
  rw [onPlace, onPlace, withLink_place]
  cases s.place i with
  | none => rfl
  | some p => rfl

@[simp] theorem withLink_onBooking (i : Fin 192) (f : Booking → Booking) :
    (s.withLink l).onBooking i f = (s.onBooking i f).withLink l := withLink_onPlace s l i _

@[simp] theorem withLink_onMeter (i : Fin 192) (f : MeterSet → MeterSet) :
    (s.withLink l).onMeter i f = (s.onMeter i f).withLink l := withLink_onPlace s l i _

@[simp] theorem withLink_enterState (i : Fin 192) (st : BookingState) (reason : Reason) :
    (s.withLink l).enterState i st reason = (s.enterState i st reason).withLink l := by
  rw [enterState, enterState, withLink_onBooking, withLink_raise]

/-- Operations that do not read LNK, one for each element of a list. -/
theorem withLink_foldl {β : Type} {f : State → β → State} {l : LNK}
    (each : ∀ (s : State) (b : β), f (s.withLink l) b = (f s b).withLink l) (bs : List β) (s : State) :
    bs.foldl f (s.withLink l) = (bs.foldl f s).withLink l := by
  induction bs generalizing s with
  | nil => rfl
  | cons b bs ih => rw [List.foldl_cons, List.foldl_cons, each, ih]

/-- The choice between two outcomes does not read LNK. -/
theorem withLink_ite {c : Prop} [Decidable c] {l : LNK} (t u : State) :
    (if c then t else u).withLink l = if c then t.withLink l else u.withLink l := apply_ite (withLink · l) c t u

/-! ### Flags, gates and selection (R57, R126, R137, R145) -/

@[simp] theorem withLink_evalGateAt (i : Fin 192) : (s.withLink l).evalGateAt i = (s.evalGateAt i).withLink l := by
  rw [evalGateAt, evalGateAt, withLink_place]
  cases s.place i with
  | none => rfl
  | some p => rfl

@[simp] theorem withLink_storeFlag (p : Fin 32) : (s.withLink l).storeFlag p = (s.storeFlag p).withLink l := by
  have flag : (s.withLink l).deliveredNow p = s.deliveredNow p := rfl
  unfold storeFlag
  dsimp only
  rw [flag, withLink_xport, withLink_onXPort]
  cases (s.xport p).holder with
  | slot ref =>
    cases s.deliveredNow p with
    | none => rfl
    | some b => exact withLink_onPlace _ l _ _
  | patch | nobody => rfl

@[simp] theorem withLink_recomputeFlags (ports : List (Fin 32)) :
    (s.withLink l).recomputeFlags ports = (s.recomputeFlags ports).withLink l := by
  have changed : (fun p => (s.withLink l).deliveredNow p != ((s.withLink l).xport p).delivered) =
      fun p => s.deliveredNow p != (s.xport p).delivered := rfl
  have holders : (s.withLink l).holderRecord = s.holderRecord := rfl
  unfold recomputeFlags
  dsimp only
  rw [changed, holders, withLink_foldl (withLink_storeFlag · l), withLink_foldl (withLink_evalGateAt · l)]

@[simp] theorem withLink_resource (feed old new : Fin 48) :
    (s.withLink l).resource feed old new = (s.resource feed old new).withLink l :=
  withLink_recomputeFlags { s with
    xpc := { s.xpc with ports := tab fun p => s.resourcePort feed old new (s.xport p) } } l _

@[simp] theorem withLink_xpcHealth (changed : List (Fin 48)) :
    (s.withLink l).xpcHealth changed = (s.xpcHealth changed).withLink l := withLink_recomputeFlags s l _

@[simp] theorem withLink_handSelection (c : Fin 24) (old new : Side) :
    (s.withLink l).handSelection c old new = (s.handSelection c old new).withLink l := by
  rw [handSelection, handSelection, withLink_resource]
  rfl

@[simp] theorem withLink_changeSelector (c : Fin 24) (st : SelState) (reason : CircuitReason) :
    (s.withLink l).changeSelector c st reason = (s.changeSelector c st reason).withLink l := by
  have side : (s.withLink l).selectedSide c = s.selectedSide c := rfl
  unfold changeSelector
  dsimp only
  rw [side]
  cases s.selectedSide c with
  | none => rfl
  | some side =>
    dsimp only
    rw [withLink_ite, withLink_circuit, withLink_tb, withLink_setCircuit, withLink_raise, withLink_handSelection]

@[simp] theorem withLink_guardedSwitch (c : Fin 24) (st : SelState) (reason : CircuitReason) :
    (s.withLink l).guardedSwitch c st reason = (s.guardedSwitch c st reason).withLink l := by
  unfold guardedSwitch
  dsimp only
  rw [withLink_circuit, withLink_tb, withLink_setCircuit, withLink_changeSelector]

@[simp] theorem withLink_enterWtr (c : Fin 24) : (s.withLink l).enterWtr c = (s.enterWtr c).withLink l := by
  unfold enterWtr wtrExpire
  dsimp only
  rw [withLink_ite, withLink_circuit, withLink_tb, withLink_setCircuit, withLink_changeSelector, withLink_guardedSwitch]

@[simp] theorem withLink_evaluate (c : Fin 24) (reason : CircuitReason) :
    (s.withLink l).evaluate c reason = (s.evaluate c reason).withLink l := by
  have below (side : Side) : (s.withLink l).ranksBelow c side = s.ranksBelow c side := rfl
  have restored : (s.withLink l).restoredA c = s.restoredA c := rfl
  have usable (r : Fin 48) : (s.withLink l).health r = s.health r := rfl
  unfold evaluate
  dsimp only
  rw [withLink_circuit]
  cases (s.circuit c).selector with
  | none => rfl
  | some st =>
    cases st with
    | selA => simp only [below, withLink_guardedSwitch, withLink_ite]
    | selB => simp only [below, restored, usable, withLink_guardedSwitch, withLink_enterWtr, withLink_ite]
    | wtr =>
      simp only [below, restored, withLink_guardedSwitch, withLink_setCircuit, withLink_changeSelector, withLink_ite]
    | forcedA | forcedB | lockout => rfl

@[simp] theorem withLink_pselCircuit (changed : List (Fin 48)) (c : Fin 24) :
    pselCircuit changed (s.withLink l) c = (pselCircuit changed s c).withLink l := by
  have usable (r : Fin 48) : (s.withLink l).health r = s.health r := rfl
  have side : (s.withLink l).selectedSide c = s.selectedSide c := rfl
  have stop : (s.withLink l).stopTimers c = (s.stopTimers c).withLink l := rfl
  unfold pselCircuit
  rw [withLink_circuit]
  cases (s.circuit c).selector with
  | none => rfl
  | some st =>
    cases st with
    | selA | selB | wtr => exact withLink_evaluate s l c .auto
    | lockout => rfl
    | forcedA | forcedB =>
      dsimp only
      rw [side]
      cases s.selectedSide c with
      | none => rfl
      | some side => simp only [usable, stop, withLink_changeSelector, withLink_evaluate, withLink_ite]

@[simp] theorem withLink_pselHealth (changed : List (Fin 48)) :
    (s.withLink l).pselHealth changed = (s.pselHealth changed).withLink l :=
  withLink_foldl (withLink_pselCircuit · l changed) _ s

/-! ### A health event (R32, R34) -/

@[simp] theorem withLink_partnerAbort (c : Fin 24) : (s.withLink l).partnerAbort c = (s.partnerAbort c).withLink l := by
  have now (r : Fin 48) : (s.withLink l).healthNow r = s.healthNow r := rfl
  rw [partnerAbort, partnerAbort, withLink_drill]
  cases s.drill c with
  | none => rfl
  | some d => simp only [now, withLink_setDrill, withLink_ite]

@[simp] theorem withLink_applyHealth (r : Fin 48) : (s.withLink l).applyHealth r = (s.applyHealth r).withLink l := by
  have now : (s.withLink l).healthNow r = s.healthNow r := rfl
  unfold applyHealth
  dsimp only
  simp only [now, withLink_route, withLink_tb, withLink_setRoute, withLink_withdraw, withLink_raise, withLink_ite]

@[simp] theorem withLink_handHealth (changed : List (Fin 48)) :
    (s.withLink l).handHealth changed = (s.handHealth changed).withLink l := by
  unfold handHealth
  simp only [withLink_raceFirst, withLink_raced, withLink_xpcHealth, withLink_pselHealth, withLink_ite]

@[simp] theorem withLink_healthEvent (cs : List (Fin 24)) :
    (s.withLink l).healthEvent cs = (s.healthEvent cs).withLink l := by
  have moved (v : State) : (fun r => (v.withLink l).healthNow r != (v.withLink l).health r) =
      fun r => v.healthNow r != v.health r := rfl
  unfold healthEvent
  dsimp only
  rw [withLink_foldl (withLink_partnerAbort · l), moved, withLink_foldl (withLink_applyHealth · l), withLink_handHealth,
    withLink_ite]

@[simp] theorem withLink_worksEdges (n : Nat) : (s.withLink l).worksEdges n = (s.worksEdges n).withLink l := by
  rw [worksEdges, worksEdges, withLink_mapRoutes, healthEventAll, healthEventAll, withLink_healthEvent]

/-! ### Entries of the time list (R81, R101 to R118) -/

@[simp] theorem withLink_enterStarting (i : Fin 192) (reason : Reason) :
    (s.withLink l).enterStarting i reason = (s.enterStarting i reason).withLink l := by
  rw [enterStarting, enterStarting, withLink_place]
  cases s.place i with
  | none => rfl
  | some p =>
    dsimp only
    simp only [withLink_xport, withLink_onBooking, withLink_enterState]
    exact withLink_foldl (fun _ _ => rfl) _ _

@[simp] theorem withLink_trigger (i : Fin 192) (cause : Reason) :
    (s.withLink l).trigger i cause = (s.trigger i cause).withLink l := by
  have test (b : Booking) : (s.withLink l).startTest i b = s.startTest i b := rfl
  rw [trigger, trigger, withLink_place]
  cases s.place i with
  | none => rfl
  | some p =>
    dsimp only
    rw [test]
    cases s.startTest i p.booking with
    | none => exact withLink_enterStarting s l i cause
    | some why => exact withLink_enterState s l i _ _

@[simp] theorem withLink_enterEnding (i : Fin 192) (reason : Reason) :
    (s.withLink l).enterEnding i reason = (s.enterEnding i reason).withLink l := by
  have terms (b : Booking) : (s.withLink l).terms b = s.terms b := rfl
  rw [enterEnding, enterEnding, withLink_place]
  cases s.place i with
  | none => rfl
  | some p =>
    dsimp only
    simp only [terms, withLink_tb, withLink_onBooking, withLink_enterState, withLink_onMeter]
    exact withLink_foldl (fun _ _ => rfl) _ _

@[simp] theorem withLink_release (i : Fin 192) : (s.withLink l).release i = (s.release i).withLink l := by
  rw [release, release, withLink_place]
  cases s.place i with
  | none => rfl
  | some p => rfl

@[simp] theorem withLink_settle (i : Fin 192) : (s.withLink l).settle i = (s.settle i).withLink l := by
  rw [settle, settle, withLink_place]
  cases s.place i with
  | none => rfl
  | some p =>
    dsimp only
    rw [withLink_ite]
    exact if_congr Iff.rfl (withLink_release { s with stl := s.stl.append _ } l i) rfl

@[simp] theorem withLink_settleNow (i : Fin 192) : (s.withLink l).settleNow i = (s.settleNow i).withLink l := by
  rw [settleNow, settleNow, withLink_settle, announce, announce, withLink_ite]
  rfl

@[simp] theorem withLink_grantRunOn (i : Fin 192) (b : Booking) (x : Nat) :
    (s.withLink l).grantRunOn i b x = (s.grantRunOn i b x).withLink l := by
  unfold grantRunOn
  dsimp only
  rw [withLink_ite, withLink_onBooking, withLink_enterState]
  generalize State.enterState .. = v
  exact if_congr Iff.rfl (withLink_onMeter { v with bku := v.bku.moveEnd i (b.e + x) } l i _) rfl

@[simp] theorem withLink_attemptRunOn (i : Fin 192) (b : Booking) :
    (s.withLink l).attemptRunOn i b = (s.attemptRunOn i b).withLink l := by
  have length : (s.withLink l).extensionLength i b = s.extensionLength i b := rfl
  unfold attemptRunOn
  dsimp only
  rw [length, withLink_grantRunOn, withLink_enterEnding, withLink_ite]

@[simp] theorem withLink_noShow (i : Fin 192) : (s.withLink l).noShow i = (s.noShow i).withLink l := by
  rw [noShow, noShow, withLink_onBooking, withLink_settleNow]
  rfl

@[simp] theorem withLink_takeStart (i : Fin 192) : (s.withLink l).takeStart i = (s.takeStart i).withLink l := by
  rw [takeStart, takeStart, withLink_place]
  cases s.place i with
  | none => rfl
  | some p =>
    dsimp only
    rw [withLink_trigger, withLink_ite]

@[simp] theorem withLink_takeEnd (i : Fin 192) : (s.withLink l).takeEnd i = (s.takeEnd i).withLink l := by
  rw [takeEnd, takeEnd, withLink_place]
  cases s.place i with
  | none => rfl
  | some p =>
    dsimp only
    cases p.booking.state with
    | live | runOn => exact withLink_attemptRunOn s l i _
    | starting => exact withLink_enterEnding s l i _
    | armed | waiting => exact withLink_noShow s l i
    | scheduled | ending | closing => rfl

@[simp] theorem withLink_takeArm (i : Fin 192) : (s.withLink l).takeArm i = (s.takeArm i).withLink l := by
  rw [takeArm, takeArm, withLink_enterState, withLink_ite]
  rfl

@[simp] theorem withLink_takeEntry (e : TimeEntry) : (s.withLink l).takeEntry e = (s.takeEntry e).withLink l := by
  unfold takeEntry
  dsimp only
  cases e.kind with
  | arm => exact withLink_takeArm { s with bku := { s.bku with timeList := s.bku.timeList.filter (· != e) } } l _
  | start => exact withLink_takeStart { s with bku := { s.bku with timeList := s.bku.timeList.filter (· != e) } } l _
  | stop => exact withLink_takeEnd { s with bku := { s.bku with timeList := s.bku.timeList.filter (· != e) } } l _

/-! ### The present second, and the replay (R2, R5) -/

theorem withLink_takeDueEntries (n : Nat) : takeDueEntries n (s.withLink l) = (takeDueEntries n s).withLink l := by
  induction n generalizing s with
  | zero => rfl
  | succ n ih =>
    have next : (s.withLink l).nextEntry = s.nextEntry := rfl
    rw [takeDueEntries, takeDueEntries, next]
    cases s.nextEntry with
    | none => rfl
    | some e =>
      dsimp only
      rw [withLink_takeEntry, ih]

theorem withLink_takeSecond : (s.withLink l).takeSecond = s.takeSecond.withLink l := by
  have handed : (s.withLink l).handBoundary = s.handBoundary.withLink l := by
    rw [handBoundary, handBoundary, withLink_tb]
    cases s.tb.boundary with
    | none => rfl
    | some n => rfl
  have works (v : State) : (v.withLink l).takeWorksEdge = v.takeWorksEdge.withLink l := by
    have due : (v.withLink l).rmon = v.rmon := rfl
    rw [takeWorksEdge, takeWorksEdge, due]
    cases v.rmon.worksDue with
    | none => rfl
    | some n => exact withLink_worksEdges { v with rmon := { v.rmon with worksDue := none } } l n
  unfold takeSecond
  dsimp only
  rw [handed, works]
  exact withLink_takeDueEntries ..

theorem withLink_replayEntry (e : TimeEntry) : (s.withLink l).replayEntry e = (s.replayEntry e).withLink l := by
  have state (v : State) (i : Fin 192) : (v.withLink l).stateAt i = v.stateAt i := rfl
  unfold replayEntry
  dsimp only
  simp only [withLink_takeEntry, withLink_onBooking, state, withLink_ite]

theorem withLink_replayEntries (t n : Nat) : replayEntries t n (s.withLink l) = (replayEntries t n s).withLink l := by
  induction n generalizing s with
  | zero => rfl
  | succ n ih =>
    rw [replayEntries, replayEntries, withLink_bku]
    cases s.bku.timeList with
    | nil => rfl
    | cons e rest =>
      dsimp only
      rw [withLink_replayEntry, ih, withLink_ite]

theorem withLink_replaySecond (t : Nat) : (s.withLink l).replaySecond t = (s.replaySecond t).withLink l := by
  have fuel : (s.withLink l).takeFuel = s.takeFuel := rfl
  unfold replaySecond
  dsimp only
  simp only [fuel, withLink_raceFirst, withLink_raced, withLink_worksEdges, withLink_replayEntries, withLink_ite]

theorem withLink_replay (hi n lo : Nat) : replay hi n lo (s.withLink l) = (replay hi n lo s).withLink l := by
  induction n generalizing lo s with
  | zero => rfl
  | succ n ih =>
    have next : (s.withLink l).nextReplay lo hi = s.nextReplay lo hi := rfl
    rw [replay, replay, next]
    cases s.nextReplay lo hi with
    | none => rfl
    | some t =>
      dsimp only
      rw [withLink_replaySecond, ih]

theorem withLink_stepForward (n : Nat) : (s.withLink l).stepForward n = (s.stepForward n).withLink l :=
  withLink_replay (State.flagStepped { s with tb := { s.tb with seconds := n, sub := 0 } }) l n _ _

theorem withLink_stepBack (n : Nat) : (s.withLink l).stepBack n = (s.stepBack n).withLink l := by
  have flagged : State.flagStepped { s.withLink l with tb := { (s.withLink l).tb with seconds := n, sub := 0 } } =
      (State.flagStepped { s with tb := { s.tb with seconds := n, sub := 0 } }).withLink l := rfl
  rw [stepBack, stepBack, flagged, withLink_mapRoutes, healthEventAll, healthEventAll, withLink_healthEvent]

end State
end Sys2Proof.Machine
end

