-- ==== Sys2Proof/Proofs/SetTime.lean ====
section
/-! PROOFS. SET_TIME: the present second, the refused step, a forward and a backward step (O22). -/

namespace Sys2Proof.Machine
namespace State

variable {s t : State} {n : Nat}

/-! ### What is due at the present second (R2) -/

theorem takeSecond_frame (s : State) : s.takeSecond.tb = { s.tb with boundary := none } ∧ s.takeSecond.tcu = s.tcu ∧
    s.takeSecond.pending = s.pending := by
  have handed : s.handBoundary.tb = { s.tb with boundary := none } ∧ s.handBoundary.tcu = s.tcu ∧
      s.handBoundary.pending = s.pending := by
    unfold handBoundary
    cases boundary : s.tb.boundary with
    | none => exact ⟨congrArg (fun b => ({ s.tb with boundary := b } : TB)) boundary, rfl, rfl⟩
    | some n => exact ⟨rfl, rfl, rfl⟩
  have works (v : State) : v.takeWorksEdge.tb = v.tb ∧ v.takeWorksEdge.tcu = v.tcu ∧
      v.takeWorksEdge.pending = v.pending := by
    unfold takeWorksEdge
    split
    next n _ =>
      have frame := (worksEdges_taken n { v with rmon := { v.rmon with worksDue := none } }).spends.toTimeFrame
      exact ⟨frame.tb, frame.tcu, frame.pending⟩
    next => exact ⟨rfl, rfl, rfl⟩
  obtain ⟨tb, tcu, pending⟩ := works s.handBoundary
  have entries := takeDueEntries_frame s.handBoundary.takeWorksEdge.takeFuel s.handBoundary.takeWorksEdge
  exact ⟨(entries.tb.trans tb).trans handed.1, (entries.tcu.trans tcu).trans handed.2.1,
    (entries.pending.trans pending).trans handed.2.2⟩

/-! ### A forward step (R5, R7) -/

theorem stepForward_frame (s : State) (n : Nat) : (s.stepForward n).tb = { s.tb with seconds := n, sub := 0 } ∧
    (s.stepForward n).tcu = s.tcu ∧ (s.stepForward n).pending = s.pending := by
  have frame := replay_frame n (State.replayFuel (State.flagStepped { s with tb := { s.tb with seconds := n, sub := 0 } }))
    s.tb.seconds (State.flagStepped { s with tb := { s.tb with seconds := n, sub := 0 } })
  exact ⟨frame.tb, frame.tcu, frame.pending⟩

/-- The state after a step of network time with nothing replayed (R7). -/
theorem stepped_eq (s : State) (n : Nat) : State.flagStepped { s with tb := { s.tb with seconds := n, sub := 0 } } =
    { s with
      tb := { s.tb with seconds := n, sub := 0 }
      bku := { s.bku with places := tab fun i => (s.place i).map fun p =>
        { p with booking := { p.booking with
          timeStepped := p.booking.timeStepped || p.booking.state.active } } } } := flagStepped_eq _

theorem nextReplay_of_none {lo hi : Nat} (entries : ∀ e ∈ s.bku.timeList, hi < e.second)
    (works : ∀ r, ((s.route r).worksStart ≤ lo ∨ hi < (s.route r).worksStart) ∧
      ((s.route r).worksEnd ≤ lo ∨ hi < (s.route r).worksEnd)) : s.nextReplay lo hi = none := by
  have no_works : s.worksSeconds lo hi = [] := by
    refine List.eq_nil_iff_forall_not_mem.mpr fun m mem => ?_
    obtain ⟨⟨r, edge⟩, low, high⟩ := mem_worksSeconds.mp mem
    have := works r
    omega
  have no_entry : ((s.bku.timeList.take 1).filterMap fun e =>
      if e.second ≤ hi then some (max e.second (lo + 1)) else none) = [] := by
    refine List.filterMap_eq_nil_iff.mpr fun e mem => if_neg ?_
    have := entries e (List.mem_of_mem_take mem)
    omega
  rw [nextReplay, no_works, no_entry]
  rfl

theorem stepForward_of_none (entries : ∀ e ∈ s.bku.timeList, n < e.second)
    (works : ∀ r, ((s.route r).worksStart ≤ s.tb.seconds ∨ n < (s.route r).worksStart) ∧
      ((s.route r).worksEnd ≤ s.tb.seconds ∨ n < (s.route r).worksEnd)) :
    s.stepForward n = State.flagStepped { s with tb := { s.tb with seconds := n, sub := 0 } } := by
  unfold stepForward
  dsimp only
  generalize moved : State.flagStepped { s with tb := { s.tb with seconds := n, sub := 0 } } = u
  have none : u.nextReplay s.tb.seconds n = none := by
    subst moved
    exact nextReplay_of_none entries works
  cases u.replayFuel with
  | zero => rfl
  | succ fuel =>
    rw [replay, none]

/-! ### A backward step (R6, R7, R29) -/

theorem worksStepBack_eq (n : Nat) (x : Route) : x.worksStepBack n = { x with
    worksActive := if x.worksStart ≤ x.worksEnd then decide (x.worksStart ≤ n ∧ n < x.worksEnd) else x.worksActive } := by
  unfold Route.worksStepBack
  split <;> rfl

theorem stepBack_taken (s : State) (n : Nat) : State.HealthTaken { s with
      tb := { s.tb with seconds := n, sub := 0 }
      bku := { s.bku with places := tab fun i => (s.place i).map fun p =>
        { p with booking := { p.booking with
          timeStepped := p.booking.timeStepped || p.booking.state.active } } }
      rmon := { s.rmon with routes := tab fun r => { s.route r with
        worksActive :=
          if (s.route r).worksStart ≤ (s.route r).worksEnd then
            decide ((s.route r).worksStart ≤ n ∧ n < (s.route r).worksEnd)
          else (s.route r).worksActive } } } (s.stepBack n) (List.finRange 24) := by
  have taken : ((State.flagStepped { s with tb := { s.tb with seconds := n, sub := 0 } }).mapRoutes
      (Route.worksStepBack n)).HealthTaken (s.stepBack n) (List.finRange 24) := healthEventAll_taken _
  rw [stepped_eq, mapRoutes] at taken
  simp only [worksStepBack_eq] at taken
  exact taken

/-! ### The request (R4) -/

theorem anyActive_iff : s.anyActive = true ↔ ∃ i p, s.place i = some p ∧ p.booking.state.active = true := by
  unfold anyActive recordsWhere
  rw [Bool.not_eq_true', List.isEmpty_eq_false_iff_exists_mem]
  refine exists_congr fun i => ?_
  rw [List.mem_filter]
  cases s.place i with
  | none => simp
  | some p => simp

theorem serveSetTime_present (second : Word) (same : second.toNat = s.tb.seconds) :
    s.serveSetTime second = ({ s with tb := { s.tb with sub := 0 } }, ⟨.ok, .time second.toNat 0⟩) := by
  unfold serveSetTime
  dsimp only
  rw [if_pos same, same]
  rfl

/-- What SET_TIME does with another value than the present second (R4). -/
theorem serveSetTime_step (second : Word) (other : second.toNat ≠ s.tb.seconds) : s.serveSetTime second =
    if (s.tb.seconds + 2 < second.toNat ∨ second.toNat + 2 < s.tb.seconds) ∧
        ∃ i p, s.takeSecond.place i = some p ∧ p.booking.state.active = true then
      (s.takeSecond, ⟨.timeStep, .time s.tb.seconds s.tb.sub⟩)
    else if s.tb.seconds < second.toNat then (s.takeSecond.stepForward second.toNat, ⟨.ok, .time second.toNat 0⟩)
    else (s.takeSecond.stepBack second.toNat, ⟨.ok, .time second.toNat 0⟩) := by
  have big : (bigStep s.tb.seconds second.toNat && s.takeSecond.anyActive) = true ↔
      (s.tb.seconds + 2 < second.toNat ∨ second.toNat + 2 < s.tb.seconds) ∧
        ∃ i p, s.takeSecond.place i = some p ∧ p.booking.state.active = true := by
    rw [Bool.and_eq_true, bigStep, decide_eq_true_eq, anyActive_iff]
  have forward : (s.takeSecond.stepForward second.toNat).timeResult = .time second.toNat 0 := by
    rw [timeResult, (stepForward_frame _ _).1]
  have back : (s.takeSecond.stepBack second.toNat).timeResult = .time second.toNat 0 := by
    obtain ⟨tb, -⟩ := (s.takeSecond.stepBack_taken second.toNat).outside
    rw [timeResult, tb]
  have refused : s.takeSecond.timeResult = .time s.tb.seconds s.tb.sub := by rw [timeResult, s.takeSecond_frame.1]
  unfold serveSetTime
  dsimp only
  rw [if_neg other, refused]
  refine if_congr big rfl ?_
  split
  · rw [okWith, forward]
  · rw [okWith, back]

theorem withLink_serveSetTime (s : State) (l : LNK) (second : Word) : (s.withLink l).serveSetTime second =
    ((s.serveSetTime second).1.withLink l, (s.serveSetTime second).2) := by
  have active (v : State) : (v.withLink l).anyActive = v.anyActive := rfl
  unfold serveSetTime
  dsimp only
  simp only [withLink_tb, withLink_takeSecond, withLink_stepForward, withLink_stepBack, active]
  split_ifs
  · rfl
  · rfl
  · generalize s.takeSecond.stepForward second.toNat = v
    rfl
  · generalize s.takeSecond.stepBack second.toNat = v
    rfl

theorem setTime_answered {tag : Byte} {second : Word} (hs : s.Ready) {a : Answer} (serve : s.serveSetTime second = (t, a)) :
    Answered (.setTime tag second) s a t := by
  have queued : (s.enqueue tag (.setTime second)).serveBody (.setTime second) =
      (t.withLink (s.enqueue tag (.setTime second)).lnk, a) := by
    rw [show (s.enqueue tag (.setTime second)).serveBody (.setTime second) =
      (s.withLink (s.enqueue tag (.setTime second)).lnk).serveSetTime second from rfl, withLink_serveSetTime, serve]
  exact .intro (r := .setTime second) rfl hs (fun _ => nofun) (by rw [queued]) (by rw [queued]; rfl)

end State

/-- Settles O22. -/
theorem setTime : Obligations.SetTime := by
  intro tag second s hs n c s0 flagged moved
  split
  next same => exact State.setTime_answered hs (State.serveSetTime_present second same)
  next other =>
    have serve := State.serveSetTime_step (s := s) second other
    obtain ⟨tb, tcu, pending⟩ := s.takeSecond_frame
    refine ⟨tb, tcu, pending, ?_⟩
    split
    next refused => exact State.setTime_answered hs (serve.trans (if_pos refused))
    next accepted =>
      rw [if_neg accepted] at serve
      split
      next forward =>
        obtain ⟨moved_tb, kept_tcu, kept_pending⟩ := s0.stepForward_frame n
        refine ⟨State.setTime_answered hs (serve.trans (if_pos forward)), moved_tb, kept_tcu.trans tcu,
          kept_pending.trans pending, fun entries works => ?_⟩
        have seconds : s0.tb.seconds = c := by
          show s.takeSecond.tb.seconds = _
          rw [tb]
        rw [← seconds] at works
        exact (State.stepForward_of_none entries works).trans (s0.stepped_eq n)
      next back => exact ⟨_, State.setTime_answered hs (serve.trans (if_neg back)), s0.stepBack_taken n⟩

end Sys2Proof.Machine
end
